-- ==== Sys2Proof/Word.lean ====
section
/-! DEFINITION. The bit-vector types of the block (R10): every register, FIFO cell, pointer, command byte and
packet length is 8 bits wide; the frequency operand of the host port is 32 bits wide (R125). -/

namespace Sys2Proof

/-- A byte: a chip register, a FIFO cell, a FIFO offset, a byte on the bus or on the host port (R10). -/
abbrev Byte := BitVec 8

/-- The 32-bit frequency operand of INIT, in hertz (R125). -/
abbrev Word32 := BitVec 32

end Sys2Proof
end

