-- ==== Sys2Proof/Syntax.lean ====
section
/-! DEFINITION. The operations of the block as syntax: one constructor for every row of spec/opcode_table.json
(R3, R110, R130). The same type names the sequencer's operation in x[run] (R39: "the tags are names for the
sequencer's operations"). -/

namespace Sys2Proof

/-- The four operating modes of the mode FSM (R33, R115). -/
inductive OperatingMode where
  | sleep
  | standby
  | receiveContinuous
  | transmit
  deriving DecidableEq, Repr, Inhabited

/-- One operation of the block. The first four rows are the transport primitives (spi_frame), the next four the
host commands (host_command), the last seven the internal operations (internal_op). -/
inductive Instr where
  /-- R150. `addr` is a register address; bit 7 set is refused (R112). -/
  | readByte (addr : Byte)
  /-- R151. -/
  | readBlock (addr : Byte) (length : Nat)
  /-- R152. -/
  | writeByte (addr value : Byte)
  /-- R153. -/
  | writeBlock (addr : Byte) (bytes : List Byte)
  /-- R252, the host command RESET. -/
  | reset
  /-- R176, the host command INIT. -/
  | init (hz : Word32) (paBoost rxPayloadCrcOn : Bool)
  /-- R230, the host command SEND; `none` is "no address" (R126). -/
  | send (address : Option (List Byte)) (payload : List Byte)
  /-- R253, the host command DUMP, `first` to `last` inclusive. -/
  | dump (first last : Byte)
  /-- R170. -/
  | setMode (m : OperatingMode)
  /-- R171; a natural number of hertz. -/
  | setCarrierFrequency (hz : Nat)
  /-- R172. -/
  | setPowerAmplifier (boost : Bool)
  /-- R173. -/
  | enableRxCrc
  /-- R192, the interrupt handler. -/
  | dispatch
  /-- R210, called by dispatch. -/
  | onReceiveComplete
  /-- R233, called by dispatch. -/
  | onTransmitComplete
  deriving DecidableEq, Repr, Inhabited

end Sys2Proof
end

