-- ==== Sys2Proof/Config.lean ====
section
/-! DEFINITION. The names of the chip registers (R46), what the environment may choose (R292, R133), the values the
source fixes, the free values, and the configuration record Cfg of R9 (not state: no operation writes it, R30). Every
definition of the model that depends on a field of Cfg takes the record as its last argument; the default of that
argument is `Config.cfg` of Decode.lean, the spec's defaults with the OPEN fields unknown (assumption log 7, 8, 9). -/

namespace Sys2Proof

/-- The chip registers the register map names (R46). -/
inductive Reg where
  | fifo
  | opMode
  | frfMsb
  | frfMid
  | frfLsb
  | paConfig
  | fifoAddrPtr
  | fifoTxBaseAddr
  | fifoRxBaseAddr
  | fifoRxCurrentAddr
  | irqFlagsMask
  | irqFlags
  | rxNbBytes
  | pktSnrValue
  | pktRssiValue
  | rssiValue
  | modemConfig1
  | modemConfig2
  | preambleMsb
  | preambleLsb
  | payloadLength
  | dioMapping1
  | version
  deriving DecidableEq, Repr, Inhabited

/-- The registers of the map, in the order of R46. -/
def Reg.all : List Reg :=
  [.fifo, .opMode, .frfMsb, .frfMid, .frfLsb, .paConfig, .fifoAddrPtr, .fifoTxBaseAddr, .fifoRxBaseAddr,
   .fifoRxCurrentAddr, .irqFlagsMask, .irqFlags, .rxNbBytes, .pktSnrValue, .pktRssiValue, .rssiValue, .modemConfig1,
   .modemConfig2, .preambleMsb, .preambleLsb, .payloadLength, .dioMapping1, .version]

/-- The two execution contexts (R289). -/
inductive Ctx where
  | app
  | irq
  deriving DecidableEq, Repr, Inhabited

/-- The bus agent's draw for one frame (R72): success, or failure after the chip has processed the first `k`
bytes of the frame (a `k` beyond the frame's length is the whole frame). `FAIL` of R133 is `fail 0`. -/
inductive BusResult where
  | ok
  | fail (k : Nat)
  deriving DecidableEq, Repr, Inhabited

/-- The active steps of the chip, each with its draws (R282, R284, R285; the environment lines of R133). -/
inductive ChipEvent where
  /-- R282: a packet arrives. -/
  | rx (start : Byte) (bytes : List Byte) (rssi pktRssi snr extra : Byte)
  /-- R284: the transmission in flight completes. -/
  | txDone
  /-- R285, first choice: the live RSSI changes. -/
  | noiseRssi (v : Byte)
  /-- R285, second choice: receiver flags rise. -/
  | noiseFlags (v : Byte)
  deriving DecidableEq, Repr, Inhabited

/-- One turn of the schedule (R292): which agent moves, with the draws of its step. -/
inductive Turn where
  /-- The App context: it continues its running operation, or takes the next command from the port. -/
  | app (bus : BusResult)
  /-- The Irq context: it continues the running dispatch, or takes the pending edge (line `IRQ` of R133). -/
  | irq (bus : BusResult)
  /-- The chip. -/
  | chip (e : ChipEvent)
  /-- The host presents a command on its port (R250). -/
  | host (command : List Byte)
  deriving DecidableEq, Repr, Inhabited

end Sys2Proof

namespace Sys2Proof.Config

/-! ### The fields the source fixes (R9) -/

/-- FIFO_SIZE. -/
def fifoSize : Nat := 256
/-- The number of register addresses, 0x00–0x7F (REG_ADDR_BITS, R42). -/
def regCount : Nat := 128
/-- MAX_PACKET. -/
def maxPacket : Nat := 255
/-- FRF_SHIFT. -/
def frfShift : Nat := 19
/-- FRF_BITS. -/
def frfBits : Nat := 24
/-- TX_BASE (C2). -/
def txBase : Byte := 0x00
/-- RX_BASE: the block does not write it (D28), and no operation reads it. -/
def rxBase : Byte := 0x00
/-- RESET_LOW_MIN, in RESET_TIME_UNIT: a duty of the host (R256, D35; log 18). -/
def resetLowMin : Nat := 10

/-! ### The fields that are OPEN (R9), and the free values -/

/-- ADDR_LEN (D9): fixed at construction, `none` or 0 to 255. No value is known. -/
opaque addrLen : Option (Fin 256)

/-- RESET_TIME_UNIT: the unit of RESET_LOW_MIN, as a number of the host's own. No value is known. -/
opaque resetTimeUnit : Nat

/-- RESET_SETTLE: how long the host waits after releasing reset (D35). No value is known. -/
opaque resetSettle : Nat

/-- The `n`-th `draw Byte` of the run (R12, R71, R80 and wherever the spec draws a byte). No value is known. -/
opaque freeByte : Nat → Byte

/-- The turn the scheduler picks when the schedule holds none (R292). No value is known. -/
opaque freeTurn : Nat → Turn

end Sys2Proof.Config

namespace Sys2Proof

/-- The configuration record of R9: the fields that are OPEN and the fields with a default that may be overridden. -/
structure Cfg where
  /-- ADDR_LEN, OPEN. -/
  addrLen : Option (Fin 256)
  /-- RESET_TIME_UNIT, OPEN; a duty of the host, read by no operation (log 18). -/
  resetTimeUnit : Nat
  /-- RESET_SETTLE, OPEN; a duty of the host, read by no operation (log 18). -/
  resetSettle : Nat
  /-- FXOSC_HZ. -/
  fxoscHz : Nat
  /-- RSSI_OFFSET. -/
  rssiOffset : Int
  /-- DUMMY. -/
  dummy : Byte
  /-- PA_BOOST_VALUE. -/
  paBoostValue : Byte
  /-- PA_RFO_VALUE. -/
  paRfoValue : Byte
  /-- CRC_ON_MASK. -/
  crcOnMask : Byte
  /-- REG, the register address map (R46). -/
  reg : Reg → Byte
  /-- OPMODE_LORA. -/
  opmodeLora : Byte
  /-- MODE_CODE (R115). -/
  modeCode : OperatingMode → Byte
  /-- IRQ_RXDONE, the bit's number. -/
  irqRxDone : Nat
  /-- IRQ_TXDONE, the bit's number. -/
  irqTxDone : Nat
  /-- DIO_MAP_RXDONE. -/
  dioMapRxDone : Byte
  /-- DIO_MAP_TXDONE. -/
  dioMapTxDone : Byte
  /-- CHIP_RESET (R48): the value of a named register after a chip reset, `none` for "any". -/
  chipReset : Reg → Option Byte

/-- Why a record is refused when the configuration is built. -/
inductive CfgError where
  /-- REG gives the register an address of 0x80 or above (R112). -/
  | regAddress (r : Reg)
  deriving DecidableEq, Repr, Inhabited

end Sys2Proof
end

