-- ==== Sys2Proof/WellFormed.lean ====
section
/-! DEFINITION. Which operations the spec's encodings and operand ranges admit: register addresses have bit 7
clear (R112), block lengths are those of the block's own calls (R151, R153), a SEND's address and payload fit
their length bytes and a present address is not empty (R126, R230), and a frequency fits the port's 32 bits
(R125). INIT, RESET, DUMP and the operations without operands have no further condition (R127, R128). -/

namespace Sys2Proof

/-- The operand checks of one operation. -/
def Instr.wf : Instr → Bool
  | .readByte a => !a.getLsbD 7
  | .readBlock a n => !a.getLsbD 7 && decide (n ≤ 255)
  | .writeByte a _ => !a.getLsbD 7
  | .writeBlock a bs => !a.getLsbD 7 && decide (bs.length ≤ 510)
  | .reset => true
  | .init _ _ _ => true
  | .send addr pay =>
    (match addr with
      | none => true
      | some a => decide (1 ≤ a.length) && decide (a.length ≤ 255)) && decide (pay.length ≤ 255)
  | .dump _ _ => true
  | .setMode _ => true
  | .setCarrierFrequency hz => decide (hz < 2 ^ 32)
  | .setPowerAmplifier _ => true
  | .enableRxCrc => true
  | .dispatch => true
  | .onReceiveComplete => true
  | .onTransmitComplete => true

end Sys2Proof
end

