-- ==== Sys2Proof/Decode.lean ====
section
/-! DEFINITION. The defaults of the configuration record (R9), its building, which refuses an ill-formed one (R112), and the three encoded interfaces (R110): the SPI frame
(R111–R114), the host command port (R124–R131, decoded by R251) and the tags of the internal operations (R130). The
decoders are total on every byte string and reject by name; the encoder stands after them. -/

namespace Sys2Proof

/-! ### The defaults of the configuration record (R9) -/

/-- The default of REG (R46; PRESUMED, general knowledge of the SX1276, log 7). -/
def Cfg.defaultReg : Reg → Byte
  | .fifo => 0x00
  | .opMode => 0x01
  | .frfMsb => 0x06
  | .frfMid => 0x07
  | .frfLsb => 0x08
  | .paConfig => 0x09
  | .fifoAddrPtr => 0x0D
  | .fifoTxBaseAddr => 0x0E
  | .fifoRxBaseAddr => 0x0F
  | .fifoRxCurrentAddr => 0x10
  | .irqFlagsMask => 0x11
  | .irqFlags => 0x12
  | .rxNbBytes => 0x13
  | .pktSnrValue => 0x19
  | .pktRssiValue => 0x1A
  | .rssiValue => 0x1B
  | .modemConfig1 => 0x1D
  | .modemConfig2 => 0x1E
  | .preambleMsb => 0x20
  | .preambleLsb => 0x21
  | .payloadLength => 0x22
  | .dioMapping1 => 0x40
  | .version => 0x42

/-- The default of MODE_CODE (R115; PRESUMED, log 7). -/
def Cfg.defaultModeCode : OperatingMode → Byte
  | .sleep => 0b000
  | .standby => 0b001
  | .transmit => 0b011
  | .receiveContinuous => 0b101

/-- The default of CHIP_RESET (R48; PRESUMED, log 7). The FIFO port is no storage cell (R42). -/
def Cfg.defaultChipReset : Reg → Option Byte
  | .fifo => none
  | .opMode => some 0x01
  | .frfMsb => some 0x6C
  | .frfMid => some 0x80
  | .frfLsb => some 0x00
  | .paConfig => some 0x4F
  | .fifoAddrPtr => some 0x00
  | .fifoTxBaseAddr => some 0x80
  | .fifoRxBaseAddr => some 0x00
  | .fifoRxCurrentAddr => none
  | .irqFlagsMask => some 0x00
  | .irqFlags => some 0x00
  | .rxNbBytes => none
  | .pktSnrValue => none
  | .pktRssiValue => none
  | .rssiValue => none
  | .modemConfig1 => some 0x72
  | .modemConfig2 => some 0x70
  | .preambleMsb => some 0x00
  | .preambleLsb => some 0x08
  | .payloadLength => some 0x01
  | .dioMapping1 => some 0x00
  | .version => some 0x12

/-- The record at the spec's defaults, for given values of the fields that are OPEN (R9; log 8). -/
def Cfg.defaults (addrLen : Option (Fin 256)) (resetTimeUnit resetSettle : Nat) : Cfg where
  addrLen := addrLen
  resetTimeUnit := resetTimeUnit
  resetSettle := resetSettle
  fxoscHz := 32000000
  rssiOffset := 157
  dummy := 0x00
  paBoostValue := 0xFF
  paRfoValue := 0x7F
  crcOnMask := 0x04
  reg := Cfg.defaultReg
  opmodeLora := 0x80
  modeCode := Cfg.defaultModeCode
  irqRxDone := 6
  irqTxDone := 3
  dioMapRxDone := 0x00
  dioMapTxDone := 0x40
  chipReset := Cfg.defaultChipReset

/-- The configuration in which exec and step run: every default, and nothing known of the OPEN fields. -/
def Config.cfg : Cfg := Cfg.defaults Config.addrLen Config.resetTimeUnit Config.resetSettle

/-- The configuration built from a record: one whose REG holds an address with bit 7 set is refused, by the first such
register in the map's order (R112). -/
def Cfg.build (c : Cfg) : Except CfgError Cfg :=
  match Reg.all.find? (fun r => (c.reg r).getLsbD 7) with
  | none => .ok c
  | some r => .error (.regAddress r)

/-! ### The formats -/

/-- The three formats of R110. -/
inductive Format where
  | spiFrame
  | hostCommand
  | internalOp
  deriving DecidableEq, Repr, Inhabited

/-- Why a byte string is no operation. The first two are the refusals of R251; the others reject a frame
without a command byte, a tag R130 does not list, and operand bytes that do not fit their tag. -/
inductive DecodeError where
  | unknownCommand
  | malformedCommand
  | emptyFrame
  | unknownTag
  | malformedOperands
  deriving DecidableEq, Repr, Inhabited

/-! ### Bytes and fields -/

/-- `h3 ∥ h2 ∥ h1 ∥ h0` (R125). -/
def joinBytes (h3 h2 h1 h0 : Byte) : Word32 := ((h3 ++ h2 : BitVec 16) ++ (h1 ++ h0 : BitVec 16))

/-- The four bytes of a 32-bit operand, most significant first (R125). -/
def splitBytes (w : Word32) : List Byte :=
  [w.extractLsb' 24 8, w.extractLsb' 16 8, w.extractLsb' 8 8, w.extractLsb' 0 8]

/-- `cmd(wnr, addr) = (wnr << 7) | addr[6:0]` (R112). -/
def commandByte (wnr : Bool) (addr : Byte) : Byte :=
  (if wnr then 0x80 else 0x00) ||| (addr &&& 0x7F)

/-- `a = out[0][6:0]` as a register address (R74). -/
def frameAddr (c : Byte) : Byte := c &&& 0x7F

/-- `MODE_CODE[m]` (R115). -/
def modeCode (m : OperatingMode) (cfg : Cfg := Config.cfg) : Byte := cfg.modeCode m

/-- The mode whose MODE_CODE a byte is. -/
def modeOfCode (c : Byte) (cfg : Cfg := Config.cfg) : Option OperatingMode :=
  if c = modeCode .sleep cfg then some .sleep
  else if c = modeCode .standby cfg then some .standby
  else if c = modeCode .transmit cfg then some .transmit
  else if c = modeCode .receiveContinuous cfg then some .receiveContinuous
  else none

/-- The tags of R130; host commands have none. -/
def Instr.tag : Instr → Option Byte
  | .readByte _ => some 0x80
  | .readBlock _ _ => some 0x81
  | .writeByte _ _ => some 0x82
  | .writeBlock _ _ => some 0x83
  | .reset => none
  | .init _ _ _ => none
  | .send _ _ => none
  | .dump _ _ => none
  | .setMode _ => some 0x88
  | .setCarrierFrequency _ => some 0x89
  | .setPowerAmplifier _ => some 0x8A
  | .enableRxCrc => some 0x8B
  | .dispatch => some 0x90
  | .onReceiveComplete => some 0x91
  | .onTransmitComplete => some 0x92

/-! ### Decoders -/

/-- Decode of the host port (R251), total on any byte string. -/
def decodeHost (c : List Byte) : Except DecodeError Instr :=
  match c with
  | [] => .error .malformedCommand
  | op :: rest =>
    if op = 0x01 then
      match rest with
      | [] => .ok .reset
      | _ => .error .malformedCommand
    else if op = 0x02 then
      match rest with
      | [h3, h2, h1, h0, o] =>
        if o &&& 0xFC = 0 then .ok (.init (joinBytes h3 h2 h1 h0) (o.getLsbD 0) (o.getLsbD 1))
        else .error .malformedCommand
      | _ => .error .malformedCommand
    else if op = 0x03 then
      match rest with
      | a :: p :: body =>
        if body.length = a.toNat + p.toNat then
          .ok (.send (if a = 0 then none else some (body.take a.toNat)) (body.drop a.toNat))
        else .error .malformedCommand
      | _ => .error .malformedCommand
    else if op = 0x04 then
      match rest with
      | [s, e] => .ok (.dump s e)
      | _ => .error .malformedCommand
    else .error .unknownCommand

/-- Which primitive a frame is (R111, R113, R134): bit 7 of the command byte tells read from write, and a frame
with exactly one data byte is the single-byte access. -/
def decodeFrame (f : List Byte) : Except DecodeError Instr :=
  match f with
  | [] => .error .emptyFrame
  | [c, d] => .ok (if c.getLsbD 7 then .writeByte (frameAddr c) d else .readByte (frameAddr c))
  | c :: d => .ok (if c.getLsbD 7 then .writeBlock (frameAddr c) d else .readBlock (frameAddr c) d.length)

/-- Which internal operation a tag with its operand bytes is (R130). The operand bytes are the model's own
(DESIGN CHOICE, assumption log 12). -/
def decodeInternal (c : List Byte) : Except DecodeError Instr :=
  match c with
  | [] => .error .unknownTag
  | t :: rest =>
    if t = 0x88 then
      match rest with
      | [m] =>
        match modeOfCode m with
        | some mode => .ok (.setMode mode)
        | none => .error .malformedOperands
      | _ => .error .malformedOperands
    else if t = 0x89 then
      match rest with
      | [h3, h2, h1, h0] => .ok (.setCarrierFrequency (joinBytes h3 h2 h1 h0).toNat)
      | _ => .error .malformedOperands
    else if t = 0x8A then
      match rest with
      | [b] =>
        if b = 0 then .ok (.setPowerAmplifier false)
        else if b = 1 then .ok (.setPowerAmplifier true)
        else .error .malformedOperands
      | _ => .error .malformedOperands
    else if t = 0x8B then
      match rest with
      | [] => .ok .enableRxCrc
      | _ => .error .malformedOperands
    else if t = 0x90 then
      match rest with
      | [] => .ok .dispatch
      | _ => .error .malformedOperands
    else if t = 0x91 then
      match rest with
      | [] => .ok .onReceiveComplete
      | _ => .error .malformedOperands
    else if t = 0x92 then
      match rest with
      | [] => .ok .onTransmitComplete
      | _ => .error .malformedOperands
    else .error .unknownTag

/-- The decoder: the format says which interface the bytes stand on (R110). -/
def decode (f : Format) (c : List Byte) : Except DecodeError Instr :=
  match f with
  | .spiFrame => decodeFrame c
  | .hostCommand => decodeHost c
  | .internalOp => decodeInternal c

/-! ### Encoder -/

/-- The opts byte of INIT (R125). -/
def initOpts (paBoost rxPayloadCrcOn : Bool) : Byte :=
  (if paBoost then 0x01 else 0x00) ||| (if rxPayloadCrcOn then 0x02 else 0x00)

/-- The interface an operation's row of the opcode table names. -/
def Instr.format : Instr → Format
  | .readByte _ => .spiFrame
  | .readBlock _ _ => .spiFrame
  | .writeByte _ _ => .spiFrame
  | .writeBlock _ _ => .spiFrame
  | .reset => .hostCommand
  | .init _ _ _ => .hostCommand
  | .send _ _ => .hostCommand
  | .dump _ _ => .hostCommand
  | .setMode _ => .internalOp
  | .setCarrierFrequency _ => .internalOp
  | .setPowerAmplifier _ => .internalOp
  | .enableRxCrc => .internalOp
  | .dispatch => .internalOp
  | .onReceiveComplete => .internalOp
  | .onTransmitComplete => .internalOp

/-- The bytes of an operation on its own interface: the frame of a primitive (R150–R153), the command of R124, or
the tag of R130 with the model's operand bytes (log 12). -/
def encode : Instr → List Byte
  | .readByte a => [commandByte false a, Config.cfg.dummy]
  | .readBlock a n => commandByte false a :: List.replicate n Config.cfg.dummy
  | .writeByte a v => [commandByte true a, v]
  | .writeBlock a bs => commandByte true a :: bs
  | .reset => [0x01]
  | .init hz pa crc => 0x02 :: (splitBytes hz ++ [initOpts pa crc])
  | .send addr pay =>
    [0x03, BitVec.ofNat 8 (addr.getD []).length, BitVec.ofNat 8 pay.length] ++ addr.getD [] ++ pay
  | .dump s e => [0x04, s, e]
  | .setMode m => [0x88, modeCode m]
  | .setCarrierFrequency hz => 0x89 :: splitBytes (BitVec.ofNat 32 hz)
  | .setPowerAmplifier b => [0x8A, if b then 1 else 0]
  | .enableRxCrc => [0x8B]
  | .dispatch => [0x90]
  | .onReceiveComplete => [0x91]
  | .onTransmitComplete => [0x92]

/-- A one-byte block has the single-byte access's frame (R113), so the decoder reads it as that access. -/
def Instr.canonical : Instr → Instr
  | .readBlock a 1 => .readByte a
  | .writeBlock a [v] => .writeByte a v
  | i => i

/-! ### The words of the opcode table -/

/-- Byte `k` of a table word, bit 0 the least significant bit of the first byte. -/
def tableByte (w k : Nat) : Byte := BitVec.ofNat 8 (w / 256 ^ k)

/-- The interface whose row a first byte belongs to: the host opcodes of R124, then the tags of R130 that are no
transport primitive's, and every other byte a frame's command byte (DESIGN CHOICE, assumption log 13). -/
def tableFormat (b : Byte) : Format :=
  if b = 0x01 ∨ b = 0x02 ∨ b = 0x03 ∨ b = 0x04 then .hostCommand
  else if b = 0x88 ∨ b = 0x89 ∨ b = 0x8A ∨ b = 0x8B ∨ b = 0x90 ∨ b = 0x91 ∨ b = 0x92 then .internalOp
  else .spiFrame

/-- How many bytes the operation that begins with these bytes has. -/
def tableLength (w : Nat) : Nat :=
  let b := tableByte w 0
  if b = 0x01 then 1
  else if b = 0x02 then 6
  else if b = 0x03 then 3 + (tableByte w 1).toNat + (tableByte w 2).toNat
  else if b = 0x04 then 3
  else if b = 0x88 then 2
  else if b = 0x89 then 5
  else if b = 0x8A then 2
  else if b = 0x8B ∨ b = 0x90 ∨ b = 0x91 ∨ b = 0x92 then 1
  else 2

/-- The bytes of a table word, the operand bytes above `nbits` zero. -/
def tableBytes (nbits w : Nat) : List Byte :=
  let v := w % 2 ^ nbits
  (List.range (max (nbits / 8) (tableLength v))).map (tableByte v)

/-- The operation the decoder reads from a word of the opcode table. -/
def decodeTableWord (nbits w : Nat) : Option Instr :=
  let c := tableBytes nbits w
  match decode (tableFormat (c.headD 0)) c with
  | .ok i => some i
  | .error _ => none

end Sys2Proof
end

