-- ==== Sys2Proof/Machine/State.lean ====
section
/-! DEFINITION. Everything the spec gives the machine, as plain data: the block's working registers (R30–R41),
the refusal mark (R51), the chip's register file, FIFO and internal state (R42–R45, R52), the host command port
(R250, R131), and the model's own fields that stand for the draws and the scheduler (assumption log 1, 3, 4).
The reset state is the power-on column of R310 (log 5). -/

namespace Sys2Proof.Machine

/-- Bytes at addresses, addresses strictly rising; an unlisted address holds no written byte (log 24). -/
abbrev Memory := List Host.Cell

/-- Every address of the list is at least `lo`, and they rise strictly. -/
def Memory.risingFrom : Nat → Memory → Bool
  | _, [] => true
  | lo, (a, _) :: m => decide (lo ≤ a) && Memory.risingFrom (a + 1) m

/-- The canonical form, for an address space of `size` bytes. -/
def Memory.wf (size : Nat) (m : Memory) : Bool :=
  Memory.risingFrom 0 m && m.all (fun c => decide (c.1 < size))

/-- The dispatcher's two states (R35). -/
inductive DispState where
  | idle
  | servicing
  deriving DecidableEq, Repr, Inhabited

/-- The level of the reset output (R40). -/
inductive Level where
  | low
  | high
  deriving DecidableEq, Repr, Inhabited

/-- The transport primitive an error names (R150–R153). -/
inductive Primitive where
  | readByte
  | readBlock
  | writeByte
  | writeBlock
  deriving DecidableEq, Repr, Inhabited

/-- The three causes of ArgumentError (R272). -/
inductive ArgCause where
  | frequency
  | length
  | range
  deriving DecidableEq, Repr, Inhabited

/-- The errors that end an operation (R270). -/
inductive Err where
  /-- R271: the primitive whose frame failed, and its address. -/
  | transport (op : Primitive) (addr : Byte)
  /-- R272. -/
  | argument (cause : ArgCause)
  /-- R273. -/
  | transmitBusy
  deriving DecidableEq, Repr, Inhabited

/-- What a called operation hands back to the operation that called it. -/
inductive Ret where
  /-- It returned; the bytes it read, none for an operation that returns nothing. -/
  | bytes (bs : List Byte)
  /-- It raised an error (R12 `raise`). -/
  | err (e : Err)
  deriving DecidableEq, Repr, Inhabited

/-- The reasons of R276. -/
inductive RefusalReason where
  /-- Decode of the host port (R251): no such opcode. -/
  | unknownCommand
  /-- Decode of the host port (R251): wrong length or reserved bits. -/
  | malformedCommand
  /-- HostStep, INIT, SEND, DUMP and every frame before the first RESET (R250, R70). -/
  | notReset
  /-- SEND before a successful INIT (R230). -/
  | notInitialised
  /-- INIT while a transmit is in flight (R176). -/
  | reinitWhileBusy
  /-- A transport primitive given an address with bit 7 set (R112). -/
  | badAddress
  /-- A frame by a context that does not hold the lock (R70, R73). -/
  | noLock
  /-- A burst that walks past 0x7F (R80). -/
  | burstPastEnd
  /-- A write to an address the register map does not name (R80). -/
  | unmappedWrite
  deriving DecidableEq, Repr, Inhabited

/-- One frame of the bus trace (R41): the owning context, the bytes out, and the bytes in or `none` for `fail`. -/
structure Frame where
  ctx : Ctx
  out : List Byte
  inp : Option (List Byte)
  deriving DecidableEq, Repr, Inhabited

/-- The received message (R215). SNR is a count of quarter-decibels (R122). -/
structure ReceivedMessage where
  payload : List Byte
  address : Option (List Byte)
  rssiDbm : Int
  snrQuarterDb : Int
  packetRssiDbm : Int
  deriving DecidableEq, Repr, Inhabited

/-- The events of the event port (R255). -/
inductive Event where
  | received (m : ReceivedMessage)
  | transmitDone
  | spurious (flags : Byte)
  | irqTransportError (op : Primitive) (addr : Byte)
  deriving DecidableEq, Repr, Inhabited

/-- One row of a register dump: address, value, and the value's bits, bit 7 first (R253). -/
structure DumpRow where
  addr : Byte
  value : Byte
  bits : List Char
  deriving DecidableEq, Repr, Inhabited

/-- The result of a host command before its encoding on the port (R131, R254). -/
inductive HostResult where
  | ok
  | regs (rows : List DumpRow)
  | error (e : Err)
  deriving DecidableEq, Repr, Inhabited

/-- The local values of the running operation (R39). -/
structure Locals where
  /-- The position inside the called operation: the number of its frame that is next, or whose outcome is `got`. -/
  sub : Nat
  /-- The outcome of the operation's last frame, while the actions after that frame are not yet performed (R93). -/
  got : Option Ret
  /-- What the called operation handed back, until the calling operation has taken it. -/
  ret : Option Ret
  /-- enableRxCrc: the value read from ModemConfig2 (R173). -/
  crcValue : Byte
  /-- onReceiveComplete: the start offset `s` (R210). -/
  start : Byte
  /-- onReceiveComplete: the byte count `n`. -/
  count : Byte
  /-- onReceiveComplete: the drained bytes. -/
  data : List Byte
  /-- onReceiveComplete: the raw RSSI `r`. -/
  rawRssi : Byte
  /-- onReceiveComplete: the raw SNR `q`. -/
  rawSnr : Byte
  /-- registerDump: the rows read so far (R253). -/
  rows : List DumpRow
  deriving DecidableEq, Repr, Inhabited

/-- The locals of an operation that starts. -/
def Locals.fresh : Locals :=
  { sub := 0, got := none, ret := none, crcValue := 0, start := 0, count := 0, data := [], rawRssi := 0, rawSnr := 0, rows := [] }

/-- The running operation: `x[run]` of R39. -/
structure Run where
  ctx : Ctx
  op : Instr
  pc : Nat
  loc : Locals
  deriving DecidableEq, Repr, Inhabited

/-- The chip (R42–R45, R52). `draws` counts the free draws; a register or FIFO cell nobody has written since its
last draw holds the free byte at its base plus its address (log 3). -/
structure Chip where
  regs : Memory
  fifo : Memory
  txPkt : Option (List Byte)
  air : List (List Byte)
  regsBase : Nat
  fifoBase : Nat
  draws : Nat
  deriving DecidableEq, Repr, Inhabited

/-- The machine. -/
structure State where
  resetDone : Bool
  initialised : Bool
  mode : Option OperatingMode
  txBusy : Bool
  disp : DispState
  edgePending : Bool
  lineLast : Bool
  lock : Option Ctx
  flagsSnap : Option Byte
  run : Option Run
  cs : Bool
  resetLine : Level
  busTrace : List Frame
  events : List Event
  refused : Option RefusalReason
  chip : Chip
  /-- Commands on the host port, not yet accepted (R250; log 15). -/
  port : List (List Byte)
  /-- Results returned on the host port, oldest first (R131, R250; log 16). -/
  results : List HostResult
  /-- The model's own: the coming turns (log 1). -/
  schedule : List Turn
  /-- The model's own: the index of the next free turn (log 1). -/
  tick : Nat
  /-- The model's own: the bus agent's draw for the next frame (log 4). -/
  bus : BusResult
  deriving DecidableEq, Repr, Inhabited

/-- The spec stops the block by no fault: errors are results and events (R270), and what has no meaning sets the
refusal mark. So no constructor: no step of the model faults (log 28). -/
inductive Fault where
  deriving DecidableEq, Repr

/-- Why a step gives no next state. -/
inductive Refusal where
  /-- Raised by exec's arm of an instruction without a meaning; safe: the machine stops. No arm raises it. -/
  | notModelled (mnemonic : String)
  /-- Raised by step while the refusal mark `x[refused]` is set: "no agent of the model takes a step" (R51);
  safe: the machine stops. -/
  | marked (reason : RefusalReason)
  /-- Raised by execAt and stepAt at a record that is refused when the configuration is built (R112); safe: no machine
  has that configuration. exec and step, which run at `Config.cfg`, never raise it. -/
  | illFormedConfig (error : CfgError)
  deriving DecidableEq, Repr

/-- The chip at power-on: every register and every FIFO cell is "any" (R310), nothing in flight, nothing sent. -/
def Chip.powerOn : Chip :=
  { regs := [], fifo := [], txPkt := none, air := [], regsBase := 0, fifoBase := 128, draws := 384 }

/-- The machine at power-on (R310, first column; R312). -/
def State.reset : State :=
  { resetDone := false, initialised := false, mode := none, txBusy := false, disp := .idle,
    edgePending := false, lineLast := false, lock := none, flagsSnap := none, run := none, cs := false,
    resetLine := .high, busTrace := [], events := [], refused := none, chip := Chip.powerOn,
    port := [], results := [], schedule := [], tick := 0, bus := .ok }

end Sys2Proof.Machine
end

