-- ==== Sys2Proof/Machine/Operands.lean ====
section
/-! DEFINITION. Every operand form and value encoding of the spec: the register map (R46), op-mode values (R115),
the frequency word (R116, R175), PA values (R117), the link decode (R121, R122), packet framing and splitting
(R123, R211), the dump's bits (R253) and the result bytes (R131). -/

namespace Sys2Proof.Machine

/-- The address of a named register, `REG.r` (R46). -/
def regAddr (r : Reg) (cfg : Cfg := Config.cfg) : Byte := cfg.reg r

/-- The register at an address, `none` where the map names none (R46, R80). -/
def regAt (t : Nat) (cfg : Cfg := Config.cfg) : Option Reg := Reg.all.find? fun r => decide ((regAddr r cfg).toNat = t)

/-- The registers whose writes the chip ignores (R77; PRESUMED, general knowledge G10). -/
def readOnlyReg : Reg → Bool
  | .fifoRxCurrentAddr => true
  | .rxNbBytes => true
  | .pktSnrValue => true
  | .pktRssiValue => true
  | .rssiValue => true
  | .version => true
  | _ => false

/-- The frequency and PA-config registers, written safely only in Sleep or Standby (R79). -/
def sleepOnlyReg : Reg → Bool
  | .frfMsb => true
  | .frfMid => true
  | .frfLsb => true
  | .paConfig => true
  | _ => false

/-- An address of the page that belongs to FSK while the LoRa bit is 0 (R76, R80). -/
def fskPage (t : Nat) : Bool := decide (0x0D ≤ t) && decide (t ≤ 0x3F)

/-- `target(a, k)` of data byte `k` of a frame with address `a`; `none` is UNDEFINED (R75). -/
def frameTarget (a k : Nat) (cfg : Cfg := Config.cfg) : Option Nat :=
  if a = (regAddr .fifo cfg).toNat then some a
  else if a + k < Config.regCount then some (a + k)
  else none

/-- Whether the walk of a frame with address `a` and `n` data bytes passes 0x7F (R75, R80). -/
def walksPastEnd (a n : Nat) (cfg : Cfg := Config.cfg) : Bool :=
  !decide (a = (regAddr .fifo cfg).toNat) && decide (Config.regCount < a + n)

/-- The value setMode writes: `OPMODE_LORA | MODE_CODE[m]` (R115). -/
def opModeValue (m : OperatingMode) (cfg : Cfg := Config.cfg) : Byte := cfg.opmodeLora ||| modeCode m cfg

/-- The mode field, bits 2:0 of an op-mode value (R44, R47). -/
def modeField (v : Byte) : Byte := v &&& 0x07

/-- The modem-scheme flag, bit 7 of an op-mode value: 1 is LoRa (R44). -/
def loraBit (v : Byte) : Bool := v.getLsbD 7

/-- `frf = floor(hz * 2^19 / FXOSC_HZ)` (R116, R175). -/
def frfWord (hz : Nat) (cfg : Cfg := Config.cfg) : Nat := hz * 2 ^ Config.frfShift / cfg.fxoscHz

/-- Whether the frequency word fits its 24 bits (R116, R171). -/
def frfValid (hz : Nat) (cfg : Cfg := Config.cfg) : Bool := decide (frfWord hz cfg < 2 ^ Config.frfBits)

/-- `[frf[23:16], frf[15:8], frf[7:0]]` (R116, R81). -/
def frfBytes (hz : Nat) (cfg : Cfg := Config.cfg) : List Byte :=
  [BitVec.ofNat 8 (frfWord hz cfg / 2 ^ 16), BitVec.ofNat 8 (frfWord hz cfg / 2 ^ 8), BitVec.ofNat 8 (frfWord hz cfg)]

/-- The PA-config value (R117). -/
def paValue (boost : Bool) (cfg : Cfg := Config.cfg) : Byte := if boost then cfg.paBoostValue else cfg.paRfoValue

/-- RSSI in dBm: the unsigned byte less the offset (R121). -/
def rssiDbm (v : Byte) (cfg : Cfg := Config.cfg) : Int := (v.toNat : Int) - cfg.rssiOffset

/-- SNR in quarter-decibels: the signed byte (R122). -/
def snrQuarterDb (v : Byte) : Int := v.toInt

/-- `Split(data)` for an address length (R211). -/
def splitPacket (addrLen : Option Nat) (data : List Byte) : Option (List Byte) × List Byte :=
  match addrLen with
  | none => (none, data)
  | some n => (some (data.take n), data.drop n)

/-- The packet SEND stages: the address bytes, if any, before the payload (R123, R230). -/
def packetBytes (address : Option (List Byte)) (payload : List Byte) : List Byte := address.getD [] ++ payload

/-- The eight bits of a value as characters, bit 7 first (R253). -/
def dumpBits (v : Byte) : List Char :=
  (List.range 8).map (fun i => if v.getLsbD (7 - i) then '1' else '0')

/-- One row of the dump (R253). -/
def dumpRow (a v : Byte) : DumpRow := { addr := a, value := v, bits := dumpBits v }

/-- The port codes of R270. -/
def errCode : Err → Byte
  | .transport _ _ => 0x01
  | .argument _ => 0x02
  | .transmitBusy => 0x03

/-- A result's bytes on the command port (R131): the dump's bits are not encoded. -/
def resultBytes : HostResult → List Byte
  | .ok => [0x00]
  | .regs rows => 0x00 :: BitVec.ofNat 8 rows.length :: rows.flatMap (fun r => [r.addr, r.value])
  | .error e => [errCode e]

end Sys2Proof.Machine
end

