-- ==== Sys2Proof/Machine/Flags.lean ====
section
/-! DEFINITION. Every flag computation: the IRQ-flag decoder (R120, R193), write-1-to-clear (R77), the flags a
chip event raises through the mask (R281), and the DIO0 level as a function of the mapping and the flags (R45). -/

namespace Sys2Proof.Machine

/-- RxDone in a flags byte (R120). -/
def rxDoneFlag (f : Byte) (cfg : Cfg := Config.cfg) : Bool := f.getLsbD cfg.irqRxDone

/-- TxDone in a flags byte (R120). -/
def txDoneFlag (f : Byte) (cfg : Cfg := Config.cfg) : Bool := f.getLsbD cfg.irqTxDone

/-- CadDone in a flags byte, bit 2 (R45, R47). -/
def cadDoneFlag (f : Byte) : Bool := f.getLsbD 2

/-- The byte with one bit set. -/
def bitByte (n : Nat) : Byte := BitVec.ofNat 8 (2 ^ n)

/-- IrqFlags after a write of `v`: `R & ~v` (R77). -/
def clearFlags (flags v : Byte) : Byte := flags &&& ~~~v

/-- IrqFlags after a chip event raises `e`: `R | (e & ~mask)` (R281). -/
def raiseFlags (flags mask e : Byte) : Byte := flags ||| (e &&& ~~~mask)

/-- The bits a receiver may raise beside RxDone and TxDone: a draw masked with 0xB7 (R282, R285). -/
def extraFlags (v : Byte) : Byte := v &&& 0xB7

/-- The level of DIO0 from DioMapping1 and IrqFlags (R45). -/
def dioLevel (mapping flags : Byte) (cfg : Cfg := Config.cfg) : Bool :=
  if mapping &&& 0xC0 = 0x00 then rxDoneFlag flags cfg
  else if mapping &&& 0xC0 = 0x40 then txDoneFlag flags cfg
  else if mapping &&& 0xC0 = 0x80 then cadDoneFlag flags
  else false

end Sys2Proof.Machine
end

