-- ==== Sys2Proof/Machine/Ops.lean ====
section
/-! DEFINITION. The named operations over the chip's memory and over the block's registers: memory reads and
writes, the draws, the chip-side meaning of a frame (R74–R80, R283), the chip reset (R311), the edge detector
(R190), the one bus primitive SpiXfer (R70), the lock (R85), refusals (R276), events and results (R255, R131), and
the one trap-like entry and return (R286, R287). -/

namespace Sys2Proof.Machine

/-! ### Memory -/

/-- The byte written at an address, `none` where none is listed. -/
def Memory.read : Memory → Nat → Option Byte
  | [], _ => none
  | (b, v) :: m, a => if b = a then some v else Memory.read m a

/-- The memory with `v` at `a`, in canonical form. -/
def Memory.write : Memory → Nat → Byte → Memory
  | [], a, v => [(a, v)]
  | (b, w) :: m, a, v =>
    if a < b then (a, v) :: (b, w) :: m
    else if a = b then (a, v) :: m
    else (b, w) :: Memory.write m a v

/-! ### Chip registers and FIFO -/

/-- `R[a]` at an address (R42): the byte written there, else the free byte of its last draw (R48, R310). -/
def Chip.regAtAddr (c : Chip) (a : Nat) : Byte := (c.regs.read a).getD (Config.freeByte (c.regsBase + a))

/-- `R[REG.r]` (R42, R46). -/
def Chip.reg (c : Chip) (r : Reg) (cfg : Cfg := Config.cfg) : Byte := c.regAtAddr (regAddr r cfg).toNat

/-- `R[REG.r] <- v`. -/
def Chip.setReg (c : Chip) (r : Reg) (v : Byte) (cfg : Cfg := Config.cfg) : Chip :=
  { c with regs := c.regs.write (regAddr r cfg).toNat v }

/-- `FIFO[i]` (R43). -/
def Chip.fifoCell (c : Chip) (i : Byte) : Byte :=
  (c.fifo.read i.toNat).getD (Config.freeByte (c.fifoBase + i.toNat))

/-- `FIFO[i] <- v`. -/
def Chip.setFifoCell (c : Chip) (i v : Byte) : Chip := { c with fifo := c.fifo.write i.toNat v }

/-- `draw Byte` (R12): the next free byte. -/
def Chip.draw (c : Chip) : Byte × Chip := (Config.freeByte c.draws, { c with draws := c.draws + 1 })

/-- `n` draws in order (R71: the MISO bytes of a write frame). -/
def Chip.drawList : Nat → Chip → List Byte × Chip
  | 0, c => ([], c)
  | n + 1, c =>
    let (v, c1) := c.draw
    let (vs, c2) := Chip.drawList n c1
    (v :: vs, c2)

/-- `FIFO <- draw (Fin 256 → Byte)` (R283, R311): every cell holds a fresh free byte. -/
def Chip.drawFifo (c : Chip) : Chip :=
  { c with fifo := [], fifoBase := c.draws, draws := c.draws + Config.fifoSize }

/-- `n` consecutive FIFO cells from offset `b`, modulo 256 (R283). -/
def Chip.fifoSlice (c : Chip) (b : Byte) (n : Nat) : List Byte :=
  (List.range n).map (fun i => c.fifoCell (b + BitVec.ofNat 8 i))

/-- The bytes `bs` stored from FIFO offset `b`, modulo 256 (R282). -/
def Chip.storeFifo : List Byte → Byte → Chip → Chip
  | [], _, c => c
  | v :: vs, b, c => Chip.storeFifo vs (b + 1) (c.setFifoCell b v)

/-- The level of the DIO0 line (R45). -/
def Chip.dio0 (c : Chip) (cfg : Cfg := Config.cfg) : Bool := dioLevel (c.reg .dioMapping1 cfg) (c.reg .irqFlags cfg) cfg

/-! ### The chip's response to a frame -/

/-- `ChipModeWritten(v)` (R283), after the op-mode register holds `v`. -/
def Chip.modeWritten (c : Chip) (v : Byte) (cfg : Cfg := Config.cfg) : Chip :=
  let c1 : Chip :=
    if loraBit v ∧ modeField v = modeCode .transmit cfg then
      { c with txPkt := some (c.fifoSlice (c.reg .fifoTxBaseAddr cfg) (c.reg .payloadLength cfg).toNat) }
    else { c with txPkt := none }
  if modeField v = modeCode .sleep cfg then c1.drawFifo else c1

/-- `FIFO[p]` at the pointer, which moves by one modulo 256 (R76, R43). -/
def Chip.readFifoPort (c : Chip) (cfg : Cfg := Config.cfg) : Byte × Chip :=
  let p := c.reg .fifoAddrPtr cfg
  (c.fifoCell p, c.setReg .fifoAddrPtr (p + 1) cfg)

/-- `FIFO[p] <- v` at the pointer, which moves by one modulo 256 (R77, R43). -/
def Chip.writeFifoPort (c : Chip) (v : Byte) (cfg : Cfg := Config.cfg) : Chip :=
  let p := c.reg .fifoAddrPtr cfg
  (c.setFifoCell p v).setReg .fifoAddrPtr (p + 1) cfg

/-- `ReadTarget(t)` (R76). In the FSK page a read is a draw, IrqFlags included: so it is between RESET and INIT, where
R252 and V-I5 have a dispatch read 0x00 (DESIGN CHOICE: R76 is followed, log 31). -/
def Chip.readTarget (c : Chip) (t : Nat) (cfg : Cfg := Config.cfg) : Byte × Chip :=
  if regAt t cfg = some .fifo then c.readFifoPort cfg
  else if fskPage t && !loraBit (c.reg .opMode cfg) then c.draw
  else
    match regAt t cfg with
    | none => c.draw
    | some r => (c.reg r cfg, c)

/-- A write to a named register other than the FIFO port (R77, R79). -/
def Chip.writeReg (c : Chip) (r : Reg) (v : Byte) (cfg : Cfg := Config.cfg) : Chip :=
  if r = .irqFlags then c.setReg r (clearFlags (c.reg r cfg) v) cfg
  else if readOnlyReg r then c
  else if sleepOnlyReg r ∧ modeField (c.reg .opMode cfg) ≠ modeCode .sleep cfg ∧
      modeField (c.reg .opMode cfg) ≠ modeCode .standby cfg then
    let (d, c1) := c.draw
    c1.setReg r d cfg
  else if r = .opMode then (c.setReg r v cfg).modeWritten v cfg
  else c.setReg r v cfg

/-- `WriteTarget(t, v)` (R77); a write to an address the map does not name is refused (R80). -/
def Chip.writeTarget (c : Chip) (t : Nat) (v : Byte) (cfg : Cfg := Config.cfg) : Except RefusalReason Chip :=
  match regAt t cfg with
  | none => .error .unmappedWrite
  | some .fifo => .ok (c.writeFifoPort v cfg)
  | some r => .ok (c.writeReg r v cfg)

/-- `MemRead(a, n)` from data byte `k` on (R78, R75). -/
def Chip.memRead (a : Nat) : Nat → Nat → Chip → (cfg : Cfg := Config.cfg) → Except RefusalReason (List Byte × Chip)
  | _, 0, c, _ => .ok ([], c)
  | k, n + 1, c, cfg =>
    match frameTarget a k cfg with
    | none => .error .burstPastEnd
    | some t =>
      let (v, c1) := c.readTarget t cfg
      match Chip.memRead a (k + 1) n c1 cfg with
      | .error e => .error e
      | .ok (vs, c2) => .ok (v :: vs, c2)

/-- `MemWrite(a, n, v)` from data byte `k` on (R78, R75). -/
def Chip.memWrite (a : Nat) : Nat → List Byte → Chip → (cfg : Cfg := Config.cfg) → Except RefusalReason Chip
  | _, [], c, _ => .ok c
  | k, v :: vs, c, cfg =>
    match frameTarget a k cfg with
    | none => .error .burstPastEnd
    | some t =>
      match c.writeTarget t v cfg with
      | .error e => .error e
      | .ok c1 => Chip.memWrite a (k + 1) vs c1 cfg

/-- `ChipFrame(out)` (R78): the bytes shifted in, and the chip after the frame. A burst whose walk passes 0x7F is refused
as a whole, whatever its bytes would meet before (R80). -/
def Chip.frame (c : Chip) (out : List Byte) (cfg : Cfg := Config.cfg) : Except RefusalReason (List Byte × Chip) :=
  match out with
  | [] => .ok ([], c)
  | b :: d =>
    if walksPastEnd (frameAddr b).toNat d.length cfg then .error .burstPastEnd
    else if b.getLsbD 7 then
      match Chip.memWrite (frameAddr b).toNat 0 d c cfg with
      | .error e => .error e
      | .ok c1 => .ok (Chip.drawList (d.length + 1) c1)
    else
      let (v0, c1) := c.draw
      match Chip.memRead (frameAddr b).toNat 0 d.length c1 cfg with
      | .error e => .error e
      | .ok (vs, c2) => .ok (v0 :: vs, c2)

/-- The named registers after a chip reset, those whose reset value is not "any" (R48). -/
def chipResetRegs (cfg : Cfg := Config.cfg) : Memory :=
  Reg.all.foldl (fun m r =>
    match cfg.chipReset r with
    | none => m
    | some v => m.write (regAddr r cfg).toNat v) []

/-- `ChipReset()` (R311). -/
def Chip.reset (c : Chip) (cfg : Cfg := Config.cfg) : Chip :=
  { regs := chipResetRegs cfg, fifo := [], txPkt := none, air := c.air, regsBase := c.draws,
    fifoBase := c.draws + Config.regCount, draws := c.draws + Config.regCount + Config.fifoSize }

/-! ### The block's registers -/

/-- `refuse(r)` (R12, R51, R276): the first refusal sets the mark; nothing else changes. -/
def State.refuse (s : State) (r : RefusalReason) : State :=
  match s.refused with
  | some _ => s
  | none => { s with refused := some r }

/-- `EdgeSample()` (R190). -/
def State.edgeSample (s : State) (cfg : Cfg := Config.cfg) : State :=
  { s with edgePending := s.edgePending || (s.chip.dio0 cfg && !s.lineLast), lineLast := s.chip.dio0 cfg }

/-- `emit ev` (R12, R255). -/
def State.emit (s : State) (e : Event) : State := { s with events := s.events ++ [e] }

/-- The result of a host command, returned on the command port (R131, R250). -/
def State.returnResult (s : State) (r : HostResult) : State := { s with results := s.results ++ [r] }

/-- `acquire(ctx)` with the operation that starts (R85, R39): `none` is hold. -/
def State.acquire (s : State) (ctx : Ctx) (op : Instr) : Option State :=
  match s.lock with
  | some _ => none
  | none => some { s with lock := some ctx, run := some { ctx := ctx, op := op, pc := 0, loc := Locals.fresh } }

/-- `release()` (R85), with the end of the running operation (R39). -/
def State.release (s : State) : State := { s with lock := none, run := none }

/-- The running operation's locals changed by `f`. -/
def State.mapLoc (s : State) (f : Locals → Locals) : State :=
  match s.run with
  | none => s
  | some r => { s with run := some { r with loc := f r.loc } }

/-- The running operation's locals. -/
def State.loc (s : State) : Locals :=
  match s.run with
  | none => Locals.fresh
  | some r => r.loc

/-- The running operation goes on at position `k` (R39). -/
def State.goTo (s : State) (k : Nat) : State :=
  match s.run with
  | none => s
  | some r => { s with run := some { r with pc := k, loc := { r.loc with sub := 0, got := none, ret := none } } }

/-- The flags snapshot; it is `none` in no run where dispatch reads it (R38; log 17). -/
def State.snapshot (s : State) : Byte := s.flagsSnap.getD 0

/-- Whether dispatch is enabled (R191). -/
def State.dispatchEnabled (s : State) : Bool :=
  s.edgePending && decide (s.disp = .idle) && decide (s.lock = none) && s.resetDone

/-- Trap entry (R286, R192): the lock, the latch taken, Servicing, control at dispatch's first step. Saves nothing. -/
def State.enterDispatch (s : State) : State :=
  { s with lock := some .irq, edgePending := false, disp := .servicing,
           run := some { ctx := .irq, op := .dispatch, pc := 0, loc := Locals.fresh } }

/-- Trap return (R287, step 5 of R192): Idle, no snapshot, the lock free. Restores nothing. -/
def State.leaveDispatch (s : State) : State :=
  { s with flagsSnap := none, disp := .idle, lock := none, run := none }

/-! ### The bus primitive and calls -/

/-- The outcome of one SpiXfer (R70). -/
inductive Xfer where
  | ok (inp : List Byte) (s : State)
  | fail (s : State)
  | refuse (r : RefusalReason)

/-- One completed frame recorded, the chip after it, chip-select deasserted, and the edge detector's sample. -/
def State.frameDone (s : State) (ctx : Ctx) (out : List Byte) (inp : Option (List Byte)) (c : Chip)
    (cfg : Cfg := Config.cfg) : State :=
  State.edgeSample
    { s with chip := c, cs := false, busTrace := s.busTrace ++ [{ ctx := ctx, out := out, inp := inp }] } cfg

/-- `SpiXfer(out)` (R70–R73): one atomic frame of the operation in x[run], with the bus agent's draw in `bus`. -/
def State.spiXfer (s : State) (out : List Byte) (cfg : Cfg := Config.cfg) : Xfer :=
  match s.run with
  | none => .refuse .noLock
  | some r =>
    if s.lock ≠ some r.ctx then .refuse .noLock
    else if !s.resetDone then .refuse .notReset
    else
      let s1 := { s with cs := true }
      match s.bus with
      | .ok =>
        match s1.chip.frame out cfg with
        | .error e => .refuse e
        | .ok (inp, c) => .ok inp (s1.frameDone r.ctx out (some inp) c cfg)
      | .fail k =>
        match s1.chip.frame (out.take k) cfg with
        | .error e => .refuse e
        | .ok (_, c) => .fail (s1.frameDone r.ctx out none c cfg)

/-- The outcome of a call's frame, or of the actions after one: a further frame of the call is to come, the call hands
something back, or the step is refused. -/
inductive CallRes where
  | more (s : State)
  | done (r : Ret) (s : State)
  | refuse (r : RefusalReason)

/-- The actions `f` after a frame that handed something in; a refusal passes through. -/
def CallRes.act (c : CallRes) (f : Ret → State → CallRes) : CallRes :=
  match c with
  | .more s => .more s
  | .refuse r => .refuse r
  | .done x s => f x s

/-- The actions after a frame that completed; an error ends the call (R271: "propagates unchanged"). -/
def Ret.orErr (x : Ret) (s : State) (f : List Byte → CallRes) : CallRes :=
  match x with
  | .bytes bs => f bs
  | .err e => .done (.err e) s

/-- A called operation of one frame as a step of the machine: what it handed back is left for the operation that
called it, or the refusal mark is set and nothing else (R276). -/
def State.callOnce (f : State → CallRes) (s : State) : State :=
  match f s with
  | .more s1 => s1.mapLoc (fun l => { l with sub := l.sub + 1 })
  | .done r s1 => s1.mapLoc (fun l => { l with sub := 0, ret := some r })
  | .refuse r => s.refuse r

/-! ### Turns of the running context -/

/-- The context a turn belongs to, if it is a context's. -/
def turnCtx : Turn → Option Ctx
  | .app _ => some .app
  | .irq _ => some .irq
  | .chip _ => none
  | .host _ => none

/-- The bus draw a turn brings. -/
def turnBus : Turn → BusResult
  | .app b => b
  | .irq b => b
  | .chip _ => .ok
  | .host _ => .ok

/-- Whether a turn goes to the context of the running operation. -/
def State.mayContinue (s : State) (t : Turn) : Bool :=
  s.refused.isNone &&
    match s.run with
    | none => false
    | some r => decide (turnCtx t = some r.ctx)

/-- The running operation goes on, frame by frame, for as long as the schedule's next turn is its own context's
and `p` holds; any other agent's turn stops it between two frames (R86, R93; log 2). -/
def State.drive (p : State → Bool) (f : State → State) : List Turn → State → State
  | [], s => { s with schedule := [] }
  | t :: ts, s =>
    if p s && s.mayContinue t then State.drive p f ts (f { s with bus := turnBus t })
    else { s with schedule := t :: ts }

end Sys2Proof.Machine
end

