-- ==== Sys2Proof/Machine/ChipAgent.lean ====
section
/-! DEFINITION. The chip as an agent: its active steps ChipRx, ChipTxDone and ChipNoise (R280–R285). A turn whose step is
not enabled changes nothing (R12 `hold`). -/

namespace Sys2Proof.Machine

/-- `R[IrqFlags] <- R[IrqFlags] | (e & ~R[IrqFlagsMask])` (R281). -/
def Chip.raise (c : Chip) (e : Byte) (cfg : Cfg := Config.cfg) : Chip :=
  c.setReg .irqFlags (raiseFlags (c.reg .irqFlags cfg) (c.reg .irqFlagsMask cfg) e) cfg

/-- Whether the chip can receive: LoRa ReceiveContinuous (R282). -/
def Chip.rxEnabled (c : Chip) (cfg : Cfg := Config.cfg) : Bool :=
  loraBit (c.reg .opMode cfg) && decide (modeField (c.reg .opMode cfg) = modeCode .receiveContinuous cfg)

/-- `ChipRx()` (R282), `none` where it is not enabled; a drawn packet is cut at MAX_PACKET and the drawn extra bits
are masked (log 23). -/
def Chip.receive (c : Chip) (start : Byte) (bytes : List Byte) (r p q extra : Byte) (cfg : Cfg := Config.cfg) :
    Option Chip :=
  if c.rxEnabled cfg then
    let bs := bytes.take Config.maxPacket
    let c1 := Chip.storeFifo bs start c
    let c2 := c1.setReg .fifoRxCurrentAddr start cfg
    let c3 := c2.setReg .rxNbBytes (BitVec.ofNat 8 bs.length) cfg
    let c4 := c3.setReg .rssiValue r cfg
    let c5 := c4.setReg .pktRssiValue p cfg
    let c6 := c5.setReg .pktSnrValue q cfg
    some (c6.raise (bitByte cfg.irqRxDone ||| extraFlags extra) cfg)
  else none

/-- `ChipTxDone()` (R284), `none` where it is not enabled. -/
def Chip.transmitDone (c : Chip) (cfg : Cfg := Config.cfg) : Option Chip :=
  match c.txPkt with
  | none => none
  | some pkt =>
    if loraBit (c.reg .opMode cfg) ∧ modeField (c.reg .opMode cfg) = modeCode .transmit cfg then
      let c1 : Chip := { c with air := c.air ++ [pkt], txPkt := none }
      let c2 := c1.raise (bitByte cfg.irqTxDone) cfg
      some (c2.setReg .opMode ((c2.reg .opMode cfg &&& 0xF8) ||| modeCode .standby cfg) cfg)
    else none

/-- `ChipNoise()`, the live RSSI (R285), always enabled. -/
def Chip.noiseRssi (c : Chip) (v : Byte) (cfg : Cfg := Config.cfg) : Chip := c.setReg .rssiValue v cfg

/-- `ChipNoise()`, the receiver flags (R285), `none` where it is not enabled. -/
def Chip.noiseFlags (c : Chip) (v : Byte) (cfg : Cfg := Config.cfg) : Option Chip :=
  if modeField (c.reg .opMode cfg) = modeCode .receiveContinuous cfg then some (c.raise (extraFlags v) cfg) else none

/-- One active step of the chip, `none` where it is not enabled. -/
def Chip.event (c : Chip) (e : ChipEvent) (cfg : Cfg := Config.cfg) : Option Chip :=
  match e with
  | .rx start bytes r p q extra => c.receive start bytes r p q extra cfg
  | .txDone => c.transmitDone cfg
  | .noiseRssi v => some (c.noiseRssi v cfg)
  | .noiseFlags v => c.noiseFlags v cfg

/-- The chip's turn: its step and then the edge detector's sample (R190, R292), or nothing where the step is not
enabled. -/
def State.chipTurn (s : State) (e : ChipEvent) (cfg : Cfg := Config.cfg) : State :=
  match s.chip.event e cfg with
  | none => s
  | some c => State.edgeSample { s with chip := c } cfg

end Sys2Proof.Machine
end

