-- ==== Sys2Proof/Machine/Transport.lean ====
section
/-! DEFINITION. RegisterTransport: the four transport primitives (R150–R156), each exactly one frame of the
operation that holds the lock. -/

namespace Sys2Proof.Machine

/-- `readByte(addr)` (R150): returns the second byte received. -/
def readByteCall (addr : Byte) (s : State) (cfg : Cfg := Config.cfg) : CallRes :=
  if addr.getLsbD 7 then .refuse .badAddress
  else
    match s.spiXfer [commandByte false addr, cfg.dummy] cfg with
    | .refuse r => .refuse r
    | .fail s1 => .done (.err (.transport .readByte addr)) s1
    | .ok inp s1 => .done (.bytes ((inp.drop 1).take 1)) s1

/-- `readBlock(addr, length)` (R151): returns the trailing `length` bytes. -/
def readBlockCall (addr : Byte) (length : Nat) (s : State) (cfg : Cfg := Config.cfg) : CallRes :=
  if addr.getLsbD 7 then .refuse .badAddress
  else
    match s.spiXfer (commandByte false addr :: List.replicate length cfg.dummy) cfg with
    | .refuse r => .refuse r
    | .fail s1 => .done (.err (.transport .readBlock addr)) s1
    | .ok inp s1 => .done (.bytes (inp.drop 1)) s1

/-- `writeByte(addr, value)` (R152): no returned byte is inspected. -/
def writeByteCall (addr value : Byte) (s : State) (cfg : Cfg := Config.cfg) : CallRes :=
  if addr.getLsbD 7 then .refuse .badAddress
  else
    match s.spiXfer [commandByte true addr, value] cfg with
    | .refuse r => .refuse r
    | .fail s1 => .done (.err (.transport .writeByte addr)) s1
    | .ok _ s1 => .done (.bytes []) s1

/-- `writeBlock(addr, bytes)` (R153): the whole byte string in one frame. -/
def writeBlockCall (addr : Byte) (bytes : List Byte) (s : State) (cfg : Cfg := Config.cfg) : CallRes :=
  if addr.getLsbD 7 then .refuse .badAddress
  else
    match s.spiXfer (commandByte true addr :: bytes) cfg with
    | .refuse r => .refuse r
    | .fail s1 => .done (.err (.transport .writeBlock addr)) s1
    | .ok _ s1 => .done (.bytes []) s1

/-- The meaning of readByte (R150), as a call by the running operation. -/
def execReadByte (addr : Byte) (s : State) (cfg : Cfg := Config.cfg) : Host.Outcome State Fault Refusal :=
  .next (s.callOnce fun t => readByteCall addr t cfg)

/-- The meaning of readBlock (R151). -/
def execReadBlock (addr : Byte) (length : Nat) (s : State) (cfg : Cfg := Config.cfg) :
    Host.Outcome State Fault Refusal :=
  .next (s.callOnce fun t => readBlockCall addr length t cfg)

/-- The meaning of writeByte (R152). -/
def execWriteByte (addr value : Byte) (s : State) (cfg : Cfg := Config.cfg) : Host.Outcome State Fault Refusal :=
  .next (s.callOnce fun t => writeByteCall addr value t cfg)

/-- The meaning of writeBlock (R153). -/
def execWriteBlock (addr : Byte) (bytes : List Byte) (s : State) (cfg : Cfg := Config.cfg) :
    Host.Outcome State Fault Refusal :=
  .next (s.callOnce fun t => writeBlockCall addr bytes t cfg)

end Sys2Proof.Machine
end

