-- ==== Sys2Proof/Machine/ModeController.lean ====
section
/-! DEFINITION. The ModeController's internal operations (R170–R173), each as its frames and the actions after them, and
the positions of initialise (R176). -/

namespace Sys2Proof.Machine

/-- setMode after its frame (R170): the shadow is `m` when the frame completed and unknown when it failed. -/
def setModeAct (m : OperatingMode) (x : Ret) (s : State) : CallRes :=
  match x with
  | .bytes _ => .done (.bytes []) { s with mode := some m }
  | .err e => .done (.err e) { s with mode := none }

/-- The frame of `setMode(m)` (R170): one op-mode write. -/
def setModeFrame (m : OperatingMode) (s : State) (cfg : Cfg := Config.cfg) : CallRes :=
  writeByteCall (regAddr .opMode cfg) (opModeValue m cfg) s cfg

/-- `setMode(m)` (R170). -/
def setModeCall (m : OperatingMode) (s : State) (cfg : Cfg := Config.cfg) : CallRes :=
  (setModeFrame m s cfg).act (setModeAct m)

/-- `setCarrierFrequency(hz)` (R171): ArgumentError before any frame, else the 3-byte burst. -/
def setCarrierFrequencyCall (hz : Nat) (s : State) (cfg : Cfg := Config.cfg) : CallRes :=
  if frfValid hz cfg then writeBlockCall (regAddr .frfMsb cfg) (frfBytes hz cfg) s cfg
  else .done (.err (.argument .frequency)) s

/-- `setPowerAmplifier(boost)` (R172). -/
def setPowerAmplifierCall (boost : Bool) (s : State) (cfg : Cfg := Config.cfg) : CallRes :=
  writeByteCall (regAddr .paConfig cfg) (paValue boost cfg) s cfg

/-- Frame `k` of `enableRxCrc()` (R173): the read, then the write with the CRC bit set. -/
def enableRxCrcFrame (k : Nat) (s : State) (cfg : Cfg := Config.cfg) : CallRes :=
  match k with
  | 0 => readByteCall (regAddr .modemConfig2 cfg) s cfg
  | _ => writeByteCall (regAddr .modemConfig2 cfg) (s.loc.crcValue ||| cfg.crcOnMask) s cfg

/-- enableRxCrc after its frame `k` (R173). -/
def enableRxCrcAct (k : Nat) (x : Ret) (s : State) : CallRes :=
  x.orErr s fun bs =>
    match k with
    | 0 => .more (s.mapLoc fun l => { l with crcValue := bs.headD 0 })
    | _ => .done (.bytes []) s

/-- The operation initialise calls at position `pc` (R176). -/
def initCallAt (hz : Word32) (paBoost : Bool) (pc : Nat) : Instr :=
  match pc with
  | 0 => .setMode .sleep
  | 1 => .setCarrierFrequency hz.toNat
  | 2 => .setPowerAmplifier paBoost
  | 3 => .enableRxCrc
  | _ => .setMode .receiveContinuous

/-- initialise after the call at `pc` handed back `x` (R176): the next position, the end, or the abort. -/
def initReturn (rxPayloadCrcOn : Bool) (pc : Nat) (x : Ret) (s : State) : State :=
  match x with
  | .err e => ({ s with initialised := false }.release).returnResult (.error e)
  | .bytes _ =>
    match pc with
    | 0 => s.goTo 1
    | 1 => s.goTo 2
    | 2 => s.goTo (if rxPayloadCrcOn then 3 else 4)
    | 3 => s.goTo 4
    | _ => ({ s with initialised := true }.release).returnResult .ok

/-- The meaning of setMode (R170), as a call by the running operation. -/
def execSetMode (m : OperatingMode) (s : State) (cfg : Cfg := Config.cfg) : Host.Outcome State Fault Refusal :=
  .next (s.callOnce fun t => setModeCall m t cfg)

/-- The meaning of setCarrierFrequency (R171). -/
def execSetCarrierFrequency (hz : Nat) (s : State) (cfg : Cfg := Config.cfg) : Host.Outcome State Fault Refusal :=
  .next (s.callOnce fun t => setCarrierFrequencyCall hz t cfg)

/-- The meaning of setPowerAmplifier (R172). -/
def execSetPowerAmplifier (boost : Bool) (s : State) (cfg : Cfg := Config.cfg) : Host.Outcome State Fault Refusal :=
  .next (s.callOnce fun t => setPowerAmplifierCall boost t cfg)

end Sys2Proof.Machine
end

