-- ==== Sys2Proof/Machine/ReceiveEngine.lean ====
section
/-! DEFINITION. The ReceiveEngine (R210–R218): the frames of onReceiveComplete, the actions after each, and the message
it emits. -/

namespace Sys2Proof.Machine

/-- The configured address length (R9, R211). -/
def configuredAddrLen (cfg : Cfg := Config.cfg) : Option Nat := cfg.addrLen.map Fin.val

/-- The message of R210 step 7 from the drained bytes and the three raw link values. -/
def receivedMessage (addrLen : Option Nat) (data : List Byte) (r q p : Byte) (cfg : Cfg := Config.cfg) :
    ReceivedMessage :=
  { payload := (splitPacket addrLen data).2, address := (splitPacket addrLen data).1,
    rssiDbm := rssiDbm r cfg, snrQuarterDb := snrQuarterDb q, packetRssiDbm := rssiDbm p cfg }

/-- Frame `k` of `onReceiveComplete()` (R210). -/
def onReceiveCompleteFrame (k : Nat) (s : State) (cfg : Cfg := Config.cfg) : CallRes :=
  match k with
  | 0 => readByteCall (regAddr .fifoRxCurrentAddr cfg) s cfg
  | 1 => writeByteCall (regAddr .fifoAddrPtr cfg) s.loc.start s cfg
  | 2 => readByteCall (regAddr .rxNbBytes cfg) s cfg
  | 3 => readBlockCall (regAddr .fifo cfg) s.loc.count.toNat s cfg
  | 4 => readByteCall (regAddr .rssiValue cfg) s cfg
  | 5 => readByteCall (regAddr .pktSnrValue cfg) s cfg
  | _ => readByteCall (regAddr .pktRssiValue cfg) s cfg

/-- onReceiveComplete after its frame `k` (R210). -/
def onReceiveCompleteAct (k : Nat) (x : Ret) (s : State) (cfg : Cfg := Config.cfg) : CallRes :=
  x.orErr s fun bs =>
    match k with
    | 0 => .more (s.mapLoc fun l => { l with start := bs.headD 0 })
    | 1 => .more s
    | 2 => .more (s.mapLoc fun l => { l with count := bs.headD 0 })
    | 3 => .more (s.mapLoc fun l => { l with data := bs })
    | 4 => .more (s.mapLoc fun l => { l with rawRssi := bs.headD 0 })
    | 5 => .more (s.mapLoc fun l => { l with rawSnr := bs.headD 0 })
    | _ => .done (.bytes []) (s.emit (.received
        (receivedMessage (configuredAddrLen cfg) s.loc.data s.loc.rawRssi s.loc.rawSnr (bs.headD 0) cfg)))

end Sys2Proof.Machine
end

