-- ==== Sys2Proof/Machine/TransmitEngine.lean ====
section
/-! DEFINITION. The TransmitEngine (R230–R238): the positions of send and the frames of onTransmitComplete. -/

namespace Sys2Proof.Machine

/-- The operation send calls at position `pc` (R230 steps 2 to 6). -/
def sendCallAt (address : Option (List Byte)) (payload : List Byte) (pc : Nat) (cfg : Cfg := Config.cfg) : Instr :=
  match pc with
  | 0 => .writeByte (regAddr .fifoTxBaseAddr cfg) Config.txBase
  | 1 => .writeByte (regAddr .fifoAddrPtr cfg) Config.txBase
  | 2 => .writeBlock (regAddr .fifo cfg) (packetBytes address payload)
  | 3 => .writeByte (regAddr .payloadLength cfg) (BitVec.ofNat 8 (packetBytes address payload).length)
  | 4 => .writeByte (regAddr .dioMapping1 cfg) cfg.dioMapTxDone
  | _ => .setMode .transmit

/-- send after the call at `pc` handed back `x` (R230, R232, R235): the length check stands right after the burst. -/
def sendReturn (address : Option (List Byte)) (payload : List Byte) (pc : Nat) (x : Ret) (s : State) : State :=
  match x with
  | .err e => s.release.returnResult (.error e)
  | .bytes _ =>
    match pc with
    | 0 => s.goTo 1
    | 1 => s.goTo 2
    | 2 =>
      if Config.maxPacket < (packetBytes address payload).length then
        s.release.returnResult (.error (.argument .length))
      else s.goTo 3
    | 3 => s.goTo 4
    | 4 => s.goTo 5
    | _ => ({ s with txBusy := true }.release).returnResult .ok

/-- Frame `k` of `onTransmitComplete()` (R233). -/
def onTransmitCompleteFrame (k : Nat) (s : State) (cfg : Cfg := Config.cfg) : CallRes :=
  match k with
  | 0 => writeByteCall (regAddr .dioMapping1 cfg) cfg.dioMapRxDone s cfg
  | _ => setModeFrame .receiveContinuous s cfg

/-- onTransmitComplete after its frame `k` (R233). -/
def onTransmitCompleteAct (k : Nat) (x : Ret) (s : State) : CallRes :=
  match k with
  | 0 => x.orErr s fun _ => .more s
  | _ => (setModeAct .receiveContinuous x s).act fun y s1 =>
      y.orErr s1 fun _ => .done (.bytes []) (State.emit { s1 with txBusy := false } .transmitDone)

end Sys2Proof.Machine
end

