-- ==== Sys2Proof/Machine/Sequencer.lean ====
section
/-! DEFINITION. The sequencer (R39, R93): which operation the running operation calls at its position, the frames of a
call and the actions after each, what the running operation does when a call hands back, and when the actions after a
frame are performed: with the operation's next frame, or with that frame if it is the operation's last. It also holds
the meanings of the three internal operations that have more than one frame. -/

namespace Sys2Proof.Machine

/-- The operation dispatch calls at position `pc` (R192 steps 1 to 4). -/
def dispatchCallAt (snapshot : Byte) (pc : Nat) (cfg : Cfg := Config.cfg) : Instr :=
  match pc with
  | 0 => .readByte (regAddr .irqFlags cfg)
  | 1 => .onReceiveComplete
  | 2 => .onTransmitComplete
  | _ => .writeByte (regAddr .irqFlags cfg) snapshot

/-- dispatch after the call at `pc` handed back `x` (R192–R196): the snapshot and the flag decoder, the handlers in
order, the write-back, the spurious path and the error path. -/
def dispatchReturn (pc : Nat) (x : Ret) (s : State) (cfg : Cfg := Config.cfg) : State :=
  match x with
  | .err (.transport op addr) => (s.emit (.irqTransportError op addr)).leaveDispatch
  | .err (.argument _) => s.leaveDispatch
  | .err .transmitBusy => s.leaveDispatch
  | .bytes bs =>
    match pc with
    | 0 =>
      let f := bs.headD 0
      let s1 := { s with flagsSnap := some f }
      if rxDoneFlag f cfg then s1.goTo 1
      else if txDoneFlag f cfg then s1.goTo 2
      else (s1.emit (.spurious f)).leaveDispatch
    | 1 => if txDoneFlag s.snapshot cfg then s.goTo 2 else s.goTo 3
    | 2 => s.goTo 3
    | _ => s.leaveDispatch

/-- registerDump after the read of its `pc`-th address handed back `x` (R253). -/
def dumpReturn (first last : Byte) (pc : Nat) (x : Ret) (s : State) : State :=
  match x with
  | .err e => s.release.returnResult (.error e)
  | .bytes bs =>
    let s1 := s.mapLoc fun l => { l with rows := l.rows ++ [dumpRow (first + BitVec.ofNat 8 pc) (bs.headD 0)] }
    if first.toNat + pc < last.toNat then s1.goTo (pc + 1)
    else s1.release.returnResult (.regs s1.loc.rows)

/-- Whether an operation calls others, frame by frame: the three host commands with frames, and dispatch (R90, R130). -/
def composed (i : Instr) : Bool :=
  match i with
  | .init _ _ _ => true
  | .send _ _ => true
  | .dump _ _ => true
  | .dispatch => true
  | .readByte _ => false
  | .readBlock _ _ => false
  | .writeByte _ _ => false
  | .writeBlock _ _ => false
  | .reset => false
  | .setMode _ => false
  | .setCarrierFrequency _ => false
  | .setPowerAmplifier _ => false
  | .enableRxCrc => false
  | .onReceiveComplete => false
  | .onTransmitComplete => false

/-- The operation the sequencer runs next: the call of the running operation at its position (R39, R90). An internal
operation or a primitive that is itself the running operation is its own one call (log 11). -/
def callAt (r : Run) (s : State) (cfg : Cfg := Config.cfg) : Instr :=
  match r.op with
  | .init hz pa _ => initCallAt hz pa r.pc
  | .send addr pay => sendCallAt addr pay r.pc cfg
  | .dump first _ => .readByte (first + BitVec.ofNat 8 r.pc)
  | .dispatch => dispatchCallAt s.snapshot r.pc cfg
  | .readByte a => .readByte a
  | .readBlock a n => .readBlock a n
  | .writeByte a v => .writeByte a v
  | .writeBlock a bs => .writeBlock a bs
  | .reset => .reset
  | .setMode m => .setMode m
  | .setCarrierFrequency hz => .setCarrierFrequency hz
  | .setPowerAmplifier b => .setPowerAmplifier b
  | .enableRxCrc => .enableRxCrc
  | .onReceiveComplete => .onReceiveComplete
  | .onTransmitComplete => .onTransmitComplete

/-! ### One call -/

/-- Frame `k` of a called operation, and what it hands in. The host commands and dispatch are called by no operation
(R130), so they have none. -/
def callFrame (i : Instr) (k : Nat) (s : State) (cfg : Cfg := Config.cfg) : CallRes :=
  match i with
  | .readByte a => readByteCall a s cfg
  | .readBlock a n => readBlockCall a n s cfg
  | .writeByte a v => writeByteCall a v s cfg
  | .writeBlock a bs => writeBlockCall a bs s cfg
  | .setMode m => setModeFrame m s cfg
  | .setCarrierFrequency hz => setCarrierFrequencyCall hz s cfg
  | .setPowerAmplifier b => setPowerAmplifierCall b s cfg
  | .enableRxCrc => enableRxCrcFrame k s cfg
  | .onReceiveComplete => onReceiveCompleteFrame k s cfg
  | .onTransmitComplete => onTransmitCompleteFrame k s cfg
  | .reset => .done (.bytes []) s
  | .init _ _ _ => .done (.bytes []) s
  | .send _ _ => .done (.bytes []) s
  | .dump _ _ => .done (.bytes []) s
  | .dispatch => .done (.bytes []) s

/-- The actions of a called operation after its frame `k`, which handed in `x`. -/
def callAct (i : Instr) (k : Nat) (x : Ret) (s : State) (cfg : Cfg := Config.cfg) : CallRes :=
  match i with
  | .readByte _ => .done x s
  | .readBlock _ _ => .done x s
  | .writeByte _ _ => .done x s
  | .writeBlock _ _ => .done x s
  | .setMode m => setModeAct m x s
  | .setCarrierFrequency _ => .done x s
  | .setPowerAmplifier _ => .done x s
  | .enableRxCrc => enableRxCrcAct k x s
  | .onReceiveComplete => onReceiveCompleteAct k x s cfg
  | .onTransmitComplete => onTransmitCompleteAct k x s
  | .reset => .done x s
  | .init _ _ _ => .done x s
  | .send _ _ => .done x s
  | .dump _ _ => .done x s
  | .dispatch => .done x s

/-- The actions of the call `i` after its last frame performed, if that is still to be done: the call has a further
frame, or hands something back. -/
def State.actGot (i : Instr) (s : State) (cfg : Cfg := Config.cfg) : State :=
  match s.loc.got with
  | none => s
  | some x =>
    match callAct i s.loc.sub x s cfg with
    | .more s1 => s1.mapLoc fun l => { l with sub := l.sub + 1, got := none }
    | .done y s1 => s1.mapLoc fun l => { l with sub := 0, got := none, ret := some y }
    | .refuse r => s.refuse r

/-- The next frame of the call `i`, its outcome kept in `got`; a refused frame sets the mark and nothing else, the
actions before it included (R276): `s0` is the state before them. -/
def State.issue (i : Instr) (s0 s : State) (cfg : Cfg := Config.cfg) : State :=
  match callFrame i s.loc.sub s cfg with
  | .more s1 => s1
  | .done x s1 => s1.mapLoc fun l => { l with got := some x }
  | .refuse r => s0.refuse r

/-- One atomic step of the call `i` alone (R93): the actions after its frame before, its next frame, and the actions
after that one if it is the call's last. -/
def callTurn (i : Instr) (s : State) (cfg : Cfg := Config.cfg) : State :=
  let s1 := State.issue i s (s.actGot i cfg) cfg
  let s2 := s1.actGot i cfg
  if s2.loc.ret.isSome then s2 else s1

/-! ### The running operation -/

/-- What the running operation `r` does with what its call handed back. -/
def opReturn (r : Run) (x : Ret) (s : State) (cfg : Cfg := Config.cfg) : State :=
  match r.op with
  | .init _ _ crc => initReturn crc r.pc x s
  | .send addr pay => sendReturn addr pay r.pc x s
  | .dump first last => dumpReturn first last r.pc x s
  | .dispatch => dispatchReturn r.pc x s cfg
  | .readByte _ => s.release
  | .readBlock _ _ => s.release
  | .writeByte _ _ => s.release
  | .writeBlock _ _ => s.release
  | .reset => s.release
  | .setMode _ => s.release
  | .setCarrierFrequency _ => s.release
  | .setPowerAmplifier _ => s.release
  | .enableRxCrc => s.release
  | .onReceiveComplete => s.leaveDispatch
  | .onTransmitComplete => s.leaveDispatch

/-- The running operation takes what its call handed back, if the call is over. -/
def handBack (s : State) (cfg : Cfg := Config.cfg) : State :=
  match s.run with
  | none => s
  | some r =>
    match r.loc.ret with
    | none => s
    | some x => opReturn r x s cfg

/-- The actions of the running operation after its last frame performed, those of its call and its own, up to its next
frame or to its end. -/
def settle (s : State) (cfg : Cfg := Config.cfg) : State :=
  match s.run with
  | none => s
  | some r => handBack (s.actGot (callAt r s cfg) cfg) cfg

/-- The actions after a frame at once where they end the operation, and left for its next frame where they do not: "Actions
after the operation's last frame are performed atomically with that frame" (R93). -/
def closeOp (s : State) (cfg : Cfg := Config.cfg) : State :=
  if (settle s cfg).run.isNone then settle s cfg else s

/-- One atomic step of the running operation (R93): the actions after its frame before, its next frame, and the actions
after that one if it is the operation's last. -/
def frameStep (s : State) (cfg : Cfg := Config.cfg) : State :=
  let s1 := settle s cfg
  match s1.run with
  | none => s1
  | some r => closeOp (State.issue (callAt r s1 cfg) s s1 cfg) cfg

/-- The running operation's first frame, and the frames its further turns give it. -/
def runOp (s : State) (cfg : Cfg := Config.cfg) : State :=
  State.drive (fun _ => true) (fun t => frameStep t cfg) s.schedule (frameStep s cfg)

/-- Whether the call of the running operation is still to hand something back. -/
def callOpen (s : State) : Bool := decide (s.loc.ret = none)

/-- A call's first frame, and the frames further turns give it, up to the end of that call. -/
def runCall (i : Instr) (s : State) (cfg : Cfg := Config.cfg) : State :=
  State.drive callOpen (fun t => callTurn i t cfg) s.schedule (callTurn i s cfg)

/-- The meaning of enableRxCrc (R173), as a call by the running operation. -/
def execEnableRxCrc (s : State) (cfg : Cfg := Config.cfg) : Host.Outcome State Fault Refusal :=
  .next (runCall .enableRxCrc s cfg)

/-- The meaning of onReceiveComplete (R210), as a call by dispatch. -/
def execOnReceiveComplete (s : State) (cfg : Cfg := Config.cfg) : Host.Outcome State Fault Refusal :=
  .next (runCall .onReceiveComplete s cfg)

/-- The meaning of onTransmitComplete (R233), as a call by dispatch. -/
def execOnTransmitComplete (s : State) (cfg : Cfg := Config.cfg) : Host.Outcome State Fault Refusal :=
  .next (runCall .onTransmitComplete s cfg)

end Sys2Proof.Machine
end

