-- ==== Sys2Proof/Machine/HostCommands.lean ====
section
/-! DEFINITION. The meanings of the four host commands (R250–R254, R176, R230, R252, R253). -/

namespace Sys2Proof.Machine

/-- The reset sequence under the lock (R252): line low, ChipReset, line high, the block's flags, the result. -/
def resetSequence (s : State) (cfg : Cfg := Config.cfg) : State :=
  let low := { s with resetLine := .low }
  let done := { low with chip := low.chip.reset cfg, resetLine := .high, resetDone := true, initialised := false,
                         mode := none, txBusy := false }
  (done.release.returnResult .ok).edgeSample cfg

/-- The meaning of RESET (R252). While another operation holds the lock it waits: nothing changes. -/
def execReset (s : State) (cfg : Cfg := Config.cfg) : Host.Outcome State Fault Refusal :=
  match s.acquire .app .reset with
  | none => .next s
  | some s1 => .next (resetSequence s1 cfg)

/-- The meaning of INIT (R176): the refusals, ArgumentError before any frame or lock, then the sequence. -/
def execInit (hz : Word32) (paBoost rxPayloadCrcOn : Bool) (s : State) (cfg : Cfg := Config.cfg) :
    Host.Outcome State Fault Refusal :=
  if !s.resetDone then .next (s.refuse .notReset)
  else if s.txBusy then .next (s.refuse .reinitWhileBusy)
  else if !frfValid hz.toNat cfg then .next ((s.returnResult (.error (.argument .frequency))).edgeSample cfg)
  else
    match s.acquire .app (.init hz paBoost rxPayloadCrcOn) with
    | none => .next s
    | some s1 => .next (runOp s1 cfg)

/-- The meaning of SEND (R230): the refusals, the lock, TransmitBusyError before any frame, then the sequence. -/
def execSend (address : Option (List Byte)) (payload : List Byte) (s : State) (cfg : Cfg := Config.cfg) :
    Host.Outcome State Fault Refusal :=
  if !s.resetDone then .next (s.refuse .notReset)
  else if !s.initialised then .next (s.refuse .notInitialised)
  else
    match s.acquire .app (.send address payload) with
    | none => .next s
    | some s1 =>
      if s1.txBusy then .next ((s1.release.returnResult (.error .transmitBusy)).edgeSample cfg)
      else .next (runOp s1 cfg)

/-- The meaning of DUMP (R253): the range check before any frame or lock, then one read per address. -/
def execDump (first last : Byte) (s : State) (cfg : Cfg := Config.cfg) : Host.Outcome State Fault Refusal :=
  if !s.resetDone then .next (s.refuse .notReset)
  else if last.toNat < first.toNat ∨ 0x7F < last.toNat then
    .next ((s.returnResult (.error (.argument .range))).edgeSample cfg)
  else
    match s.acquire .app (.dump first last) with
    | none => .next s
    | some s1 => .next (runOp s1 cfg)

/-- Whether a host command has passed every check that stands before its `acquire`, so that a held lock makes it
wait (R85, R93). -/
def reachesAcquire (i : Instr) (s : State) (cfg : Cfg := Config.cfg) : Bool :=
  match i with
  | .reset => true
  | .init hz _ _ => s.resetDone && !s.txBusy && frfValid hz.toNat cfg
  | .send _ _ => s.resetDone && s.initialised
  | .dump first last => s.resetDone && decide (first.toNat ≤ last.toNat) && decide (last.toNat ≤ 0x7F)
  | .readByte _ => false
  | .readBlock _ _ => false
  | .writeByte _ _ => false
  | .writeBlock _ _ => false
  | .setMode _ => false
  | .setCarrierFrequency _ => false
  | .setPowerAmplifier _ => false
  | .enableRxCrc => false
  | .dispatch => false
  | .onReceiveComplete => false
  | .onTransmitComplete => false

end Sys2Proof.Machine
end

