-- ==== Sys2Proof/Machine/Interrupt.lean ====
section
/-! DEFINITION. The InterruptDispatcher (R190–R199): the meaning of dispatch. -/

namespace Sys2Proof.Machine

/-- The meaning of dispatch (R192): where R191 does not enable it, it waits and nothing changes; else trap entry
(R286) and its frames. -/
def execDispatch (s : State) (cfg : Cfg := Config.cfg) : Host.Outcome State Fault Refusal :=
  if s.dispatchEnabled then .next (runOp s.enterDispatch cfg) else .next s

end Sys2Proof.Machine
end

