-- ==== Sys2Proof/Machine/Dispatch.lean ====
section
/-! DEFINITION. exec: one arm per operation, one direct call of its meaning. -/

namespace Sys2Proof.Machine

def exec (i : Instr) (s : State) : Host.Outcome State Fault Refusal :=
  match i with
  | .readByte addr => Sys2Proof.Machine.execReadByte addr s
  | .readBlock addr length => Sys2Proof.Machine.execReadBlock addr length s
  | .writeByte addr value => Sys2Proof.Machine.execWriteByte addr value s
  | .writeBlock addr bytes => Sys2Proof.Machine.execWriteBlock addr bytes s
  | .reset => Sys2Proof.Machine.execReset s
  | .init hz paBoost rxPayloadCrcOn => Sys2Proof.Machine.execInit hz paBoost rxPayloadCrcOn s
  | .send address payload => Sys2Proof.Machine.execSend address payload s
  | .dump first last => Sys2Proof.Machine.execDump first last s
  | .setMode m => Sys2Proof.Machine.execSetMode m s
  | .setCarrierFrequency hz => Sys2Proof.Machine.execSetCarrierFrequency hz s
  | .setPowerAmplifier boost => Sys2Proof.Machine.execSetPowerAmplifier boost s
  | .enableRxCrc => Sys2Proof.Machine.execEnableRxCrc s
  | .dispatch => Sys2Proof.Machine.execDispatch s
  | .onReceiveComplete => Sys2Proof.Machine.execOnReceiveComplete s
  | .onTransmitComplete => Sys2Proof.Machine.execOnTransmitComplete s

end Sys2Proof.Machine
end

