-- ==== Sys2Proof/Machine/Agents.lean ====
section
/-! DEFINITION. The agents' turns (R292): where the next operation is fetched from (x[run] for a running operation,
the host port, the edge latch) and its run by exec, with the same at any configuration (R9). Also the placing of an
opcode-table word where it is fetched. -/

namespace Sys2Proof.Machine

/-- The refusal a rejected command meets (R251). -/
def decodeRefusal : DecodeError → RefusalReason
  | .unknownCommand => .unknownCommand
  | .malformedCommand => .malformedCommand
  | .emptyFrame => .malformedCommand
  | .unknownTag => .unknownCommand
  | .malformedOperands => .malformedCommand

/-- The meaning of every operation at a built configuration. -/
def meaningAt (cfg : Cfg) (i : Instr) (s : State) : Host.Outcome State Fault Refusal :=
  match i with
  | .readByte addr => execReadByte addr s cfg
  | .readBlock addr length => execReadBlock addr length s cfg
  | .writeByte addr value => execWriteByte addr value s cfg
  | .writeBlock addr bytes => execWriteBlock addr bytes s cfg
  | .reset => execReset s cfg
  | .init hz paBoost rxPayloadCrcOn => execInit hz paBoost rxPayloadCrcOn s cfg
  | .send address payload => execSend address payload s cfg
  | .dump first last => execDump first last s cfg
  | .setMode m => execSetMode m s cfg
  | .setCarrierFrequency hz => execSetCarrierFrequency hz s cfg
  | .setPowerAmplifier boost => execSetPowerAmplifier boost s cfg
  | .enableRxCrc => execEnableRxCrc s cfg
  | .dispatch => execDispatch s cfg
  | .onReceiveComplete => execOnReceiveComplete s cfg
  | .onTransmitComplete => execOnTransmitComplete s cfg

/-- The meaning of every operation, as a function of the configuration record: at `Config.cfg` it is exec. A record that
is ill-formed is refused when the configuration is built, and nothing runs (R112). -/
def execAt (cfg : Cfg) (i : Instr) (s : State) : Host.Outcome State Fault Refusal :=
  match cfg.build with
  | .error e => .refused (.illFormedConfig e)
  | .ok c => meaningAt c i s

/-- How a turn runs an operation: exec, or, for an overridden configuration, the meanings at that record. -/
abbrev Meaning := Instr → State → Host.Outcome State Fault Refusal

/-- The running operation's next step. One that calls others takes its next frame (R93); an internal operation or a
primitive that is itself the running operation is run by its meaning, and ends when it returns (log 11). -/
def State.resume (s : State) (r : Run) (cfg : Cfg := Config.cfg) (run : Meaning := exec) :
    Host.Outcome State Fault Refusal :=
  if composed r.op then .next (frameStep s cfg)
  else
    match run r.op s with
    | .next s1 => .next (handBack s1 cfg)
    | .fault f => .fault f
    | .refused x => .refused x

/-- `HostStep(cmd)` (R250) on the oldest command of the port. A command that must wait for the lock stays on the
port (R85); a command that decodes to nothing is refused (R251). -/
def State.hostStep (s : State) (cfg : Cfg := Config.cfg) (run : Meaning := exec) : Host.Outcome State Fault Refusal :=
  match s.port with
  | [] => .next s
  | c :: rest =>
    match decodeHost c with
    | .error e => .next (s.refuse (decodeRefusal e))
    | .ok i =>
      if s.lock.isSome && reachesAcquire i s cfg then .next s
      else run i { s with port := rest }

/-- The App context's turn (R292). -/
def State.appTurn (s : State) (cfg : Cfg := Config.cfg) (run : Meaning := exec) : Host.Outcome State Fault Refusal :=
  match s.run with
  | some r => if r.ctx = .app then s.resume r cfg run else s.hostStep cfg run
  | none => s.hostStep cfg run

/-- The Irq context's turn (R292). -/
def State.irqTurn (s : State) (cfg : Cfg := Config.cfg) (run : Meaning := exec) : Host.Outcome State Fault Refusal :=
  match s.run with
  | some r => if r.ctx = .irq then s.resume r cfg run else .next s
  | none => run .dispatch s

/-- One turn of the schedule (R292). -/
def State.takeTurn (s : State) (t : Turn) (cfg : Cfg := Config.cfg) (run : Meaning := exec) :
    Host.Outcome State Fault Refusal :=
  match t with
  | .app b => State.appTurn { s with bus := b } cfg run
  | .irq b => State.irqTurn { s with bus := b } cfg run
  | .chip e => .next (s.chipTurn e cfg)
  | .host c => .next { s with port := s.port ++ [c] }

/-- The schedule's next turn, or a free one where the schedule holds none (R292; log 1). While the refusal mark is set no
agent steps (R51). -/
def State.nextTurn (s : State) (cfg : Cfg := Config.cfg) (run : Meaning := exec) : Host.Outcome State Fault Refusal :=
  match s.refused with
  | some r => .refused (.marked r)
  | none =>
    match s.schedule with
    | t :: ts => State.takeTurn { s with schedule := ts } t cfg run
    | [] => State.takeTurn { s with tick := s.tick + 1 } (Config.freeTurn s.tick) cfg run

/-- One step of the machine at any configuration record (R9); `step` is the one at `Config.cfg`. A record that is
ill-formed is refused when the configuration is built, and no machine steps (R112). -/
def stepAt (cfg : Cfg) (s : State) : Host.Outcome State Fault Refusal :=
  match cfg.build with
  | .error e => .refused (.illFormedConfig e)
  | .ok c => s.nextTurn c (meaningAt c)

/-- The state in which nothing runs and nothing is refused. -/
def State.idleFor (s : State) : State :=
  { s with run := none, lock := none, disp := .idle, flagsSnap := none, refused := none }

/-- The state in which the sequencer holds `op` for a context and its turn is next. An operation runs only since a
RESET (R31, R250). -/
def State.holding (s : State) (ctx : Ctx) (op : Instr) (pc : Nat) (t : Turn) : State :=
  { s.idleFor with resetDone := true, lock := some ctx, run := some { ctx := ctx, op := op, pc := pc, loc := Locals.fresh },
                   schedule := t :: s.schedule }

/-- `s` with the command `c` as the port's oldest command and the App context's turn next. -/
def State.withCommand (s : State) (c : List Byte) : State :=
  { s.idleFor with port := c :: s.port, schedule := .app .ok :: s.schedule }

/-- `s` with an opcode-table word placed where the machine fetches it next (log 11): a host command on the port, an
internal operation or a frame's primitive in x[run], a handler there in the Irq context, and dispatch as a latched edge
that is enabled. -/
def State.placeWord (s : State) (nbits w : Nat) : State :=
  match decodeTableWord nbits w with
  | none => s.withCommand (tableBytes nbits w)
  | some i =>
    match i.format with
    | .hostCommand => s.withCommand (tableBytes nbits w)
    | .spiFrame => s.holding .app i 0 (.app .ok)
    | .internalOp =>
      match i with
      | .dispatch =>
        { s.idleFor with edgePending := true, resetDone := true, schedule := .irq .ok :: s.schedule }
      | .onReceiveComplete =>
        { s.holding .irq i 0 (.irq .ok) with disp := .servicing, flagsSnap := some (bitByte Config.cfg.irqRxDone) }
      | .onTransmitComplete =>
        { s.holding .irq i 0 (.irq .ok) with disp := .servicing, flagsSnap := some (bitByte Config.cfg.irqTxDone) }
      | _ => s.holding .app i 0 (.app .ok)

end Sys2Proof.Machine
end

