-- ==== Sys2Proof/Safety.lean ====
section
/-! DEFINITION. What a reachable state of the block looks like between two steps, in the spec's own derived claims:
the lock and the running operation go together (R39), the dispatcher's state and its snapshot (R35, R38), the pins
(R40), the order of the boot flags (R31, R32), and the operations the sequencer can hold (R130). Also quiescence (R257)
and what a caller of a frame must hold (R70); at the end, the words the statements compare chips and states in. -/

namespace Sys2Proof.Machine

/-- The chip's two memories are canonical and inside their address spaces (R42, R43, R84). -/
def State.MemOk (s : State) : Prop :=
  Memory.wf Config.regCount s.chip.regs = true ∧ Memory.wf Config.fifoSize s.chip.fifo = true

/-- `x[run] ≠ none` exactly when `x[lock] ≠ none`, and the owner is the running context (R37, R39). -/
def State.LockOk (s : State) : Prop := s.lock = s.run.map Run.ctx

/-- Servicing exactly while the Irq context holds the lock, and no snapshot outside Servicing (R35, R38, R197). -/
def State.DispOk (s : State) : Prop :=
  (s.disp = .servicing ↔ s.lock = some .irq) ∧ (s.disp = .idle → s.flagsSnap = none)

/-- Chip-select is deasserted and the reset line high between steps (R40). -/
def State.PinsOk (s : State) : Prop := s.cs = false ∧ s.resetLine = .high

/-- `x[initialised]` is true only since a RESET (R31, R32). -/
def State.BootOk (s : State) : Prop := s.initialised = true → s.resetDone = true

/-- What the sequencer holds for a running operation: INIT, SEND or DUMP in the App context or dispatch in the Irq
context (R130, R289), with no value handed back and not yet taken, after a RESET (R31); a dump's position stays
inside its checked range (R253), and dispatch has its snapshot from its second step on (R38). -/
def Run.Ok (s : State) (r : Run) : Prop :=
  r.loc.ret = none ∧ s.resetDone = true ∧
  match r.op with
  | .init _ _ _ => r.ctx = .app
  | .send _ _ => r.ctx = .app
  | .dump first last => r.ctx = .app ∧ first.toNat + r.pc ≤ last.toNat ∧ last.toNat ≤ 0x7F
  | .dispatch => r.ctx = .irq ∧ (1 ≤ r.pc → s.flagsSnap.isSome = true)
  | _ => False

/-- `Run.Ok` of the running operation, if there is one. -/
def State.RunOk (s : State) : Prop := ∀ r, s.run = some r → Run.Ok s r

/-- The block's invariant between two steps. -/
structure State.Inv (s : State) : Prop where
  mem : s.MemOk
  lock : s.LockOk
  disp : s.DispOk
  pins : s.PinsOk
  boot : s.BootOk
  run : s.RunOk

/-- Quiescent (R257): no host command runs, the lock is free, the dispatcher Idle, no edge pending. -/
def State.quiescent (s : State) : Bool :=
  decide (s.run = none) && decide (s.lock = none) && decide (s.disp = .idle) && !s.edgePending

/-- The operation `r` runs, holds the lock for its context, and the block has been reset: a frame of it is not refused
by R70. -/
def State.CanFrame (s : State) (r : Run) : Prop :=
  s.run = some r ∧ s.lock = some r.ctx ∧ s.resetDone = true

/-- The turn `t` goes to the context `x` and its frame meets no bus failure. -/
def OwnTurn (x : Ctx) (t : Turn) : Prop := turnCtx t = some x ∧ turnBus t = .ok

/-- Every register address but those of the listed registers holds what it held. -/
def Chip.RegsKept (but : List Reg) (c d : Chip) : Prop :=
  ∀ a, (∀ q ∈ but, a ≠ (regAddr q).toNat) → d.regAtAddr a = c.regAtAddr a

/-- Every FIFO cell holds what it held. -/
def Chip.FifoKept (c d : Chip) : Prop := ∀ i, d.fifoCell i = c.fifoCell i

/-- The packet in flight and the log of sent packets are as they were (R52). -/
def Chip.RadioKept (c d : Chip) : Prop := d.txPkt = c.txPkt ∧ d.air = c.air

/-- The modem-scheme flag in the op-mode register is LoRa (R44). -/
def Chip.InLoRa (c : Chip) : Prop := loraBit (c.reg .opMode) = true

/-- A read of the named register returns its value: it is not the FIFO port, and not on the page that belongs to FSK
while the LoRa bit is 0 (R76). -/
def Chip.Readable (c : Chip) (q : Reg) : Prop := q ≠ .fifo ∧ (fskPage (regAddr q).toNat = true → c.InLoRa)

/-- The chip's mode field is Sleep or Standby (R79). -/
def Chip.InSleepOrStandby (c : Chip) : Prop :=
  modeField (c.reg .opMode) = modeCode .sleep ∨ modeField (c.reg .opMode) = modeCode .standby

/-- A register a write simply stores into (R77, last branch, and the frequency and PA registers of R79). -/
def storageReg (q : Reg) : Bool :=
  !decide (q = .fifo) && !decide (q = .irqFlags) && !decide (q = .opMode) && !readOnlyReg q

/-- A write of the storage register stores the value written (R77, R79). -/
def Chip.Stores (c : Chip) (q : Reg) : Prop :=
  storageReg q = true ∧ (sleepOnlyReg q = true → c.InSleepOrStandby)

/-- The state after the last frame of a call by the running operation `r`: the frame in the trace, the chip after it,
chip-select deasserted, the edge detector's sample (R190), and `x` handed to `r`. Nothing else changes. -/
def State.afterCall (s : State) (r : Run) (out : List Byte) (inp : Option (List Byte)) (c : Chip) (x : Ret) : State :=
  { s with chip := c, cs := false, busTrace := s.busTrace ++ [{ ctx := r.ctx, out := out, inp := inp }],
           edgePending := s.edgePending || (c.dio0 && !s.lineLast), lineLast := c.dio0,
           run := some { r with loc := { r.loc with sub := 0, ret := some x } } }

/-- The frames `fs` were issued by the context `x`, with these bytes out, and all completed. -/
def FramesOut (x : Ctx) (fs : List Frame) (outs : List (List Byte)) : Prop :=
  fs.map Frame.out = outs ∧ ∀ f ∈ fs, f.ctx = x ∧ f.inp.isSome = true

end Sys2Proof.Machine
end

