-- ==== Sys2Proof/Certificates/Slice0/Obligations.lean ====
section
/-! DEFINITION. The statements for the provers, from the spec's numbered rules: encodings, the step, the transport
primitives, the internal operations, the host commands, dispatch and its handlers, the chip, and the invariants. -/

section

open Sys2Proof Sys2Proof.Machine

/-! ### Encodings and decoding -/

/-- Decode and encode agree: every well-formed operation is read back from its bytes, a one-byte block as the
single-byte access whose frame it shares (R111–R113, R124–R128, R130; the operand bytes of the internal operations are
the model's, log 12). -/
def Obligations.DecodeEncodeRoundTrip : Prop :=
  ∀ i : Instr, i.wf = true → decode i.format (encode i) = .ok i.canonical

/-- `Decode` of R251, clause by clause. -/
def Obligations.HostDecodeTable : Prop :=
  decodeHost [0x01] = .ok .reset ∧
  (∀ h3 h2 h1 h0 o : Byte, o &&& 0xFC = 0 →
    decodeHost [0x02, h3, h2, h1, h0, o] =
      .ok (.init (BitVec.ofNat 32 (h3.toNat * 2 ^ 24 + h2.toNat * 2 ^ 16 + h1.toNat * 2 ^ 8 + h0.toNat))
        (o.getLsbD 0) (o.getLsbD 1))) ∧
  (∀ (A P : Byte) (rest : List Byte), rest.length = A.toNat + P.toNat →
    decodeHost (0x03 :: A :: P :: rest) =
      .ok (.send (if A = 0 then none else some (rest.take A.toNat)) (rest.drop A.toNat))) ∧
  (∀ s e : Byte, decodeHost [0x04, s, e] = .ok (.dump s e)) ∧
  (∀ (op : Byte) (rest : List Byte), op ≠ 0x01 → op ≠ 0x02 → op ≠ 0x03 → op ≠ 0x04 →
    decodeHost (op :: rest) = .error .unknownCommand) ∧
  (∀ c : List Byte, (∀ op rest, c = op :: rest → op = 0x01 ∨ op = 0x02 ∨ op = 0x03 ∨ op = 0x04) → c ≠ [0x01] →
    (∀ h3 h2 h1 h0 o : Byte, c = [0x02, h3, h2, h1, h0, o] → o &&& 0xFC ≠ 0) →
    (∀ (A P : Byte) (rest : List Byte), c = 0x03 :: A :: P :: rest → rest.length ≠ A.toNat + P.toNat) →
    (∀ s e : Byte, c ≠ [0x04, s, e]) → decodeHost c = .error .malformedCommand)

/-- A command the port accepts is a well-formed host command, and it has no other encoding (R124–R128). -/
def Obligations.HostCommandsReencode : Prop :=
  ∀ (c : List Byte) (i : Instr), decodeHost c = .ok i → i.wf = true ∧ i.format = .hostCommand ∧ encode i = c

/-- A rejected command changes nothing but the refusal mark (R129). That the refusal is a next state with the mark set is
read from the spec by inference (log 10); that the rejected bytes stay at the head of the port queue, and that the turn
and its bus draw are used up, is the model's choice (log 26). -/
def Obligations.RejectedCommandSetsOnlyTheMark : Prop :=
  ∀ (s : State) (b : BusResult) (ts : List Turn) (c : List Byte) (rest : List (List Byte)),
    s.refused = none → s.schedule = .app b :: ts → (∀ r, s.run = some r → r.ctx = .irq) → s.port = c :: rest →
    (decodeHost c = .error .unknownCommand →
      step s = .next { s with schedule := ts, bus := b, refused := some .unknownCommand }) ∧
    (decodeHost c = .error .malformedCommand →
      step s = .next { s with schedule := ts, bus := b, refused := some .malformedCommand })

/-- Words written out from the spec's encodings decode to the operations they stand for (R135, R132, R130; the operand
bytes of the internal operations are the model's, log 12). -/
def Obligations.SampleWordsDecode : Prop :=
  decode .spiFrame [0x12, 0x00] = .ok (.readByte 0x12) ∧
  decode .spiFrame [0xA2, 0x02] = .ok (.writeByte 0x22 0x02) ∧
  decode .spiFrame [0x00, 0x00, 0x00, 0x00, 0x00, 0x00] = .ok (.readBlock 0x00 5) ∧
  decode .spiFrame [0x86, 0xE4, 0xC0, 0x00] = .ok (.writeBlock 0x06 [0xE4, 0xC0, 0x00]) ∧
  decode .hostCommand [0x01] = .ok .reset ∧
  decode .hostCommand [0x02, 0x36, 0x89, 0xCA, 0xC0, 0x03] = .ok (.init 915000000 true true) ∧
  decode .hostCommand [0x03, 0x02, 0x02, 0x41, 0x42, 0x48, 0x69] = .ok (.send (some [0x41, 0x42]) [0x48, 0x69]) ∧
  decode .hostCommand [0x04, 0x06, 0x08] = .ok (.dump 0x06 0x08) ∧
  decode .internalOp [0x88, 0x05] = .ok (.setMode .receiveContinuous) ∧
  decode .internalOp [0x90] = .ok .dispatch ∧
  decode .hostCommand [0x90] = .error .unknownCommand

/-! ### The step -/

/-- The host's turn places its command at the end of the port and does nothing else; the App context's turn with a
command on the port, no operation running, and nothing to wait for, runs the decoded command (R250, R292). The model
moves the command off the port and the turn off the schedule (log 1, 15). -/
def Obligations.StepRunsPortCommand : Prop :=
  (∀ (s : State) (ts : List Turn) (c : List Byte), s.refused = none → s.schedule = .host c :: ts →
    step s = .next { s with schedule := ts, port := s.port ++ [c] }) ∧
  (∀ (s : State) (b : BusResult) (ts : List Turn) (c : List Byte) (rest : List (List Byte)) (i : Instr),
    s.refused = none → s.schedule = .app b :: ts → s.run = none → s.lock = none → s.port = c :: rest →
    decodeHost c = .ok i → step s = exec i { s with schedule := ts, bus := b, port := rest })

/-- A turn of the running operation's context is one step of that operation (R39, R93). An operation in x[run] that calls
no other runs by exec and hands back: no run of the block reaches this, and it is the model's choice (log 11). One that
calls others first performs the actions its last frame left (`settle`), then issues the next frame of its call, as exec
of that call does; the actions after that frame are performed with it if it is the operation's last, and otherwise left
to the next frame, with nothing but the chip, the trace, the edge detector and the kept outcome changed: the model's
reading of R93, by inference (log 30). A refused frame sets the mark and nothing else (R276), and the actions that would
come with it stay pending (log 10, 30). An operation that starts goes on over further own turns as those steps do, which
is the model's choice (log 2). -/
def Obligations.StepRunsTheRunningCall : Prop :=
  (∀ (s : State) (t : Turn) (ts : List Turn) (r : Run) (u : State),
    s.refused = none → s.schedule = t :: ts → s.run = some r → turnCtx t = some r.ctx → composed r.op = false →
    exec r.op { s with schedule := ts, bus := turnBus t } = .next u → step s = .next (handBack u)) ∧
  (∀ (s s1 u : State) (t : Turn) (ts : List Turn) (r r1 : Run),
    s.refused = none → s.schedule = t :: ts → s.run = some r → turnCtx t = some r.ctx → composed r.op = true →
    (∀ x xs, ts = x :: xs → turnCtx x ≠ some r.ctx) →
    s1 = settle { s with schedule := ts, bus := turnBus t } → s1.run = some r1 →
    exec (callAt r1 s1) s1 = .next u →
    (u.refused = none → ∃ v, step s = .next v ∧ settle v = settle u ∧
      ((settle u).run = none → v = settle u) ∧
      ((settle u).run ≠ none → ∃ x, v =
        { s1 with chip := u.chip, cs := u.cs, busTrace := u.busTrace, edgePending := u.edgePending,
                  lineLast := u.lineLast, run := some { r1 with loc := { r1.loc with got := some x } } })) ∧
    (∀ e, u.refused = some e →
      step s = .next { s with schedule := ts, bus := turnBus t, refused := some e })) ∧
  (∀ (s v : State) (i : Instr) (l : List Turn) (x : Turn) (r : Run),
    s.run = none → s.lock = none → composed i = true → exec i { s with schedule := l } = .next v →
    v.schedule = [] → v.refused = none → v.run = some r → turnCtx x = some r.ctx →
    exec i { s with schedule := l ++ [x] } = step { v with schedule := [x] })

/-- The Irq context's turn, with no operation running, runs dispatch (R191, R292). -/
def Obligations.StepRunsDispatch : Prop :=
  ∀ (s : State) (b : BusResult) (ts : List Turn), s.refused = none → s.schedule = .irq b :: ts → s.run = none →
    step s = exec .dispatch { s with schedule := ts, bus := b }

/-- While the refusal mark is set no agent takes a step, and nothing clears the mark (R51). The step is refused by
name (log 10). -/
def Obligations.MarkedMachineStops : Prop :=
  ∀ (s : State) (x : RefusalReason), s.refused = some x → step s = .refused (.marked x)

/-- A host command that reaches its `acquire` while the lock is held holds (R85). That it stays on the port, and that its
turn and the turn's bus draw are used up and change nothing else, is the model's choice (log 15). -/
def Obligations.CommandWaitsForTheLock : Prop :=
  ∀ (s : State) (b : BusResult) (ts : List Turn) (c : List Byte) (rest : List (List Byte)) (i : Instr),
    s.refused = none → s.schedule = .app b :: ts → (∀ r, s.run = some r → r.ctx = .irq) → s.lock = some .irq →
    s.port = c :: rest → decodeHost c = .ok i → s.resetDone = true →
    (∀ hz pa crc, i = .init hz pa crc → s.txBusy = false ∧ hz.toNat < 1024000000) →
    (∀ a p, i = .send a p → s.initialised = true) →
    (∀ x y, i = .dump x y → x.toNat ≤ y.toNat ∧ y.toNat ≤ 0x7F) →
    step s = .next { s with schedule := ts, bus := b }

/-- A step appends to the bus trace, to the event port and to the record of sent packets, and rewrites none of them
(R41, R52). -/
def Obligations.LogsOnlyGrow : Prop :=
  ∀ s t : State, step s = .next t →
    (∃ l, t.busTrace = s.busTrace ++ l) ∧ (∃ l, t.events = s.events ++ l) ∧ (∃ l, t.chip.air = s.chip.air ++ l)

/-! ### The transport primitives -/

/-- readByte completes at every register address: one frame `[addr, 0x00]`, the second byte returned, no register
changed but the FIFO pointer when the address is the FIFO port, no FIFO cell changed (R150, R76). Addresses, codes and
bit places are the spec's defaults (log 7, 8). -/
def Obligations.ReadByteReturnsTheRegister : Prop :=
  ∀ (s : State) (r : Run) (a : Byte), s.CanFrame r → s.bus = .ok → a.getLsbD 7 = false →
    ∃ v0 v d, exec (.readByte a) s = .next (s.afterCall r [a, 0x00] (some [v0, v]) d (.bytes [v])) ∧
      Chip.FifoKept s.chip d ∧ Chip.RadioKept s.chip d ∧
      (a = 0x00 → v = s.chip.fifoCell (s.chip.reg .fifoAddrPtr) ∧
        d.reg .fifoAddrPtr = s.chip.reg .fifoAddrPtr + 1 ∧ Chip.RegsKept [.fifoAddrPtr] s.chip d) ∧
      (a ≠ 0x00 → Chip.RegsKept [] s.chip d) ∧
      (∀ q, a = regAddr q → s.chip.Readable q → v = s.chip.reg q)

/-- writeByte completes at every address of the register map, and the chip does with the byte what R77 says of that
register; nothing else changes (R152, R77, R79, R283). Addresses, codes and bit places are the spec's defaults (log 7,
8). -/
def Obligations.WriteByteWritesTheRegister : Prop :=
  ∀ (s : State) (r : Run) (q : Reg) (v : Byte), s.CanFrame r → s.bus = .ok →
    ∃ i0 i1 d, exec (.writeByte (regAddr q) v) s =
        .next (s.afterCall r [0x80 ||| regAddr q, v] (some [i0, i1]) d (.bytes [])) ∧
      d.air = s.chip.air ∧
      (q = .fifo → d.fifoCell (s.chip.reg .fifoAddrPtr) = v ∧
        (∀ i, i ≠ s.chip.reg .fifoAddrPtr → d.fifoCell i = s.chip.fifoCell i) ∧
        d.reg .fifoAddrPtr = s.chip.reg .fifoAddrPtr + 1 ∧ Chip.RegsKept [.fifoAddrPtr] s.chip d) ∧
      (q ≠ .fifo → Chip.RegsKept [q] s.chip d) ∧
      (q ≠ .fifo → q ≠ .opMode → Chip.FifoKept s.chip d) ∧
      (q ≠ .opMode → d.txPkt = s.chip.txPkt) ∧
      (q = .irqFlags → d.reg q = s.chip.reg q &&& ~~~v) ∧
      (readOnlyReg q = true → d.reg q = s.chip.reg q) ∧
      (s.chip.Stores q → d.reg q = v) ∧
      (q = .opMode → d.reg q = v ∧ (v &&& 0x07 ≠ 0x00 → Chip.FifoKept s.chip d) ∧
        (v &&& 0x87 ≠ 0x83 → d.txPkt = none) ∧
        (v &&& 0x87 = 0x83 → ∃ pkt, d.txPkt = some pkt ∧ pkt.length = (s.chip.reg .payloadLength).toNat ∧
          ∀ k, k < pkt.length →
            pkt[k]? = some (s.chip.fifoCell (s.chip.reg .fifoTxBaseAddr + BitVec.ofNat 8 k))))

/-- readBlock on the FIFO port: one frame of `n + 1` bytes, the `n` cells from the pointer on, modulo 256, and the
pointer moved by `n` (R151, R75, R43). Addresses, codes and bit places are the spec's defaults (log 7, 8). -/
def Obligations.ReadBlockDrainsTheFifo : Prop :=
  ∀ (s : State) (r : Run) (n : Nat), s.CanFrame r → s.bus = .ok →
    ∃ v0 vs d, exec (.readBlock 0x00 n) s =
        .next (s.afterCall r (0x00 :: List.replicate n 0x00) (some (v0 :: vs)) d (.bytes vs)) ∧
      vs.length = n ∧
      (∀ k, k < n → vs[k]? = some (s.chip.fifoCell (s.chip.reg .fifoAddrPtr + BitVec.ofNat 8 k))) ∧
      d.reg .fifoAddrPtr = s.chip.reg .fifoAddrPtr + BitVec.ofNat 8 n ∧ Chip.RegsKept [.fifoAddrPtr] s.chip d ∧
      Chip.FifoKept s.chip d ∧ Chip.RadioKept s.chip d

/-- readBlock on the registers: the burst walks `addr .. addr + n - 1` and changes nothing (R151, R75, R76).
Addresses, codes and bit places are the spec's defaults (log 7, 8). -/
def Obligations.ReadBlockReadsTheRegisters : Prop :=
  ∀ (s : State) (r : Run) (a : Byte) (n : Nat), s.CanFrame r → s.bus = .ok → a.getLsbD 7 = false → a ≠ 0x00 →
    a.toNat + n ≤ 128 →
    ∃ v0 vs d, exec (.readBlock a n) s =
        .next (s.afterCall r (a :: List.replicate n 0x00) (some (v0 :: vs)) d (.bytes vs)) ∧
      vs.length = n ∧
      (∀ k q, k < n → a.toNat + k = (regAddr q).toNat → s.chip.Readable q → vs[k]? = some (s.chip.reg q)) ∧
      Chip.RegsKept [] s.chip d ∧ Chip.FifoKept s.chip d ∧ Chip.RadioKept s.chip d

/-- writeBlock on the FIFO port: the whole byte string in one frame, each byte in its cell from the pointer on, modulo
256 (a longer burst than the FIFO leaves its last 256 bytes), the pointer moved by the length (R153, R91, R43).
Addresses, codes and bit places are the spec's defaults (log 7, 8). -/
def Obligations.WriteBlockFillsTheFifo : Prop :=
  ∀ (s : State) (r : Run) (bs : List Byte), s.CanFrame r → s.bus = .ok →
    ∃ inp d, exec (.writeBlock 0x00 bs) s = .next (s.afterCall r (0x80 :: bs) (some inp) d (.bytes [])) ∧
      inp.length = bs.length + 1 ∧
      (∀ k, k < bs.length → bs.length ≤ k + 256 →
        some (d.fifoCell (s.chip.reg .fifoAddrPtr + BitVec.ofNat 8 k)) = bs[k]?) ∧
      (∀ i, (∀ k, k < bs.length → i ≠ s.chip.reg .fifoAddrPtr + BitVec.ofNat 8 k) →
        d.fifoCell i = s.chip.fifoCell i) ∧
      d.reg .fifoAddrPtr = s.chip.reg .fifoAddrPtr + BitVec.ofNat 8 bs.length ∧
      Chip.RegsKept [.fifoAddrPtr] s.chip d ∧ Chip.RadioKept s.chip d

/-- writeBlock on consecutive registers of the map: one frame, each byte written to the next register, no other
register changed (R153, R75, R77, R91). Addresses, codes and bit places are the spec's defaults (log 7, 8). -/
def Obligations.WriteBlockWritesTheRegisters : Prop :=
  ∀ (s : State) (r : Run) (a : Byte) (bs : List Byte), s.CanFrame r → s.bus = .ok → a.getLsbD 7 = false →
    a ≠ 0x00 → (∀ k, k < bs.length → ∃ q, a.toNat + k = (regAddr q).toNat) →
    ∃ inp d, exec (.writeBlock a bs) s = .next (s.afterCall r ((0x80 ||| a) :: bs) (some inp) d (.bytes [])) ∧
      inp.length = bs.length + 1 ∧
      (∀ x, x < a.toNat ∨ a.toNat + bs.length ≤ x → d.regAtAddr x = s.chip.regAtAddr x) ∧
      (∀ k q v, a.toNat + k = (regAddr q).toNat → bs[k]? = some v →
        (s.chip.Stores q → d.reg q = v) ∧ (q = .opMode → d.reg q = v) ∧
        (q = .irqFlags → d.reg q = s.chip.reg q &&& ~~~v) ∧ (readOnlyReg q = true → d.reg q = s.chip.reg q)) ∧
      (a ≠ 0x01 → Chip.FifoKept s.chip d ∧ Chip.RadioKept s.chip d) ∧ d.air = s.chip.air

/-- A primitive whose frame the bus fails after `k` bytes raises TransportError naming itself and its address, with
that one frame in the trace as failed, no retry, and the chip as the processed prefix left it; a prefix without a data
byte changes no chip register and no FIFO cell (R72, R156, R271). The draw of the failing frame stands in the field
`bus` (log 4). -/
def Obligations.FailedFrameRaisesTransportError : Prop :=
  ∀ (s : State) (r : Run) (a : Byte) (k : Nat), s.CanFrame r → s.bus = .fail k → a.getLsbD 7 = false →
    (∃ i d, s.chip.frame ([a, 0x00].take k) = .ok (i, d) ∧
      exec (.readByte a) s = .next (s.afterCall r [a, 0x00] none d (.err (.transport .readByte a)))) ∧
    (∀ v i d, s.chip.frame ([0x80 ||| a, v].take k) = .ok (i, d) →
      exec (.writeByte a v) s = .next (s.afterCall r [0x80 ||| a, v] none d (.err (.transport .writeByte a)))) ∧
    (∀ n i d, s.chip.frame ((a :: List.replicate n 0x00).take k) = .ok (i, d) →
      exec (.readBlock a n) s =
        .next (s.afterCall r (a :: List.replicate n 0x00) none d (.err (.transport .readBlock a)))) ∧
    (∀ bs i d, s.chip.frame (((0x80 ||| a) :: bs).take k) = .ok (i, d) →
      exec (.writeBlock a bs) s =
        .next (s.afterCall r ((0x80 ||| a) :: bs) none d (.err (.transport .writeBlock a)))) ∧
    (k ≤ 1 → ∀ out : List Byte, ∃ i d, s.chip.frame (out.take k) = .ok (i, d) ∧ Chip.RegsKept [] s.chip d ∧
      Chip.FifoKept s.chip d ∧ Chip.RadioKept s.chip d)

/-- What a primitive is refused for, in order: an address with bit 7 set, a caller that does not hold the lock, no
RESET yet; a write to an address the map does not name; a burst past 0x7F, whatever its bytes would meet before. A
refusal sets the mark and nothing else (R112, R70, R80, R276). Addresses, codes and bit places are the spec's defaults
(log 7, 8). A refusal is a next state with the mark set (log 10). -/
def Obligations.PrimitiveRefusals : Prop :=
  ∀ (s : State) (a v : Byte) (n : Nat) (bs : List Byte), s.refused = none →
    (a.getLsbD 7 = true →
      exec (.readByte a) s = .next { s with refused := some .badAddress } ∧
      exec (.readBlock a n) s = .next { s with refused := some .badAddress } ∧
      exec (.writeByte a v) s = .next { s with refused := some .badAddress } ∧
      exec (.writeBlock a bs) s = .next { s with refused := some .badAddress }) ∧
    (a.getLsbD 7 = false → (∀ r, s.run = some r → s.lock ≠ some r.ctx) →
      exec (.readByte a) s = .next { s with refused := some .noLock } ∧
      exec (.readBlock a n) s = .next { s with refused := some .noLock } ∧
      exec (.writeByte a v) s = .next { s with refused := some .noLock } ∧
      exec (.writeBlock a bs) s = .next { s with refused := some .noLock }) ∧
    (∀ r, a.getLsbD 7 = false → s.run = some r → s.lock = some r.ctx → s.resetDone = false →
      exec (.readByte a) s = .next { s with refused := some .notReset } ∧
      exec (.readBlock a n) s = .next { s with refused := some .notReset } ∧
      exec (.writeByte a v) s = .next { s with refused := some .notReset } ∧
      exec (.writeBlock a bs) s = .next { s with refused := some .notReset }) ∧
    (∀ r, s.CanFrame r → s.bus = .ok → a.getLsbD 7 = false → (∀ q, a ≠ regAddr q) →
      exec (.writeByte a v) s = .next { s with refused := some .unmappedWrite }) ∧
    (∀ r, s.CanFrame r → s.bus = .ok → a.getLsbD 7 = false → a ≠ 0x00 → 128 < a.toNat + n →
      exec (.readBlock a n) s = .next { s with refused := some .burstPastEnd }) ∧
    (∀ r, s.CanFrame r → s.bus = .ok → a.getLsbD 7 = false → a ≠ 0x00 → 128 < a.toNat + bs.length →
      exec (.writeBlock a bs) s = .next { s with refused := some .burstPastEnd }) ∧
    (∀ r k, s.CanFrame r → s.bus = .ok → a.getLsbD 7 = false → a ≠ 0x00 → a.toNat + bs.length ≤ 128 →
      k < bs.length → (∀ q, a.toNat + k ≠ (regAddr q).toNat) →
      exec (.writeBlock a bs) s = .next { s with refused := some .unmappedWrite })

/-- A storage register read back right after a write, by the same running operation, gives the byte written (R92; the
two conditions are R92's). -/
def Obligations.StorageRoundTrip : Prop :=
  ∀ (s : State) (r : Run) (q : Reg) (v : Byte), s.CanFrame r → s.bus = .ok → s.chip.Stores q → s.chip.Readable q →
    ∃ t u, exec (.writeByte (regAddr q) v) s = .next t ∧ exec (.readByte (regAddr q)) t = .next u ∧
      u.loc.ret = some (.bytes [v])

/-- Pointer, burst, pointer, drain: the FIFO gives back the bytes written, for at most 256 bytes (R92). Addresses,
codes and bit places are the spec's defaults (log 7, 8). -/
def Obligations.FifoRoundTrip : Prop :=
  ∀ (s : State) (r : Run) (p : Byte) (bs : List Byte), s.CanFrame r → s.bus = .ok → bs.length ≤ 256 →
    ∃ t1 t2 t3 t4, exec (.writeByte 0x0D p) s = .next t1 ∧ exec (.writeBlock 0x00 bs) t1 = .next t2 ∧
      exec (.writeByte 0x0D p) t2 = .next t3 ∧ exec (.readBlock 0x00 bs.length) t3 = .next t4 ∧
      t4.loc.ret = some (.bytes bs)

/-! ### The mode controller -/

/-- The op-mode value setMode writes (R115). Addresses, codes and bit places are the spec's defaults (log 7, 8). -/
def Obligations.OpModeValues : Prop :=
  opModeValue .sleep = 0x80 ∧ opModeValue .standby = 0x81 ∧ opModeValue .transmit = 0x83 ∧
  opModeValue .receiveContinuous = 0x85

/-- setMode is one write of the op-mode register, from any previous mode; the shadow is the mode when the frame
completed and unknown when it failed; a Transmit write captures the packet, any other abandons it, and only a Sleep
write touches the FIFO (R170, R115, R283). Addresses, codes and bit places are the spec's defaults (log 7, 8). -/
def Obligations.SetModeWritesAndShadows : Prop :=
  ∀ (s : State) (r : Run) (m : OperatingMode), s.CanFrame r →
    (s.bus = .ok → ∃ i0 i1 d,
      exec (.setMode m) s =
        .next (State.afterCall { s with mode := some m } r [0x81, opModeValue m] (some [i0, i1]) d (.bytes [])) ∧
      d.reg .opMode = opModeValue m ∧ Chip.RegsKept [.opMode] s.chip d ∧ d.air = s.chip.air ∧
      (m ≠ .sleep → Chip.FifoKept s.chip d) ∧ (m ≠ .transmit → d.txPkt = none) ∧
      (m = .transmit → ∃ pkt, d.txPkt = some pkt ∧ pkt.length = (s.chip.reg .payloadLength).toNat ∧
        ∀ k, k < pkt.length → pkt[k]? = some (s.chip.fifoCell (s.chip.reg .fifoTxBaseAddr + BitVec.ofNat 8 k)))) ∧
    (∀ k, s.bus = .fail k → ∃ i d, s.chip.frame ([0x81, opModeValue m].take k) = .ok (i, d) ∧
      exec (.setMode m) s =
        .next (State.afterCall { s with mode := none } r [0x81, opModeValue m] none d
          (.err (.transport .writeByte 0x01))))

/-- setCarrierFrequency writes the 24-bit word, most significant byte first, in one burst of three bytes; a word that
does not fit raises ArgumentError with no frame and nothing changed; a failed frame raises TransportError. The three
registers hold the bytes when the chip is in Sleep or Standby, and nothing is said of them otherwise (R171, R116,
R79). Addresses, codes and bit places are the spec's defaults (log 7, 8). -/
def Obligations.SetCarrierFrequencyBurst : Prop :=
  ∀ (s : State) (r : Run) (hz frf : Nat) (b2 b1 b0 : Byte), s.CanFrame r → frf = hz * 524288 / 32000000 →
    b2.toNat = frf / 65536 % 256 → b1.toNat = frf / 256 % 256 → b0.toNat = frf % 256 →
    (frf < 2 ^ 24 → s.bus = .ok → ∃ inp d,
      exec (.setCarrierFrequency hz) s = .next (s.afterCall r [0x86, b2, b1, b0] (some inp) d (.bytes [])) ∧
      inp.length = 4 ∧ Chip.RegsKept [.frfMsb, .frfMid, .frfLsb] s.chip d ∧ Chip.FifoKept s.chip d ∧
      Chip.RadioKept s.chip d ∧
      (s.chip.InSleepOrStandby → d.reg .frfMsb = b2 ∧ d.reg .frfMid = b1 ∧ d.reg .frfLsb = b0)) ∧
    (frf < 2 ^ 24 → ∀ k, s.bus = .fail k → ∃ i d, s.chip.frame ([0x86, b2, b1, b0].take k) = .ok (i, d) ∧
      exec (.setCarrierFrequency hz) s =
        .next (s.afterCall r [0x86, b2, b1, b0] none d (.err (.transport .writeBlock 0x06)))) ∧
    (2 ^ 24 ≤ frf → exec (.setCarrierFrequency hz) s =
      .next { s with run := some { r with loc := { r.loc with sub := 0, ret := some (.err (.argument .frequency)) } } })

/-- The frequencies whose word fits 24 bits are those up to 1 023 999 999 Hz (R116, R171). The oscillator frequency is
the spec's default (log 8). -/
def Obligations.FrequencyRange : Prop := ∀ hz : Nat, frfValid hz = true ↔ hz ≤ 1023999999

/-- setPowerAmplifier writes 0xFF or 0x7F to the PA-config register; the register holds it when the chip is in Sleep
or Standby; a failed frame raises TransportError (R172, R117, R79). Addresses, codes and bit places are the spec's
defaults (log 7, 8). -/
def Obligations.SetPowerAmplifierWrites : Prop :=
  ∀ (s : State) (r : Run) (boost : Bool) (v : Byte), s.CanFrame r → v = (if boost then 0xFF else 0x7F) →
    (s.bus = .ok → ∃ i0 i1 d,
      exec (.setPowerAmplifier boost) s = .next (s.afterCall r [0x89, v] (some [i0, i1]) d (.bytes [])) ∧
      Chip.RegsKept [.paConfig] s.chip d ∧ Chip.FifoKept s.chip d ∧ Chip.RadioKept s.chip d ∧
      (s.chip.InSleepOrStandby → d.reg .paConfig = v)) ∧
    (∀ k, s.bus = .fail k → ∃ i d, s.chip.frame ([0x89, v].take k) = .ok (i, d) ∧
      exec (.setPowerAmplifier boost) s = .next (s.afterCall r [0x89, v] none d (.err (.transport .writeByte 0x09))))

/-- enableRxCrc reads ModemConfig2 and writes it with bit 2 set, two frames, the second on the context's next turn;
the other bits are as read, which with the LoRa bit set is as they were (R173, R118). A failed read issues no write; a
failed write raises TransportError after the processed prefix. Addresses, codes and bit places are the spec's defaults
(log 7, 8). Running its frames in one step is the model's (log 2). -/
def Obligations.EnableRxCrcSetsTheBit : Prop :=
  ∀ (s : State) (r : Run), s.CanFrame r → s.refused = none → r.loc.sub = 0 → r.loc.got = none → r.loc.ret = none →
    (∀ t ts, s.bus = .ok → s.schedule = t :: ts → OwnTurn r.ctx t → ∃ i0 v i1 i2 d,
      exec .enableRxCrc s = .next
        { s with chip := d, cs := false,
                 busTrace := s.busTrace ++ [{ ctx := r.ctx, out := [0x1E, 0x00], inp := some [i0, v] },
                   { ctx := r.ctx, out := [0x9E, v ||| 0x04], inp := some [i1, i2] }],
                 edgePending := s.edgePending || (d.dio0 && !s.lineLast), lineLast := d.dio0, bus := .ok,
                 schedule := ts,
                 run := some { r with loc := { r.loc with sub := 0, ret := some (.bytes []), crcValue := v } } } ∧
      (s.chip.InLoRa → v = s.chip.reg .modemConfig2) ∧ d.reg .modemConfig2 = v ||| 0x04 ∧
      Chip.RegsKept [.modemConfig2] s.chip d ∧ Chip.FifoKept s.chip d ∧ Chip.RadioKept s.chip d) ∧
    (∀ k, s.bus = .fail k → ∃ i d, s.chip.frame ([0x1E, 0x00].take k) = .ok (i, d) ∧
      exec .enableRxCrc s = .next (s.afterCall r [0x1E, 0x00] none d (.err (.transport .readByte 0x1E)))) ∧
    (∀ t ts k, s.bus = .ok → s.schedule = t :: ts → turnCtx t = some r.ctx → turnBus t = .fail k → ∃ i0 v i c d,
      c.frame ([0x9E, v ||| 0x04].take k) = .ok (i, d) ∧
      Chip.RegsKept [] s.chip c ∧ Chip.FifoKept s.chip c ∧ Chip.RadioKept s.chip c ∧
      exec .enableRxCrc s = .next
        { s with chip := d, cs := false,
                 busTrace := s.busTrace ++ [{ ctx := r.ctx, out := [0x1E, 0x00], inp := some [i0, v] },
                   { ctx := r.ctx, out := [0x9E, v ||| 0x04], inp := none }],
                 edgePending := s.edgePending || (d.dio0 && !s.lineLast), lineLast := d.dio0, bus := .fail k,
                 schedule := ts,
                 run := some { r with loc := { r.loc with
                   sub := 0, ret := some (.err (.transport .writeByte 0x1E)), crcValue := v } } })

/-- INIT from any state after a RESET with no transmit in flight, on the App context's turns alone: the frames of R176
in their order, the registers they write, the shadow, `initialised`, the lock free and the result ok; nothing else
changes, but that the FIFO's contents are not kept in Sleep (R176, R283). Addresses, codes and bit places are the
spec's defaults (log 7, 8). Running its frames in one step is the model's (log 2). -/
def Obligations.InitCompletes : Prop :=
  ∀ (s : State) (hz : Word32) (pa crc : Bool) (rest : List Turn) (frf : Nat) (b2 b1 b0 : Byte),
    s.resetDone = true → s.txBusy = false → s.lock = none → s.refused = none → s.bus = .ok →
    s.schedule = List.replicate (if crc then 5 else 3) (.app .ok) ++ rest →
    frf = hz.toNat * 524288 / 32000000 → frf < 2 ^ 24 →
    b2.toNat = frf / 65536 % 256 → b1.toNat = frf / 256 % 256 → b0.toNat = frf % 256 →
    ∃ d fs, exec (.init hz pa crc) s = .next
        { s with chip := d, cs := false, busTrace := s.busTrace ++ fs,
                 edgePending := s.edgePending || (d.dio0 && !s.lineLast), lineLast := d.dio0,
                 mode := some .receiveContinuous, initialised := true, run := none,
                 results := s.results ++ [.ok], schedule := rest } ∧
      FramesOut .app fs ([[0x81, 0x80], [0x86, b2, b1, b0], [0x89, if pa then 0xFF else 0x7F]] ++
        (if crc then [[0x1E, 0x00], [0x9E, s.chip.reg .modemConfig2 ||| 0x04]] else []) ++ [[0x81, 0x85]]) ∧
      d.reg .opMode = 0x85 ∧ d.reg .frfMsb = b2 ∧ d.reg .frfMid = b1 ∧ d.reg .frfLsb = b0 ∧
      d.reg .paConfig = (if pa then 0xFF else 0x7F) ∧
      d.reg .modemConfig2 = (if crc then s.chip.reg .modemConfig2 ||| 0x04 else s.chip.reg .modemConfig2) ∧
      Chip.RegsKept [.opMode, .frfMsb, .frfMid, .frfLsb, .paConfig, .modemConfig2] s.chip d ∧
      d.txPkt = none ∧ d.air = s.chip.air

/-- INIT with a frequency whose word does not fit 24 bits: ArgumentError, no frame, no lock, no chip state and no
block state changed but the edge detector's sample (R176, R272, R93). The limit is that of the default oscillator
frequency (log 8). -/
def Obligations.InitArgumentError : Prop :=
  ∀ (s : State) (hz : Word32) (pa crc : Bool), s.resetDone = true → s.txBusy = false → 1024000000 ≤ hz.toNat →
    exec (.init hz pa crc) s = .next
      { s with results := s.results ++ [.error (.argument .frequency)],
               edgePending := s.edgePending || (s.chip.dio0 && !s.lineLast), lineLast := s.chip.dio0 }

/-- INIT whose first frame the bus fails, and INIT running at whatever position whose next frame the bus fails: that
frame is the last one, the block is not initialised, the lock is free and the result is TransportError naming the
frame's primitive and address; the shadow is unknown if the frame was setMode's and otherwise as the frames before
left it (R176, R170, R271). `settle` performs the actions those frames left (R93, log 30). Addresses, codes and bit places are
the spec's defaults (log 7, 8). -/
def Obligations.InitTransportError : Prop :=
  (∀ (s : State) (hz : Word32) (pa crc : Bool) (k : Nat), s.resetDone = true → s.txBusy = false → s.lock = none →
    s.bus = .fail k → hz.toNat < 1024000000 →
    ∃ i d, s.chip.frame (([0x81, 0x80] : List Byte).take k) = .ok (i, d) ∧
      exec (.init hz pa crc) s = .next
        { s with chip := d, cs := false, busTrace := s.busTrace ++ [{ ctx := .app, out := [0x81, 0x80], inp := none }],
                 edgePending := s.edgePending || (d.dio0 && !s.lineLast), lineLast := d.dio0, mode := none,
                 initialised := false, run := none,
                 results := s.results ++ [.error (.transport .writeByte 0x01)] }) ∧
  (∀ (s s1 : State) (hz : Word32) (pa crc : Bool) (r r1 : Run) (b : BusResult) (ts : List Turn) (k : Nat),
    s.refused = none → s.schedule = .app b :: ts → b = .fail k → s.CanFrame r → r.ctx = .app → r.op = .init hz pa crc →
    hz.toNat < 1024000000 → s1 = settle { s with schedule := ts, bus := b } → s1.run = some r1 →
    ∃ p a out i d, (p, a) ∈ [(Primitive.writeByte, (0x01 : Byte)), (.writeBlock, 0x06), (.writeByte, 0x09),
        (.readByte, 0x1E), (.writeByte, 0x1E)] ∧
      out.head? = some (if p = .readByte then a else 0x80 ||| a) ∧ s1.chip.frame (out.take k) = .ok (i, d) ∧
      step s = .next
        { s1 with chip := d, cs := false, busTrace := s1.busTrace ++ [{ ctx := .app, out := out, inp := none }],
                  edgePending := s1.edgePending || (d.dio0 && !s1.lineLast), lineLast := d.dio0,
                  mode := if a = 0x01 then none else s1.mode, initialised := false, lock := none, run := none,
                  results := s1.results ++ [.error (.transport p a)] })

/-! ### The transmit engine -/

/-- SEND of at most 255 bytes, on the App context's turns alone: the six frames of R230 in order; the packet stands in
the FIFO from offset 0 and is the packet the chip captures; the registers R230 lists, and no other, change; `txBusy`
and the shadow are set, the lock is free, the result is ok, and no event is emitted (R230, R236). Addresses, codes and
bit places are the spec's defaults (log 7, 8). Running its frames in one step is the model's (log 2). -/
def Obligations.SendCompletes : Prop :=
  ∀ (s : State) (addr : Option (List Byte)) (pay pkt : List Byte) (rest : List Turn),
    s.resetDone = true → s.initialised = true → s.txBusy = false → s.lock = none → s.refused = none → s.bus = .ok →
    s.schedule = List.replicate 5 (.app .ok) ++ rest → pkt = addr.getD [] ++ pay → pkt.length ≤ 255 →
    ∃ d fs, exec (.send addr pay) s = .next
        { s with chip := d, cs := false, busTrace := s.busTrace ++ fs,
                 edgePending := s.edgePending || (s.chip.dio0 && !s.lineLast) || (d.dio0 && !s.chip.dio0),
                 lineLast := d.dio0, mode := some .transmit, txBusy := true, run := none,
                 results := s.results ++ [.ok], schedule := rest } ∧
      FramesOut .app fs [[0x8E, 0x00], [0x8D, 0x00], 0x80 :: pkt, [0xA2, BitVec.ofNat 8 pkt.length], [0xC0, 0x40],
        [0x81, 0x83]] ∧
      d.txPkt = some pkt ∧ d.air = s.chip.air ∧
      (∀ k, k < pkt.length → some (d.fifoCell (BitVec.ofNat 8 k)) = pkt[k]?) ∧
      (∀ i : Byte, pkt.length ≤ i.toNat → d.fifoCell i = s.chip.fifoCell i) ∧
      d.reg .fifoTxBaseAddr = 0x00 ∧ d.reg .fifoAddrPtr = BitVec.ofNat 8 pkt.length ∧
      d.reg .payloadLength = BitVec.ofNat 8 pkt.length ∧ d.reg .dioMapping1 = 0x40 ∧ d.reg .opMode = 0x83 ∧
      Chip.RegsKept [.fifoTxBaseAddr, .fifoAddrPtr, .payloadLength, .dioMapping1, .opMode] s.chip d

/-- SEND while a transmit is in flight: TransmitBusyError whatever its length, no frame, and no state changed (R231,
R234); the edge detector samples, as after every step (R190). -/
def Obligations.SendWhileBusy : Prop :=
  ∀ (s : State) (addr : Option (List Byte)) (pay : List Byte), s.resetDone = true → s.initialised = true →
    s.txBusy = true → s.lock = none →
    exec (.send addr pay) s = .next
      { s with run := none, results := s.results ++ [.error .transmitBusy],
               edgePending := s.edgePending || (s.chip.dio0 && !s.lineLast), lineLast := s.chip.dio0 }

/-- SEND of more than 255 bytes: ArgumentError after the three frames of steps 2 and 3; the burst is in the FIFO, the
pointer at the length modulo 256, PayloadLength, DioMapping1 and OpMode not written, `txBusy` unchanged, the lock free
(R232). Addresses, codes and bit places are the spec's defaults (log 7, 8). Running its frames in one step is the
model's (log 2). -/
def Obligations.SendTooLong : Prop :=
  ∀ (s : State) (addr : Option (List Byte)) (pay pkt : List Byte) (rest : List Turn),
    s.resetDone = true → s.initialised = true → s.txBusy = false → s.lock = none → s.refused = none → s.bus = .ok →
    s.schedule = List.replicate 2 (.app .ok) ++ rest → pkt = addr.getD [] ++ pay → 255 < pkt.length →
    ∃ d fs, exec (.send addr pay) s = .next
        { s with chip := d, cs := false, busTrace := s.busTrace ++ fs,
                 edgePending := s.edgePending || (d.dio0 && !s.lineLast), lineLast := d.dio0, run := none,
                 results := s.results ++ [.error (.argument .length)], schedule := rest } ∧
      FramesOut .app fs [[0x8E, 0x00], [0x8D, 0x00], 0x80 :: pkt] ∧
      (∀ k, k < pkt.length → pkt.length ≤ k + 256 → some (d.fifoCell (BitVec.ofNat 8 k)) = pkt[k]?) ∧
      d.reg .fifoTxBaseAddr = 0x00 ∧ d.reg .fifoAddrPtr = BitVec.ofNat 8 pkt.length ∧
      Chip.RegsKept [.fifoTxBaseAddr, .fifoAddrPtr] s.chip d ∧ Chip.RadioKept s.chip d

/-- SEND whose first frame the bus fails, and SEND running at whatever position whose next frame the bus fails: that
frame is the last one, `txBusy` is not set, the lock is free and the result is TransportError naming the frame's
primitive and address; the shadow is as it was, but unknown if the frame was setMode's; after step 5 DioMapping1 stays
as that step left it (R235, R170, R271). `settle` performs the actions the frames before left (R93, log 30). Addresses, codes
and bit places are the spec's defaults (log 7, 8). -/
def Obligations.SendTransportError : Prop :=
  (∀ (s : State) (addr : Option (List Byte)) (pay : List Byte) (k : Nat), s.resetDone = true → s.initialised = true →
    s.txBusy = false → s.lock = none → s.bus = .fail k →
    ∃ i d, s.chip.frame (([0x8E, 0x00] : List Byte).take k) = .ok (i, d) ∧
      exec (.send addr pay) s = .next
        { s with chip := d, cs := false, busTrace := s.busTrace ++ [{ ctx := .app, out := [0x8E, 0x00], inp := none }],
                 edgePending := s.edgePending || (d.dio0 && !s.lineLast), lineLast := d.dio0, run := none,
                 results := s.results ++ [.error (.transport .writeByte 0x0E)] }) ∧
  (∀ (s s1 : State) (addr : Option (List Byte)) (pay : List Byte) (r r1 : Run) (b : BusResult) (ts : List Turn) (k : Nat),
    s.refused = none → s.schedule = .app b :: ts → b = .fail k → s.CanFrame r → r.ctx = .app → r.op = .send addr pay →
    s1 = settle { s with schedule := ts, bus := b } → s1.run = some r1 →
    ∃ p a out i d, (p, a) ∈ [(Primitive.writeByte, (0x0E : Byte)), (.writeByte, 0x0D), (.writeBlock, 0x00),
        (.writeByte, 0x22), (.writeByte, 0x40), (.writeByte, 0x01)] ∧
      out.head? = some (0x80 ||| a) ∧ s1.chip.frame (out.take k) = .ok (i, d) ∧
      (a ≠ 0x40 → d.reg .dioMapping1 = s1.chip.reg .dioMapping1) ∧
      step s = .next
        { s1 with chip := d, cs := false, busTrace := s1.busTrace ++ [{ ctx := .app, out := out, inp := none }],
                  edgePending := s1.edgePending || (d.dio0 && !s1.lineLast), lineLast := d.dio0,
                  mode := if a = 0x01 then none else s1.mode, lock := none, run := none,
                  results := s1.results ++ [.error (.transport p a)] })

/-- onTransmitComplete, called by the running operation: DIO0 mapped back to RxDone, ReceiveContinuous, `txBusy`
false, one TransmitDone, two frames, the second on the context's next turn; a failed frame, the first or the second,
leaves `txBusy` and emits nothing, and the second leaves the shadow unknown (R233, R170). Addresses, codes and bit
places are the spec's defaults (log 7, 8). Running its frames in one step is the model's (log 2). -/
def Obligations.OnTransmitCompleteReverts : Prop :=
  ∀ (s : State) (r : Run), s.CanFrame r → s.refused = none → r.loc.sub = 0 → r.loc.got = none → r.loc.ret = none →
    (∀ t ts, s.bus = .ok → s.schedule = t :: ts → OwnTurn r.ctx t → ∃ d fs,
      exec .onTransmitComplete s = .next
        { s with chip := d, cs := false, busTrace := s.busTrace ++ fs,
                 edgePending := s.edgePending || (d.dio0 && !s.lineLast), lineLast := d.dio0, bus := .ok,
                 schedule := ts, mode := some .receiveContinuous, txBusy := false,
                 events := s.events ++ [.transmitDone],
                 run := some { r with loc := { r.loc with sub := 0, ret := some (.bytes []) } } } ∧
      FramesOut r.ctx fs [[0xC0, 0x00], [0x81, 0x85]] ∧
      d.reg .dioMapping1 = 0x00 ∧ d.reg .opMode = 0x85 ∧ Chip.RegsKept [.dioMapping1, .opMode] s.chip d ∧
      Chip.FifoKept s.chip d ∧ d.txPkt = none ∧ d.air = s.chip.air) ∧
    (∀ k, s.bus = .fail k → ∃ i d, s.chip.frame ([0xC0, 0x00].take k) = .ok (i, d) ∧
      exec .onTransmitComplete s = .next (s.afterCall r [0xC0, 0x00] none d (.err (.transport .writeByte 0x40)))) ∧
    (∀ t ts k, s.bus = .ok → s.schedule = t :: ts → turnCtx t = some r.ctx → turnBus t = .fail k → ∃ i0 i1 i c d,
      c.frame ([0x81, 0x85].take k) = .ok (i, d) ∧ c.reg .dioMapping1 = 0x00 ∧
      Chip.RegsKept [.dioMapping1] s.chip c ∧ Chip.FifoKept s.chip c ∧ Chip.RadioKept s.chip c ∧
      exec .onTransmitComplete s = .next
        { s with chip := d, cs := false,
                 busTrace := s.busTrace ++ [{ ctx := r.ctx, out := [0xC0, 0x00], inp := some [i0, i1] },
                   { ctx := r.ctx, out := [0x81, 0x85], inp := none }],
                 edgePending := s.edgePending || (d.dio0 && !s.lineLast), lineLast := d.dio0, bus := .fail k,
                 schedule := ts, mode := none,
                 run := some { r with loc := { r.loc with
                   sub := 0, ret := some (.err (.transport .writeByte 0x01)) } } })

/-! ### The receive engine -/

/-- onReceiveComplete, called by the running operation with the chip in LoRa: the seven frames of R210, one Received
with the drained bytes split at the configured length and the three link values decoded, the FIFO pointer after the
packet; no other register, no FIFO cell, no mode and no `txBusy` changed. A failed frame, whichever of the seven, is
the last one: TransportError naming it, and no event (R210–R216, R271). Addresses, codes and bit places are the spec's
defaults (log 7, 8). Running its frames in one step is the model's (log 2). -/
def Obligations.OnReceiveCompleteDrains : Prop :=
  ∀ (s : State) (r : Run) (ts rest : List Turn) (x n : Byte) (data : List Byte) (outs : List (List Byte)),
    s.CanFrame r → s.refused = none → r.loc.sub = 0 → r.loc.got = none → r.loc.ret = none → s.chip.InLoRa →
    s.schedule = ts ++ rest → (∀ t ∈ ts, turnCtx t = some r.ctx) →
    x = s.chip.reg .fifoRxCurrentAddr → n = s.chip.reg .rxNbBytes →
    data = (List.range n.toNat).map (fun k => s.chip.fifoCell (x + BitVec.ofNat 8 k)) →
    outs = [[0x10, 0x00], [0x8D, x], [0x13, 0x00], 0x00 :: List.replicate n.toNat 0x00, [0x1B, 0x00], [0x19, 0x00],
      [0x1A, 0x00]] →
    (s.bus :: ts.map turnBus = List.replicate 7 .ok → ∃ d fs loc, exec .onReceiveComplete s = .next
        { s with chip := d, cs := false, busTrace := s.busTrace ++ fs,
                 edgePending := s.edgePending || (d.dio0 && !s.lineLast), lineLast := d.dio0, bus := .ok,
                 schedule := rest,
                 events := s.events ++ [.received
                   { payload := (splitPacket (Config.addrLen.map Fin.val) data).2,
                     address := (splitPacket (Config.addrLen.map Fin.val) data).1,
                     rssiDbm := (s.chip.reg .rssiValue).toNat - 157,
                     snrQuarterDb := (s.chip.reg .pktSnrValue).toInt,
                     packetRssiDbm := (s.chip.reg .pktRssiValue).toNat - 157 }],
                 run := some { r with loc := loc } } ∧
      loc.sub = 0 ∧ loc.ret = some (.bytes []) ∧ FramesOut r.ctx fs outs ∧
      d.reg .fifoAddrPtr = x + n ∧ Chip.RegsKept [.fifoAddrPtr] s.chip d ∧ Chip.FifoKept s.chip d ∧
      Chip.RadioKept s.chip d) ∧
    (∀ j k, j ≤ 6 → s.bus :: ts.map turnBus = List.replicate j .ok ++ [.fail k] → ∃ d fs f loc p a,
      exec .onReceiveComplete s = .next
        { s with chip := d, cs := false, busTrace := s.busTrace ++ fs ++ [f],
                 edgePending := s.edgePending || (d.dio0 && !s.lineLast), lineLast := d.dio0, bus := .fail k,
                 schedule := rest, run := some { r with loc := loc } } ∧
      loc.sub = 0 ∧ loc.ret = some (.err (.transport p a)) ∧
      [(Primitive.readByte, (0x10 : Byte)), (.writeByte, 0x0D), (.readByte, 0x13), (.readBlock, 0x00), (.readByte, 0x1B),
        (.readByte, 0x19), (.readByte, 0x1A)][j]? = some (p, a) ∧
      FramesOut r.ctx fs (outs.take j) ∧ outs[j]? = some f.out ∧ f.ctx = r.ctx ∧ f.inp = none ∧
      Chip.RegsKept [.fifoAddrPtr] s.chip d ∧ Chip.FifoKept s.chip d ∧ Chip.RadioKept s.chip d)

/-- The address-prefix stripper, for every configured length and every packet, short ones included (R211). -/
def Obligations.SplitPacket : Prop :=
  ∀ data : List Byte, splitPacket none data = (none, data) ∧
    ∀ n : Nat, ∃ a, splitPacket (some n) data = (some a, data.drop n) ∧ a = data.take n ∧ a ++ data.drop n = data

/-- The decoded link fields stay in the ranges of R213 (at the default offset 157, log 8). -/
def Obligations.LinkRanges : Prop :=
  ∀ v : Byte, rssiDbm v = (v.toNat : Int) - 157 ∧ -157 ≤ rssiDbm v ∧ rssiDbm v ≤ 98 ∧
    -128 ≤ snrQuarterDb v ∧ snrQuarterDb v ≤ 127 ∧ (snrQuarterDb v = v.toNat ∨ snrQuarterDb v = (v.toNat : Int) - 256)

/-! ### The interrupt dispatcher -/

/-- Where R191 does not enable it, dispatch waits and nothing changes (R191, R197). -/
def Obligations.DispatchWaits : Prop :=
  ∀ s : State, (s.edgePending = false ∨ s.disp = .servicing ∨ s.lock ≠ none ∨ s.resetDone = false) →
    exec .dispatch s = .next s

/-- Dispatch of a snapshot with neither RxDone nor TxDone: one frame, the flags read; Spurious with the flags byte; no
write-back, no register changed; back to Idle with the lock free and the latch taken (R192, R195, R286, R287).
Addresses, codes and bit places are the spec's defaults (log 7, 8). -/
def Obligations.DispatchSpurious : Prop :=
  ∀ (s : State) (f : Byte), s.edgePending = true → s.disp = .idle → s.lock = none → s.resetDone = true →
    s.bus = .ok → s.chip.InLoRa → f = s.chip.reg .irqFlags → f.getLsbD 6 = false → f.getLsbD 3 = false →
    ∃ i0 d, exec .dispatch s = .next
        { s with chip := d, cs := false,
                 busTrace := s.busTrace ++ [{ ctx := .irq, out := [0x12, 0x00], inp := some [i0, f] }],
                 edgePending := d.dio0 && !s.lineLast, lineLast := d.dio0, flagsSnap := none, run := none,
                 events := s.events ++ [.spurious f] } ∧
      Chip.RegsKept [] s.chip d ∧ Chip.FifoKept s.chip d ∧ Chip.RadioKept s.chip d

/-- Dispatch of a snapshot with RxDone alone of the two, on the Irq context's turns alone: nine frames, one Received,
the write-back of exactly the snapshot, back to Idle; the mode shadow and `txBusy` are as they were (R192–R194, R210).
Addresses, codes and bit places are the spec's defaults (log 7, 8). Running its frames in one step is the model's (log
2). -/
def Obligations.DispatchReceive : Prop :=
  ∀ (s : State) (rest : List Turn) (f x n : Byte) (data : List Byte),
    s.edgePending = true → s.disp = .idle → s.lock = none → s.resetDone = true → s.refused = none → s.bus = .ok →
    s.chip.InLoRa → s.schedule = List.replicate 8 (.irq .ok) ++ rest → f = s.chip.reg .irqFlags →
    f.getLsbD 6 = true → f.getLsbD 3 = false →
    x = s.chip.reg .fifoRxCurrentAddr → n = s.chip.reg .rxNbBytes →
    data = (List.range n.toNat).map (fun k => s.chip.fifoCell (x + BitVec.ofNat 8 k)) →
    ∃ d fs, exec .dispatch s = .next
        { s with chip := d, cs := false, busTrace := s.busTrace ++ fs,
                 edgePending := s.chip.dio0 && !s.lineLast, lineLast := d.dio0, flagsSnap := none, run := none,
                 schedule := rest,
                 events := s.events ++ [.received
                   { payload := (splitPacket (Config.addrLen.map Fin.val) data).2,
                     address := (splitPacket (Config.addrLen.map Fin.val) data).1,
                     rssiDbm := (s.chip.reg .rssiValue).toNat - 157,
                     snrQuarterDb := (s.chip.reg .pktSnrValue).toInt,
                     packetRssiDbm := (s.chip.reg .pktRssiValue).toNat - 157 }] } ∧
      FramesOut .irq fs [[0x12, 0x00], [0x10, 0x00], [0x8D, x], [0x13, 0x00], 0x00 :: List.replicate n.toNat 0x00,
        [0x1B, 0x00], [0x19, 0x00], [0x1A, 0x00], [0x92, f]] ∧
      d.reg .irqFlags = s.chip.reg .irqFlags &&& ~~~f ∧ d.reg .fifoAddrPtr = x + n ∧
      Chip.RegsKept [.irqFlags, .fifoAddrPtr] s.chip d ∧ Chip.FifoKept s.chip d ∧ Chip.RadioKept s.chip d

/-- Dispatch of a snapshot with TxDone alone of the two, on the Irq context's turns alone: four frames, one
TransmitDone, ReceiveContinuous, `txBusy` false, the write-back, back to Idle (R192–R194, R233). Addresses, codes and
bit places are the spec's defaults (log 7, 8). Running its frames in one step is the model's (log 2). -/
def Obligations.DispatchTransmit : Prop :=
  ∀ (s : State) (rest : List Turn) (f : Byte),
    s.edgePending = true → s.disp = .idle → s.lock = none → s.resetDone = true → s.refused = none → s.bus = .ok →
    s.chip.InLoRa → s.schedule = List.replicate 3 (.irq .ok) ++ rest → f = s.chip.reg .irqFlags →
    f.getLsbD 6 = false → f.getLsbD 3 = true →
    ∃ d fs, exec .dispatch s = .next
        { s with chip := d, cs := false, busTrace := s.busTrace ++ fs,
                 edgePending := s.chip.dio0 && !s.lineLast, lineLast := d.dio0, flagsSnap := none, run := none,
                 schedule := rest, mode := some .receiveContinuous, txBusy := false,
                 events := s.events ++ [.transmitDone] } ∧
      FramesOut .irq fs [[0x12, 0x00], [0xC0, 0x00], [0x81, 0x85], [0x92, f]] ∧
      d.reg .irqFlags = s.chip.reg .irqFlags &&& ~~~f ∧ d.reg .dioMapping1 = 0x00 ∧ d.reg .opMode = 0x85 ∧
      Chip.RegsKept [.irqFlags, .dioMapping1, .opMode] s.chip d ∧ Chip.FifoKept s.chip d ∧ d.txPkt = none ∧
      d.air = s.chip.air

/-- Dispatch of a snapshot with both RxDone and TxDone, on the Irq context's turns alone: onReceiveComplete, then
onTransmitComplete, in that order, then the write-back (R193, R198). Addresses, codes and bit places are the spec's
defaults (log 7, 8). Running its frames in one step is the model's (log 2). -/
def Obligations.DispatchBoth : Prop :=
  ∀ (s : State) (rest : List Turn) (f x n : Byte) (data : List Byte),
    s.edgePending = true → s.disp = .idle → s.lock = none → s.resetDone = true → s.refused = none → s.bus = .ok →
    s.chip.InLoRa → s.schedule = List.replicate 10 (.irq .ok) ++ rest → f = s.chip.reg .irqFlags →
    f.getLsbD 6 = true → f.getLsbD 3 = true →
    x = s.chip.reg .fifoRxCurrentAddr → n = s.chip.reg .rxNbBytes →
    data = (List.range n.toNat).map (fun k => s.chip.fifoCell (x + BitVec.ofNat 8 k)) →
    ∃ d fs, exec .dispatch s = .next
        { s with chip := d, cs := false, busTrace := s.busTrace ++ fs,
                 edgePending := (s.chip.dio0 && !s.lineLast) || !s.chip.dio0, lineLast := d.dio0, flagsSnap := none,
                 run := none, schedule := rest, mode := some .receiveContinuous, txBusy := false,
                 events := s.events ++ [.received
                   { payload := (splitPacket (Config.addrLen.map Fin.val) data).2,
                     address := (splitPacket (Config.addrLen.map Fin.val) data).1,
                     rssiDbm := (s.chip.reg .rssiValue).toNat - 157,
                     snrQuarterDb := (s.chip.reg .pktSnrValue).toInt,
                     packetRssiDbm := (s.chip.reg .pktRssiValue).toNat - 157 }, .transmitDone] } ∧
      FramesOut .irq fs [[0x12, 0x00], [0x10, 0x00], [0x8D, x], [0x13, 0x00], 0x00 :: List.replicate n.toNat 0x00,
        [0x1B, 0x00], [0x19, 0x00], [0x1A, 0x00], [0xC0, 0x00], [0x81, 0x85], [0x92, f]] ∧
      d.reg .irqFlags = s.chip.reg .irqFlags &&& ~~~f ∧ d.reg .fifoAddrPtr = x + n ∧ d.reg .dioMapping1 = 0x00 ∧
      d.reg .opMode = 0x85 ∧ Chip.RegsKept [.irqFlags, .fifoAddrPtr, .dioMapping1, .opMode] s.chip d ∧
      Chip.FifoKept s.chip d ∧ d.txPkt = none ∧ d.air = s.chip.air

/-- Dispatch whose flags read the bus fails, and dispatch at whatever position whose next frame the bus fails, its own
or a handler's: that frame is the last one, IrqTransportError names its primitive and address, no handler event, no
write-back (a chip whose flags changed saw the failed write-back itself), `txBusy` as it was, back to Idle with the
lock free; the shadow is unknown if the frame was setMode's (R196, R170, R271). `settle` performs the actions the
frames before left (R93, log 30). Addresses, codes and bit places are the spec's defaults (log 7, 8). -/
def Obligations.DispatchTransportError : Prop :=
  (∀ (s : State) (k : Nat), s.edgePending = true → s.disp = .idle → s.lock = none → s.resetDone = true →
    s.bus = .fail k →
    ∃ d, exec .dispatch s = .next
        { s with chip := d, cs := false, busTrace := s.busTrace ++ [{ ctx := .irq, out := [0x12, 0x00], inp := none }],
                 edgePending := d.dio0 && !s.lineLast, lineLast := d.dio0, flagsSnap := none, run := none,
                 events := s.events ++ [.irqTransportError .readByte 0x12] } ∧
      Chip.RegsKept [] s.chip d ∧ Chip.FifoKept s.chip d ∧ Chip.RadioKept s.chip d) ∧
  (∀ (s s1 : State) (r r1 : Run) (b : BusResult) (ts : List Turn) (k : Nat),
    s.refused = none → s.schedule = .irq b :: ts → b = .fail k → s.CanFrame r → r.ctx = .irq → r.op = .dispatch →
    s1 = settle { s with schedule := ts, bus := b } → s1.run = some r1 →
    ∃ p a out i d, (p, a) ∈ [(Primitive.readByte, (0x12 : Byte)), (.readByte, 0x10), (.writeByte, 0x0D),
        (.readByte, 0x13), (.readBlock, 0x00), (.readByte, 0x1B), (.readByte, 0x19), (.readByte, 0x1A),
        (.writeByte, 0x40), (.writeByte, 0x01), (.writeByte, 0x12)] ∧
      out.head? = some (if p = .writeByte then 0x80 ||| a else a) ∧ s1.chip.frame (out.take k) = .ok (i, d) ∧
      ((p, a) ≠ (.writeByte, 0x12) → d.reg .irqFlags = s1.chip.reg .irqFlags) ∧
      step s = .next
        { s1 with chip := d, cs := false, busTrace := s1.busTrace ++ [{ ctx := .irq, out := out, inp := none }],
                  edgePending := s1.edgePending || (d.dio0 && !s1.lineLast), lineLast := d.dio0,
                  mode := if a = 0x01 then none else s1.mode, flagsSnap := none, disp := .idle, lock := none,
                  run := none, events := s1.events ++ [.irqTransportError p a] })

/-- A latched edge stays latched through every step in which dispatch is not enabled, RESET included (R190, R252). -/
def Obligations.EdgeStaysLatched : Prop :=
  ∀ s t : State, step s = .next t → s.edgePending = true →
    (s.disp = .servicing ∨ s.lock ≠ none ∨ s.resetDone = false ∨ s.run ≠ none) → t.edgePending = true

/-! ### The host commands RESET and DUMP, and the refusals of the port -/

/-- RESET with the lock free: no frame; the chip's registers at the reset values of R48, nothing in flight, the record
of sent packets kept; the flags of R252; a latched edge survives and the line is sampled low (R252, R310, R311; the
values of the registers are the family's, log 7). -/
def Obligations.ResetCommand : Prop :=
  ∀ s : State, s.lock = none →
    ∃ d, exec .reset s = .next
        { s with chip := d, resetLine := .high, resetDone := true, initialised := false, mode := none, txBusy := false,
                 run := none, results := s.results ++ [.ok], lineLast := false } ∧
      d.txPkt = none ∧ d.air = s.chip.air ∧ d.dio0 = false ∧
      d.reg .opMode = 0x01 ∧ d.reg .frfMsb = 0x6C ∧ d.reg .frfMid = 0x80 ∧ d.reg .frfLsb = 0x00 ∧
      d.reg .paConfig = 0x4F ∧ d.reg .fifoAddrPtr = 0x00 ∧ d.reg .fifoTxBaseAddr = 0x80 ∧
      d.reg .fifoRxBaseAddr = 0x00 ∧ d.reg .irqFlagsMask = 0x00 ∧ d.reg .irqFlags = 0x00 ∧
      d.reg .modemConfig1 = 0x72 ∧ d.reg .modemConfig2 = 0x70 ∧ d.reg .preambleMsb = 0x00 ∧
      d.reg .preambleLsb = 0x08 ∧ d.reg .payloadLength = 0x01 ∧ d.reg .dioMapping1 = 0x00 ∧ d.reg .version = 0x12

/-- The machine at power-on: the block's registers in the first column of R310; the draw for the bus, the schedule and
the port are the model's own (log 1, 4, 15). -/
def Obligations.PowerOnState : Prop :=
  State.reset.resetDone = false ∧ State.reset.initialised = false ∧ State.reset.mode = none ∧
  State.reset.txBusy = false ∧ State.reset.disp = .idle ∧ State.reset.edgePending = false ∧
  State.reset.lineLast = false ∧ State.reset.lock = none ∧ State.reset.flagsSnap = none ∧ State.reset.run = none ∧
  State.reset.cs = false ∧ State.reset.resetLine = .high ∧ State.reset.busTrace = [] ∧ State.reset.events = [] ∧
  State.reset.refused = none ∧ State.reset.chip.txPkt = none ∧ State.reset.chip.air = []

/-- DUMP of a range, on the App context's turns alone: one read frame per address in rising order, one row per address
with its value and its eight bits, bit 7 first; the row of the FIFO port is the cell at the pointer, which moves by
one, so that the pointer's own row shows it moved; no register changed but the FIFO pointer where the range begins at
the FIFO port, no FIFO cell changed (R253, R76). Addresses are the spec's defaults (log 7). Running its frames in one
step is the model's (log 2). -/
def Obligations.DumpCompletes : Prop :=
  ∀ (s : State) (x y : Byte) (n : Nat) (rest : List Turn),
    s.resetDone = true → s.lock = none → s.refused = none → s.bus = .ok → x.toNat ≤ y.toNat → y.toNat ≤ 0x7F →
    n = y.toNat - x.toNat + 1 → s.schedule = List.replicate (n - 1) (.app .ok) ++ rest →
    ∃ d fs rows, exec (.dump x y) s = .next
        { s with chip := d, cs := false, busTrace := s.busTrace ++ fs,
                 edgePending := s.edgePending || (d.dio0 && !s.lineLast), lineLast := d.dio0, run := none,
                 results := s.results ++ [.regs rows], schedule := rest } ∧
      rows.length = n ∧ FramesOut .app fs ((List.range n).map fun k => [x + BitVec.ofNat 8 k, 0x00]) ∧
      (∀ k row, rows[k]? = some row → row.addr = x + BitVec.ofNat 8 k ∧ row.bits.length = 8 ∧
        (∀ j, j < 8 → row.bits[j]? = some (if row.value.getLsbD (7 - j) then '1' else '0')) ∧
        (row.addr = 0x00 → row.value = s.chip.fifoCell (s.chip.reg .fifoAddrPtr)) ∧
        (row.addr = 0x0D → s.chip.InLoRa →
          row.value = if x = 0x00 then s.chip.reg .fifoAddrPtr + 1 else s.chip.reg .fifoAddrPtr) ∧
        (∀ q, row.addr = regAddr q → s.chip.Readable q → q ≠ .fifoAddrPtr → row.value = s.chip.reg q)) ∧
      (x ≠ 0x00 → Chip.RegsKept [] s.chip d) ∧
      (x = 0x00 → d.reg .fifoAddrPtr = s.chip.reg .fifoAddrPtr + 1 ∧ Chip.RegsKept [.fifoAddrPtr] s.chip d) ∧
      Chip.FifoKept s.chip d ∧ Chip.RadioKept s.chip d

/-- The two errors of DUMP. An empty or out-of-range range: ArgumentError, no frame, no lock, nothing changed but the
edge detector's sample (R253, R272, R93). A failed frame, the first or any later one: it is the last one, the partial
list is discarded, the lock is free and the result is TransportError naming readByte and the address (R253, R271).
`settle` performs the actions the frames before left (R93, log 30). -/
def Obligations.DumpErrors : Prop :=
  (∀ (s : State) (x y : Byte), s.resetDone = true → (y.toNat < x.toNat ∨ 0x7F < y.toNat) →
    exec (.dump x y) s = .next
      { s with results := s.results ++ [.error (.argument .range)],
               edgePending := s.edgePending || (s.chip.dio0 && !s.lineLast), lineLast := s.chip.dio0 }) ∧
  (∀ (s : State) (x y : Byte) (k : Nat), s.resetDone = true → s.lock = none → s.bus = .fail k → x.toNat ≤ y.toNat →
    y.toNat ≤ 0x7F → ∃ i d, s.chip.frame ([x, 0x00].take k) = .ok (i, d) ∧
    exec (.dump x y) s = .next
      { s with chip := d, cs := false, busTrace := s.busTrace ++ [{ ctx := .app, out := [x, 0x00], inp := none }],
               edgePending := s.edgePending || (d.dio0 && !s.lineLast), lineLast := d.dio0, run := none,
               results := s.results ++ [.error (.transport .readByte x)] }) ∧
  (∀ (s s1 : State) (x y a : Byte) (r r1 : Run) (b : BusResult) (ts : List Turn) (k : Nat),
    s.refused = none → s.schedule = .app b :: ts → b = .fail k → s.CanFrame r → r.ctx = .app → r.op = .dump x y →
    s1 = settle { s with schedule := ts, bus := b } → s1.run = some r1 → a = x + BitVec.ofNat 8 r1.pc →
    a.getLsbD 7 = false → ∃ i d, s1.chip.frame ([a, 0x00].take k) = .ok (i, d) ∧
    step s = .next
      { s1 with chip := d, cs := false, busTrace := s1.busTrace ++ [{ ctx := .app, out := [a, 0x00], inp := none }],
                edgePending := s1.edgePending || (d.dio0 && !s1.lineLast), lineLast := d.dio0, lock := none,
                run := none, results := s1.results ++ [.error (.transport .readByte a)] })

/-- The refusals of the commands, in the order of R277, each setting the mark and nothing else (R176, R230, R250,
R276, R277). A refusal is a next state with the mark set (log 10). -/
def Obligations.CommandRefusals : Prop :=
  ∀ s : State, s.refused = none →
    (s.resetDone = false →
      (∀ hz pa crc, exec (.init hz pa crc) s = .next { s with refused := some .notReset }) ∧
      (∀ a p, exec (.send a p) s = .next { s with refused := some .notReset }) ∧
      (∀ x y, exec (.dump x y) s = .next { s with refused := some .notReset })) ∧
    (s.resetDone = true → s.txBusy = true →
      ∀ hz pa crc, exec (.init hz pa crc) s = .next { s with refused := some .reinitWhileBusy }) ∧
    (s.resetDone = true → s.initialised = false →
      ∀ a p, exec (.send a p) s = .next { s with refused := some .notInitialised })

/-! ### The chip -/

/-- The level of DIO0 for each mapping code (R45). The mapping codes and bit places are the spec's defaults (log 7,
22). -/
def Obligations.Dio0Level : Prop :=
  ∀ c : Chip,
    (c.reg .dioMapping1 &&& 0xC0 = 0x00 → c.dio0 = (c.reg .irqFlags).getLsbD 6) ∧
    (c.reg .dioMapping1 &&& 0xC0 = 0x40 → c.dio0 = (c.reg .irqFlags).getLsbD 3) ∧
    (c.reg .dioMapping1 &&& 0xC0 = 0x80 → c.dio0 = (c.reg .irqFlags).getLsbD 2) ∧
    (c.reg .dioMapping1 &&& 0xC0 = 0xC0 → c.dio0 = false)

/-- A packet arrives, in LoRa ReceiveContinuous only: the FIFO cells, the five registers, the flags through the mask,
and nothing else, not the FIFO pointer; then the line is sampled. That is the step of the chip's turn (R282, R281,
R190, R292). Addresses, codes and bit places are the spec's defaults (log 7, 8). -/
def Obligations.ChipReceives : Prop :=
  ∀ (s : State) (start r p q extra : Byte) (bytes : List Byte), bytes.length ≤ 255 →
    (∀ ts, s.refused = none → s.schedule = .chip (.rx start bytes r p q extra) :: ts →
      step s = .next (State.chipTurn { s with schedule := ts } (.rx start bytes r p q extra))) ∧
    (¬(s.chip.InLoRa ∧ s.chip.reg .opMode &&& 0x07 = 0x05) → s.chipTurn (.rx start bytes r p q extra) = s) ∧
    (s.chip.InLoRa → s.chip.reg .opMode &&& 0x07 = 0x05 →
      ∃ d, s.chipTurn (.rx start bytes r p q extra) =
          { s with chip := d, edgePending := s.edgePending || (d.dio0 && !s.lineLast), lineLast := d.dio0 } ∧
        (∀ k, k < bytes.length → some (d.fifoCell (start + BitVec.ofNat 8 k)) = bytes[k]?) ∧
        (∀ i, (∀ k, k < bytes.length → i ≠ start + BitVec.ofNat 8 k) → d.fifoCell i = s.chip.fifoCell i) ∧
        d.reg .fifoRxCurrentAddr = start ∧ d.reg .rxNbBytes = BitVec.ofNat 8 bytes.length ∧
        d.reg .rssiValue = r ∧ d.reg .pktRssiValue = p ∧ d.reg .pktSnrValue = q ∧
        d.reg .irqFlags =
          s.chip.reg .irqFlags ||| ((0x40 ||| (extra &&& 0xB7)) &&& ~~~s.chip.reg .irqFlagsMask) ∧
        Chip.RegsKept [.fifoRxCurrentAddr, .rxNbBytes, .rssiValue, .pktRssiValue, .pktSnrValue, .irqFlags] s.chip d ∧
        Chip.RadioKept s.chip d)

/-- A transmission completes, where one is in flight in LoRa Transmit: the packet goes on the air, TxDone rises
through the mask, the chip returns to Standby, nothing else changes; then the line is sampled. That is the step of the
chip's turn (R284, R281, R190, R292).
Addresses, codes and bit places are the spec's defaults (log 7, 8). -/
def Obligations.ChipCompletesTransmission : Prop :=
  ∀ s : State,
    (∀ ts, s.refused = none → s.schedule = .chip .txDone :: ts →
      step s = .next (State.chipTurn { s with schedule := ts } .txDone)) ∧
    (¬(s.chip.txPkt ≠ none ∧ s.chip.InLoRa ∧ s.chip.reg .opMode &&& 0x07 = 0x03) → s.chipTurn .txDone = s) ∧
    (∀ pkt, s.chip.txPkt = some pkt → s.chip.InLoRa → s.chip.reg .opMode &&& 0x07 = 0x03 →
      ∃ d, s.chipTurn .txDone =
          { s with chip := d, edgePending := s.edgePending || (d.dio0 && !s.lineLast), lineLast := d.dio0 } ∧
        d.air = s.chip.air ++ [pkt] ∧ d.txPkt = none ∧
        d.reg .irqFlags = s.chip.reg .irqFlags ||| (0x08 &&& ~~~s.chip.reg .irqFlagsMask) ∧
        d.reg .opMode = (s.chip.reg .opMode &&& 0xF8) ||| 0x01 ∧
        Chip.RegsKept [.irqFlags, .opMode] s.chip d ∧ Chip.FifoKept s.chip d)

/-- The chip's other changes: the live RSSI at any time, and in ReceiveContinuous the receiver flags other than RxDone
and TxDone, through the mask. A chip's turn, whatever its event, is a step (R285, R292). Addresses, codes and bit
places are the spec's defaults (log 7, 8). -/
def Obligations.ChipNoise : Prop :=
  ∀ (s : State) (v : Byte),
    (∀ ts e, s.refused = none → s.schedule = .chip e :: ts →
      step s = .next (State.chipTurn { s with schedule := ts } e)) ∧
    (∃ d, s.chipTurn (.noiseRssi v) =
        { s with chip := d, edgePending := s.edgePending || (d.dio0 && !s.lineLast), lineLast := d.dio0 } ∧
      d.reg .rssiValue = v ∧ Chip.RegsKept [.rssiValue] s.chip d ∧ Chip.FifoKept s.chip d ∧
      Chip.RadioKept s.chip d) ∧
    (s.chip.reg .opMode &&& 0x07 ≠ 0x05 → s.chipTurn (.noiseFlags v) = s) ∧
    (s.chip.reg .opMode &&& 0x07 = 0x05 →
      ∃ d, s.chipTurn (.noiseFlags v) =
          { s with chip := d, edgePending := s.edgePending || (d.dio0 && !s.lineLast), lineLast := d.dio0 } ∧
        d.reg .irqFlags = s.chip.reg .irqFlags ||| ((v &&& 0xB7) &&& ~~~s.chip.reg .irqFlagsMask) ∧
        Chip.RegsKept [.irqFlags] s.chip d ∧ Chip.FifoKept s.chip d ∧ Chip.RadioKept s.chip d)

/-- The edge-trigger hang: while DIO0 is high and sampled high, no chip event makes a new edge or lowers the line, so
with no edge pending none arises (R326, R281). When the line is sampled is log 19. -/
def Obligations.NoNewEdgeWhileTheLineIsHigh : Prop :=
  ∀ (s t : State) (e : ChipEvent) (ts : List Turn), s.schedule = .chip e :: ts → s.chip.dio0 = true →
    s.lineLast = true → step s = .next t →
    t.edgePending = s.edgePending ∧ t.chip.dio0 = true ∧ t.lineLast = true

/-! ### Invariants -/

/-- The invariant of Sys2Proof/Safety.lean holds at power-on. -/
def Obligations.InvAtReset : Prop := State.reset.Inv

/-- Every step keeps the invariant: the lock and the running operation together (R39), the dispatcher Servicing
exactly while Irq holds the lock and no snapshot outside Servicing (R35, R38), the pins at rest between steps (R40),
initialised only after a RESET (R31, R32), and in x[run] only the host commands with frames in the App context and
dispatch in the Irq context (R250, R253, R289, R292). Canonical memory is the model's (log 24), and so are the
positions (log 14). -/
def Obligations.StepKeepsInv : Prop := ∀ s t : State, s.Inv → step s = .next t → t.Inv

/-- From a state with the invariant, no step of the block sets a refusal that R276 says the port cannot reach: no bad
address, no frame without the lock, no burst past the end, no unmapped write. -/
def Obligations.UnreachableRefusals : Prop :=
  ∀ s t : State, s.Inv → step s = .next t →
    t.refused ≠ some .badAddress ∧ t.refused ≠ some .noLock ∧ t.refused ≠ some .burstPastEnd ∧
    t.refused ≠ some .unmappedWrite

/-- The registers the block never writes keep their values at every step but one that runs RESET, which takes the
command off the port with the lock free, does what R252 says to the block's flags and gives them their reset values
(R49, R252; the values are the family's, log 7). -/
def Obligations.UnwrittenRegistersKept : Prop :=
  ∀ s t : State, s.Inv → step s = .next t →
    (t.chip.reg .irqFlagsMask = s.chip.reg .irqFlagsMask ∧ t.chip.reg .modemConfig1 = s.chip.reg .modemConfig1 ∧
      t.chip.reg .fifoRxBaseAddr = s.chip.reg .fifoRxBaseAddr ∧ t.chip.reg .preambleMsb = s.chip.reg .preambleMsb ∧
      t.chip.reg .preambleLsb = s.chip.reg .preambleLsb ∧ t.chip.reg .version = s.chip.reg .version) ∨
    (s.lock = none ∧ (∃ rest, s.port = [0x01] :: rest ∧ t.port = rest) ∧ t.resetDone = true ∧ t.initialised = false ∧
      t.mode = none ∧ t.txBusy = false ∧ t.results = s.results ++ [.ok] ∧
      t.chip.reg .irqFlagsMask = 0x00 ∧ t.chip.reg .modemConfig1 = 0x72 ∧ t.chip.reg .fifoRxBaseAddr = 0x00 ∧
      t.chip.reg .preambleMsb = 0x00 ∧ t.chip.reg .preambleLsb = 0x08 ∧ t.chip.reg .version = 0x12)

/-- No operation of the block enters Standby: the shadow never becomes Standby (R174). The premise is the model's
invariant (log 14). -/
def Obligations.StandbyNeverShadowed : Prop :=
  ∀ s t : State, s.Inv → step s = .next t → s.mode ≠ some .standby → t.mode ≠ some .standby

end
end

