-- ==== Sys2Proof/Laws/Chip.lean ====
section
/-! SUPPORT. The chip's registers and FIFO under reads and writes, and what the chip's response to a frame and its
own events leave alone: memory stays canonical, nothing already sent is forgotten. -/

namespace Sys2Proof.Machine

/-! ### The register map -/

/-- The register map at the configuration exec runs in: the spec's defaults. -/
theorem regAddr_cfg (r : Reg) : regAddr r = Cfg.defaultReg r := rfl

/-- The mode codes at the configuration exec runs in. -/
theorem modeCode_cfg (m : OperatingMode) : modeCode m = Cfg.defaultModeCode m := rfl

theorem regAddr_toNat_inj (q r : Reg) (h : (regAddr q).toNat = (regAddr r).toNat) : q = r := by
  cases q <;> cases r <;> first | rfl | (exfalso; revert h; decide)

theorem regAddr_lt (r : Reg) : (regAddr r).toNat < 128 := by cases r <;> decide

@[simp] theorem regAt_regAddr (r : Reg) : regAt (regAddr r).toNat = some r := by cases r <;> rfl

theorem regAt_eq_some (t : Nat) (r : Reg) (h : regAt t = some r) : t = (regAddr r).toNat := by
  unfold regAt at h
  have := List.find?_some h
  exact (of_decide_eq_true this).symm

theorem regAt_eq_fifo (t : Nat) : regAt t = some .fifo ↔ t = 0 := by
  constructor
  · intro h; exact regAt_eq_some t _ h
  · rintro rfl; rfl

/-! ### Registers and cells after a write -/

theorem Chip.reg_setReg (c : Chip) (r q : Reg) (v : Byte) :
    (c.setReg r v).reg q = if q = r then v else c.reg q := by
  unfold Chip.reg Chip.regAtAddr Chip.setReg
  simp only [Memory.read_write]
  split
  · rename_i h; simp [regAddr_toNat_inj q r h]
  · rename_i h
    have : q ≠ r := fun e => h (by rw [e])
    simp [this]

@[simp] theorem Chip.reg_setReg_same (c : Chip) (r : Reg) (v : Byte) : (c.setReg r v).reg r = v := by
  simp [Chip.reg_setReg]

theorem Chip.reg_setReg_other (c : Chip) (r q : Reg) (v : Byte) (h : q ≠ r) : (c.setReg r v).reg q = c.reg q := by
  simp [Chip.reg_setReg, h]

theorem Chip.regAtAddr_setReg (c : Chip) (r : Reg) (v : Byte) (a : Nat) :
    (c.setReg r v).regAtAddr a = if a = (regAddr r).toNat then v else c.regAtAddr a := by
  unfold Chip.regAtAddr Chip.setReg
  simp only [Memory.read_write]
  split <;> simp

@[simp] theorem Chip.fifoCell_setReg (c : Chip) (r : Reg) (v i : Byte) : (c.setReg r v).fifoCell i = c.fifoCell i := rfl
@[simp] theorem Chip.setReg_fifo (c : Chip) (r : Reg) (v : Byte) : (c.setReg r v).fifo = c.fifo := rfl
@[simp] theorem Chip.setReg_air (c : Chip) (r : Reg) (v : Byte) : (c.setReg r v).air = c.air := rfl
@[simp] theorem Chip.setReg_txPkt (c : Chip) (r : Reg) (v : Byte) : (c.setReg r v).txPkt = c.txPkt := rfl
@[simp] theorem Chip.setReg_draws (c : Chip) (r : Reg) (v : Byte) : (c.setReg r v).draws = c.draws := rfl
@[simp] theorem Chip.reg_setFifoCell (c : Chip) (i v : Byte) (r : Reg) : (c.setFifoCell i v).reg r = c.reg r := rfl
@[simp] theorem Chip.setFifoCell_regs (c : Chip) (i v : Byte) : (c.setFifoCell i v).regs = c.regs := rfl
@[simp] theorem Chip.setFifoCell_air (c : Chip) (i v : Byte) : (c.setFifoCell i v).air = c.air := rfl
@[simp] theorem Chip.setFifoCell_txPkt (c : Chip) (i v : Byte) : (c.setFifoCell i v).txPkt = c.txPkt := rfl
@[simp] theorem Chip.setFifoCell_draws (c : Chip) (i v : Byte) : (c.setFifoCell i v).draws = c.draws := rfl
@[simp] theorem Chip.reg_draw (c : Chip) (r : Reg) : c.draw.2.reg r = c.reg r := rfl
@[simp] theorem Chip.fifoCell_draw (c : Chip) (i : Byte) : c.draw.2.fifoCell i = c.fifoCell i := rfl
@[simp] theorem Chip.draw_regs (c : Chip) : c.draw.2.regs = c.regs := rfl
@[simp] theorem Chip.draw_fifo (c : Chip) : c.draw.2.fifo = c.fifo := rfl
@[simp] theorem Chip.draw_air (c : Chip) : c.draw.2.air = c.air := rfl
@[simp] theorem Chip.draw_txPkt (c : Chip) : c.draw.2.txPkt = c.txPkt := rfl
@[simp] theorem Chip.reg_drawFifo (c : Chip) (r : Reg) : c.drawFifo.reg r = c.reg r := rfl
@[simp] theorem Chip.drawFifo_regs (c : Chip) : c.drawFifo.regs = c.regs := rfl
@[simp] theorem Chip.drawFifo_air (c : Chip) : c.drawFifo.air = c.air := rfl
@[simp] theorem Chip.drawFifo_txPkt (c : Chip) : c.drawFifo.txPkt = c.txPkt := rfl

theorem Chip.fifoCell_setFifoCell (c : Chip) (i j v : Byte) :
    (c.setFifoCell i v).fifoCell j = if j = i then v else c.fifoCell j := by
  unfold Chip.fifoCell Chip.setFifoCell
  simp only [Memory.read_write]
  split
  · rename_i h; simp [BitVec.eq_of_toNat_eq h]
  · rename_i h
    have : j ≠ i := fun e => h (by rw [e])
    simp [this]

/-- A list of draws changes the counter alone. -/
theorem Chip.drawList_eq (n : Nat) (c : Chip) :
    (Chip.drawList n c).2 = { c with draws := c.draws + n } ∧ (Chip.drawList n c).1.length = n := by
  induction n generalizing c with
  | zero => simp [Chip.drawList]
  | succ n ih =>
    have := ih c.draw.2
    simp only [Chip.drawList, Chip.draw] at this ⊢
    refine ⟨?_, by simp [this.2]⟩
    rw [this.1]; simp; omega

/-! ### Canonical memory and the log of sent packets -/

/-- Both memories canonical and inside their address spaces. -/
def Chip.MemOk (c : Chip) : Prop :=
  Memory.wf Config.regCount c.regs = true ∧ Memory.wf Config.fifoSize c.fifo = true

/-- What every response of the chip to a frame keeps. -/
structure Chip.Keeps (c d : Chip) : Prop where
  mem : c.MemOk → d.MemOk
  air : d.air = c.air

theorem Chip.Keeps.refl (c : Chip) : Chip.Keeps c c := ⟨id, rfl⟩

theorem Chip.Keeps.trans {c d e : Chip} (h : Chip.Keeps c d) (g : Chip.Keeps d e) : Chip.Keeps c e :=
  ⟨fun m => g.mem (h.mem m), g.air.trans h.air⟩

theorem Chip.setReg_memOk (c : Chip) (r : Reg) (v : Byte) (h : c.MemOk) : (c.setReg r v).MemOk :=
  ⟨Memory.wf_write _ _ _ _ (regAddr_lt r) h.1, h.2⟩

theorem Chip.setFifoCell_memOk (c : Chip) (i v : Byte) (h : c.MemOk) : (c.setFifoCell i v).MemOk :=
  ⟨h.1, Memory.wf_write _ _ _ _ i.isLt h.2⟩

theorem Chip.setReg_keeps (c : Chip) (r : Reg) (v : Byte) : Chip.Keeps c (c.setReg r v) :=
  ⟨c.setReg_memOk r v, rfl⟩

theorem Chip.setFifoCell_keeps (c : Chip) (i v : Byte) : Chip.Keeps c (c.setFifoCell i v) :=
  ⟨c.setFifoCell_memOk i v, rfl⟩

theorem Chip.draw_keeps (c : Chip) : Chip.Keeps c c.draw.2 := ⟨id, rfl⟩

theorem Chip.drawList_keeps (n : Nat) (c : Chip) : Chip.Keeps c (Chip.drawList n c).2 := by
  rw [(Chip.drawList_eq n c).1]; exact ⟨id, rfl⟩

theorem Chip.drawFifo_keeps (c : Chip) : Chip.Keeps c c.drawFifo :=
  ⟨fun h => ⟨h.1, Memory.wf_nil _⟩, rfl⟩

theorem Chip.modeWritten_keeps (c : Chip) (v : Byte) : Chip.Keeps c (c.modeWritten v) := by
  unfold Chip.modeWritten
  have key : ∀ d : Chip, Chip.Keeps c d → Chip.Keeps c (if modeField v = modeCode .sleep then d.drawFifo else d) := by
    intro d hd; split
    · exact hd.trans d.drawFifo_keeps
    · exact hd
  dsimp only
  apply key
  split <;> exact ⟨id, rfl⟩

theorem Chip.readTarget_keeps (c : Chip) (t : Nat) : Chip.Keeps c (c.readTarget t).2 := by
  unfold Chip.readTarget
  split
  · exact c.setReg_keeps _ _
  · split
    · exact c.draw_keeps
    · split
      · exact c.draw_keeps
      · exact Chip.Keeps.refl c

theorem Chip.writeReg_keeps (c : Chip) (r : Reg) (v : Byte) : Chip.Keeps c (c.writeReg r v) := by
  unfold Chip.writeReg
  split
  · exact c.setReg_keeps _ _
  · split
    · exact Chip.Keeps.refl c
    · split
      · exact c.draw_keeps.trans (Chip.setReg_keeps _ _ _)
      · split
        · exact (c.setReg_keeps _ _).trans (Chip.modeWritten_keeps _ _)
        · exact c.setReg_keeps _ _

theorem Chip.writeTarget_keeps (c d : Chip) (t : Nat) (v : Byte) (h : c.writeTarget t v = .ok d) :
    Chip.Keeps c d := by
  unfold Chip.writeTarget at h
  split at h
  · cases h
  · cases h; exact (c.setFifoCell_keeps _ _).trans (Chip.setReg_keeps _ _ _)
  · cases h; exact c.writeReg_keeps _ _

theorem Chip.memRead_keeps (a k n : Nat) (c d : Chip) (vs : List Byte) (h : Chip.memRead a k n c = .ok (vs, d)) :
    Chip.Keeps c d ∧ vs.length = n := by
  induction n generalizing k c vs with
  | zero => simp only [Chip.memRead, Except.ok.injEq, Prod.mk.injEq] at h; obtain ⟨rfl, rfl⟩ := h
            exact ⟨Chip.Keeps.refl _, rfl⟩
  | succ n ih =>
    unfold Chip.memRead at h
    split at h
    · cases h
    · rename_i t _
      dsimp only at h
      split at h
      · cases h
      · rename_i ws d1 hr
        simp only [Except.ok.injEq, Prod.mk.injEq] at h
        obtain ⟨rfl, rfl⟩ := h
        obtain ⟨hk, hl⟩ := ih _ _ _ hr
        exact ⟨(c.readTarget_keeps t).trans hk, by simp [hl]⟩

theorem Chip.memWrite_keeps (a k : Nat) (vs : List Byte) (c d : Chip) (h : Chip.memWrite a k vs c = .ok d) :
    Chip.Keeps c d := by
  induction vs generalizing k c with
  | nil => simp only [Chip.memWrite, Except.ok.injEq] at h; subst h; exact Chip.Keeps.refl _
  | cons v vs ih =>
    unfold Chip.memWrite at h
    split at h
    · cases h
    · split at h
      · cases h
      · rename_i c1 hw; exact (Chip.writeTarget_keeps _ _ _ _ hw).trans (ih _ _ h)

/-- Everything a frame keeps, and that it shifts in as many bytes as it shifts out (R70, R71). -/
theorem Chip.frame_keeps (c d : Chip) (out inp : List Byte) (h : c.frame out = .ok (inp, d)) :
    Chip.Keeps c d ∧ inp.length = out.length := by
  unfold Chip.frame at h
  split at h
  · simp only [Except.ok.injEq, Prod.mk.injEq] at h; obtain ⟨rfl, rfl⟩ := h; exact ⟨Chip.Keeps.refl _, rfl⟩
  · rename_i b bs
    split at h
    · cases h
    split at h
    · split at h
      · cases h
      · rename_i c1 hw
        simp only [Except.ok.injEq] at h
        have h1 := (Chip.memWrite_keeps _ _ _ _ _ hw)
        have h2 := Chip.drawList_keeps (bs.length + 1) c1
        have h3 := (Chip.drawList_eq (bs.length + 1) c1).2
        rw [h] at h2 h3
        exact ⟨h1.trans h2, by simpa using h3⟩
    · dsimp only at h
      split at h
      · cases h
      · rename_i vs c2 hr
        simp only [Except.ok.injEq, Prod.mk.injEq] at h
        obtain ⟨rfl, rfl⟩ := h
        obtain ⟨hk, hl⟩ := Chip.memRead_keeps _ _ _ _ _ _ hr
        exact ⟨c.draw_keeps.trans hk, by simp [hl]⟩

/-! ### The chip's own steps -/

theorem Chip.storeFifo_keeps (vs : List Byte) (b : Byte) (c : Chip) : Chip.Keeps c (Chip.storeFifo vs b c) := by
  induction vs generalizing b c with
  | nil => exact Chip.Keeps.refl _
  | cons v vs ih => exact (c.setFifoCell_keeps b v).trans (ih _ _)

@[simp] theorem Chip.reg_storeFifo (vs : List Byte) (b : Byte) (c : Chip) (r : Reg) :
    (Chip.storeFifo vs b c).reg r = c.reg r := by
  induction vs generalizing b c with
  | nil => rfl
  | cons v vs ih => simp [Chip.storeFifo, ih]

theorem Chip.raise_keeps (c : Chip) (e : Byte) : Chip.Keeps c (c.raise e) := c.setReg_keeps _ _

/-- An active step of the chip keeps memory canonical and extends the log of sent packets (R52). -/
theorem Chip.event_keeps (c d : Chip) (e : ChipEvent) (h : c.event e = some d) :
    (c.MemOk → d.MemOk) ∧ c.air <+: d.air := by
  cases e with
  | rx start bytes r p q extra =>
    simp only [Chip.event, Chip.receive] at h
    split at h
    · simp only [Option.some.injEq] at h
      subst h
      have k : Chip.Keeps c _ :=
        ((((((Chip.storeFifo_keeps (bytes.take Config.maxPacket) start c).trans
          (Chip.setReg_keeps _ .fifoRxCurrentAddr start)).trans
          (Chip.setReg_keeps _ .rxNbBytes (BitVec.ofNat 8 (bytes.take Config.maxPacket).length))).trans
          (Chip.setReg_keeps _ .rssiValue r)).trans (Chip.setReg_keeps _ .pktRssiValue p)).trans
          (Chip.setReg_keeps _ .pktSnrValue q)).trans
          (Chip.raise_keeps _ (bitByte Config.cfg.irqRxDone ||| extraFlags extra))
      exact ⟨k.mem, by rw [k.air]⟩
    · cases h
  | txDone =>
    simp only [Chip.event, Chip.transmitDone] at h
    split at h
    · cases h
    · split at h
      · rename_i pkt _ _
        simp only [Option.some.injEq] at h
        subst h
        have k := ((Chip.raise_keeps { c with air := c.air ++ [pkt], txPkt := none }
          (bitByte Config.cfg.irqTxDone)).trans (Chip.setReg_keeps _ .opMode
            (((Chip.raise { c with air := c.air ++ [pkt], txPkt := none } (bitByte Config.cfg.irqTxDone)).reg .opMode
              &&& 0xF8) ||| modeCode .standby)))
        exact ⟨fun m => k.mem m, by rw [k.air]; exact List.prefix_append _ _⟩
      · cases h
  | noiseRssi v =>
    simp only [Chip.event, Chip.noiseRssi, Option.some.injEq] at h
    subst h
    exact ⟨c.setReg_memOk _ _, List.prefix_refl _⟩
  | noiseFlags v =>
    simp only [Chip.event, Chip.noiseFlags] at h
    split at h
    · simp only [Option.some.injEq] at h; subst h
      exact ⟨c.setReg_memOk _ _, List.prefix_refl _⟩
    · cases h

theorem Chip.reset_memOk (c : Chip) : c.reset.MemOk := by
  constructor
  · simp only [Chip.reset]; decide
  · exact Memory.wf_nil _

end Sys2Proof.Machine
end

