-- ==== Sys2Proof/Laws/State.lean ====
section
/-! SUPPORT. What each update of the state leaves alone and what it writes, one lemma per field and update, so that
no later proof unfolds an update. -/

namespace Sys2Proof.Machine

/-! ### refuse -/

@[simp] theorem State.refuse_resetDone (s : State) (x : RefusalReason) : (s.refuse x).resetDone = s.resetDone := by unfold State.refuse; split <;> rfl
@[simp] theorem State.refuse_initialised (s : State) (x : RefusalReason) : (s.refuse x).initialised = s.initialised := by unfold State.refuse; split <;> rfl
@[simp] theorem State.refuse_mode (s : State) (x : RefusalReason) : (s.refuse x).mode = s.mode := by unfold State.refuse; split <;> rfl
@[simp] theorem State.refuse_txBusy (s : State) (x : RefusalReason) : (s.refuse x).txBusy = s.txBusy := by unfold State.refuse; split <;> rfl
@[simp] theorem State.refuse_disp (s : State) (x : RefusalReason) : (s.refuse x).disp = s.disp := by unfold State.refuse; split <;> rfl
@[simp] theorem State.refuse_edgePending (s : State) (x : RefusalReason) : (s.refuse x).edgePending = s.edgePending := by unfold State.refuse; split <;> rfl
@[simp] theorem State.refuse_lineLast (s : State) (x : RefusalReason) : (s.refuse x).lineLast = s.lineLast := by unfold State.refuse; split <;> rfl
@[simp] theorem State.refuse_lock (s : State) (x : RefusalReason) : (s.refuse x).lock = s.lock := by unfold State.refuse; split <;> rfl
@[simp] theorem State.refuse_flagsSnap (s : State) (x : RefusalReason) : (s.refuse x).flagsSnap = s.flagsSnap := by unfold State.refuse; split <;> rfl
@[simp] theorem State.refuse_run (s : State) (x : RefusalReason) : (s.refuse x).run = s.run := by unfold State.refuse; split <;> rfl
@[simp] theorem State.refuse_cs (s : State) (x : RefusalReason) : (s.refuse x).cs = s.cs := by unfold State.refuse; split <;> rfl
@[simp] theorem State.refuse_resetLine (s : State) (x : RefusalReason) : (s.refuse x).resetLine = s.resetLine := by unfold State.refuse; split <;> rfl
@[simp] theorem State.refuse_busTrace (s : State) (x : RefusalReason) : (s.refuse x).busTrace = s.busTrace := by unfold State.refuse; split <;> rfl
@[simp] theorem State.refuse_events (s : State) (x : RefusalReason) : (s.refuse x).events = s.events := by unfold State.refuse; split <;> rfl
@[simp] theorem State.refuse_chip (s : State) (x : RefusalReason) : (s.refuse x).chip = s.chip := by unfold State.refuse; split <;> rfl
@[simp] theorem State.refuse_port (s : State) (x : RefusalReason) : (s.refuse x).port = s.port := by unfold State.refuse; split <;> rfl
@[simp] theorem State.refuse_results (s : State) (x : RefusalReason) : (s.refuse x).results = s.results := by unfold State.refuse; split <;> rfl
@[simp] theorem State.refuse_schedule (s : State) (x : RefusalReason) : (s.refuse x).schedule = s.schedule := by unfold State.refuse; split <;> rfl
@[simp] theorem State.refuse_tick (s : State) (x : RefusalReason) : (s.refuse x).tick = s.tick := by unfold State.refuse; split <;> rfl
@[simp] theorem State.refuse_bus (s : State) (x : RefusalReason) : (s.refuse x).bus = s.bus := by unfold State.refuse; split <;> rfl

/-! ### edgeSample -/

@[simp] theorem State.edgeSample_resetDone (s : State) : (s.edgeSample).resetDone = s.resetDone := rfl
@[simp] theorem State.edgeSample_initialised (s : State) : (s.edgeSample).initialised = s.initialised := rfl
@[simp] theorem State.edgeSample_mode (s : State) : (s.edgeSample).mode = s.mode := rfl
@[simp] theorem State.edgeSample_txBusy (s : State) : (s.edgeSample).txBusy = s.txBusy := rfl
@[simp] theorem State.edgeSample_disp (s : State) : (s.edgeSample).disp = s.disp := rfl
@[simp] theorem State.edgeSample_lock (s : State) : (s.edgeSample).lock = s.lock := rfl
@[simp] theorem State.edgeSample_flagsSnap (s : State) : (s.edgeSample).flagsSnap = s.flagsSnap := rfl
@[simp] theorem State.edgeSample_run (s : State) : (s.edgeSample).run = s.run := rfl
@[simp] theorem State.edgeSample_cs (s : State) : (s.edgeSample).cs = s.cs := rfl
@[simp] theorem State.edgeSample_resetLine (s : State) : (s.edgeSample).resetLine = s.resetLine := rfl
@[simp] theorem State.edgeSample_busTrace (s : State) : (s.edgeSample).busTrace = s.busTrace := rfl
@[simp] theorem State.edgeSample_events (s : State) : (s.edgeSample).events = s.events := rfl
@[simp] theorem State.edgeSample_refused (s : State) : (s.edgeSample).refused = s.refused := rfl
@[simp] theorem State.edgeSample_chip (s : State) : (s.edgeSample).chip = s.chip := rfl
@[simp] theorem State.edgeSample_port (s : State) : (s.edgeSample).port = s.port := rfl
@[simp] theorem State.edgeSample_results (s : State) : (s.edgeSample).results = s.results := rfl
@[simp] theorem State.edgeSample_schedule (s : State) : (s.edgeSample).schedule = s.schedule := rfl
@[simp] theorem State.edgeSample_tick (s : State) : (s.edgeSample).tick = s.tick := rfl
@[simp] theorem State.edgeSample_bus (s : State) : (s.edgeSample).bus = s.bus := rfl

/-! ### emit -/

@[simp] theorem State.emit_resetDone (s : State) (x : Event) : (s.emit x).resetDone = s.resetDone := rfl
@[simp] theorem State.emit_initialised (s : State) (x : Event) : (s.emit x).initialised = s.initialised := rfl
@[simp] theorem State.emit_mode (s : State) (x : Event) : (s.emit x).mode = s.mode := rfl
@[simp] theorem State.emit_txBusy (s : State) (x : Event) : (s.emit x).txBusy = s.txBusy := rfl
@[simp] theorem State.emit_disp (s : State) (x : Event) : (s.emit x).disp = s.disp := rfl
@[simp] theorem State.emit_edgePending (s : State) (x : Event) : (s.emit x).edgePending = s.edgePending := rfl
@[simp] theorem State.emit_lineLast (s : State) (x : Event) : (s.emit x).lineLast = s.lineLast := rfl
@[simp] theorem State.emit_lock (s : State) (x : Event) : (s.emit x).lock = s.lock := rfl
@[simp] theorem State.emit_flagsSnap (s : State) (x : Event) : (s.emit x).flagsSnap = s.flagsSnap := rfl
@[simp] theorem State.emit_run (s : State) (x : Event) : (s.emit x).run = s.run := rfl
@[simp] theorem State.emit_cs (s : State) (x : Event) : (s.emit x).cs = s.cs := rfl
@[simp] theorem State.emit_resetLine (s : State) (x : Event) : (s.emit x).resetLine = s.resetLine := rfl
@[simp] theorem State.emit_busTrace (s : State) (x : Event) : (s.emit x).busTrace = s.busTrace := rfl
@[simp] theorem State.emit_refused (s : State) (x : Event) : (s.emit x).refused = s.refused := rfl
@[simp] theorem State.emit_chip (s : State) (x : Event) : (s.emit x).chip = s.chip := rfl
@[simp] theorem State.emit_port (s : State) (x : Event) : (s.emit x).port = s.port := rfl
@[simp] theorem State.emit_results (s : State) (x : Event) : (s.emit x).results = s.results := rfl
@[simp] theorem State.emit_schedule (s : State) (x : Event) : (s.emit x).schedule = s.schedule := rfl
@[simp] theorem State.emit_tick (s : State) (x : Event) : (s.emit x).tick = s.tick := rfl
@[simp] theorem State.emit_bus (s : State) (x : Event) : (s.emit x).bus = s.bus := rfl

/-! ### returnResult -/

@[simp] theorem State.returnResult_resetDone (s : State) (x : HostResult) : (s.returnResult x).resetDone = s.resetDone := rfl
@[simp] theorem State.returnResult_initialised (s : State) (x : HostResult) : (s.returnResult x).initialised = s.initialised := rfl
@[simp] theorem State.returnResult_mode (s : State) (x : HostResult) : (s.returnResult x).mode = s.mode := rfl
@[simp] theorem State.returnResult_txBusy (s : State) (x : HostResult) : (s.returnResult x).txBusy = s.txBusy := rfl
@[simp] theorem State.returnResult_disp (s : State) (x : HostResult) : (s.returnResult x).disp = s.disp := rfl
@[simp] theorem State.returnResult_edgePending (s : State) (x : HostResult) : (s.returnResult x).edgePending = s.edgePending := rfl
@[simp] theorem State.returnResult_lineLast (s : State) (x : HostResult) : (s.returnResult x).lineLast = s.lineLast := rfl
@[simp] theorem State.returnResult_lock (s : State) (x : HostResult) : (s.returnResult x).lock = s.lock := rfl
@[simp] theorem State.returnResult_flagsSnap (s : State) (x : HostResult) : (s.returnResult x).flagsSnap = s.flagsSnap := rfl
@[simp] theorem State.returnResult_run (s : State) (x : HostResult) : (s.returnResult x).run = s.run := rfl
@[simp] theorem State.returnResult_cs (s : State) (x : HostResult) : (s.returnResult x).cs = s.cs := rfl
@[simp] theorem State.returnResult_resetLine (s : State) (x : HostResult) : (s.returnResult x).resetLine = s.resetLine := rfl
@[simp] theorem State.returnResult_busTrace (s : State) (x : HostResult) : (s.returnResult x).busTrace = s.busTrace := rfl
@[simp] theorem State.returnResult_events (s : State) (x : HostResult) : (s.returnResult x).events = s.events := rfl
@[simp] theorem State.returnResult_refused (s : State) (x : HostResult) : (s.returnResult x).refused = s.refused := rfl
@[simp] theorem State.returnResult_chip (s : State) (x : HostResult) : (s.returnResult x).chip = s.chip := rfl
@[simp] theorem State.returnResult_port (s : State) (x : HostResult) : (s.returnResult x).port = s.port := rfl
@[simp] theorem State.returnResult_schedule (s : State) (x : HostResult) : (s.returnResult x).schedule = s.schedule := rfl
@[simp] theorem State.returnResult_tick (s : State) (x : HostResult) : (s.returnResult x).tick = s.tick := rfl
@[simp] theorem State.returnResult_bus (s : State) (x : HostResult) : (s.returnResult x).bus = s.bus := rfl

/-! ### release -/

@[simp] theorem State.release_resetDone (s : State) : (s.release).resetDone = s.resetDone := rfl
@[simp] theorem State.release_initialised (s : State) : (s.release).initialised = s.initialised := rfl
@[simp] theorem State.release_mode (s : State) : (s.release).mode = s.mode := rfl
@[simp] theorem State.release_txBusy (s : State) : (s.release).txBusy = s.txBusy := rfl
@[simp] theorem State.release_disp (s : State) : (s.release).disp = s.disp := rfl
@[simp] theorem State.release_edgePending (s : State) : (s.release).edgePending = s.edgePending := rfl
@[simp] theorem State.release_lineLast (s : State) : (s.release).lineLast = s.lineLast := rfl
@[simp] theorem State.release_flagsSnap (s : State) : (s.release).flagsSnap = s.flagsSnap := rfl
@[simp] theorem State.release_cs (s : State) : (s.release).cs = s.cs := rfl
@[simp] theorem State.release_resetLine (s : State) : (s.release).resetLine = s.resetLine := rfl
@[simp] theorem State.release_busTrace (s : State) : (s.release).busTrace = s.busTrace := rfl
@[simp] theorem State.release_events (s : State) : (s.release).events = s.events := rfl
@[simp] theorem State.release_refused (s : State) : (s.release).refused = s.refused := rfl
@[simp] theorem State.release_chip (s : State) : (s.release).chip = s.chip := rfl
@[simp] theorem State.release_port (s : State) : (s.release).port = s.port := rfl
@[simp] theorem State.release_results (s : State) : (s.release).results = s.results := rfl
@[simp] theorem State.release_schedule (s : State) : (s.release).schedule = s.schedule := rfl
@[simp] theorem State.release_tick (s : State) : (s.release).tick = s.tick := rfl
@[simp] theorem State.release_bus (s : State) : (s.release).bus = s.bus := rfl

/-! ### mapLoc -/

@[simp] theorem State.mapLoc_resetDone (s : State) (x : Locals → Locals) : (s.mapLoc x).resetDone = s.resetDone := by unfold State.mapLoc; split <;> rfl
@[simp] theorem State.mapLoc_initialised (s : State) (x : Locals → Locals) : (s.mapLoc x).initialised = s.initialised := by unfold State.mapLoc; split <;> rfl
@[simp] theorem State.mapLoc_mode (s : State) (x : Locals → Locals) : (s.mapLoc x).mode = s.mode := by unfold State.mapLoc; split <;> rfl
@[simp] theorem State.mapLoc_txBusy (s : State) (x : Locals → Locals) : (s.mapLoc x).txBusy = s.txBusy := by unfold State.mapLoc; split <;> rfl
@[simp] theorem State.mapLoc_disp (s : State) (x : Locals → Locals) : (s.mapLoc x).disp = s.disp := by unfold State.mapLoc; split <;> rfl
@[simp] theorem State.mapLoc_edgePending (s : State) (x : Locals → Locals) : (s.mapLoc x).edgePending = s.edgePending := by unfold State.mapLoc; split <;> rfl
@[simp] theorem State.mapLoc_lineLast (s : State) (x : Locals → Locals) : (s.mapLoc x).lineLast = s.lineLast := by unfold State.mapLoc; split <;> rfl
@[simp] theorem State.mapLoc_lock (s : State) (x : Locals → Locals) : (s.mapLoc x).lock = s.lock := by unfold State.mapLoc; split <;> rfl
@[simp] theorem State.mapLoc_flagsSnap (s : State) (x : Locals → Locals) : (s.mapLoc x).flagsSnap = s.flagsSnap := by unfold State.mapLoc; split <;> rfl
@[simp] theorem State.mapLoc_cs (s : State) (x : Locals → Locals) : (s.mapLoc x).cs = s.cs := by unfold State.mapLoc; split <;> rfl
@[simp] theorem State.mapLoc_resetLine (s : State) (x : Locals → Locals) : (s.mapLoc x).resetLine = s.resetLine := by unfold State.mapLoc; split <;> rfl
@[simp] theorem State.mapLoc_busTrace (s : State) (x : Locals → Locals) : (s.mapLoc x).busTrace = s.busTrace := by unfold State.mapLoc; split <;> rfl
@[simp] theorem State.mapLoc_events (s : State) (x : Locals → Locals) : (s.mapLoc x).events = s.events := by unfold State.mapLoc; split <;> rfl
@[simp] theorem State.mapLoc_refused (s : State) (x : Locals → Locals) : (s.mapLoc x).refused = s.refused := by unfold State.mapLoc; split <;> rfl
@[simp] theorem State.mapLoc_chip (s : State) (x : Locals → Locals) : (s.mapLoc x).chip = s.chip := by unfold State.mapLoc; split <;> rfl
@[simp] theorem State.mapLoc_port (s : State) (x : Locals → Locals) : (s.mapLoc x).port = s.port := by unfold State.mapLoc; split <;> rfl
@[simp] theorem State.mapLoc_results (s : State) (x : Locals → Locals) : (s.mapLoc x).results = s.results := by unfold State.mapLoc; split <;> rfl
@[simp] theorem State.mapLoc_schedule (s : State) (x : Locals → Locals) : (s.mapLoc x).schedule = s.schedule := by unfold State.mapLoc; split <;> rfl
@[simp] theorem State.mapLoc_tick (s : State) (x : Locals → Locals) : (s.mapLoc x).tick = s.tick := by unfold State.mapLoc; split <;> rfl
@[simp] theorem State.mapLoc_bus (s : State) (x : Locals → Locals) : (s.mapLoc x).bus = s.bus := by unfold State.mapLoc; split <;> rfl

/-! ### goTo -/

@[simp] theorem State.goTo_resetDone (s : State) (x : Nat) : (s.goTo x).resetDone = s.resetDone := by unfold State.goTo; split <;> rfl
@[simp] theorem State.goTo_initialised (s : State) (x : Nat) : (s.goTo x).initialised = s.initialised := by unfold State.goTo; split <;> rfl
@[simp] theorem State.goTo_mode (s : State) (x : Nat) : (s.goTo x).mode = s.mode := by unfold State.goTo; split <;> rfl
@[simp] theorem State.goTo_txBusy (s : State) (x : Nat) : (s.goTo x).txBusy = s.txBusy := by unfold State.goTo; split <;> rfl
@[simp] theorem State.goTo_disp (s : State) (x : Nat) : (s.goTo x).disp = s.disp := by unfold State.goTo; split <;> rfl
@[simp] theorem State.goTo_edgePending (s : State) (x : Nat) : (s.goTo x).edgePending = s.edgePending := by unfold State.goTo; split <;> rfl
@[simp] theorem State.goTo_lineLast (s : State) (x : Nat) : (s.goTo x).lineLast = s.lineLast := by unfold State.goTo; split <;> rfl
@[simp] theorem State.goTo_lock (s : State) (x : Nat) : (s.goTo x).lock = s.lock := by unfold State.goTo; split <;> rfl
@[simp] theorem State.goTo_flagsSnap (s : State) (x : Nat) : (s.goTo x).flagsSnap = s.flagsSnap := by unfold State.goTo; split <;> rfl
@[simp] theorem State.goTo_cs (s : State) (x : Nat) : (s.goTo x).cs = s.cs := by unfold State.goTo; split <;> rfl
@[simp] theorem State.goTo_resetLine (s : State) (x : Nat) : (s.goTo x).resetLine = s.resetLine := by unfold State.goTo; split <;> rfl
@[simp] theorem State.goTo_busTrace (s : State) (x : Nat) : (s.goTo x).busTrace = s.busTrace := by unfold State.goTo; split <;> rfl
@[simp] theorem State.goTo_events (s : State) (x : Nat) : (s.goTo x).events = s.events := by unfold State.goTo; split <;> rfl
@[simp] theorem State.goTo_refused (s : State) (x : Nat) : (s.goTo x).refused = s.refused := by unfold State.goTo; split <;> rfl
@[simp] theorem State.goTo_chip (s : State) (x : Nat) : (s.goTo x).chip = s.chip := by unfold State.goTo; split <;> rfl
@[simp] theorem State.goTo_port (s : State) (x : Nat) : (s.goTo x).port = s.port := by unfold State.goTo; split <;> rfl
@[simp] theorem State.goTo_results (s : State) (x : Nat) : (s.goTo x).results = s.results := by unfold State.goTo; split <;> rfl
@[simp] theorem State.goTo_schedule (s : State) (x : Nat) : (s.goTo x).schedule = s.schedule := by unfold State.goTo; split <;> rfl
@[simp] theorem State.goTo_tick (s : State) (x : Nat) : (s.goTo x).tick = s.tick := by unfold State.goTo; split <;> rfl
@[simp] theorem State.goTo_bus (s : State) (x : Nat) : (s.goTo x).bus = s.bus := by unfold State.goTo; split <;> rfl

/-! ### enterDispatch -/

@[simp] theorem State.enterDispatch_resetDone (s : State) : (s.enterDispatch).resetDone = s.resetDone := rfl
@[simp] theorem State.enterDispatch_initialised (s : State) : (s.enterDispatch).initialised = s.initialised := rfl
@[simp] theorem State.enterDispatch_mode (s : State) : (s.enterDispatch).mode = s.mode := rfl
@[simp] theorem State.enterDispatch_txBusy (s : State) : (s.enterDispatch).txBusy = s.txBusy := rfl
@[simp] theorem State.enterDispatch_lineLast (s : State) : (s.enterDispatch).lineLast = s.lineLast := rfl
@[simp] theorem State.enterDispatch_flagsSnap (s : State) : (s.enterDispatch).flagsSnap = s.flagsSnap := rfl
@[simp] theorem State.enterDispatch_cs (s : State) : (s.enterDispatch).cs = s.cs := rfl
@[simp] theorem State.enterDispatch_resetLine (s : State) : (s.enterDispatch).resetLine = s.resetLine := rfl
@[simp] theorem State.enterDispatch_busTrace (s : State) : (s.enterDispatch).busTrace = s.busTrace := rfl
@[simp] theorem State.enterDispatch_events (s : State) : (s.enterDispatch).events = s.events := rfl
@[simp] theorem State.enterDispatch_refused (s : State) : (s.enterDispatch).refused = s.refused := rfl
@[simp] theorem State.enterDispatch_chip (s : State) : (s.enterDispatch).chip = s.chip := rfl
@[simp] theorem State.enterDispatch_port (s : State) : (s.enterDispatch).port = s.port := rfl
@[simp] theorem State.enterDispatch_results (s : State) : (s.enterDispatch).results = s.results := rfl
@[simp] theorem State.enterDispatch_schedule (s : State) : (s.enterDispatch).schedule = s.schedule := rfl
@[simp] theorem State.enterDispatch_tick (s : State) : (s.enterDispatch).tick = s.tick := rfl
@[simp] theorem State.enterDispatch_bus (s : State) : (s.enterDispatch).bus = s.bus := rfl

/-! ### leaveDispatch -/

@[simp] theorem State.leaveDispatch_resetDone (s : State) : (s.leaveDispatch).resetDone = s.resetDone := rfl
@[simp] theorem State.leaveDispatch_initialised (s : State) : (s.leaveDispatch).initialised = s.initialised := rfl
@[simp] theorem State.leaveDispatch_mode (s : State) : (s.leaveDispatch).mode = s.mode := rfl
@[simp] theorem State.leaveDispatch_txBusy (s : State) : (s.leaveDispatch).txBusy = s.txBusy := rfl
@[simp] theorem State.leaveDispatch_edgePending (s : State) : (s.leaveDispatch).edgePending = s.edgePending := rfl
@[simp] theorem State.leaveDispatch_lineLast (s : State) : (s.leaveDispatch).lineLast = s.lineLast := rfl
@[simp] theorem State.leaveDispatch_cs (s : State) : (s.leaveDispatch).cs = s.cs := rfl
@[simp] theorem State.leaveDispatch_resetLine (s : State) : (s.leaveDispatch).resetLine = s.resetLine := rfl
@[simp] theorem State.leaveDispatch_busTrace (s : State) : (s.leaveDispatch).busTrace = s.busTrace := rfl
@[simp] theorem State.leaveDispatch_events (s : State) : (s.leaveDispatch).events = s.events := rfl
@[simp] theorem State.leaveDispatch_refused (s : State) : (s.leaveDispatch).refused = s.refused := rfl
@[simp] theorem State.leaveDispatch_chip (s : State) : (s.leaveDispatch).chip = s.chip := rfl
@[simp] theorem State.leaveDispatch_port (s : State) : (s.leaveDispatch).port = s.port := rfl
@[simp] theorem State.leaveDispatch_results (s : State) : (s.leaveDispatch).results = s.results := rfl
@[simp] theorem State.leaveDispatch_schedule (s : State) : (s.leaveDispatch).schedule = s.schedule := rfl
@[simp] theorem State.leaveDispatch_tick (s : State) : (s.leaveDispatch).tick = s.tick := rfl
@[simp] theorem State.leaveDispatch_bus (s : State) : (s.leaveDispatch).bus = s.bus := rfl

/-! ### frameDone -/

@[simp] theorem State.frameDone_resetDone (s : State) (x : Ctx) (o : List Byte) (i : Option (List Byte)) (c : Chip) : (s.frameDone x o i c).resetDone = s.resetDone := rfl
@[simp] theorem State.frameDone_initialised (s : State) (x : Ctx) (o : List Byte) (i : Option (List Byte)) (c : Chip) : (s.frameDone x o i c).initialised = s.initialised := rfl
@[simp] theorem State.frameDone_mode (s : State) (x : Ctx) (o : List Byte) (i : Option (List Byte)) (c : Chip) : (s.frameDone x o i c).mode = s.mode := rfl
@[simp] theorem State.frameDone_txBusy (s : State) (x : Ctx) (o : List Byte) (i : Option (List Byte)) (c : Chip) : (s.frameDone x o i c).txBusy = s.txBusy := rfl
@[simp] theorem State.frameDone_disp (s : State) (x : Ctx) (o : List Byte) (i : Option (List Byte)) (c : Chip) : (s.frameDone x o i c).disp = s.disp := rfl
@[simp] theorem State.frameDone_lock (s : State) (x : Ctx) (o : List Byte) (i : Option (List Byte)) (c : Chip) : (s.frameDone x o i c).lock = s.lock := rfl
@[simp] theorem State.frameDone_flagsSnap (s : State) (x : Ctx) (o : List Byte) (i : Option (List Byte)) (c : Chip) : (s.frameDone x o i c).flagsSnap = s.flagsSnap := rfl
@[simp] theorem State.frameDone_run (s : State) (x : Ctx) (o : List Byte) (i : Option (List Byte)) (c : Chip) : (s.frameDone x o i c).run = s.run := rfl
@[simp] theorem State.frameDone_resetLine (s : State) (x : Ctx) (o : List Byte) (i : Option (List Byte)) (c : Chip) : (s.frameDone x o i c).resetLine = s.resetLine := rfl
@[simp] theorem State.frameDone_events (s : State) (x : Ctx) (o : List Byte) (i : Option (List Byte)) (c : Chip) : (s.frameDone x o i c).events = s.events := rfl
@[simp] theorem State.frameDone_refused (s : State) (x : Ctx) (o : List Byte) (i : Option (List Byte)) (c : Chip) : (s.frameDone x o i c).refused = s.refused := rfl
@[simp] theorem State.frameDone_port (s : State) (x : Ctx) (o : List Byte) (i : Option (List Byte)) (c : Chip) : (s.frameDone x o i c).port = s.port := rfl
@[simp] theorem State.frameDone_results (s : State) (x : Ctx) (o : List Byte) (i : Option (List Byte)) (c : Chip) : (s.frameDone x o i c).results = s.results := rfl
@[simp] theorem State.frameDone_schedule (s : State) (x : Ctx) (o : List Byte) (i : Option (List Byte)) (c : Chip) : (s.frameDone x o i c).schedule = s.schedule := rfl
@[simp] theorem State.frameDone_tick (s : State) (x : Ctx) (o : List Byte) (i : Option (List Byte)) (c : Chip) : (s.frameDone x o i c).tick = s.tick := rfl
@[simp] theorem State.frameDone_bus (s : State) (x : Ctx) (o : List Byte) (i : Option (List Byte)) (c : Chip) : (s.frameDone x o i c).bus = s.bus := rfl

/-! ### What the updates write -/

theorem State.refuse_of_none (s : State) (x : RefusalReason) (h : s.refused = none) :
    s.refuse x = { s with refused := some x } := by
  unfold State.refuse; rw [h]

theorem State.refuse_of_some (s : State) (x y : RefusalReason) (h : s.refused = some y) : s.refuse x = s := by
  unfold State.refuse; rw [h]

@[simp] theorem State.edgeSample_lineLast (s : State) : s.edgeSample.lineLast = s.chip.dio0 := rfl
@[simp] theorem State.edgeSample_edgePending (s : State) :
    s.edgeSample.edgePending = (s.edgePending || (s.chip.dio0 && !s.lineLast)) := rfl
@[simp] theorem State.emit_events (s : State) (x : Event) : (s.emit x).events = s.events ++ [x] := rfl
@[simp] theorem State.returnResult_results (s : State) (x : HostResult) :
    (s.returnResult x).results = s.results ++ [x] := rfl
@[simp] theorem State.release_lock (s : State) : s.release.lock = none := rfl
@[simp] theorem State.release_run (s : State) : s.release.run = none := rfl
theorem State.mapLoc_run (s : State) (f : Locals → Locals) :
    (s.mapLoc f).run = s.run.map fun r => { r with loc := f r.loc } := by
  unfold State.mapLoc; split <;> simp_all
theorem State.goTo_run (s : State) (k : Nat) :
    (s.goTo k).run = s.run.map fun r => { r with pc := k, loc := { r.loc with sub := 0, got := none, ret := none } } := by
  unfold State.goTo; split <;> simp_all
@[simp] theorem State.enterDispatch_lock (s : State) : s.enterDispatch.lock = some .irq := rfl
@[simp] theorem State.enterDispatch_edgePending (s : State) : s.enterDispatch.edgePending = false := rfl
@[simp] theorem State.enterDispatch_disp (s : State) : s.enterDispatch.disp = .servicing := rfl
@[simp] theorem State.enterDispatch_run (s : State) :
    s.enterDispatch.run = some { ctx := .irq, op := .dispatch, pc := 0, loc := Locals.fresh } := rfl
@[simp] theorem State.leaveDispatch_flagsSnap (s : State) : s.leaveDispatch.flagsSnap = none := rfl
@[simp] theorem State.leaveDispatch_disp (s : State) : s.leaveDispatch.disp = .idle := rfl
@[simp] theorem State.leaveDispatch_lock (s : State) : s.leaveDispatch.lock = none := rfl
@[simp] theorem State.leaveDispatch_run (s : State) : s.leaveDispatch.run = none := rfl
@[simp] theorem State.frameDone_chip (s : State) (x : Ctx) (o : List Byte) (i : Option (List Byte)) (c : Chip) :
    (s.frameDone x o i c).chip = c := rfl
@[simp] theorem State.frameDone_cs (s : State) (x : Ctx) (o : List Byte) (i : Option (List Byte)) (c : Chip) :
    (s.frameDone x o i c).cs = false := rfl
@[simp] theorem State.frameDone_busTrace (s : State) (x : Ctx) (o : List Byte) (i : Option (List Byte)) (c : Chip) :
    (s.frameDone x o i c).busTrace = s.busTrace ++ [{ ctx := x, out := o, inp := i }] := rfl
@[simp] theorem State.frameDone_lineLast (s : State) (x : Ctx) (o : List Byte) (i : Option (List Byte)) (c : Chip) :
    (s.frameDone x o i c).lineLast = c.dio0 := rfl
@[simp] theorem State.frameDone_edgePending (s : State) (x : Ctx) (o : List Byte) (i : Option (List Byte)) (c : Chip) :
    (s.frameDone x o i c).edgePending = (s.edgePending || (c.dio0 && !s.lineLast)) := rfl

/-- acquire is hold exactly while the lock is held (R85). -/
theorem State.acquire_eq_none_iff (s : State) (ctx : Ctx) (op : Instr) : s.acquire ctx op = none ↔ s.lock.isSome := by
  unfold State.acquire; split <;> simp_all

/-- acquire takes the free lock and starts the operation at position 0 (R85, R39). -/
theorem State.acquire_of_free (s : State) (ctx : Ctx) (op : Instr) (h : s.lock = none) :
    s.acquire ctx op =
      some { s with lock := some ctx, run := some { ctx := ctx, op := op, pc := 0, loc := Locals.fresh } } := by
  unfold State.acquire; rw [h]

end Sys2Proof.Machine
end

