-- ==== Sys2Proof/Laws/Calls.lean ====
section
/-! SUPPORT. What one frame and one called operation can do to the state: the inversion of SpiXfer, and the relation
every call keeps (the operation that runs, the lock, the dispatcher and the host port are its caller's). -/

namespace Sys2Proof.Machine

/-! ### SpiXfer -/

/-- A frame of a caller that may issue it, with the bus agent's success: what R70 says. -/
theorem State.spiXfer_ok (s : State) (r : Run) (out : List Byte) (h : s.CanFrame r) (hb : s.bus = .ok) :
    s.spiXfer out = match s.chip.frame out with
      | .error e => .refuse e
      | .ok (inp, c) => .ok inp (s.frameDone r.ctx out (some inp) c) := by
  obtain ⟨h1, h2, h3⟩ := h
  cases s
  simp only at h1 h2 h3 hb
  subst h1 h2 h3 hb
  simp only [State.spiXfer, ne_eq, not_true_eq_false, if_false, Bool.not_true, Bool.false_eq_true]
  rfl

/-- A frame of a caller that may issue it, when the bus fails after `k` bytes: what R72 says. -/
theorem State.spiXfer_fail (s : State) (r : Run) (out : List Byte) (k : Nat) (h : s.CanFrame r)
    (hb : s.bus = .fail k) :
    s.spiXfer out = match s.chip.frame (out.take k) with
      | .error e => .refuse e
      | .ok (_, c) => .fail (s.frameDone r.ctx out none c) := by
  obtain ⟨h1, h2, h3⟩ := h
  cases s
  simp only at h1 h2 h3 hb
  subst h1 h2 h3 hb
  simp only [State.spiXfer, ne_eq, not_true_eq_false, if_false, Bool.not_true, Bool.false_eq_true]
  rfl

/-! ### What a call leaves to its caller -/

/-- `t` differs from `s` only in what a frame and the call around it may write (R93, R271). -/
structure CallStep (s t : State) : Prop where
  resetDone : t.resetDone = s.resetDone
  initialised : t.initialised = s.initialised
  disp : t.disp = s.disp
  lock : t.lock = s.lock
  flagsSnap : t.flagsSnap = s.flagsSnap
  resetLine : t.resetLine = s.resetLine
  refused : t.refused = s.refused
  port : t.port = s.port
  results : t.results = s.results
  schedule : t.schedule = s.schedule
  tick : t.tick = s.tick
  bus : t.bus = s.bus
  cs : s.cs = false → t.cs = false
  run : ∃ f : Locals → Locals, t.run = s.run.map fun r => { r with loc := f r.loc }
  mem : s.MemOk → t.MemOk
  air : t.chip.air = s.chip.air
  trace : s.busTrace <+: t.busTrace
  events : s.events <+: t.events

theorem CallStep.refl (s : State) : CallStep s s where
  resetDone := rfl
  initialised := rfl
  disp := rfl
  lock := rfl
  flagsSnap := rfl
  resetLine := rfl
  refused := rfl
  port := rfl
  results := rfl
  schedule := rfl
  tick := rfl
  bus := rfl
  cs := id
  run := ⟨id, by simp⟩
  mem := id
  air := rfl
  trace := List.prefix_refl _
  events := List.prefix_refl _

theorem CallStep.trans {s t u : State} (h : CallStep s t) (g : CallStep t u) : CallStep s u where
  resetDone := g.resetDone.trans h.resetDone
  initialised := g.initialised.trans h.initialised
  disp := g.disp.trans h.disp
  lock := g.lock.trans h.lock
  flagsSnap := g.flagsSnap.trans h.flagsSnap
  resetLine := g.resetLine.trans h.resetLine
  refused := g.refused.trans h.refused
  port := g.port.trans h.port
  results := g.results.trans h.results
  schedule := g.schedule.trans h.schedule
  tick := g.tick.trans h.tick
  bus := g.bus.trans h.bus
  cs := fun c => g.cs (h.cs c)
  run := by
    obtain ⟨f, hf⟩ := h.run
    obtain ⟨k, hk⟩ := g.run
    exact ⟨k ∘ f, by rw [hk, hf]; cases s.run <;> rfl⟩
  mem := fun m => g.mem (h.mem m)
  air := g.air.trans h.air
  trace := h.trace.trans g.trace
  events := h.events.trans g.events

theorem CallStep.mapLoc (s : State) (f : Locals → Locals) : CallStep s (s.mapLoc f) where
  resetDone := by simp
  initialised := by simp
  disp := by simp
  lock := by simp
  flagsSnap := by simp
  resetLine := by simp
  refused := by simp
  port := by simp
  results := by simp
  schedule := by simp
  tick := by simp
  bus := by simp
  cs := by simp
  run := ⟨f, s.mapLoc_run f⟩
  mem := by simp [State.MemOk]
  air := by simp
  trace := by simp
  events := by simp

theorem CallStep.emit (s : State) (e : Event) : CallStep s (s.emit e) where
  resetDone := rfl
  initialised := rfl
  disp := rfl
  lock := rfl
  flagsSnap := rfl
  resetLine := rfl
  refused := rfl
  port := rfl
  results := rfl
  schedule := rfl
  tick := rfl
  bus := rfl
  cs := id
  run := ⟨id, by simp⟩
  mem := id
  air := rfl
  trace := List.prefix_refl _
  events := List.prefix_append _ _

/-- The mode shadow and the busy flag are written by calls (R170, R233). -/
theorem CallStep.setFlags (s : State) (m : Option OperatingMode) (b : Bool) :
    CallStep s { s with mode := m, txBusy := b } where
  resetDone := rfl
  initialised := rfl
  disp := rfl
  lock := rfl
  flagsSnap := rfl
  resetLine := rfl
  refused := rfl
  port := rfl
  results := rfl
  schedule := rfl
  tick := rfl
  bus := rfl
  cs := id
  run := ⟨id, by simp⟩
  mem := id
  air := rfl
  trace := List.prefix_refl _
  events := List.prefix_refl _

theorem CallStep.frameDone (s : State) (ctx : Ctx) (out : List Byte) (inp : Option (List Byte)) (c : Chip)
    (h : Chip.Keeps s.chip c) : CallStep s (s.frameDone ctx out inp c) where
  resetDone := rfl
  initialised := rfl
  disp := rfl
  lock := rfl
  flagsSnap := rfl
  resetLine := rfl
  refused := rfl
  port := rfl
  results := rfl
  schedule := rfl
  tick := rfl
  bus := rfl
  cs := fun _ => rfl
  run := ⟨id, by simp⟩
  mem := fun m => h.mem m
  air := h.air
  trace := List.prefix_append _ _
  events := List.prefix_refl _

/-! ### Calls -/

/-- `P` holds of the state a call's frame leaves, if it is not refused. -/
def CallRes.After (c : CallRes) (P : State → Prop) : Prop :=
  match c with
  | .more s => P s
  | .done _ s => P s
  | .refuse _ => True

theorem CallRes.After.act {c : CallRes} {P : State → Prop} {f : Ret → State → CallRes} (h : c.After P)
    (hf : ∀ x s, P s → (f x s).After P) : (c.act f).After P := by
  unfold CallRes.act
  split
  · exact h
  · trivial
  · exact hf _ _ h

theorem Ret.orErr_after {x : Ret} {s : State} {P : State → Prop} {f : List Byte → CallRes} (h : P s)
    (hf : ∀ bs, (f bs).After P) : (x.orErr s f).After P := by
  unfold Ret.orErr
  split
  · exact hf _
  · exact h

theorem CallRes.After.mono {c : CallRes} {P Q : State → Prop} (h : c.After P) (hpq : ∀ s, P s → Q s) : c.After Q := by
  unfold CallRes.After at *
  split <;> first | exact hpq _ h | trivial

/-- Everything a frame alone can do: what a call may, and the running operation's record is not touched. -/
structure FrameOnly (s t : State) : Prop where
  call : CallStep s t
  run : t.run = s.run
  mode : t.mode = s.mode
  txBusy : t.txBusy = s.txBusy
  events : t.events = s.events

theorem FrameOnly.refl (s : State) : FrameOnly s s := ⟨CallStep.refl s, rfl, rfl, rfl, rfl⟩

theorem FrameOnly.frameDone (s : State) (ctx : Ctx) (out : List Byte) (inp : Option (List Byte)) (c : Chip)
    (h : Chip.Keeps s.chip c) : FrameOnly s (s.frameDone ctx out inp c) :=
  ⟨CallStep.frameDone s ctx out inp c h, rfl, rfl, rfl, rfl⟩

/-- Everything SpiXfer can do. -/
theorem State.spiXfer_cases (s : State) (out : List Byte) :
    (∃ e, s.spiXfer out = .refuse e) ∨
    (∃ inp t, s.spiXfer out = .ok inp t ∧ FrameOnly s t) ∨ (∃ t, s.spiXfer out = .fail t ∧ FrameOnly s t) := by
  unfold State.spiXfer
  split
  · exact .inl ⟨_, rfl⟩
  · split
    · exact .inl ⟨_, rfl⟩
    · split
      · exact .inl ⟨_, rfl⟩
      · dsimp only
        split
        · split
          · exact .inl ⟨_, rfl⟩
          · rename_i inp c hc
            exact .inr (.inl ⟨_, _, rfl, FrameOnly.frameDone s _ _ _ _ (Chip.frame_keeps _ _ _ _ hc).1⟩)
        · split
          · exact .inl ⟨_, rfl⟩
          · rename_i inp c hc
            exact .inr (.inr ⟨_, rfl, FrameOnly.frameDone s _ _ _ _ (Chip.frame_keeps _ _ _ _ hc).1⟩)

theorem readByteCall_step (a : Byte) (s : State) : (readByteCall a s).After (FrameOnly s) := by
  unfold readByteCall
  split
  · trivial
  · rcases s.spiXfer_cases [commandByte false a, Config.cfg.dummy] with ⟨e, h⟩ | ⟨i, t, h, k⟩ | ⟨t, h, k⟩ <;> rw [h]
    · trivial
    · exact k
    · exact k

theorem readBlockCall_step (a : Byte) (n : Nat) (s : State) : (readBlockCall a n s).After (FrameOnly s) := by
  unfold readBlockCall
  split
  · trivial
  · rcases s.spiXfer_cases (commandByte false a :: List.replicate n Config.cfg.dummy) with
      ⟨e, h⟩ | ⟨i, t, h, k⟩ | ⟨t, h, k⟩ <;> rw [h]
    · trivial
    · exact k
    · exact k

theorem writeByteCall_step (a v : Byte) (s : State) : (writeByteCall a v s).After (FrameOnly s) := by
  unfold writeByteCall
  split
  · trivial
  · rcases s.spiXfer_cases [commandByte true a, v] with ⟨e, h⟩ | ⟨i, t, h, k⟩ | ⟨t, h, k⟩ <;> rw [h]
    · trivial
    · exact k
    · exact k

theorem writeBlockCall_step (a : Byte) (bs : List Byte) (s : State) : (writeBlockCall a bs s).After (FrameOnly s) := by
  unfold writeBlockCall
  split
  · trivial
  · rcases s.spiXfer_cases (commandByte true a :: bs) with ⟨e, h⟩ | ⟨i, t, h, k⟩ | ⟨t, h, k⟩ <;> rw [h]
    · trivial
    · exact k
    · exact k

theorem setCarrierFrequencyCall_step (hz : Nat) (s : State) : (setCarrierFrequencyCall hz s).After (FrameOnly s) := by
  unfold setCarrierFrequencyCall
  split
  · exact writeBlockCall_step _ _ s
  · exact FrameOnly.refl s

theorem enableRxCrcFrame_step (k : Nat) (s : State) : (enableRxCrcFrame k s).After (FrameOnly s) := by
  unfold enableRxCrcFrame
  split
  · exact readByteCall_step _ s
  · exact writeByteCall_step _ _ s

theorem onReceiveCompleteFrame_step (k : Nat) (s : State) : (onReceiveCompleteFrame k s).After (FrameOnly s) := by
  unfold onReceiveCompleteFrame
  split <;> first | exact readByteCall_step _ s | exact writeByteCall_step _ _ s | exact readBlockCall_step _ _ s

theorem onTransmitCompleteFrame_step (k : Nat) (s : State) : (onTransmitCompleteFrame k s).After (FrameOnly s) := by
  unfold onTransmitCompleteFrame
  split
  · exact writeByteCall_step _ _ s
  · exact writeByteCall_step _ _ s

/-- Everything one frame of a called operation can do to the state. -/
theorem callFrame_step (i : Instr) (k : Nat) (s : State) : (callFrame i k s).After (FrameOnly s) := by
  cases i with
  | readByte a => exact readByteCall_step a s
  | readBlock a n => exact readBlockCall_step a n s
  | writeByte a v => exact writeByteCall_step a v s
  | writeBlock a bs => exact writeBlockCall_step a bs s
  | setMode m => exact writeByteCall_step (regAddr .opMode) (opModeValue m) s
  | setCarrierFrequency hz => exact setCarrierFrequencyCall_step hz s
  | setPowerAmplifier b => exact writeByteCall_step (regAddr .paConfig) (paValue b) s
  | enableRxCrc => exact enableRxCrcFrame_step k s
  | onReceiveComplete => exact onReceiveCompleteFrame_step k s
  | onTransmitComplete => exact onTransmitCompleteFrame_step k s
  | reset => exact FrameOnly.refl s
  | init _ _ _ => exact FrameOnly.refl s
  | send _ _ => exact FrameOnly.refl s
  | dump _ _ => exact FrameOnly.refl s
  | dispatch => exact FrameOnly.refl s

/-! ### The actions after a frame -/

/-- Everything the actions of a call after a frame can do: the chip, the bus trace and the edge detector are not
touched. -/
structure ActOnly (s t : State) : Prop where
  call : CallStep s t
  chip : t.chip = s.chip
  cs : t.cs = s.cs
  busTrace : t.busTrace = s.busTrace
  edgePending : t.edgePending = s.edgePending
  lineLast : t.lineLast = s.lineLast

theorem ActOnly.refl (s : State) : ActOnly s s := ⟨CallStep.refl s, rfl, rfl, rfl, rfl, rfl⟩

theorem ActOnly.trans {s t u : State} (h : ActOnly s t) (g : ActOnly t u) : ActOnly s u :=
  ⟨h.call.trans g.call, g.chip.trans h.chip, g.cs.trans h.cs, g.busTrace.trans h.busTrace,
    g.edgePending.trans h.edgePending, g.lineLast.trans h.lineLast⟩

theorem ActOnly.mapLoc (s : State) (f : Locals → Locals) : ActOnly s (s.mapLoc f) :=
  ⟨CallStep.mapLoc s f, by simp, by simp, by simp, by simp, by simp⟩

theorem ActOnly.emit (s : State) (e : Event) : ActOnly s (s.emit e) := ⟨CallStep.emit s e, rfl, rfl, rfl, rfl, rfl⟩

theorem ActOnly.setFlags (s : State) (m : Option OperatingMode) (b : Bool) :
    ActOnly s { s with mode := m, txBusy := b } := ⟨CallStep.setFlags s m b, rfl, rfl, rfl, rfl, rfl⟩

theorem setModeAct_step (m : OperatingMode) (x : Ret) (s : State) : (setModeAct m x s).After (ActOnly s) := by
  unfold setModeAct
  split
  · exact ActOnly.setFlags s _ _
  · exact ActOnly.setFlags s _ _

/-- What the actions of a call after a frame do, and that they refuse nothing. -/
theorem callAct_step (i : Instr) (k : Nat) (x : Ret) (s : State) : (callAct i k x s).After (ActOnly s) := by
  cases i with
  | setMode m => exact setModeAct_step m x s
  | enableRxCrc =>
    refine Ret.orErr_after (ActOnly.refl s) fun bs => ?_
    split
    · exact ActOnly.mapLoc s _
    · exact ActOnly.refl s
  | onReceiveComplete =>
    refine Ret.orErr_after (ActOnly.refl s) fun bs => ?_
    split <;> first | exact ActOnly.mapLoc s _ | exact ActOnly.refl s | exact ActOnly.emit s _
  | onTransmitComplete =>
    unfold callAct onTransmitCompleteAct
    dsimp only
    split
    · exact Ret.orErr_after (ActOnly.refl s) fun bs => ActOnly.refl s
    · refine (setModeAct_step _ x s).act fun y t h => Ret.orErr_after h fun bs => ?_
      exact (h.trans (ActOnly.setFlags t t.mode false)).trans (ActOnly.emit _ _)
  | readByte a => exact ActOnly.refl s
  | readBlock a n => exact ActOnly.refl s
  | writeByte a v => exact ActOnly.refl s
  | writeBlock a bs => exact ActOnly.refl s
  | setCarrierFrequency hz => exact ActOnly.refl s
  | setPowerAmplifier b => exact ActOnly.refl s
  | reset => exact ActOnly.refl s
  | init _ _ _ => exact ActOnly.refl s
  | send _ _ => exact ActOnly.refl s
  | dump _ _ => exact ActOnly.refl s
  | dispatch => exact ActOnly.refl s

/-- The actions of a call after its last frame refuse nothing. -/
theorem callAct_ne_refuse (i : Instr) (k : Nat) (x : Ret) (s : State) (e : RefusalReason) : callAct i k x s ≠ .refuse e := by
  intro h
  cases i <;> simp only [callAct, reduceCtorEq] at h
  · unfold setModeAct at h; split at h <;> cases h
  · unfold enableRxCrcAct Ret.orErr at h; repeat' split at h
    all_goals cases h
  · unfold onReceiveCompleteAct Ret.orErr at h; repeat' split at h
    all_goals cases h
  · unfold onTransmitCompleteAct at h
    split at h
    · unfold Ret.orErr at h; split at h <;> cases h
    · unfold CallRes.act setModeAct at h
      cases x <;> cases h

/-- The actions pending after a frame, performed: nothing of the chip, the bus trace or the edge detector changes. -/
theorem State.actGot_step (i : Instr) (s : State) : ActOnly s (s.actGot i) := by
  unfold State.actGot
  split
  · exact ActOnly.refl s
  · rename_i x _
    have h := callAct_step i s.loc.sub x s
    split
    · rename_i t e; rw [e] at h; exact h.trans (ActOnly.mapLoc t _)
    · rename_i y t e; rw [e] at h; exact h.trans (ActOnly.mapLoc t _)
    · rename_i e he; exact absurd he (callAct_ne_refuse _ _ _ _ _)

/-- One frame of a call issued: what a call may do, with nothing handed back that was not, or the refusal mark and
nothing else. -/
theorem State.issue_cases (i : Instr) (s0 s : State) :
    (CallStep s (State.issue i s0 s) ∧ (State.issue i s0 s).run.map (fun r => r.loc.ret) = s.run.map (fun r => r.loc.ret)) ∨
      ∃ e, State.issue i s0 s = s0.refuse e := by
  unfold State.issue
  have h := callFrame_step i s.loc.sub s
  split
  · rename_i t e; rw [e] at h; exact .inl ⟨h.call, by rw [h.run]⟩
  · rename_i x t e
    rw [e] at h
    refine .inl ⟨h.call.trans (CallStep.mapLoc t _), ?_⟩
    rw [State.mapLoc_run, h.run]
    cases s.run <;> rfl
  · exact .inr ⟨_, rfl⟩

theorem setModeCall_step (m : OperatingMode) (s : State) : (setModeCall m s).After (CallStep s) := by
  refine ((writeByteCall_step (regAddr .opMode) (opModeValue m) s).mono fun t h => h.call).act fun x t h => ?_
  exact (setModeAct_step m x t).mono fun u k => h.trans k.call

/-- One frame of a call as a step: what a call may do, or the refusal mark and nothing else. -/
theorem State.callOnce_cases (f : State → CallRes) (s : State) (h : (f s).After (CallStep s)) :
    CallStep s (s.callOnce f) ∨ ∃ r, s.callOnce f = s.refuse r := by
  unfold State.callOnce
  split
  · rename_i t e; rw [e] at h; exact .inl (h.trans (CallStep.mapLoc t _))
  · rename_i x t e; rw [e] at h; exact .inl (h.trans (CallStep.mapLoc t _))
  · exact .inr ⟨_, rfl⟩

end Sys2Proof.Machine
end

