-- ==== Sys2Proof/Laws/Frames.lean ====
section
/-! SUPPORT. The chip's response to the frames the block issues (R74–R80, R283), in the words of Sys2Proof/Safety.lean:
one read, one write, a FIFO drain, a FIFO burst, and bursts over the registers. -/

namespace Sys2Proof.Machine

/-! ### Command bytes and targets -/

theorem commandByte_read (a : Byte) (h : a.getLsbD 7 = false) : commandByte false a = a := by
  revert a; decide

theorem commandByte_write (a : Byte) (h : a.getLsbD 7 = false) : commandByte true a = 0x80 ||| a := by
  revert a; decide

theorem frameAddr_write (a : Byte) (h : a.getLsbD 7 = false) : frameAddr (0x80 ||| a) = a := by
  revert a; decide

theorem frameAddr_read (a : Byte) (h : a.getLsbD 7 = false) : frameAddr a = a := by
  revert a; decide

theorem write_bit7 (a : Byte) : (0x80 ||| a).getLsbD 7 = true := by revert a; decide

theorem addr_lt (a : Byte) (h : a.getLsbD 7 = false) : a.toNat < 128 := by revert a; decide

theorem regAddr_bit7 (q : Reg) : (regAddr q).getLsbD 7 = false := by cases q <;> rfl

theorem frameTarget_fifo (k : Nat) : frameTarget 0 k = some 0 := by simp [frameTarget, regAddr_cfg, Cfg.defaultReg]

theorem frameTarget_reg (a k : Nat) (ha : a ≠ 0) (h : a + k < 128) : frameTarget a k = some (a + k) := by
  simp [frameTarget, regAddr_cfg, Cfg.defaultReg, ha, Config.regCount, h]

theorem frameTarget_past (a k : Nat) (ha : a ≠ 0) (h : 128 ≤ a + k) : frameTarget a k = none := by
  have h1 : a ≠ (regAddr .fifo).toNat := ha
  have h2 : ¬a + k < Config.regCount := by simp only [Config.regCount]; omega
  unfold frameTarget
  rw [if_neg h1, if_neg h2]

theorem frameTarget_first (a : Byte) (h : a.getLsbD 7 = false) : frameTarget a.toNat 0 = some a.toNat := by
  have := addr_lt a h
  by_cases ha : a.toNat = 0
  · rw [ha, frameTarget_fifo]
  · rw [frameTarget_reg _ _ ha (by omega)]; rfl

theorem walksPastEnd_fifo (n : Nat) : walksPastEnd 0 n = false := rfl

theorem walksPastEnd_of_le (a n : Nat) (h : a + n ≤ 128) : walksPastEnd a n = false := by
  have : ¬Config.regCount < a + n := by unfold Config.regCount; omega
  simp [walksPastEnd, this]

theorem walksPastEnd_of_lt (a n : Nat) (ha : a ≠ 0) (h : 128 < a + n) : walksPastEnd a n = true := by
  have : a ≠ (regAddr .fifo).toNat := ha
  simp [walksPastEnd, Config.regCount, this, h]

theorem walksPastEnd_one (a : Byte) (h : a.getLsbD 7 = false) : walksPastEnd a.toNat 1 = false :=
  walksPastEnd_of_le _ _ (by have := addr_lt a h; omega)

/-- A read walk that is not refused stays below 0x80. -/
theorem Chip.memRead_walk (a n k : Nat) (c d : Chip) (vs : List Byte) (ha : a ≠ 0) (hk : a + k ≤ 128)
    (h : Chip.memRead a k n c = .ok (vs, d)) : a + k + n ≤ 128 := by
  induction n generalizing k c vs with
  | zero => omega
  | succ n ih =>
    unfold Chip.memRead at h
    by_cases hp : 128 ≤ a + k
    · rw [frameTarget_past a k ha hp] at h; cases h
    · rw [frameTarget_reg a k ha (by omega)] at h
      dsimp only at h
      split at h
      · cases h
      · rename_i vs' c2 hr
        simp only [Except.ok.injEq, Prod.mk.injEq] at h
        have := ih (k + 1) _ vs' (by omega) (h.2 ▸ hr)
        omega

/-- A write walk that is not refused stays below 0x80. -/
theorem Chip.memWrite_walk (a : Nat) (bs : List Byte) (k : Nat) (c d : Chip) (ha : a ≠ 0) (hk : a + k ≤ 128)
    (h : Chip.memWrite a k bs c = .ok d) : a + k + bs.length ≤ 128 := by
  induction bs generalizing k c with
  | nil => exact hk
  | cons v vs ih =>
    unfold Chip.memWrite at h
    by_cases hp : 128 ≤ a + k
    · rw [frameTarget_past a k ha hp] at h; cases h
    · rw [frameTarget_reg a k ha (by omega)] at h
      dsimp only at h
      split at h
      · cases h
      · have := ih (k + 1) _ (by omega) h
        simp only [List.length_cons]
        omega

/-! ### Comparing chips -/

theorem Chip.RegsKept.refl (l : List Reg) (c : Chip) : Chip.RegsKept l c c := fun _ _ => rfl

theorem Chip.RegsKept.trans {l : List Reg} {c d e : Chip} (h : Chip.RegsKept l c d) (g : Chip.RegsKept l d e) :
    Chip.RegsKept l c e := fun a ha => (g a ha).trans (h a ha)

theorem Chip.RegsKept.mono {l m : List Reg} {c d : Chip} (h : Chip.RegsKept l c d) (hlm : ∀ q ∈ l, q ∈ m) :
    Chip.RegsKept m c d := fun a ha => h a fun q hq => ha q (hlm q hq)

theorem Chip.RegsKept.reg {l : List Reg} {c d : Chip} (h : Chip.RegsKept l c d) (q : Reg) (hq : q ∉ l) :
    d.reg q = c.reg q :=
  h _ fun r hr e => hq (by rw [regAddr_toNat_inj q r e]; exact hr)

theorem Chip.RegsKept.setReg (c : Chip) (q : Reg) (v : Byte) : Chip.RegsKept [q] c (c.setReg q v) := by
  intro a ha
  rw [Chip.regAtAddr_setReg]
  simp [ha q (by simp)]

theorem Chip.FifoKept.refl (c : Chip) : Chip.FifoKept c c := fun _ => rfl

theorem Chip.FifoKept.trans {c d e : Chip} (h : Chip.FifoKept c d) (g : Chip.FifoKept d e) : Chip.FifoKept c e :=
  fun i => (g i).trans (h i)

theorem Chip.RadioKept.refl (c : Chip) : Chip.RadioKept c c := ⟨rfl, rfl⟩

theorem Chip.RadioKept.trans {c d e : Chip} (h : Chip.RadioKept c d) (g : Chip.RadioKept d e) :
    Chip.RadioKept c e := ⟨g.1.trans h.1, g.2.trans h.2⟩

/-- The two chips differ in the draw counter alone. -/
def Chip.SameBut (c d : Chip) : Prop := ∃ n, d = { c with draws := n }

theorem Chip.SameBut.refl (c : Chip) : Chip.SameBut c c := ⟨c.draws, rfl⟩

theorem Chip.SameBut.trans {c d e : Chip} (h : Chip.SameBut c d) (g : Chip.SameBut d e) : Chip.SameBut c e := by
  obtain ⟨n, rfl⟩ := h; obtain ⟨m, rfl⟩ := g; exact ⟨m, rfl⟩

theorem Chip.SameBut.regs {c d : Chip} (h : Chip.SameBut c d) (l : List Reg) : Chip.RegsKept l c d := by
  obtain ⟨n, rfl⟩ := h; exact fun _ _ => rfl

theorem Chip.SameBut.regAtAddr {c d : Chip} (h : Chip.SameBut c d) (a : Nat) : d.regAtAddr a = c.regAtAddr a := by
  obtain ⟨n, rfl⟩ := h; rfl

theorem Chip.SameBut.reg {c d : Chip} (h : Chip.SameBut c d) (q : Reg) : d.reg q = c.reg q := by
  obtain ⟨n, rfl⟩ := h; rfl

theorem Chip.SameBut.fifo {c d : Chip} (h : Chip.SameBut c d) : Chip.FifoKept c d := by
  obtain ⟨n, rfl⟩ := h; exact fun _ => rfl

theorem Chip.SameBut.radio {c d : Chip} (h : Chip.SameBut c d) : Chip.RadioKept c d := by
  obtain ⟨n, rfl⟩ := h; exact ⟨rfl, rfl⟩

theorem Chip.SameBut.draw (c : Chip) : Chip.SameBut c c.draw.2 := ⟨_, rfl⟩

theorem Chip.SameBut.drawList (n : Nat) (c : Chip) : Chip.SameBut c (Chip.drawList n c).2 :=
  ⟨_, (Chip.drawList_eq n c).1⟩

/-- The line's level depends on two registers alone. -/
theorem Chip.dio0_congr {c d : Chip} (h1 : d.reg .dioMapping1 = c.reg .dioMapping1)
    (h2 : d.reg .irqFlags = c.reg .irqFlags) : d.dio0 = c.dio0 := by
  unfold Chip.dio0; rw [h1, h2]

/-! ### Reads -/

/-- A read of a target other than the FIFO port changes no chip state but the draw counter, and returns the register
where R76 says so. -/
theorem Chip.readTarget_reg (c : Chip) (t : Nat) (h : t ≠ 0) :
    Chip.SameBut c (c.readTarget t).2 ∧
    ∀ q, t = (regAddr q).toNat → c.Readable q → (c.readTarget t).1 = c.reg q := by
  have hf : regAt t ≠ some .fifo := fun e => h ((regAt_eq_fifo t).1 e)
  unfold Chip.readTarget
  rw [if_neg hf]
  split
  · rename_i hp
    refine ⟨Chip.SameBut.draw c, fun q hq hr => ?_⟩
    subst hq
    simp only [Bool.and_eq_true, Bool.not_eq_true'] at hp
    have := hr.2 hp.1
    unfold Chip.InLoRa at this
    rw [hp.2] at this
    cases this
  · split
    · rename_i hn
      refine ⟨Chip.SameBut.draw c, fun q hq _ => ?_⟩
      subst hq
      rw [regAt_regAddr] at hn
      cases hn
    · rename_i r hr
      refine ⟨Chip.SameBut.refl c, fun q hq _ => ?_⟩
      subst hq
      rw [regAt_regAddr] at hr
      cases hr
      rfl

/-- A read of the FIFO port (R76, R43). -/
theorem Chip.readTarget_fifo (c : Chip) :
    c.readTarget 0 = (c.fifoCell (c.reg .fifoAddrPtr), c.setReg .fifoAddrPtr (c.reg .fifoAddrPtr + 1)) := rfl

/-- A frame that reads one byte. -/
theorem Chip.frame_readOne (c : Chip) (a d : Byte) (h : a.getLsbD 7 = false) :
    c.frame [a, d] = .ok ([c.draw.1, (c.draw.2.readTarget a.toNat).1], (c.draw.2.readTarget a.toNat).2) := by
  unfold Chip.frame
  simp only [h, frameAddr_read a h, List.length_cons, List.length_nil, Chip.memRead, frameTarget_first a h,
    walksPastEnd_one a h]
  rfl

/-- A drain of `n` bytes from the FIFO port. -/
theorem Chip.memRead_fifo (n k : Nat) (c : Chip) :
    ∃ vs d, Chip.memRead 0 k n c = .ok (vs, d) ∧ vs.length = n ∧
      (∀ j, j < n → vs[j]? = some (c.fifoCell (c.reg .fifoAddrPtr + BitVec.ofNat 8 j))) ∧
      d.reg .fifoAddrPtr = c.reg .fifoAddrPtr + BitVec.ofNat 8 n ∧
      Chip.RegsKept [.fifoAddrPtr] c d ∧ Chip.FifoKept c d ∧ Chip.RadioKept c d := by
  induction n generalizing k c with
  | zero =>
    exact ⟨[], c, rfl, rfl, fun j hj => by omega, by simp, Chip.RegsKept.refl _ c, Chip.FifoKept.refl c,
      Chip.RadioKept.refl c⟩
  | succ n ih =>
    obtain ⟨vs, d, he, hl, hv, hp, hr, hf, ha⟩ := ih (k + 1) (c.setReg .fifoAddrPtr (c.reg .fifoAddrPtr + 1))
    refine ⟨c.fifoCell (c.reg .fifoAddrPtr) :: vs, d, ?_, by simp [hl], ?_, ?_,
      (Chip.RegsKept.setReg c _ _).trans hr, hf, ha⟩
    · unfold Chip.memRead
      rw [frameTarget_fifo]
      simp only [Chip.readTarget_fifo, he]
    · intro j hj
      cases j with
      | zero => simp
      | succ j =>
        rw [List.getElem?_cons_succ, hv j (by omega)]
        simp only [Chip.reg_setReg_same, Chip.fifoCell_setReg]
        congr 2
        apply BitVec.eq_of_toNat_eq
        simp
        omega
    · rw [hp, Chip.reg_setReg_same]
      apply BitVec.eq_of_toNat_eq
      simp
      omega

/-- A read burst over the registers. -/
theorem Chip.memRead_regs (a n k : Nat) (c : Chip) (ha : a ≠ 0) (h : a + k + n ≤ 128) :
    ∃ vs d, Chip.memRead a k n c = .ok (vs, d) ∧ vs.length = n ∧ Chip.SameBut c d ∧
      ∀ j q, j < n → a + k + j = (regAddr q).toNat → c.Readable q → vs[j]? = some (c.reg q) := by
  induction n generalizing k c with
  | zero => exact ⟨[], c, rfl, rfl, Chip.SameBut.refl c, fun j q hj => by omega⟩
  | succ n ih =>
    obtain ⟨hs, hv⟩ := c.readTarget_reg (a + k) (by omega)
    obtain ⟨vs, d, he, hl, hd, hw⟩ := ih (k + 1) (c.readTarget (a + k)).2 (by omega)
    refine ⟨(c.readTarget (a + k)).1 :: vs, d, ?_, by simp [hl], hs.trans hd, ?_⟩
    · unfold Chip.memRead
      rw [frameTarget_reg a k ha (by omega)]
      simp only [he]
    · intro j q hj hq hr
      cases j with
      | zero => simp [hv q (by omega) hr]
      | succ j =>
        rw [List.getElem?_cons_succ]
        have hr' : (c.readTarget (a + k)).2.Readable q :=
          ⟨hr.1, fun x => by have := hr.2 x; unfold Chip.InLoRa at *; rw [hs.reg]; exact this⟩
        rw [hw j q (by omega) (by omega) hr', hs.reg]

/-- A read burst past 0x7F is refused (R80). -/
theorem Chip.memRead_past (a n k : Nat) (c : Chip) (ha : a ≠ 0) (hn : 0 < n) (h : 128 < a + k + n) :
    Chip.memRead a k n c = .error .burstPastEnd := by
  induction n generalizing k c with
  | zero => omega
  | succ n ih =>
    unfold Chip.memRead
    by_cases hk : 128 ≤ a + k
    · rw [frameTarget_past a k ha hk]
    · rw [frameTarget_reg a k ha (by omega)]
      dsimp only
      rw [ih (k + 1) _ (by omega) (by omega)]

/-! ### Writes -/

theorem Chip.regAtAddr_drawFifo (c : Chip) (a : Nat) : c.drawFifo.regAtAddr a = c.regAtAddr a := rfl

/-- What the write of a mode does beside the register (R283). -/
theorem Chip.modeWritten_spec (c : Chip) (v : Byte) :
    (∀ a, (c.modeWritten v).regAtAddr a = c.regAtAddr a) ∧ (c.modeWritten v).air = c.air ∧
    (modeField v ≠ modeCode .sleep → Chip.FifoKept c (c.modeWritten v)) ∧
    (¬(loraBit v = true ∧ modeField v = modeCode .transmit) → (c.modeWritten v).txPkt = none) ∧
    (loraBit v = true → modeField v = modeCode .transmit →
      (c.modeWritten v).txPkt = some (c.fifoSlice (c.reg .fifoTxBaseAddr) (c.reg .payloadLength).toNat)) := by
  have key : ∀ d : Chip, (∀ a, d.regAtAddr a = c.regAtAddr a) → d.air = c.air → Chip.FifoKept c d →
      ∀ e : Chip, e = (if modeField v = modeCode .sleep then d.drawFifo else d) →
      (∀ a, e.regAtAddr a = c.regAtAddr a) ∧ e.air = c.air ∧
      (modeField v ≠ modeCode .sleep → Chip.FifoKept c e) ∧ e.txPkt = d.txPkt := by
    intro d h1 h2 h3 e he
    by_cases h : modeField v = modeCode .sleep
    · rw [if_pos h] at he; subst he
      exact ⟨h1, h2, fun x => absurd h x, rfl⟩
    · rw [if_neg h] at he; subst he
      exact ⟨h1, h2, fun _ => h3, rfl⟩
  by_cases h1 : loraBit v = true ∧ modeField v = modeCode .transmit
  · obtain ⟨k1, k2, k3, k4⟩ := key
      { c with txPkt := some (c.fifoSlice (c.reg .fifoTxBaseAddr) (c.reg .payloadLength).toNat) }
      (fun _ => rfl) rfl (fun _ => rfl) (c.modeWritten v) (by unfold Chip.modeWritten; rw [if_pos h1])
    exact ⟨k1, k2, k3, fun h => absurd h1 h, fun _ _ => k4⟩
  · obtain ⟨k1, k2, k3, k4⟩ := key { c with txPkt := none }
      (fun _ => rfl) rfl (fun _ => rfl) (c.modeWritten v) (by unfold Chip.modeWritten; rw [if_neg h1])
    exact ⟨k1, k2, k3, fun _ => k4, fun a b => absurd ⟨a, b⟩ h1⟩

/-- What a write to a named register other than the FIFO port does (R77, R79, R283). -/
theorem Chip.writeReg_spec (c : Chip) (q : Reg) (v : Byte) (hq : q ≠ .fifo) :
    Chip.RegsKept [q] c (c.writeReg q v) ∧ (c.writeReg q v).air = c.air ∧
    (q ≠ .opMode → Chip.FifoKept c (c.writeReg q v) ∧ (c.writeReg q v).txPkt = c.txPkt) ∧
    (q = .irqFlags → (c.writeReg q v).reg q = c.reg q &&& ~~~v) ∧
    (readOnlyReg q = true → (c.writeReg q v).reg q = c.reg q) ∧
    (c.Stores q → (c.writeReg q v).reg q = v) ∧
    (q = .opMode → (c.writeReg q v).reg q = v ∧ c.writeReg q v = (c.setReg .opMode v).modeWritten v) := by
  have hset : ∀ w, Chip.RegsKept [q] c (c.setReg q w) := fun w => Chip.RegsKept.setReg c q w
  by_cases h1 : q = .irqFlags
  · subst h1
    have e : c.writeReg .irqFlags v = c.setReg .irqFlags (clearFlags (c.reg .irqFlags) v) := by simp [Chip.writeReg]
    rw [e]
    exact ⟨hset _, rfl, fun _ => ⟨fun _ => rfl, rfl⟩, fun _ => by rw [Chip.reg_setReg_same]; rfl,
      fun h => (by cases h), fun h => (by cases h.1), fun h => (by cases h)⟩
  · by_cases h2 : readOnlyReg q = true
    · have e : c.writeReg q v = c := by simp [Chip.writeReg, h1, h2]
      rw [e]
      refine ⟨Chip.RegsKept.refl _ c, rfl, fun _ => ⟨fun _ => rfl, rfl⟩, fun h => absurd h h1, fun _ => rfl,
        fun h => ?_, fun h => (by subst h; cases h2)⟩
      have := h.1
      simp [storageReg, h2] at this
    · by_cases h3 : sleepOnlyReg q = true ∧ modeField (c.reg .opMode) ≠ modeCode .sleep ∧
          modeField (c.reg .opMode) ≠ modeCode .standby
      · have e : c.writeReg q v = c.draw.2.setReg q c.draw.1 := by
          unfold Chip.writeReg
          rw [if_neg h1, if_neg h2, if_pos h3]
        rw [e]
        refine ⟨fun a ha => ?_, rfl, fun _ => ⟨fun _ => rfl, rfl⟩, fun h => absurd h h1, fun h => absurd h h2,
          fun h => ?_, fun h => (by subst h; cases h3.1)⟩
        · exact Chip.RegsKept.setReg c.draw.2 q c.draw.1 a ha
        · rcases h.2 h3.1 with x | x
          · exact absurd x h3.2.1
          · exact absurd x h3.2.2
      · by_cases h4 : q = .opMode
        · subst h4
          have e : c.writeReg .opMode v = (c.setReg .opMode v).modeWritten v := by
            unfold Chip.writeReg
            rw [if_neg h1, if_neg h2, if_neg h3, if_pos rfl]
          obtain ⟨m1, m2, _⟩ := (c.setReg .opMode v).modeWritten_spec v
          rw [e]
          refine ⟨fun a ha => (m1 a).trans (hset v a ha), m2, fun h => absurd rfl h, fun h => (by cases h),
            fun h => (by cases h), fun h => (by cases h.1), fun _ => ⟨?_, rfl⟩⟩
          exact (m1 _).trans (Chip.reg_setReg_same c _ v)
        · have e : c.writeReg q v = c.setReg q v := by
            unfold Chip.writeReg
            rw [if_neg h1, if_neg h2, if_neg h3, if_neg h4]
          rw [e]
          exact ⟨hset _, rfl, fun _ => ⟨fun _ => rfl, rfl⟩, fun h => absurd h h1, fun h => absurd h h2,
            fun _ => Chip.reg_setReg_same c q v, fun h => absurd h h4⟩

theorem Chip.writeTarget_fifo (c : Chip) (v : Byte) : c.writeTarget 0 v = .ok (c.writeFifoPort v) := rfl

theorem Chip.writeTarget_reg (c : Chip) (q : Reg) (v : Byte) (h : q ≠ .fifo) :
    c.writeTarget (regAddr q).toNat v = .ok (c.writeReg q v) := by
  unfold Chip.writeTarget
  rw [regAt_regAddr]
  cases q <;> first | rfl | exact absurd rfl h

theorem Chip.writeTarget_unmapped (c : Chip) (t : Nat) (v : Byte) (h : ∀ q, t ≠ (regAddr q).toNat) :
    c.writeTarget t v = .error .unmappedWrite := by
  unfold Chip.writeTarget
  split
  · rfl
  · rename_i e; exact absurd (regAt_eq_some t _ e) (h _)
  · rename_i e; exact absurd (regAt_eq_some t _ e) (h _)

/-- A frame that writes one byte. -/
theorem Chip.frame_writeOne (c : Chip) (a v : Byte) (h : a.getLsbD 7 = false) :
    c.frame [0x80 ||| a, v] = match c.writeTarget a.toNat v with
      | .error e => .error e
      | .ok d => .ok (Chip.drawList 2 d) := by
  unfold Chip.frame
  simp only [write_bit7, if_true, frameAddr_write a h, Chip.memWrite, frameTarget_first a h, List.length_cons,
    List.length_nil, Nat.zero_add, walksPastEnd_one a h, Bool.false_eq_true, if_false]
  cases c.writeTarget a.toNat v <;> rfl

/-- A burst into the FIFO port: the last 256 bytes stand, each in its cell. -/
theorem Chip.memWrite_fifo (bs : List Byte) (k : Nat) (c : Chip) :
    ∃ d, Chip.memWrite 0 k bs c = .ok d ∧
      (∀ j, j < bs.length → bs.length ≤ j + 256 →
        some (d.fifoCell (c.reg .fifoAddrPtr + BitVec.ofNat 8 j)) = bs[j]?) ∧
      (∀ i, (∀ j, j < bs.length → i ≠ c.reg .fifoAddrPtr + BitVec.ofNat 8 j) → d.fifoCell i = c.fifoCell i) ∧
      d.reg .fifoAddrPtr = c.reg .fifoAddrPtr + BitVec.ofNat 8 bs.length ∧
      Chip.RegsKept [.fifoAddrPtr] c d ∧ Chip.RadioKept c d := by
  induction bs generalizing k c with
  | nil =>
    exact ⟨c, rfl, fun j hj => by simp at hj, fun i _ => rfl, by simp, Chip.RegsKept.refl _ c, Chip.RadioKept.refl c⟩
  | cons v bs ih =>
    obtain ⟨d, he, hv, hn, hp, hr, ha⟩ := ih (k + 1) (c.writeFifoPort v)
    have p1 : (c.writeFifoPort v).reg .fifoAddrPtr = c.reg .fifoAddrPtr + 1 := Chip.reg_setReg_same _ _ _
    have f1 : ∀ i, (c.writeFifoPort v).fifoCell i = if i = c.reg .fifoAddrPtr then v else c.fifoCell i := fun i =>
      Chip.fifoCell_setFifoCell c (c.reg .fifoAddrPtr) i v
    have r1 : Chip.RegsKept [.fifoAddrPtr] c (c.writeFifoPort v) :=
      Chip.RegsKept.setReg (c.setFifoCell (c.reg .fifoAddrPtr) v) .fifoAddrPtr _
    have shift : ∀ j : Nat, c.reg .fifoAddrPtr + 1 + BitVec.ofNat 8 j = c.reg .fifoAddrPtr + BitVec.ofNat 8 (j + 1) := by
      intro j
      apply BitVec.eq_of_toNat_eq
      simp
      omega
    simp only [p1, shift] at hv hn hp
    refine ⟨d, ?_, ?_, ?_, ?_, r1.trans hr, ha⟩
    · unfold Chip.memWrite
      rw [frameTarget_fifo]
      simp only [Chip.writeTarget_fifo, he]
    · intro j hj hl
      cases j with
      | zero =>
        simp only [List.length_cons] at hl
        rw [hn]
        · simp [f1]
        · intro j hj e
          have := congrArg BitVec.toNat e
          simp at this
          have := (c.reg .fifoAddrPtr).isLt
          omega
      | succ j =>
        simp only [List.length_cons] at hj hl
        rw [hv j (by omega) (by omega)]
        simp
    · intro i hi
      rw [hn i fun j hj => hi (j + 1) (by simpa using hj), f1, if_neg]
      have := hi 0 (by simp)
      simpa using this
    · rw [hp]; simp

/-- A burst over consecutive named registers. -/
theorem Chip.memWrite_regs (a : Nat) (bs : List Byte) (k : Nat) (c : Chip) (ha : a ≠ 0)
    (hm : ∀ j, j < bs.length → ∃ q, a + k + j = (regAddr q).toNat) :
    ∃ d, Chip.memWrite a k bs c = .ok d ∧ d.air = c.air ∧
      (∀ x, x < a + k ∨ a + k + bs.length ≤ x → d.regAtAddr x = c.regAtAddr x) ∧
      (1 < a + k → Chip.FifoKept c d ∧ Chip.RadioKept c d) ∧
      (∀ j q v, a + k + j = (regAddr q).toNat → bs[j]? = some v →
        (c.Stores q → d.reg q = v) ∧ (q = .opMode → d.reg q = v) ∧
        (q = .irqFlags → d.reg q = c.reg q &&& ~~~v) ∧ (readOnlyReg q = true → d.reg q = c.reg q)) := by
  induction bs generalizing k c with
  | nil =>
    exact ⟨c, rfl, rfl, fun x _ => rfl, fun _ => ⟨Chip.FifoKept.refl c, Chip.RadioKept.refl c⟩,
      fun j q v _ h => by simp at h⟩
  | cons w bs ih =>
    obtain ⟨q0, hq0⟩ := hm 0 (by simp)
    simp only [Nat.add_zero] at hq0
    have hq0f : q0 ≠ .fifo := fun e => by subst e; simp [regAddr_cfg, Cfg.defaultReg] at hq0; omega
    obtain ⟨w1, w2, w3, w4, w5, w6, w7⟩ := c.writeReg_spec q0 w hq0f
    obtain ⟨d, he, hair, hreg, hkeep, hval⟩ := ih (k + 1) (c.writeReg q0 w)
      (fun j hj => by
        obtain ⟨q, hq⟩ := hm (j + 1) (by simpa using hj)
        exact ⟨q, by omega⟩)
    have hlt : a + k < 128 := by rw [hq0]; exact regAddr_lt q0
    refine ⟨d, ?_, hair.trans w2, ?_, ?_, ?_⟩
    · unfold Chip.memWrite
      rw [frameTarget_reg a k ha hlt, hq0]
      simp only [c.writeTarget_reg q0 w hq0f, he]
    · intro x hx
      rw [hreg x (by simp only [List.length_cons] at hx; omega)]
      refine w1 x fun q hq => ?_
      simp only [List.mem_singleton] at hq
      subst hq
      simp only [List.length_cons] at hx
      omega
    · intro h1
      have : q0 ≠ .opMode := fun e => by subst e; simp [regAddr_cfg, Cfg.defaultReg] at hq0; omega
      obtain ⟨f, t⟩ := w3 this
      obtain ⟨f', t'⟩ := hkeep (by omega)
      exact ⟨f.trans f', Chip.RadioKept.trans ⟨t, w2⟩ t'⟩
    · intro j q v hj hv
      cases j with
      | zero =>
        simp only [List.getElem?_cons_zero, Option.some.injEq] at hv
        subst hv
        have e : q = q0 := regAddr_toNat_inj q q0 (by omega)
        subst e
        have hsame : d.reg q = (c.writeReg q w).reg q := hreg _ (by omega)
        rw [hsame]
        exact ⟨w6, fun h => (w7 h).1, w4, w5⟩
      | succ j =>
        rw [List.getElem?_cons_succ] at hv
        obtain ⟨v1, v2, v3, v4⟩ := hval j q v (by omega) hv
        have hne : q ≠ q0 := fun e => by subst e; omega
        have hk : (c.writeReg q0 w).reg q = c.reg q := w1.reg q (by simpa using hne)
        refine ⟨fun h => v1 ⟨h.1, fun x => ?_⟩, v2, fun h => by rw [v3 h, hk], fun h => by rw [v4 h, hk]⟩
        have hs := h.2 x
        have hq0m : q0 ≠ .opMode := fun e => by
          subst e
          have hjl : (j + 1) < (w :: bs).length := by
            have := (List.getElem?_eq_some_iff.1 hv).1
            simpa using this
          obtain ⟨q1, hq1⟩ := hm 1 (by simp only [List.length_cons] at hjl ⊢; omega)
          have hak : a + k = 1 := hq0
          rw [hak] at hq1
          cases q1 <;> simp [regAddr_cfg, Cfg.defaultReg] at hq1
        unfold Chip.InSleepOrStandby at *
        rw [w1.reg .opMode (by simpa using Ne.symm hq0m)]
        exact hs

/-! ### Whole frames -/

/-- A read frame whose walk succeeds. -/
theorem Chip.frame_read (c d : Chip) (a : Byte) (l vs : List Byte) (ha : a.getLsbD 7 = false)
    (hm : Chip.memRead a.toNat 0 l.length c.draw.2 = .ok (vs, d)) : c.frame (a :: l) = .ok (c.draw.1 :: vs, d) := by
  have hw : walksPastEnd a.toNat l.length = false := by
    by_cases h0 : a.toNat = 0
    · rw [h0]; exact walksPastEnd_fifo _
    · exact walksPastEnd_of_le _ _ (by
        have := Chip.memRead_walk a.toNat l.length 0 _ _ _ h0 (by have := addr_lt a ha; omega) hm
        omega)
  unfold Chip.frame
  simp only [ha, frameAddr_read a ha, hw, hm]
  rfl

/-- A write frame whose walk succeeds. -/
theorem Chip.frame_write (c d : Chip) (a : Byte) (bs : List Byte) (ha : a.getLsbD 7 = false)
    (hm : Chip.memWrite a.toNat 0 bs c = .ok d) :
    c.frame ((0x80 ||| a) :: bs) = .ok (Chip.drawList (bs.length + 1) d) := by
  have hw : walksPastEnd a.toNat bs.length = false := by
    by_cases h0 : a.toNat = 0
    · rw [h0]; exact walksPastEnd_fifo _
    · exact walksPastEnd_of_le _ _ (by
        have := Chip.memWrite_walk a.toNat bs 0 _ _ h0 (by have := addr_lt a ha; omega) hm
        omega)
  unfold Chip.frame
  simp only [write_bit7, if_true, frameAddr_write a ha, hw, hm, Bool.false_eq_true, if_false]

/-- A burst past 0x7F is refused, read or written, whatever its bytes (R80). -/
theorem Chip.frame_past (c : Chip) (b : Byte) (l : List Byte) (h0 : frameAddr b ≠ 0)
    (h : 128 < (frameAddr b).toNat + l.length) : c.frame (b :: l) = .error .burstPastEnd := by
  have hw : walksPastEnd (frameAddr b).toNat l.length = true :=
    walksPastEnd_of_lt _ _ (fun e => h0 (BitVec.eq_of_toNat_eq e)) h
  unfold Chip.frame
  simp only [hw, if_true]

end Sys2Proof.Machine
end

