-- ==== Sys2Proof/Laws/Invariant.lean ====
section
/-! SUPPORT. How the invariant of Sys2Proof/Safety.lean passes through the shared operations: one frame of a call, the
return of a call to the running operation, and the frames further turns give. The statements about exec and step are
obligations and are not proved here. -/

namespace Sys2Proof.Machine

theorem Run.Ok.congr {s t : State} {r : Run} (h : Run.Ok s r) (hd : t.resetDone = s.resetDone)
    (hf : t.flagsSnap = s.flagsSnap) : Run.Ok t r := by
  unfold Run.Ok at *
  rw [hd, hf]
  exact h

/-- `State.Inv` inside a step: the running operation may hold a value handed back and not yet taken. -/
structure State.InvMid (s : State) : Prop where
  mem : s.MemOk
  lock : s.LockOk
  disp : s.DispOk
  pins : s.PinsOk
  boot : s.BootOk
  run : ∀ r, s.run = some r → Run.Ok s { r with loc := Locals.fresh }

theorem State.Inv.mid {s : State} (h : s.Inv) : s.InvMid :=
  ⟨h.mem, h.lock, h.disp, h.pins, h.boot, fun r hr => ⟨rfl, (h.run r hr).2⟩⟩

theorem State.InvMid.inv {s : State} (h : s.InvMid) (hr : ∀ r, s.run = some r → r.loc.ret = none) : s.Inv :=
  ⟨h.mem, h.lock, h.disp, h.pins, h.boot, fun r e => ⟨hr r e, (h.run r e).2⟩⟩

/-! ### Updates that leave the invariant's fields alone -/

theorem State.Inv.setBus {s : State} (h : s.Inv) (b : BusResult) : State.Inv { s with bus := b } :=
  ⟨h.mem, h.lock, h.disp, h.pins, h.boot, h.run⟩

theorem State.Inv.setSchedule {s : State} (h : s.Inv) (l : List Turn) : State.Inv { s with schedule := l } :=
  ⟨h.mem, h.lock, h.disp, h.pins, h.boot, h.run⟩

theorem State.Inv.setPort {s : State} (h : s.Inv) (l : List (List Byte)) : State.Inv { s with port := l } :=
  ⟨h.mem, h.lock, h.disp, h.pins, h.boot, h.run⟩

theorem State.Inv.setTick {s : State} (h : s.Inv) (n : Nat) : State.Inv { s with tick := n } :=
  ⟨h.mem, h.lock, h.disp, h.pins, h.boot, h.run⟩

theorem State.InvMid.setBus {s : State} (h : s.InvMid) (b : BusResult) : State.InvMid { s with bus := b } :=
  ⟨h.mem, h.lock, h.disp, h.pins, h.boot, h.run⟩

theorem State.InvMid.setSchedule {s : State} (h : s.InvMid) (l : List Turn) :
    State.InvMid { s with schedule := l } :=
  ⟨h.mem, h.lock, h.disp, h.pins, h.boot, h.run⟩

/-- One frame of a call. -/
theorem State.InvMid.callStep {s t : State} (h : s.InvMid) (k : CallStep s t) : t.InvMid := by
  obtain ⟨f, hf⟩ := k.run
  refine ⟨k.mem h.mem, ?_, ?_, ⟨k.cs h.pins.1, k.resetLine.trans h.pins.2⟩, ?_, ?_⟩
  · have := h.lock
    unfold State.LockOk at *
    rw [k.lock, hf, this]
    cases s.run <;> rfl
  · have := h.disp
    unfold State.DispOk at *
    rw [k.disp, k.lock, k.flagsSnap]
    exact this
  · have := h.boot
    unfold State.BootOk at *
    rw [k.initialised, k.resetDone]
    exact this
  · intro r hr
    cases hs : s.run with
    | none => rw [hf, hs] at hr; cases hr
    | some q =>
      rw [hf, hs] at hr
      simp only [Option.map_some, Option.some.injEq] at hr
      subst hr
      exact (h.run q hs).congr k.resetDone k.flagsSnap

theorem State.InvMid.refuse {s : State} (h : s.InvMid) (x : RefusalReason) : (s.refuse x).InvMid where
  mem := by simpa [State.MemOk] using h.mem
  lock := by simpa [State.LockOk] using h.lock
  disp := by simpa [State.DispOk] using h.disp
  pins := by simpa [State.PinsOk] using h.pins
  boot := by simpa [State.BootOk] using h.boot
  run := fun r hr => (h.run r (by simpa using hr)).congr (by simp) (by simp)

theorem State.Inv.refuse {s : State} (h : s.Inv) (x : RefusalReason) : (s.refuse x).Inv :=
  (h.mid.refuse x).inv fun r hr => (h.run r (by simpa using hr)).1

theorem State.InvMid.callOnce {s : State} (h : s.InvMid) (f : State → CallRes)
    (k : (f s).After (CallStep s)) : (s.callOnce f).InvMid := by
  rcases State.callOnce_cases f s k with c | ⟨r, e⟩
  · exact h.callStep c
  · rw [e]; exact h.refuse r

/-! ### The return of a call to the running operation -/

/-- An operation of the App context that ends (R85, R39). -/
theorem State.InvMid.ended {s t : State} (h : s.InvMid) (hd : s.disp = .idle) (b : t.BootOk)
    (hm : t.chip = s.chip) (hl : t.lock = none) (hr : t.run = none) (hd' : t.disp = s.disp)
    (hf : t.flagsSnap = s.flagsSnap) (hc : t.cs = s.cs) (hrl : t.resetLine = s.resetLine) : t.Inv where
  mem := by have := h.mem; unfold State.MemOk at *; rw [hm]; exact this
  lock := by unfold State.LockOk; rw [hl, hr]; rfl
  disp := ⟨by rw [hd', hd, hl]; simp, fun _ => by rw [hf]; exact h.disp.2 hd⟩
  pins := by have := h.pins; unfold State.PinsOk at *; rw [hc, hrl]; exact this
  boot := b
  run := fun r e => by rw [hr] at e; cases e

/-- While an App operation runs, the dispatcher is Idle (R197). -/
theorem State.InvMid.app_idle {s : State} (h : s.InvMid) (r : Run) (hr : s.run = some r) (hc : r.ctx = .app) :
    s.disp = .idle := by
  have hl : s.lock = some .app := by rw [h.lock, hr, Option.map_some, hc]
  cases hd : s.disp with
  | idle => rfl
  | servicing => have e := h.disp.1.1 hd; rw [hl] at e; cases e

/-- While dispatch runs, the dispatcher is Servicing (R35). -/
theorem State.InvMid.irq_servicing {s : State} (h : s.InvMid) (r : Run) (hr : s.run = some r)
    (hc : r.ctx = .irq) : s.disp = .servicing :=
  h.disp.1.2 (by rw [h.lock, hr, Option.map_some, hc])

/-- The running operation moves on. -/
theorem State.InvMid.goTo {s : State} (h : s.InvMid) (r : Run) (hr : s.run = some r) (k : Nat)
    (hk : Run.Ok s { r with pc := k, loc := Locals.fresh }) : (s.goTo k).Inv := by
  have e : (s.goTo k).run = some { r with pc := k, loc := { r.loc with sub := 0, got := none, ret := none } } := by
    rw [State.goTo_run, hr]; rfl
  refine ⟨by simpa [State.MemOk] using h.mem, ?_, by simpa [State.DispOk] using h.disp,
    by simpa [State.PinsOk] using h.pins, by simpa [State.BootOk] using h.boot, ?_⟩
  · have hl := h.lock
    unfold State.LockOk at *
    rw [e, State.goTo_lock, hl, hr]
    rfl
  · intro q hq
    rw [e] at hq
    cases hq
    exact ⟨rfl, (hk.congr (t := s.goTo k) (by simp) (by simp)).2⟩

theorem State.InvMid.leave {s : State} (h : s.InvMid) : s.leaveDispatch.Inv where
  mem := h.mem
  lock := rfl
  disp := ⟨by simp, fun _ => rfl⟩
  pins := h.pins
  boot := h.boot
  run := fun r e => by cases e

theorem initReturn_inv {s : State} (h : s.InvMid) (r : Run) (hr : s.run = some r) (hz : Word32) (pa crc : Bool)
    (hop : r.op = .init hz pa crc) (x : Ret) : (initReturn crc r.pc x s).Inv := by
  have hok := h.run r hr
  unfold Run.Ok at hok
  simp only [hop] at hok
  have hid := h.app_idle r hr hok.2.2
  have g : ∀ k, (s.goTo k).Inv := fun k => h.goTo r hr k (by unfold Run.Ok; simp only [hop]; exact hok)
  unfold initReturn
  split
  · exact h.ended hid (fun e => by cases e) rfl rfl rfl rfl rfl rfl rfl
  · split <;> first | exact g _ | skip
    exact h.ended hid (fun _ => hok.2.1) rfl rfl rfl rfl rfl rfl rfl

theorem sendReturn_inv {s : State} (h : s.InvMid) (r : Run) (hr : s.run = some r) (a : Option (List Byte))
    (p : List Byte) (hop : r.op = .send a p) (x : Ret) : (sendReturn a p r.pc x s).Inv := by
  have hok := h.run r hr
  unfold Run.Ok at hok
  simp only [hop] at hok
  have hid := h.app_idle r hr hok.2.2
  have g : ∀ k, (s.goTo k).Inv := fun k => h.goTo r hr k (by unfold Run.Ok; simp only [hop]; exact hok)
  have e : ∀ y, (s.release.returnResult y).Inv := fun y => h.ended hid h.boot rfl rfl rfl rfl rfl rfl rfl
  unfold sendReturn
  split
  · exact e _
  · split <;> first | exact g _ | skip
    · split
      · exact e _
      · exact g _
    · exact h.ended hid h.boot rfl rfl rfl rfl rfl rfl rfl

theorem dumpReturn_inv {s : State} (h : s.InvMid) (r : Run) (hr : s.run = some r) (first last : Byte)
    (hop : r.op = .dump first last) (x : Ret) : (dumpReturn first last r.pc x s).Inv := by
  have hok := h.run r hr
  unfold Run.Ok at hok
  simp only [hop] at hok
  have hid := h.app_idle r hr hok.2.2.1
  unfold dumpReturn
  split
  · exact h.ended hid h.boot rfl rfl rfl rfl rfl rfl rfl
  · rename_i bs
    have hm := h.callStep (CallStep.mapLoc s fun l =>
      { l with rows := l.rows ++ [dumpRow (first + BitVec.ofNat 8 r.pc) (bs.headD 0)] })
    have hr2 := s.mapLoc_run fun l =>
      { l with rows := l.rows ++ [dumpRow (first + BitVec.ofNat 8 r.pc) (bs.headD 0)] }
    rw [hr, Option.map_some] at hr2
    dsimp only
    split
    · refine hm.goTo _ hr2 _ ?_
      unfold Run.Ok
      simp only [hop, State.mapLoc_resetDone]
      exact ⟨rfl, hok.2.1, hok.2.2.1, by omega, hok.2.2.2.2⟩
    · exact hm.ended (by simpa using hid) (by simpa [State.BootOk] using h.boot) rfl rfl rfl rfl rfl rfl rfl

theorem State.InvMid.setSnapshot {s : State} (h : s.InvMid) (hd : s.disp = .servicing) (f : Byte) :
    State.InvMid { s with flagsSnap := some f } where
  mem := h.mem
  lock := h.lock
  disp := ⟨h.disp.1, fun e => by simp only [hd] at e; cases e⟩
  pins := h.pins
  boot := h.boot
  run := fun r hr => by
    have hok := h.run r hr
    unfold Run.Ok at *
    cases hop : r.op <;> simp only [hop] at hok ⊢ <;> first | exact hok | exact hok.2.2.elim | skip
    exact ⟨hok.1, hok.2.1, hok.2.2.1, fun _ => rfl⟩

theorem dispatchReturn_inv {s : State} (h : s.InvMid) (r : Run) (hr : s.run = some r) (hop : r.op = .dispatch)
    (x : Ret) : (dispatchReturn r.pc x s).Inv := by
  have hok := h.run r hr
  unfold Run.Ok at hok
  simp only [hop] at hok
  have hsv := h.irq_servicing r hr hok.2.2.1
  have g : ∀ k (t : State), t.InvMid → t.run = some r → t.resetDone = s.resetDone → t.flagsSnap.isSome = true →
      (t.goTo k).Inv := fun k t ht hrt hrd hs => ht.goTo r hrt k (by
        unfold Run.Ok
        simp only [hop]
        exact ⟨rfl, hrd.trans hok.2.1, hok.2.2.1, fun _ => hs⟩)
  unfold dispatchReturn
  split
  · exact (h.callStep (CallStep.emit s _)).leave
  · exact h.leave
  · exact h.leave
  · rename_i bs
    split
    · have h1 := h.setSnapshot hsv (bs.headD 0)
      dsimp only
      split
      · exact g _ _ h1 hr rfl rfl
      · split
        · exact g _ _ h1 hr rfl rfl
        · exact (h1.callStep (CallStep.emit _ _)).leave
    · rename_i hpc
      have hs := hok.2.2.2 (by omega)
      split <;> exact g _ _ h hr rfl hs
    · rename_i hpc
      exact g _ _ h hr rfl (hok.2.2.2 (by omega))
    · exact h.leave

/-- The running operation takes what its call handed back. -/
theorem handBack_inv {s : State} (h : s.InvMid) : (handBack s).Inv := by
  unfold handBack
  split
  · rename_i hn; exact h.inv (fun r hr => by rw [hn] at hr; cases hr)
  · rename_i r hr
    split
    · rename_i hret; exact h.inv (fun q hq => by rw [hr] at hq; cases hq; exact hret)
    · rename_i x _
      have hok := (h.run r hr).2.2
      unfold opReturn
      split <;> rename_i hop <;> simp only [hop] at hok
      · exact initReturn_inv h r hr _ _ _ hop x
      · exact sendReturn_inv h r hr _ _ hop x
      · exact dumpReturn_inv h r hr _ _ hop x
      · exact dispatchReturn_inv h r hr hop x

/-- The actions pending after a frame, performed. -/
theorem settle_inv {s : State} (h : s.InvMid) : (settle s).Inv := by
  unfold settle
  split
  · rename_i hn; exact h.inv fun r hr => by rw [hn] at hr; cases hr
  · exact handBack_inv (h.callStep (s.actGot_step _).call)

/-! ### Frames and turns -/

/-- What every frame keeps, the frames of the further turns keep. -/
theorem State.drive_induct {P : State → Prop} (p : State → Bool) (f : State → State)
    (hf : ∀ s, P s → P (f s)) (hb : ∀ s b, P s → P { s with bus := b })
    (hs : ∀ s l, P s → P { s with schedule := l }) (ts : List Turn) (s : State) (h : P s) :
    P (State.drive p f ts s) := by
  induction ts generalizing s with
  | nil => exact hs _ _ h
  | cons t ts ih =>
    unfold State.drive
    split
    · exact ih _ (hf _ (hb _ _ h))
    · exact hs _ _ h

/-- One frame issued by the running operation, whose record holds nothing handed back. -/
theorem State.Inv.issue {s0 s : State} (h0 : s0.Inv) (h : s.Inv) (i : Instr) : (State.issue i s0 s).Inv := by
  rcases State.issue_cases i s0 s with ⟨c, hr⟩ | ⟨e, he⟩
  · refine (h.mid.callStep c).inv fun r hr1 => ?_
    rw [hr1] at hr
    cases hs : s.run with
    | none => rw [hs] at hr; cases hr
    | some q =>
      rw [hs] at hr
      simp only [Option.map_some, Option.some.injEq] at hr
      rw [hr]
      exact (h.run q hs).1
  · rw [he]; exact h0.refuse e

theorem closeOp_inv {s : State} (h : s.Inv) : (closeOp s).Inv := by
  unfold closeOp
  split
  · exact settle_inv h.mid
  · exact h

theorem frameStep_inv {s : State} (h : s.Inv) : (frameStep s).Inv := by
  unfold frameStep
  dsimp only
  split
  · exact settle_inv h.mid
  · exact closeOp_inv (h.issue (settle_inv h.mid) _)

theorem runOp_inv {s : State} (h : s.Inv) : (runOp s).Inv :=
  @State.drive_induct State.Inv (fun _ => true) (fun t => frameStep t) (fun _ h => frameStep_inv h)
    (fun _ b h => h.setBus b) (fun _ l h => h.setSchedule l) s.schedule (frameStep s) (frameStep_inv h)

theorem callTurn_inv {s : State} (h : s.InvMid) (i : Instr) : (callTurn i s).InvMid := by
  have h1 : (State.issue i s (s.actGot i)).InvMid := by
    rcases State.issue_cases i s (s.actGot i) with ⟨c, _⟩ | ⟨e, he⟩
    · exact (h.callStep (s.actGot_step i).call).callStep c
    · rw [he]; exact h.refuse e
  unfold callTurn
  dsimp only
  split
  · exact h1.callStep (State.actGot_step i _).call
  · exact h1

theorem runCall_inv {s : State} (h : s.InvMid) (i : Instr) : (runCall i s).InvMid :=
  @State.drive_induct State.InvMid callOpen (fun t => callTurn i t) (fun _ h => callTurn_inv h i)
    (fun _ b h => h.setBus b) (fun _ l h => h.setSchedule l) s.schedule (callTurn i s) (callTurn_inv h i)

/-- An App operation that takes the lock (R85). -/
theorem State.Inv.acquire {s u : State} (h : s.Inv) (op : Instr) (hu : s.acquire .app op = some u)
    (hok : Run.Ok s { ctx := .app, op := op, pc := 0, loc := Locals.fresh }) : u.Inv := by
  have hl : s.lock = none := by
    cases hs : s.lock with
    | none => rfl
    | some c => rw [(s.acquire_eq_none_iff .app op).2 (by rw [hs]; rfl)] at hu; cases hu
  rw [State.acquire_of_free s _ _ hl] at hu
  cases hu
  refine ⟨h.mem, rfl, ⟨⟨fun e => ?_, fun e => by cases e⟩, h.disp.2⟩, h.pins, h.boot, ?_⟩
  · have := h.disp.1.1 e; rw [hl] at this; cases this
  · intro r hr; cases hr; exact hok

/-- Trap entry (R286). -/
theorem State.Inv.enterDispatch {s : State} (h : s.Inv) (hrd : s.resetDone = true) : s.enterDispatch.Inv where
  mem := h.mem
  lock := rfl
  disp := ⟨by simp, by simp⟩
  pins := h.pins
  boot := h.boot
  run := fun r hr => by cases hr; exact ⟨rfl, hrd, rfl, fun e => by cases e⟩

end Sys2Proof.Machine
end

