-- ==== Sys2Proof/Laws/PerInstr.lean ====
section
/-! SUPPORT. The statement made for every operation: the first byte of its encoding lies in its row of
spec/opcode_table.json (the row's `match` under the row's `mask`). -/

namespace Sys2Proof.Laws.OpcodeRow

/-- The row's mask and match: bit 7 of a frame's command byte (R111), the whole opcode byte of a host command (R124),
the whole tag of an internal operation (R130). -/
def row : Instr → Byte × Byte
  | .readByte _ => (0x80, 0x00)
  | .readBlock _ _ => (0x80, 0x00)
  | .writeByte _ _ => (0x80, 0x80)
  | .writeBlock _ _ => (0x80, 0x80)
  | .reset => (0xFF, 0x01)
  | .init _ _ _ => (0xFF, 0x02)
  | .send _ _ => (0xFF, 0x03)
  | .dump _ _ => (0xFF, 0x04)
  | .setMode _ => (0xFF, 0x88)
  | .setCarrierFrequency _ => (0xFF, 0x89)
  | .setPowerAmplifier _ => (0xFF, 0x8A)
  | .enableRxCrc => (0xFF, 0x8B)
  | .dispatch => (0xFF, 0x90)
  | .onReceiveComplete => (0xFF, 0x91)
  | .onTransmitComplete => (0xFF, 0x92)

/-- The first byte of `i`'s encoding, masked by its row, is the row's match. -/
def Statement (i : Instr) : Prop := ∃ b rest, encode i = b :: rest ∧ b &&& (row i).1 = (row i).2

theorem command_read (a : Byte) : commandByte false a &&& 0x80 = 0x00 := by revert a; decide

theorem command_write (a : Byte) : commandByte true a &&& 0x80 = 0x80 := by revert a; decide

theorem readByte (addr : Byte) : Statement (.readByte addr) := ⟨_, _, rfl, command_read addr⟩
theorem readBlock (addr : Byte) (length : Nat) : Statement (.readBlock addr length) := ⟨_, _, rfl, command_read addr⟩
theorem writeByte (addr value : Byte) : Statement (.writeByte addr value) := ⟨_, _, rfl, command_write addr⟩
theorem writeBlock (addr : Byte) (bytes : List Byte) : Statement (.writeBlock addr bytes) :=
  ⟨_, _, rfl, command_write addr⟩
theorem reset : Statement .reset := ⟨_, _, rfl, by simp [row]⟩
theorem init (hz : Word32) (paBoost rxPayloadCrcOn : Bool) : Statement (.init hz paBoost rxPayloadCrcOn) :=
  ⟨_, _, rfl, by simp [row]⟩
theorem send (address : Option (List Byte)) (payload : List Byte) : Statement (.send address payload) :=
  ⟨_, _, rfl, by simp [row]⟩
theorem dump (first last : Byte) : Statement (.dump first last) := ⟨_, _, rfl, by simp [row]⟩
theorem setMode (m : OperatingMode) : Statement (.setMode m) := ⟨_, _, rfl, by simp [row]⟩
theorem setCarrierFrequency (hz : Nat) : Statement (.setCarrierFrequency hz) := ⟨_, _, rfl, by simp [row]⟩
theorem setPowerAmplifier (boost : Bool) : Statement (.setPowerAmplifier boost) := ⟨_, _, rfl, by simp [row]⟩
theorem enableRxCrc : Statement .enableRxCrc := ⟨_, _, rfl, by simp [row]⟩
theorem dispatch : Statement .dispatch := ⟨_, _, rfl, by simp [row]⟩
theorem onReceiveComplete : Statement .onReceiveComplete := ⟨_, _, rfl, by simp [row]⟩
theorem onTransmitComplete : Statement .onTransmitComplete := ⟨_, _, rfl, by simp [row]⟩

end Sys2Proof.Laws.OpcodeRow
end

