-- ==== Sys2Proof/Laws/Primitives.lean ====
section
/-! SUPPORT. The transport primitives as called by an operation that may issue a frame: what each hands back, and the
state it leaves, when the bus completes the frame and when it fails it. -/

namespace Sys2Proof.Machine

/-- What a call hands to the running operation, as one update of the state before the call. -/
theorem State.frameDone_mapLoc (s : State) (r : Run) (out : List Byte) (inp : Option (List Byte)) (c : Chip) (x : Ret)
    (h : s.run = some r) :
    (s.frameDone r.ctx out inp c).mapLoc (fun l => { l with sub := 0, ret := some x }) =
      s.afterCall r out inp c x := by
  cases s
  simp only at h
  subst h
  rfl

theorem State.callOnce_done (s t : State) (f : State → CallRes) (x : Ret) (h : f s = .done x t) :
    s.callOnce f = t.mapLoc (fun l => { l with sub := 0, ret := some x }) := by
  unfold State.callOnce; rw [h]

theorem State.callOnce_more (s t : State) (f : State → CallRes) (h : f s = .more t) :
    s.callOnce f = t.mapLoc (fun l => { l with sub := l.sub + 1 }) := by
  unfold State.callOnce; rw [h]

theorem State.callOnce_refuse (s : State) (f : State → CallRes) (x : RefusalReason) (h : f s = .refuse x) :
    s.callOnce f = s.refuse x := by
  unfold State.callOnce; rw [h]

/-! ### The bus completes the frame -/

theorem readByteCall_ok (s : State) (r : Run) (a : Byte) (h : s.CanFrame r) (hb : s.bus = .ok)
    (ha : a.getLsbD 7 = false) :
    readByteCall a s = .done (.bytes [(s.chip.draw.2.readTarget a.toNat).1])
      (s.frameDone r.ctx [a, 0x00] (some [s.chip.draw.1, (s.chip.draw.2.readTarget a.toNat).1])
        (s.chip.draw.2.readTarget a.toNat).2) := by
  unfold readByteCall
  rw [if_neg (by rw [ha]; decide), State.spiXfer_ok s r _ h hb, commandByte_read a ha]
  show (match (match s.chip.frame [a, 0x00] with
    | .error e => Xfer.refuse e
    | .ok (inp, c) => Xfer.ok inp (s.frameDone r.ctx [a, 0x00] (some inp) c)) with
    | .refuse x => CallRes.refuse x
    | .fail s1 => .done (.err (.transport .readByte a)) s1
    | .ok inp s1 => .done (.bytes ((inp.drop 1).take 1)) s1) = _
  rw [Chip.frame_readOne _ _ _ ha]
  rfl

theorem writeByteCall_ok (s : State) (r : Run) (a v : Byte) (d : Chip) (h : s.CanFrame r) (hb : s.bus = .ok)
    (ha : a.getLsbD 7 = false) (hw : s.chip.writeTarget a.toNat v = .ok d) :
    ∃ i0 i1 e, Chip.SameBut d e ∧ writeByteCall a v s =
      .done (.bytes []) (s.frameDone r.ctx [0x80 ||| a, v] (some [i0, i1]) e) := by
  refine ⟨Config.freeByte d.draws, Config.freeByte (d.draws + 1), _, Chip.SameBut.drawList 2 d, ?_⟩
  unfold writeByteCall
  rw [if_neg (by rw [ha]; decide), State.spiXfer_ok s r _ h hb, commandByte_write a ha, Chip.frame_writeOne _ _ _ ha, hw]
  rfl

theorem readBlockCall_ok (s : State) (r : Run) (a : Byte) (n : Nat) (vs : List Byte) (d : Chip) (h : s.CanFrame r)
    (hb : s.bus = .ok) (ha : a.getLsbD 7 = false) (hm : Chip.memRead a.toNat 0 n s.chip.draw.2 = .ok (vs, d)) :
    readBlockCall a n s = .done (.bytes vs)
      (s.frameDone r.ctx (a :: List.replicate n 0x00) (some (s.chip.draw.1 :: vs)) d) := by
  have hf : s.chip.frame (a :: List.replicate n Config.cfg.dummy) = .ok (s.chip.draw.1 :: vs, d) := by
    exact Chip.frame_read _ _ _ _ _ ha (by rw [List.length_replicate]; exact hm)
  unfold readBlockCall
  rw [if_neg (by rw [ha]; decide), State.spiXfer_ok s r _ h hb, commandByte_read a ha, hf]
  rfl

theorem writeBlockCall_ok (s : State) (r : Run) (a : Byte) (bs : List Byte) (d : Chip) (h : s.CanFrame r)
    (hb : s.bus = .ok) (ha : a.getLsbD 7 = false) (hm : Chip.memWrite a.toNat 0 bs s.chip = .ok d) :
    ∃ inp e, inp.length = bs.length + 1 ∧ Chip.SameBut d e ∧ writeBlockCall a bs s =
      .done (.bytes []) (s.frameDone r.ctx ((0x80 ||| a) :: bs) (some inp) e) := by
  have hf : s.chip.frame ((0x80 ||| a) :: bs) = .ok (Chip.drawList (bs.length + 1) d) := by
    exact Chip.frame_write _ _ _ _ ha hm
  refine ⟨_, _, (Chip.drawList_eq (bs.length + 1) d).2, Chip.SameBut.drawList (bs.length + 1) d, ?_⟩
  unfold writeBlockCall
  rw [if_neg (by rw [ha]; decide), State.spiXfer_ok s r _ h hb, commandByte_write a ha, hf]

/-! ### The bus fails the frame -/

theorem readByteCall_fail (s : State) (r : Run) (a : Byte) (k : Nat) (i : List Byte) (d : Chip) (h : s.CanFrame r)
    (hb : s.bus = .fail k) (ha : a.getLsbD 7 = false) (hf : s.chip.frame ([a, 0x00].take k) = .ok (i, d)) :
    readByteCall a s = .done (.err (.transport .readByte a)) (s.frameDone r.ctx [a, 0x00] none d) := by
  unfold readByteCall
  rw [if_neg (by rw [ha]; decide), State.spiXfer_fail s r _ k h hb, commandByte_read a ha]
  show (match (match s.chip.frame ([a, 0x00].take k) with
    | .error e => Xfer.refuse e
    | .ok (_, c) => Xfer.fail (s.frameDone r.ctx [a, 0x00] none c)) with
    | .refuse x => CallRes.refuse x
    | .fail s1 => .done (.err (.transport .readByte a)) s1
    | .ok inp s1 => .done (.bytes ((inp.drop 1).take 1)) s1) = _
  rw [hf]

theorem writeByteCall_fail (s : State) (r : Run) (a v : Byte) (k : Nat) (i : List Byte) (d : Chip) (h : s.CanFrame r)
    (hb : s.bus = .fail k) (ha : a.getLsbD 7 = false) (hf : s.chip.frame ([0x80 ||| a, v].take k) = .ok (i, d)) :
    writeByteCall a v s = .done (.err (.transport .writeByte a)) (s.frameDone r.ctx [0x80 ||| a, v] none d) := by
  unfold writeByteCall
  rw [if_neg (by rw [ha]; decide), State.spiXfer_fail s r _ k h hb, commandByte_write a ha, hf]

theorem readBlockCall_fail (s : State) (r : Run) (a : Byte) (n k : Nat) (i : List Byte) (d : Chip) (h : s.CanFrame r)
    (hb : s.bus = .fail k) (ha : a.getLsbD 7 = false)
    (hf : s.chip.frame ((a :: List.replicate n 0x00).take k) = .ok (i, d)) :
    readBlockCall a n s = .done (.err (.transport .readBlock a))
      (s.frameDone r.ctx (a :: List.replicate n 0x00) none d) := by
  unfold readBlockCall
  rw [if_neg (by rw [ha]; decide), State.spiXfer_fail s r _ k h hb, commandByte_read a ha]
  show (match (match s.chip.frame ((a :: List.replicate n 0x00).take k) with
    | .error e => Xfer.refuse e
    | .ok (_, c) => Xfer.fail (s.frameDone r.ctx (a :: List.replicate n 0x00) none c)) with
    | .refuse x => CallRes.refuse x
    | .fail s1 => .done (.err (.transport .readBlock a)) s1
    | .ok inp s1 => .done (.bytes (inp.drop 1)) s1) = _
  rw [hf]

theorem writeBlockCall_fail (s : State) (r : Run) (a : Byte) (bs : List Byte) (k : Nat) (i : List Byte) (d : Chip)
    (h : s.CanFrame r) (hb : s.bus = .fail k) (ha : a.getLsbD 7 = false)
    (hf : s.chip.frame (((0x80 ||| a) :: bs).take k) = .ok (i, d)) :
    writeBlockCall a bs s = .done (.err (.transport .writeBlock a))
      (s.frameDone r.ctx ((0x80 ||| a) :: bs) none d) := by
  unfold writeBlockCall
  rw [if_neg (by rw [ha]; decide), State.spiXfer_fail s r _ k h hb, commandByte_write a ha, hf]

/-! ### Prefixes of the block's own frames -/

/-- A prefix without a data byte: no register and no cell is touched (R72, R74). -/
theorem Chip.frame_take_le_one (c : Chip) (out : List Byte) (k : Nat) (hk : k ≤ 1) :
    ∃ i d, c.frame (out.take k) = .ok (i, d) ∧ Chip.SameBut c d := by
  have h01 : k = 0 ∨ k = 1 := by omega
  rcases h01 with rfl | rfl
  · exact ⟨[], c, rfl, Chip.SameBut.refl c⟩
  · cases out with
    | nil => exact ⟨[], c, rfl, Chip.SameBut.refl c⟩
    | cons b bs =>
      simp only [List.take_succ_cons, List.take_zero]
      unfold Chip.frame
      have hw : walksPastEnd (frameAddr b).toNat 0 = false := walksPastEnd_of_le _ _ (by
        have : (frameAddr b).toNat < 128 := by revert b; decide
        omega)
      simp only [List.length_nil, hw, Bool.false_eq_true, if_false]
      cases hb : b.getLsbD 7
      · exact ⟨_, _, rfl, Chip.SameBut.draw c⟩
      · exact ⟨_, _, rfl, Chip.SameBut.drawList 1 c⟩

/-- Every prefix of a read of one byte is processed without a refusal. -/
theorem Chip.frame_readOne_take (c : Chip) (a : Byte) (k : Nat) (h : a.getLsbD 7 = false) :
    ∃ i d, c.frame ([a, 0x00].take k) = .ok (i, d) := by
  by_cases hk : k ≤ 1
  · obtain ⟨i, d, e, _⟩ := c.frame_take_le_one [a, 0x00] k hk; exact ⟨i, d, e⟩
  · rw [List.take_of_length_le (by simp; omega), Chip.frame_readOne _ _ _ h]; exact ⟨_, _, rfl⟩

/-- Every prefix of a write of one byte to a named register is processed without a refusal. -/
theorem Chip.frame_writeOne_take (c : Chip) (q : Reg) (v : Byte) (k : Nat) :
    ∃ i d, c.frame ([0x80 ||| regAddr q, v].take k) = .ok (i, d) := by
  by_cases hk : k ≤ 1
  · obtain ⟨i, d, e, _⟩ := c.frame_take_le_one [0x80 ||| regAddr q, v] k hk; exact ⟨i, d, e⟩
  · rw [List.take_of_length_le (by simp; omega), Chip.frame_writeOne _ _ _ (regAddr_bit7 q)]
    by_cases hq : q = .fifo
    · subst hq; exact ⟨_, _, rfl⟩
    · rw [Chip.writeTarget_reg _ _ _ hq]; exact ⟨_, _, rfl⟩

end Sys2Proof.Machine
end

