-- ==== Sys2Proof/Laws/Sequencer.lean ====
section
/-! SUPPORT. When the actions after a frame are performed (R93) makes no difference to an operation that has come to its
end: a frame with the actions of the frame before it (frameStep) leads, once its own actions are performed (settle), to
what a frame with its own actions at once (eagerStep) gives. A whole run may therefore be followed with the actions at
once. -/

namespace Sys2Proof.Machine

/-! ### Updates the actions do not look at -/

/-- The fields of the scheduler and of the refusal mark, all at once. -/
def State.withEnv (s : State) (x : Option RefusalReason) (b : BusResult) (l : List Turn) : State :=
  { s with refused := x, bus := b, schedule := l }

/-- The running operation's `got`. -/
def State.withGot (s : State) (g : Option Ret) : State := s.mapLoc fun l => { l with got := g }

/-- A call's outcome with the state changed by `f`. -/
def CallRes.map (f : State → State) (c : CallRes) : CallRes :=
  match c with
  | .more s => .more (f s)
  | .done x s => .done x (f s)
  | .refuse e => .refuse e

theorem callAct_withEnv (i : Instr) (k : Nat) (y : Ret) (s : State) (x : Option RefusalReason) (b : BusResult)
    (l : List Turn) :
    callAct i k y (s.withEnv x b l) = (callAct i k y s).map fun t => t.withEnv x b l := by
  cases s with
  | mk _ _ _ _ _ _ _ _ _ run =>
  cases i with
  | onReceiveComplete =>
    cases y with
    | err e => rfl
    | bytes bs =>
      match k with
      | 0 => cases run <;> rfl
      | 1 => rfl
      | 2 => cases run <;> rfl
      | 3 => cases run <;> rfl
      | 4 => cases run <;> rfl
      | 5 => cases run <;> rfl
      | _ + 6 => cases run <;> rfl
  | enableRxCrc =>
    cases y with
    | err e => rfl
    | bytes bs =>
      match k with
      | 0 => cases run <;> rfl
      | _ + 1 => rfl
  | onTransmitComplete =>
    match k with
    | 0 => cases y <;> rfl
    | _ + 1 => cases y <;> rfl
  | setMode m => cases y <;> rfl
  | _ => rfl

theorem callAct_withGot (i : Instr) (k : Nat) (y : Ret) (s : State) (g : Option Ret) :
    callAct i k y (s.withGot g) = (callAct i k y s).map fun t => t.withGot g := by
  cases s with
  | mk _ _ _ _ _ _ _ _ _ run =>
  cases run with
  | none =>
    cases i with
    | onReceiveComplete =>
      cases y with
      | err e => rfl
      | bytes bs =>
        match k with
        | 0 | 1 | 2 | 3 | 4 | 5 => rfl
        | _ + 6 => rfl
    | enableRxCrc =>
      cases y with
      | err e => rfl
      | bytes bs =>
        match k with
        | 0 => rfl
        | _ + 1 => rfl
    | onTransmitComplete =>
      match k with
      | 0 => cases y <;> rfl
      | _ + 1 => cases y <;> rfl
    | setMode m => cases y <;> rfl
    | _ => rfl
  | some r =>
    cases i with
    | onReceiveComplete =>
      cases y with
      | err e => rfl
      | bytes bs =>
        match k with
        | 0 | 1 | 2 | 3 | 4 | 5 => rfl
        | _ + 6 => rfl
    | enableRxCrc =>
      cases y with
      | err e => rfl
      | bytes bs =>
        match k with
        | 0 => rfl
        | _ + 1 => rfl
    | onTransmitComplete =>
      match k with
      | 0 => cases y <;> rfl
      | _ + 1 => cases y <;> rfl
    | setMode m => cases y <;> rfl
    | _ => rfl

theorem State.mapLoc_withEnv (s : State) (f : Locals → Locals) (x : Option RefusalReason) (b : BusResult)
    (l : List Turn) : (s.withEnv x b l).mapLoc f = (s.mapLoc f).withEnv x b l := by
  cases s with
  | mk _ _ _ _ _ _ _ _ _ run => cases run <;> rfl

theorem State.loc_withEnv (s : State) (x : Option RefusalReason) (b : BusResult) (l : List Turn) :
    (s.withEnv x b l).loc = s.loc := rfl

theorem State.actGot_withEnv (i : Instr) (s : State) (x : Option RefusalReason) (b : BusResult) (l : List Turn) :
    (s.withEnv x b l).actGot i = (s.actGot i).withEnv x b l := by
  unfold State.actGot
  rw [State.loc_withEnv]
  split
  · rfl
  · rename_i y _
    rw [callAct_withEnv]
    cases h : callAct i s.loc.sub y s with
    | more t => exact State.mapLoc_withEnv t _ x b l
    | done z t => exact State.mapLoc_withEnv t _ x b l
    | refuse e => exact absurd h (callAct_ne_refuse _ _ _ _ _)

theorem State.goTo_withEnv (s : State) (k : Nat) (x : Option RefusalReason) (b : BusResult) (l : List Turn) :
    (s.withEnv x b l).goTo k = (s.goTo k).withEnv x b l := by
  cases s with
  | mk _ _ _ _ _ _ _ _ _ run => cases run <;> rfl

theorem dispatchReturn_withEnv (pc : Nat) (y : Ret) (s : State) (x : Option RefusalReason) (b : BusResult)
    (l : List Turn) : dispatchReturn pc y (s.withEnv x b l) = (dispatchReturn pc y s).withEnv x b l := by
  unfold dispatchReturn
  split
  · rfl
  · rfl
  · rfl
  · rename_i bs
    split
    · dsimp only
      split
      · exact State.goTo_withEnv { s with flagsSnap := some (bs.headD 0) } _ _ _ _
      · split
        · exact State.goTo_withEnv { s with flagsSnap := some (bs.headD 0) } _ _ _ _
        · rfl
    · rw [show (s.withEnv x b l).snapshot = s.snapshot from rfl]
      split <;> exact State.goTo_withEnv _ _ _ _ _
    · exact State.goTo_withEnv _ _ _ _ _
    · rfl

theorem opReturn_withEnv (r : Run) (y : Ret) (s : State) (x : Option RefusalReason) (b : BusResult) (l : List Turn) :
    opReturn r y (s.withEnv x b l) = (opReturn r y s).withEnv x b l := by
  unfold opReturn
  split
  · unfold initReturn
    split
    · rfl
    · split <;> first | exact State.goTo_withEnv _ _ _ _ _ | rfl
  · unfold sendReturn
    split
    · rfl
    · split <;> first | exact State.goTo_withEnv _ _ _ _ _ | rfl | skip
      split <;> first | exact State.goTo_withEnv _ _ _ _ _ | rfl
  · unfold dumpReturn
    split
    · rfl
    · dsimp only
      rw [State.mapLoc_withEnv]
      split
      · exact State.goTo_withEnv _ _ _ _ _
      · rfl
  · exact dispatchReturn_withEnv _ _ _ _ _ _
  all_goals rfl

theorem handBack_withEnv (s : State) (x : Option RefusalReason) (b : BusResult) (l : List Turn) :
    handBack (s.withEnv x b l) = (handBack s).withEnv x b l := by
  unfold handBack
  rw [show (s.withEnv x b l).run = s.run from rfl]
  split
  · rfl
  · split
    · rfl
    · exact opReturn_withEnv _ _ _ _ _ _

/-- The actions after a frame neither read nor write the scheduler's fields and the refusal mark. -/
theorem settle_withEnv (s : State) (x : Option RefusalReason) (b : BusResult) (l : List Turn) :
    settle (s.withEnv x b l) = (settle s).withEnv x b l := by
  unfold settle
  rw [show (s.withEnv x b l).run = s.run from rfl]
  split
  · rfl
  · rename_i r _
    rw [show callAt r (s.withEnv x b l) = callAt r s from rfl, State.actGot_withEnv, handBack_withEnv]

theorem callAct_got (i : Instr) (k : Nat) (y : Ret) (s : State) (h : s.loc.got = none) :
    (callAct i k y s).map (fun t => t.withGot none) = callAct i k y s := by
  rw [← callAct_withGot]
  congr 1
  unfold State.withGot State.mapLoc
  unfold State.loc at h
  cases s with
  | mk _ _ _ _ _ _ _ _ _ run =>
  cases run with
  | none => rfl
  | some r =>
    obtain ⟨c, o, p, l⟩ := r
    obtain ⟨a, g, x, y, z, u, v, w, q, m⟩ := l
    simp only at h
    subst h
    rfl

/-! ### What is settled -/

/-- Nothing of the running operation is pending: no outcome of a frame, nothing handed back. -/
def State.Settled (s : State) : Prop := s.loc.got = none ∧ s.loc.ret = none

theorem State.settled_idle (s : State) (h : s.run = none) : s.Settled := by
  unfold State.Settled State.loc
  rw [h]
  exact ⟨rfl, rfl⟩

theorem State.goTo_settled (s : State) (k : Nat) : (s.goTo k).Settled := by
  unfold State.Settled State.loc State.goTo
  cases h : s.run with
  | none => simp only [h]; exact ⟨rfl, rfl⟩
  | some r => exact ⟨rfl, rfl⟩

/-- What an operation takes is taken: it is settled, and runs on as the same operation of its context, or ends. -/
theorem opReturn_settled (r : Run) (x : Ret) (s : State) : (opReturn r x s).Settled := by
  unfold opReturn
  split
  · unfold initReturn
    repeat' split
    all_goals first | exact State.goTo_settled _ _ | exact State.settled_idle _ rfl
  · unfold sendReturn
    repeat' split
    all_goals first | exact State.goTo_settled _ _ | exact State.settled_idle _ rfl
  · unfold dumpReturn
    dsimp only
    repeat' split
    all_goals first | exact State.goTo_settled _ _ | exact State.settled_idle _ rfl
  · unfold dispatchReturn
    dsimp only
    repeat' split
    all_goals first | exact State.goTo_settled _ _ | exact State.settled_idle _ rfl
  all_goals exact State.settled_idle _ rfl

theorem State.settled_mapLoc (s : State) (f : Locals → Locals) (hg : (f s.loc).got = none) (hr : (f s.loc).ret = none) :
    (s.mapLoc f).Settled := by
  unfold State.Settled
  cases h : s.run with
  | none => exact State.settled_idle _ (by rw [State.mapLoc_run, h]; rfl)
  | some r =>
    unfold State.loc at *
    rw [State.mapLoc_run, h]
    rw [h] at hg hr
    exact ⟨hg, hr⟩

/-- After the pending actions of a call nothing of a frame is pending. -/
theorem State.actGot_got (i : Instr) (s : State) : (s.actGot i).loc.got = none := by
  have key : ∀ (t : State) (f : Locals → Locals), (∀ l, (f l).got = none) → (t.mapLoc f).loc.got = none := by
    intro t f hf
    unfold State.loc
    rw [State.mapLoc_run]
    cases t.run with
    | none => rfl
    | some r => exact hf _
  unfold State.actGot
  split
  · assumption
  · split
    · exact key _ _ fun _ => rfl
    · exact key _ _ fun _ => rfl
    · rename_i e he; exact absurd he (callAct_ne_refuse _ _ _ _ _)

theorem State.actGot_none (i : Instr) (s : State) (h : s.loc.got = none) : s.actGot i = s := by
  unfold State.actGot
  rw [h]

theorem handBack_settled (s : State) (h : s.loc.got = none) : (handBack s).Settled := by
  unfold handBack
  split
  · exact State.settled_idle _ (by assumption)
  · rename_i r hr
    split
    · rename_i hn
      exact ⟨h, by unfold State.loc; rw [hr]; exact hn⟩
    · exact opReturn_settled _ _ _

theorem handBack_none (s : State) (h : s.loc.ret = none) : handBack s = s := by
  unfold handBack
  unfold State.loc at h
  split
  · rfl
  · rename_i r hr
    rw [hr] at h
    dsimp only at h
    rw [h]

theorem settle_settled (s : State) : (settle s).Settled := by
  unfold settle
  split
  · exact State.settled_idle _ (by assumption)
  · exact handBack_settled _ (State.actGot_got _ _)

theorem settle_running (s : State) (r : Run) (h : s.run = some r) :
    settle s = handBack (s.actGot (callAt r s)) := by
  unfold settle
  rw [h]

theorem settle_of_settled (s : State) (h : s.Settled) : settle s = s := by
  unfold settle
  split
  · rfl
  · rw [State.actGot_none _ _ h.1, handBack_none _ h.2]

theorem settle_settle (s : State) : settle (settle s) = settle s := settle_of_settled _ (settle_settled s)

/-! ### The actions at once -/

/-- Frame `k` of a call with the actions after it at once. -/
def callWhole (i : Instr) (k : Nat) (s : State) : CallRes := (callFrame i k s).act (callAct i k)

/-- One frame of the running operation with the actions after it at once, those of the operation itself included. -/
def eagerStep (s : State) : State :=
  match s.run with
  | none => s
  | some r => handBack (s.callOnce (callWhole (callAt r s) r.loc.sub))

/-- One frame of a call with the actions after it at once. -/
def eagerCall (i : Instr) (s : State) : State := s.callOnce (callWhole i s.loc.sub)

theorem callFrame_ne_more (i : Instr) (k : Nat) (s t : State) : callFrame i k s ≠ .more t := by
  intro h
  have rb : ∀ a, readByteCall a s ≠ .more t := by
    intro a h; unfold readByteCall at h; split at h; cases h; split at h <;> cases h
  have wb : ∀ a v, writeByteCall a v s ≠ .more t := by
    intro a v h; unfold writeByteCall at h; split at h; cases h; split at h <;> cases h
  have rk : ∀ a n, readBlockCall a n s ≠ .more t := by
    intro a n h; unfold readBlockCall at h; split at h; cases h; split at h <;> cases h
  have wk : ∀ a bs, writeBlockCall a bs s ≠ .more t := by
    intro a bs h; unfold writeBlockCall at h; split at h; cases h; split at h <;> cases h
  cases i with
  | readByte a => exact rb _ h
  | readBlock a n => exact rk _ _ h
  | writeByte a v => exact wb _ _ h
  | writeBlock a bs => exact wk _ _ h
  | setMode m => exact wb (regAddr .opMode) (opModeValue m) h
  | setCarrierFrequency hz =>
    simp only [callFrame, setCarrierFrequencyCall] at h
    split at h
    · exact wk _ _ h
    · cases h
  | setPowerAmplifier b => exact wb (regAddr .paConfig) (paValue b) h
  | enableRxCrc =>
    simp only [callFrame, enableRxCrcFrame] at h
    split at h
    · exact rb _ h
    · exact wb _ _ h
  | onReceiveComplete =>
    simp only [callFrame, onReceiveCompleteFrame] at h
    split at h <;> first | exact rb _ h | exact wb _ _ h | exact rk _ _ h
  | onTransmitComplete =>
    simp only [callFrame, onTransmitCompleteFrame] at h
    split at h
    · exact wb _ _ h
    · exact wb _ _ h
  | _ => cases h

theorem State.withEnv_refuse (s : State) (e : RefusalReason) :
    s.refuse e = s.withEnv (s.refused.getD e) s.bus s.schedule := by
  cases s with
  | mk _ _ _ _ _ _ _ _ _ _ _ _ _ _ refused => cases refused <;> rfl

/-- The actions after a frame leave the scheduler's fields and the refusal mark. -/
theorem State.actGot_env (i : Instr) (s : State) :
    (s.actGot i).refused = s.refused ∧ (s.actGot i).bus = s.bus ∧ (s.actGot i).schedule = s.schedule := by
  have h := (s.actGot_step i).call
  exact ⟨h.refused, h.bus, h.schedule⟩

theorem State.actGot_refuse (i : Instr) (s : State) (e : RefusalReason) :
    (s.refuse e).actGot i = (s.actGot i).refuse e := by
  rw [s.withEnv_refuse, State.actGot_withEnv, (s.actGot i).withEnv_refuse]
  obtain ⟨h1, h2, h3⟩ := s.actGot_env i
  rw [h1, h2, h3]

theorem opReturn_env (r : Run) (x : Ret) (s : State) :
    (opReturn r x s).refused = s.refused ∧ (opReturn r x s).bus = s.bus ∧ (opReturn r x s).schedule = s.schedule := by
  have h := opReturn_withEnv r x s s.refused s.bus s.schedule
  have e : s.withEnv s.refused s.bus s.schedule = s := rfl
  rw [e] at h
  exact ⟨by rw [h]; rfl, by rw [h]; rfl, by rw [h]; rfl⟩

theorem settle_env (s : State) : (settle s).refused = s.refused ∧ (settle s).bus = s.bus ∧
    (settle s).schedule = s.schedule := by
  have h := settle_withEnv s s.refused s.bus s.schedule
  have e : s.withEnv s.refused s.bus s.schedule = s := rfl
  rw [e] at h
  exact ⟨by rw [h]; rfl, by rw [h]; rfl, by rw [h]; rfl⟩

theorem settle_refuse (s : State) (e : RefusalReason) : settle (s.refuse e) = (settle s).refuse e := by
  rw [s.withEnv_refuse, settle_withEnv, (settle s).withEnv_refuse]
  obtain ⟨h1, h2, h3⟩ := settle_env s
  rw [h1, h2, h3]

/-! ### The actions later and the actions at once come to the same -/

theorem State.mapLoc_none (s : State) (f : Locals → Locals) (h : s.run = none) : s.mapLoc f = s := by
  unfold State.mapLoc; rw [h]

theorem State.mapLoc_mapLoc (s : State) (f g : Locals → Locals) :
    (s.mapLoc f).mapLoc g = s.mapLoc fun l => g (f l) := by
  cases s with
  | mk _ _ _ _ _ _ _ _ _ run => cases run <;> rfl

theorem State.loc_mapLoc (s : State) (f : Locals → Locals) (h : s.run ≠ none) : (s.mapLoc f).loc = f s.loc := by
  cases s with
  | mk _ _ _ _ _ _ _ _ _ run =>
  cases run with
  | none => exact absurd rfl h
  | some r => rfl

theorem State.mapLoc_id (s : State) (f : Locals → Locals) (h : f s.loc = s.loc) : s.mapLoc f = s := by
  cases s with
  | mk _ _ _ _ _ _ _ _ _ run =>
  cases run with
  | none => rfl
  | some r =>
    unfold State.mapLoc
    have h' : f r.loc = r.loc := h
    dsimp only
    rw [h']

/-- One frame of a call whose outcome's actions come later, then those actions: as at once. -/
theorem State.issue_actGot (i : Instr) (s0 s : State) (hr : s.run ≠ none) (hg : s.loc.got = none) :
    (∃ e, State.issue i s0 s = s0.refuse e ∧ eagerCall i s = s.refuse e) ∨
      ((State.issue i s0 s).actGot i = eagerCall i s ∧ CallStep s (State.issue i s0 s)) := by
  have hm := callFrame_ne_more i s.loc.sub s
  have hf := callFrame_step i s.loc.sub s
  unfold State.issue eagerCall State.callOnce callWhole
  cases hc : callFrame i s.loc.sub s with
  | more t => exact absurd hc (hm t)
  | refuse e => exact .inl ⟨e, rfl, rfl⟩
  | done x t =>
    rw [hc] at hf
    have htr : t.run = s.run := hf.run
    have htl : t.loc = s.loc := by unfold State.loc; rw [htr]
    have htn : t.run ≠ none := by rw [htr]; exact hr
    refine .inr ⟨?_, ?_⟩
    · have hw : (t.mapLoc fun l => { l with got := some x }) = t.withGot (some x) := rfl
      dsimp only [CallRes.act]
      rw [hw]
      have hl : (t.withGot (some x)).loc = { s.loc with got := some x } := by
        rw [← htl]; exact State.loc_mapLoc _ _ htn
      unfold State.actGot
      rw [hl]
      dsimp only
      rw [callAct_withGot]
      have hn := callAct_got i s.loc.sub x t (by rw [htl]; exact hg)
      cases ha : callAct i s.loc.sub x t with
      | refuse e => exact absurd ha (callAct_ne_refuse _ _ _ _ _)
      | more u =>
        rw [ha] at hn
        dsimp only [CallRes.map]
        rw [CallRes.map, CallRes.more.injEq] at hn
        have e : u.mapLoc (fun l => { l with sub := l.sub + 1 }) =
            (u.withGot none).mapLoc (fun l => { l with sub := l.sub + 1 }) := by rw [hn]
        rw [e]
        unfold State.withGot
        rw [State.mapLoc_mapLoc, State.mapLoc_mapLoc]
      | done y u =>
        rw [ha] at hn
        dsimp only [CallRes.map]
        rw [CallRes.map, CallRes.done.injEq] at hn
        have e : u.mapLoc (fun l => { l with sub := 0, ret := some y }) =
            (u.withGot none).mapLoc (fun l => { l with sub := 0, ret := some y }) := by rw [hn.2]
        rw [e]
        unfold State.withGot
        rw [State.mapLoc_mapLoc, State.mapLoc_mapLoc]
    · exact hf.call.trans (CallStep.mapLoc t _)

theorem callAt_congr (r q : Run) (s t : State) (ho : q.op = r.op) (hp : q.pc = r.pc) (hs : t.flagsSnap = s.flagsSnap) :
    callAt q t = callAt r s := by
  unfold callAt State.snapshot
  rw [ho, hp, hs]

/-- One step of the running operation and then its pending actions: its pending actions and then one step with the
actions at once. -/
theorem settle_frameStep (s : State) : settle (frameStep s) = eagerStep (settle s) := by
  have hset := settle_settled s
  have hclose : ∀ t, settle (closeOp t) = settle t := by
    intro t
    unfold closeOp
    split
    · exact settle_settle t
    · rfl
  unfold frameStep eagerStep
  dsimp only
  cases hr : (settle s).run with
  | none => exact settle_settle s
  | some r =>
    dsimp only
    rw [hclose]
    have hl : (settle s).loc = r.loc := by unfold State.loc; rw [hr]
    have hcall : eagerCall (callAt r (settle s)) (settle s) =
        (settle s).callOnce (callWhole (callAt r (settle s)) r.loc.sub) := by
      unfold eagerCall; rw [hl]
    rw [← hcall]
    rcases State.issue_actGot (callAt r (settle s)) s (settle s) (by rw [hr]; simp) hset.1 with
      ⟨e, h1, h2⟩ | ⟨h1, h2⟩
    · rw [h1, h2, settle_refuse, handBack_none]
      have : ((settle s).refuse e).loc = (settle s).loc := by
        rw [State.withEnv_refuse]; rfl
      rw [this]
      exact hset.2
    · obtain ⟨f, hf⟩ := h2.run
      rw [hr] at hf
      rw [settle_running _ { r with loc := f r.loc } hf,
        callAt_congr r { r with loc := f r.loc } (settle s) _ rfl rfl h2.flagsSnap, h1]

/-! ### Whole runs -/

theorem settle_setBus (s : State) (b : BusResult) : settle { s with bus := b } = { settle s with bus := b } := by
  have h := settle_withEnv s s.refused b s.schedule
  obtain ⟨h1, h2, h3⟩ := settle_env s
  refine h.trans ?_
  unfold State.withEnv
  rw [← h1, ← h3]

theorem settle_setSchedule (s : State) (l : List Turn) : settle { s with schedule := l } = { settle s with schedule := l } := by
  have h := settle_withEnv s s.refused s.bus l
  obtain ⟨h1, h2, h3⟩ := settle_env s
  refine h.trans ?_
  unfold State.withEnv
  rw [← h1, ← h2]

theorem State.goTo_running (s : State) (k : Nat) (q : Run) (h : (s.goTo k).run = some q) :
    ∃ r, s.run = some r ∧ q.ctx = r.ctx ∧ q.op = r.op := by
  unfold State.goTo at h
  cases hr : s.run with
  | none => rw [hr] at h; simp only [hr] at h; cases h
  | some r =>
    rw [hr] at h
    exact ⟨r, rfl, by cases h; rfl, by cases h; rfl⟩

/-- An operation that takes what its call handed back and goes on is the same operation of the same context. -/
theorem opReturn_run (r : Run) (x : Ret) (s : State) (q : Run) (h : (opReturn r x s).run = some q) :
    ∃ q0, s.run = some q0 ∧ q.ctx = q0.ctx ∧ q.op = q0.op := by
  unfold opReturn at h
  split at h
  · unfold initReturn at h
    repeat' split at h
    all_goals first | exact State.goTo_running _ _ _ h | cases h
  · unfold sendReturn at h
    repeat' split at h
    all_goals first | exact State.goTo_running _ _ _ h | cases h
  · unfold dumpReturn at h
    dsimp only at h
    repeat' split at h
    · cases h
    · obtain ⟨r1, h1, h2, h3⟩ := State.goTo_running _ _ _ h
      rw [State.mapLoc_run] at h1
      cases hs : s.run with
      | none => rw [hs] at h1; cases h1
      | some r0 => rw [hs] at h1; cases h1; exact ⟨r0, rfl, h2, h3⟩
    · cases h
  · unfold dispatchReturn at h
    dsimp only at h
    repeat' split at h
    all_goals first
      | exact State.goTo_running s _ _ h
      | (have k := State.goTo_running _ _ _ h; exact k)
      | cases h
  all_goals cases h

/-- A running operation whose pending actions are performed is, if it runs on, the same operation of its context. -/
theorem settle_run (s : State) (q : Run) (h : (settle s).run = some q) :
    ∃ r, s.run = some r ∧ q.ctx = r.ctx ∧ q.op = r.op := by
  cases hr : s.run with
  | none => rw [settle_of_settled _ (s.settled_idle hr), hr] at h; cases h
  | some r =>
    rw [settle_running s r hr] at h
    obtain ⟨f, hf⟩ := (s.actGot_step (callAt r s)).call.run
    rw [hr] at hf
    unfold handBack at h
    rw [hf] at h
    dsimp only [Option.map] at h
    split at h
    · rw [hf] at h; cases h; exact ⟨r, rfl, rfl, rfl⟩
    · obtain ⟨q0, h1, h2, h3⟩ := opReturn_run _ _ _ _ h
      rw [hf] at h1; cases h1; exact ⟨r, rfl, h2, h3⟩

/-- The actions after a frame that would end the operation are performed. -/
def State.Closed (s : State) : Prop := s.run ≠ none → (settle s).run ≠ none

theorem State.settled_closed (s : State) (h : s.Settled) : s.Closed := by
  unfold State.Closed
  rw [settle_of_settled s h]
  exact id

theorem closeOp_closed (s : State) : (closeOp s).Closed := by
  unfold closeOp
  split
  · exact State.settled_closed _ (settle_settled s)
  · rename_i h
    intro _ hn
    rw [hn] at h
    exact h rfl

theorem frameStep_closed (s : State) : (frameStep s).Closed := by
  unfold frameStep
  dsimp only
  split
  · exact State.settled_closed _ (settle_settled s)
  · exact closeOp_closed _

theorem State.mayContinue_settle (s : State) (t : Turn) (h : s.Closed) : (settle s).mayContinue t = s.mayContinue t := by
  unfold State.mayContinue
  rw [(settle_env s).1]
  cases hr : s.run with
  | none => rw [settle_of_settled _ (s.settled_idle hr), hr]
  | some r =>
    have hne : (settle s).run ≠ none := h (by rw [hr]; simp)
    obtain ⟨q, hq⟩ := Option.ne_none_iff_exists'.1 hne
    obtain ⟨r0, h1, h2, _⟩ := settle_run s q hq
    rw [hr] at h1
    cases h1
    rw [hq]
    dsimp only
    rw [h2]

/-- A run of frames and then the pending actions: the pending actions and then the run with the actions at once. -/
theorem settle_drive (ts : List Turn) (s : State) (h : s.Closed) :
    settle (State.drive (fun _ => true) (fun t => frameStep t) ts s) =
        State.drive (fun _ => true) eagerStep ts (settle s) ∧
      (State.drive (fun _ => true) (fun t => frameStep t) ts s).Closed := by
  have hsched : ∀ (u : State) (l : List Turn), u.Closed → State.Closed { u with schedule := l } := by
    intro u l hu
    unfold State.Closed
    rw [settle_setSchedule]
    exact hu
  induction ts generalizing s with
  | nil => exact ⟨settle_setSchedule s [], hsched s [] h⟩
  | cons t ts ih =>
    unfold State.drive
    rw [State.mayContinue_settle s t h]
    split
    · have := ih (frameStep { s with bus := turnBus t }) (frameStep_closed _)
      rw [settle_frameStep, settle_setBus s] at this
      exact this
    · exact ⟨settle_setSchedule s _, hsched s _ h⟩

/-- The run of an operation with nothing pending, where the run with the actions at once comes to the operation's end:
they are the same. -/
theorem runOp_eq_of_eager (s y : State) (h : s.Settled)
    (hy : State.drive (fun _ => true) eagerStep s.schedule (eagerStep s) = y) (hn : y.run = none) : runOp s = y := by
  obtain ⟨h1, h2⟩ := settle_drive s.schedule (frameStep s) (frameStep_closed s)
  rw [settle_frameStep, settle_of_settled s h, hy] at h1
  have h3 : (runOp s).run = none := by
    by_contra hne
    exact h2 hne (by rw [h1]; exact hn)
  rw [← h1]
  exact (settle_of_settled _ (State.settled_idle _ h3)).symm

/-! ### One call alone -/

theorem State.actGot_setBus (i : Instr) (s : State) (b : BusResult) :
    State.actGot i { s with bus := b } = { s.actGot i with bus := b } := by
  have h := State.actGot_withEnv i s s.refused b s.schedule
  obtain ⟨h1, h2, h3⟩ := s.actGot_env i
  refine h.trans ?_
  unfold State.withEnv
  rw [← h1, ← h3]

theorem State.actGot_setSchedule (i : Instr) (s : State) (l : List Turn) :
    State.actGot i { s with schedule := l } = { s.actGot i with schedule := l } := by
  have h := State.actGot_withEnv i s s.refused s.bus l
  obtain ⟨h1, h2, h3⟩ := s.actGot_env i
  refine h.trans ?_
  unfold State.withEnv
  rw [← h1, ← h2]

theorem State.actGot_actGot (i : Instr) (s : State) : (s.actGot i).actGot i = s.actGot i :=
  State.actGot_none _ _ (s.actGot_got i)

/-- One step of a call and then its pending actions: its pending actions and then one step with the actions at once. -/
theorem actGot_callTurn (i : Instr) (s : State) (hr : s.run ≠ none) :
    (callTurn i s).actGot i = eagerCall i (s.actGot i) := by
  have hr' : (s.actGot i).run ≠ none := by
    obtain ⟨f, hf⟩ := (s.actGot_step i).call.run
    rw [hf]
    cases h : s.run with
    | none => exact absurd h hr
    | some r => simp
  have hc : (callTurn i s).actGot i = (State.issue i s (s.actGot i)).actGot i := by
    unfold callTurn
    dsimp only
    split
    · exact State.actGot_actGot _ _
    · rfl
  rw [hc]
  rcases State.issue_actGot i s (s.actGot i) hr' (s.actGot_got i) with ⟨e, h1, h2⟩ | ⟨h1, _⟩
  · rw [h1, h2, State.actGot_refuse]
  · exact h1

/-- The call is over exactly when the actions after its last frame hand something back. -/
def State.CallClosed (i : Instr) (s : State) : Prop :=
  (s.loc.ret = none → (s.actGot i).loc.ret = none) ∧ (s.loc.ret ≠ none → s.loc.got = none)

theorem callTurn_closed (i : Instr) (s : State) (h : s.CallClosed i) (hn : s.loc.ret = none) :
    (callTurn i s).CallClosed i := by
  unfold callTurn
  dsimp only
  split
  · rename_i hs
    refine ⟨fun h => ?_, fun _ => State.actGot_got _ _⟩
    rw [h] at hs
    cases hs
  · rename_i hs
    have hs' : ((State.issue i s (s.actGot i)).actGot i).loc.ret = none := by
      cases hx : ((State.issue i s (s.actGot i)).actGot i).loc.ret with
      | none => rfl
      | some x => rw [hx] at hs; exact absurd rfl hs
    refine ⟨fun _ => hs', fun hne => absurd ?_ hne⟩
    rcases State.issue_cases i s (s.actGot i) with ⟨_, k⟩ | ⟨e, k⟩
    · have hl : ∀ t : State, t.loc.ret = (t.run.map fun r => r.loc.ret).getD none := by
        intro t; unfold State.loc; cases t.run <;> rfl
      rw [hl, k, ← hl]
      exact h.1 hn
    · rw [k, State.withEnv_refuse]
      exact hn

theorem State.mayContinue_actGot (i : Instr) (s : State) (t : Turn) :
    (s.actGot i).mayContinue t = s.mayContinue t := by
  unfold State.mayContinue
  have h := (s.actGot_step i).call
  obtain ⟨f, hf⟩ := h.run
  rw [h.refused, hf]
  cases s.run <;> rfl

theorem actGot_driveCall (i : Instr) (ts : List Turn) (s : State) (h : s.CallClosed i) :
    (State.drive callOpen (fun t => callTurn i t) ts s).actGot i =
        State.drive callOpen (eagerCall i) ts (s.actGot i) ∧
      (State.drive callOpen (fun t => callTurn i t) ts s).CallClosed i := by
  have hsched : ∀ (u : State) (l : List Turn), u.CallClosed i → State.CallClosed i { u with schedule := l } := by
    intro u l hu
    unfold State.CallClosed
    rw [State.actGot_setSchedule]
    exact hu
  induction ts generalizing s with
  | nil => exact ⟨State.actGot_setSchedule i s [], hsched s [] h⟩
  | cons t ts ih =>
    have hopen : callOpen (s.actGot i) = callOpen s := by
      unfold callOpen
      by_cases hn : s.loc.ret = none
      · rw [hn, h.1 hn]
      · rw [State.actGot_none i s (h.2 hn)]
    unfold State.drive
    rw [State.mayContinue_actGot, hopen]
    split
    · rename_i hc
      rw [Bool.and_eq_true] at hc
      have hn : s.loc.ret = none := of_decide_eq_true hc.1
      have hr : ({ s with bus := turnBus t } : State).run ≠ none := by
        intro he
        have h2 := hc.2
        unfold State.mayContinue at h2
        rw [show s.run = none from he, Bool.and_false] at h2
        cases h2
      have hb : State.CallClosed i { s with bus := turnBus t } := by
        unfold State.CallClosed
        rw [State.actGot_setBus]
        exact h
      have := ih (callTurn i { s with bus := turnBus t }) (callTurn_closed i _ hb hn)
      rw [actGot_callTurn i _ hr, State.actGot_setBus i s] at this
      exact this
    · exact ⟨State.actGot_setSchedule i s _, hsched s _ h⟩

/-- A call from its first frame on, where with the actions at once it comes to its end: they are the same. -/
theorem runCall_eq_of_eager (i : Instr) (s y : State) (hr : s.run ≠ none) (h : s.Settled)
    (hy : State.drive callOpen (eagerCall i) s.schedule (eagerCall i s) = y) (hn : y.loc.ret ≠ none) :
    runCall i s = y := by
  have h0 : s.actGot i = s := State.actGot_none i s h.1
  have hc : s.CallClosed i := ⟨fun _ => by rw [h0]; exact h.2, fun hne => absurd h.2 hne⟩
  obtain ⟨h1, h2⟩ := actGot_driveCall i s.schedule (callTurn i s) (callTurn_closed i s hc h.2)
  rw [actGot_callTurn i s hr, h0, hy] at h1
  have h3 : (runCall i s).loc.ret ≠ none := by
    intro he
    exact hn (by rw [← h1]; exact h2.1 he)
  rw [← h1]
  exact (State.actGot_none i _ (h2.2 h3)).symm

/-! ### A failed frame -/

/-- The shadow after an error of frame `k` of a call: unknown if the frame was setMode's (R170). -/
def modeAfterErr (i : Instr) (k : Nat) (m : Option OperatingMode) : Option OperatingMode :=
  match i with
  | .setMode _ => none
  | .onTransmitComplete =>
    match k with
    | 0 => m
    | _ => none
  | _ => m

/-- An error of a frame ends its call, whatever the call and the frame; setMode's alone writes the shadow. -/
theorem callAct_err (i : Instr) (k : Nat) (e : Err) (s : State) :
    callAct i k (.err e) s = .done (.err e) { s with mode := modeAfterErr i k s.mode } := by
  cases i with
  | onTransmitComplete => cases k <;> rfl
  | _ => rfl

theorem opReturn_keeps (r : Run) (x : Ret) (s : State) : (opReturn r x s).resetDone = s.resetDone ∧
    ((opReturn r x s).run ≠ none → (opReturn r x s).lock = s.lock) := by
  unfold opReturn
  split
  · unfold initReturn
    repeat' split
    all_goals first | exact ⟨rfl, fun h => absurd rfl h⟩ | exact ⟨by simp, fun _ => by simp⟩
  · unfold sendReturn
    repeat' split
    all_goals first | exact ⟨rfl, fun h => absurd rfl h⟩ | exact ⟨by simp, fun _ => by simp⟩
  · unfold dumpReturn
    dsimp only
    repeat' split
    all_goals first
      | exact ⟨rfl, fun h => absurd rfl h⟩
      | (refine ⟨?_, fun h => absurd ?_ h⟩ <;> simp [State.release, State.returnResult]; done)
      | exact ⟨by simp, fun _ => by simp⟩
  · unfold dispatchReturn
    dsimp only
    repeat' split
    all_goals first | exact ⟨rfl, fun h => absurd rfl h⟩ | exact ⟨by simp, fun _ => by simp⟩
  all_goals exact ⟨rfl, fun h => absurd rfl h⟩

/-- An operation that may issue a frame may issue its next one after its pending actions, if they do not end it. -/
theorem settle_canFrame (s : State) (r q : Run) (hc : s.CanFrame r) (h : (settle s).run = some q) :
    (settle s).CanFrame q := by
  obtain ⟨r0, h0, h1, _⟩ := settle_run s q h
  rw [hc.1] at h0
  cases h0
  have hst := (s.actGot_step (callAt r s)).call
  have hh : (settle s).resetDone = s.resetDone ∧ ((settle s).run ≠ none → (settle s).lock = s.lock) := by
    rw [settle_running s r hc.1]
    unfold handBack
    split
    · exact ⟨hst.resetDone, fun _ => hst.lock⟩
    · split
      · exact ⟨hst.resetDone, fun _ => hst.lock⟩
      · obtain ⟨a, b⟩ := opReturn_keeps (by assumption) (by assumption) (s.actGot (callAt r s))
        exact ⟨a.trans hst.resetDone, fun z => (b z).trans hst.lock⟩
  exact ⟨h, by rw [hh.2 (by rw [h]; simp), hc.2.1, h1], hh.1.trans hc.2.2⟩

/-- The frame of a running operation whose frame failed, with the actions after it: what the operation makes of the
error, in a state that differs by the frame and perhaps by the shadow. -/
theorem settle_failed (s : State) (r : Run) (out : List Byte) (d : Chip) (e : Err) (h : s.run = some r) :
    settle ((s.frameDone r.ctx out none d).mapLoc fun l => { l with got := some (.err e) }) =
      opReturn { r with loc := { r.loc with sub := 0, got := none, ret := some (.err e) } } (.err e)
        { s with chip := d, cs := false, busTrace := s.busTrace ++ [{ ctx := r.ctx, out := out, inp := none }],
                 edgePending := s.edgePending || (d.dio0 && !s.lineLast), lineLast := d.dio0,
                 mode := modeAfterErr (callAt r s) r.loc.sub s.mode,
                 run := some { r with loc := { r.loc with sub := 0, got := none, ret := some (.err e) } } } := by
  have hw : ((s.frameDone r.ctx out none d).mapLoc fun l => { l with got := some (.err e) }).run =
      some { r with loc := { r.loc with got := some (.err e) } } := by
    rw [State.mapLoc_run, show (s.frameDone r.ctx out none d).run = s.run from rfl, h]
    rfl
  have hca : callAt { r with loc := { r.loc with got := some (.err e) } }
      ((s.frameDone r.ctx out none d).mapLoc fun l => { l with got := some (.err e) }) = callAt r s :=
    callAt_congr _ _ _ _ rfl rfl (by rw [State.mapLoc_flagsSnap]; rfl)
  rw [settle_running _ _ hw, hca]
  unfold State.actGot State.loc
  rw [hw]
  dsimp only
  rw [callAct_err]
  generalize callAt r s = i
  cases s
  simp only at h
  subst h
  rfl

end Sys2Proof.Machine
end

