-- ==== Sys2Proof/Laws/Step.lean ====
section
/-! SUPPORT. What a step does with the schedule's next turn, by agent: the lemmas a proof about `step` cites instead of
unfolding it. -/

namespace Sys2Proof.Machine

/-- A step takes the schedule's next turn. -/
theorem step_turn (s : State) (t : Turn) (ts : List Turn) (hn : s.refused = none) (hs : s.schedule = t :: ts) :
    step s = State.takeTurn { s with schedule := ts } t := by
  cases s
  simp only at hn hs
  subst hn hs
  rfl

/-- Where the schedule holds no turn, a step takes the next free one. -/
theorem step_free (s : State) (hn : s.refused = none) (hs : s.schedule = []) :
    step s = State.takeTurn { s with tick := s.tick + 1 } (Config.freeTurn s.tick) := by
  cases s
  simp only at hn hs
  subst hn hs
  rfl

/-- Every next state is that of a turn, of the schedule or free. -/
theorem step_next (s t : State) (h : step s = .next t) :
    s.refused = none ∧
      ((∃ x xs, s.schedule = x :: xs ∧ State.takeTurn { s with schedule := xs } x = .next t) ∨
        (s.schedule = [] ∧ State.takeTurn { s with tick := s.tick + 1 } (Config.freeTurn s.tick) = .next t)) := by
  have hn : s.refused = none := by
    by_contra hne
    obtain ⟨r, hr⟩ := Option.ne_none_iff_exists'.1 hne
    have hm : step s = .refused (.marked r) := by unfold step State.nextTurn; rw [hr]
    rw [hm] at h
    cases h
  refine ⟨hn, ?_⟩
  obtain hs | ⟨x, xs, hs⟩ : s.schedule = [] ∨ ∃ x xs, s.schedule = x :: xs := by cases s.schedule <;> simp
  · exact .inr ⟨hs, (step_free s hn hs).symm.trans h⟩
  · exact .inl ⟨x, xs, hs, (step_turn s x xs hn hs).symm.trans h⟩

/-- The App context goes on with its running operation. -/
theorem State.appTurn_run (s : State) (r : Run) (h : s.run = some r) (hc : r.ctx = .app) : s.appTurn = s.resume r := by
  unfold State.appTurn
  simp only [h, hc, if_true]

/-- The App context with no operation of its own takes a command. -/
theorem State.appTurn_host (s : State) (h : ∀ r, s.run = some r → r.ctx = .irq) : s.appTurn = s.hostStep := by
  unfold State.appTurn
  cases hr : s.run with
  | none => rfl
  | some r => simp [h r hr]

/-- The Irq context goes on with the running dispatch. -/
theorem State.irqTurn_run (s : State) (r : Run) (h : s.run = some r) (hc : r.ctx = .irq) : s.irqTurn = s.resume r := by
  unfold State.irqTurn
  simp only [h, hc, if_true]

/-- The Irq context waits while the App context's operation runs. -/
theorem State.irqTurn_wait (s : State) (r : Run) (h : s.run = some r) (hc : r.ctx = .app) : s.irqTurn = .next s := by
  unfold State.irqTurn
  simp [h, hc]

/-- The Irq context with nothing running runs dispatch. -/
theorem State.irqTurn_idle (s : State) (h : s.run = none) : s.irqTurn = exec .dispatch s := by
  unfold State.irqTurn
  simp only [h]

/-- The running operation takes its next frame (R93). -/
theorem State.resume_composed (s : State) (r : Run) (h : composed r.op = true) : s.resume r = .next (frameStep s) := by
  unfold State.resume
  rw [h]
  rfl

/-- An operation that calls no other is run by its meaning, and ends when it has handed something back. -/
theorem State.resume_own (s u : State) (r : Run) (h : composed r.op = false) (hu : exec r.op s = .next u) :
    s.resume r = .next (handBack u) := by
  unfold State.resume
  rw [h, hu]
  rfl

/-- A turn of the running operation's context is that operation's. -/
theorem step_resume (s : State) (t : Turn) (ts : List Turn) (r : Run) (hn : s.refused = none)
    (hs : s.schedule = t :: ts) (hr : s.run = some r) (ht : turnCtx t = some r.ctx) :
    step s = State.resume { s with schedule := ts, bus := turnBus t } r := by
  rw [step_turn s t ts hn hs]
  cases t with
  | app b =>
    exact State.appTurn_run { s with schedule := ts, bus := b } r hr (by simpa [turnCtx] using ht.symm)
  | irq b =>
    exact State.irqTurn_run { s with schedule := ts, bus := b } r hr (by simpa [turnCtx] using ht.symm)
  | chip e => cases ht
  | host c => cases ht

/-- A turn of the context of a running operation whose next frame fails, where the operation ends with the error. -/
theorem step_failed (s s1 u : State) (r r1 : Run) (t : Turn) (ts : List Turn) (e : Err) (out : List Byte) (d : Chip)
    (hn : s.refused = none) (hs : s.schedule = t :: ts) (hr : s.run = some r) (ht : turnCtx t = some r.ctx)
    (hc : composed r.op = true) (h1 : s1 = settle { s with schedule := ts, bus := turnBus t }) (hr1 : s1.run = some r1)
    (hf : callFrame (callAt r1 s1) r1.loc.sub s1 = .done (.err e) (s1.frameDone r1.ctx out none d))
    (hu : opReturn { r1 with loc := { r1.loc with sub := 0, got := none, ret := some (.err e) } } (.err e)
        { s1 with chip := d, cs := false, busTrace := s1.busTrace ++ [{ ctx := r1.ctx, out := out, inp := none }],
                  edgePending := s1.edgePending || (d.dio0 && !s1.lineLast), lineLast := d.dio0,
                  mode := modeAfterErr (callAt r1 s1) r1.loc.sub s1.mode,
                  run := some { r1 with loc := { r1.loc with sub := 0, got := none, ret := some (.err e) } } } = u)
    (hun : u.run = none) : step s = .next u := by
  rw [step_resume s t ts r hn hs hr ht, State.resume_composed _ r hc]
  congr 1
  unfold frameStep
  rw [← h1]
  dsimp only
  rw [hr1]
  dsimp only
  unfold State.issue
  rw [show s1.loc = r1.loc by unfold State.loc; rw [hr1], hf]
  dsimp only
  unfold closeOp
  rw [settle_failed s1 r1 out d e hr1, hu, hun]
  rfl

/-- A configuration is built from a record exactly when every register address is below 0x80, and it is the record
(R112). -/
theorem cfg_build_ok (c c1 : Cfg) : c.build = .ok c1 ↔ c1 = c ∧ ∀ r, (c.reg r).toNat < 0x80 := by
  have hb : ∀ b : Byte, b.getLsbD 7 = false ↔ b.toNat < 0x80 := by decide
  have hall : ∀ r : Reg, r ∈ Reg.all := fun r => by cases r <;> decide
  unfold Cfg.build
  cases hf : Reg.all.find? (fun r => (c.reg r).getLsbD 7) with
  | none =>
    have h := List.find?_eq_none.mp hf
    have : ∀ r, (c.reg r).toNat < 0x80 := fun r => (hb _).mp (by simpa using h r (hall r))
    simp [this, eq_comm]
  | some q =>
    have h : (c.reg q).getLsbD 7 = true := by simpa using List.find?_some hf
    simp only [reduceCtorEq, false_iff, not_and, not_forall]
    exact fun _ => ⟨q, fun hq => by rw [(hb _).mpr hq] at h; cases h⟩

/-- The default configuration is built (R46, R112). -/
theorem cfg_build_default : Config.cfg.build = .ok Config.cfg :=
  (cfg_build_ok _ _).mpr ⟨rfl, fun r => by cases r <;> decide⟩

/-- No operation runs and no machine steps at a record that is refused when the configuration is built (R112). -/
theorem not_built (c : Cfg) (e : CfgError) (h : c.build = .error e) (i : Instr) (s : State) :
    execAt c i s = .refused (.illFormedConfig e) ∧ stepAt c s = .refused (.illFormedConfig e) := by
  unfold execAt stepAt
  simp only [h, and_self]

/-- exec is the meanings at the default configuration (R9). -/
theorem exec_eq_meaningAt : exec = meaningAt Config.cfg := by
  funext i s
  cases i <;> rfl

/-- exec is execAt at the default configuration (R9). -/
theorem exec_eq_execAt : exec = execAt Config.cfg := by
  funext i s
  unfold execAt
  simp only [cfg_build_default, exec_eq_meaningAt]

/-- A step is a step at the default configuration (R9). -/
theorem step_eq_stepAt : step = stepAt Config.cfg := by
  funext s
  unfold step stepAt
  simp only [cfg_build_default, exec_eq_meaningAt]

/-- A rejected command (R129). -/
theorem State.hostStep_rejected (s : State) (c : List Byte) (rest : List (List Byte)) (e : DecodeError)
    (hp : s.port = c :: rest) (hd : decodeHost c = .error e) : s.hostStep = .next (s.refuse (decodeRefusal e)) := by
  unfold State.hostStep
  simp only [hp, hd]

/-- A command that holds at its `acquire` (R85). -/
theorem State.hostStep_holds (s : State) (c : List Byte) (rest : List (List Byte)) (i : Instr)
    (hp : s.port = c :: rest) (hd : decodeHost c = .ok i) (hl : s.lock.isSome = true)
    (hr : reachesAcquire i s = true) : s.hostStep = .next s := by
  unfold State.hostStep
  simp only [hp, hd, hl, hr, Bool.and_self, if_true]

/-- A command that runs (R250). -/
theorem State.hostStep_runs (s : State) (c : List Byte) (rest : List (List Byte)) (i : Instr)
    (hp : s.port = c :: rest) (hd : decodeHost c = .ok i) (hr : s.lock = none ∨ reachesAcquire i s = false) :
    s.hostStep = exec i { s with port := rest } := by
  have : (s.lock.isSome && reachesAcquire i s) = false := by
    rcases hr with h | h
    · rw [h]; rfl
    · rw [h, Bool.and_false]
  unfold State.hostStep
  simp only [hp, hd, this, Bool.false_eq_true, if_false]

/-- A command that decodes is one of the four host commands. -/
theorem decodeHost_format (c : List Byte) (i : Instr) (hd : decodeHost c = .ok i) : i.format = .hostCommand := by
  revert hd
  unfold decodeHost
  intro hd
  repeat' split at hd
  all_goals first | cases hd; rfl | cases hd

end Sys2Proof.Machine
end

