-- ==== Sys2Proof/Laws/Turns.lean ====
section
/-! SUPPORT. The turns of the running context: when the frames of an operation go on, when they stop, and the steps of
a called operation with more than one frame. -/

namespace Sys2Proof.Machine

/-- The next turn is the running operation's own and `p` holds: one more frame. -/
theorem State.drive_go (p : State → Bool) (f : State → State) (t : Turn) (ts : List Turn) (s : State) (r : Run)
    (hp : p s = true) (hn : s.refused = none) (hr : s.run = some r) (ht : turnCtx t = some r.ctx) :
    State.drive p f (t :: ts) s = State.drive p f ts (f { s with bus := turnBus t }) := by
  have : s.mayContinue t = true := by
    unfold State.mayContinue
    rw [hn, hr]
    simp [ht]
  rw [State.drive, hp, this]
  rfl

/-- `p` holds no longer: the schedule is what is left of it. -/
theorem State.drive_stop (p : State → Bool) (f : State → State) (ts : List Turn) (s : State) (hp : p s = false) :
    State.drive p f ts s = { s with schedule := ts } := by
  cases ts with
  | nil => rfl
  | cons t ts => rw [State.drive, hp]; rfl

/-- No operation runs any longer: the schedule is what is left of it. -/
theorem State.drive_idle (p : State → Bool) (f : State → State) (ts : List Turn) (s : State) (hr : s.run = none) :
    State.drive p f ts s = { s with schedule := ts } := by
  cases ts with
  | nil => rfl
  | cons t ts =>
    have : s.mayContinue t = false := by
      unfold State.mayContinue
      rw [hr]
      simp
    rw [State.drive, this, Bool.and_false]
    rfl

/-! ### Several frames of one operation as one update -/

/-- `s` after the frames `fs` of its running operation `r`: the chip, the edge latch, the bus draw and the locals as
given, the line sampled, everything else as in `s`. -/
def State.ran (s : State) (r : Run) (fs : List Frame) (d : Chip) (e : Bool) (b : BusResult) (loc : Locals) : State :=
  { s with chip := d, cs := false, busTrace := s.busTrace ++ fs, edgePending := e, lineLast := d.dio0, bus := b,
           run := some { r with loc := loc } }

section
variable (s : State) (r : Run) (fs : List Frame) (d : Chip) (e : Bool) (b : BusResult) (loc : Locals)

@[simp] theorem State.ran_chip : (s.ran r fs d e b loc).chip = d := rfl
@[simp] theorem State.ran_edgePending : (s.ran r fs d e b loc).edgePending = e := rfl
@[simp] theorem State.ran_lineLast : (s.ran r fs d e b loc).lineLast = d.dio0 := rfl
@[simp] theorem State.ran_bus : (s.ran r fs d e b loc).bus = b := rfl
@[simp] theorem State.ran_run : (s.ran r fs d e b loc).run = some { r with loc := loc } := rfl
@[simp] theorem State.ran_loc : (s.ran r fs d e b loc).loc = loc := rfl
@[simp] theorem State.ran_refused : (s.ran r fs d e b loc).refused = s.refused := rfl
@[simp] theorem State.ran_snapshot : (s.ran r fs d e b loc).snapshot = s.snapshot := rfl
@[simp] theorem State.ran_setBus (b' : BusResult) :
    { (s.ran r fs d e b loc) with bus := b' } = s.ran r fs d e b' loc := rfl
@[simp] theorem State.ran_mapLoc (f : Locals → Locals) :
    (s.ran r fs d e b loc).mapLoc f = s.ran r fs d e b (f loc) := rfl

theorem State.ran_ran (fs' : List Frame) (d' : Chip) (e' : Bool) (b' : BusResult) (loc' : Locals) :
    (s.ran r fs d e b loc).ran { r with loc := loc } fs' d' e' b' loc' = s.ran r (fs ++ fs') d' e' b' loc' := by
  simp [State.ran]

/-- The next turn is the running operation's own and `p` holds: one more frame. -/
theorem State.drive_ran (p : State → Bool) (f : State → State) (t : Turn) (ts : List Turn)
    (hp : p (s.ran r fs d e b loc) = true) (hn : s.refused = none) (ht : turnCtx t = some r.ctx) :
    State.drive p f (t :: ts) (s.ran r fs d e b loc) =
      State.drive p f ts (f (s.ran r fs d e (turnBus t) loc)) :=
  State.drive_go p f t ts (s.ran r fs d e b loc) { r with loc := loc } hp hn rfl ht

theorem State.ran_canFrame (h : s.CanFrame r) : (s.ran r fs d e b loc).CanFrame { r with loc := loc } :=
  ⟨rfl, h.2.1, h.2.2⟩

end

/-- One frame, as `ran`. -/
theorem State.frameDone_ran (s : State) (r : Run) (out : List Byte) (inp : Option (List Byte)) (c : Chip)
    (h : s.run = some r) :
    s.frameDone r.ctx out inp c =
      s.ran r [{ ctx := r.ctx, out := out, inp := inp }] c (s.edgePending || (c.dio0 && !s.lineLast)) s.bus r.loc := by
  cases s
  simp only at h
  subst h
  rfl

/-- The locals when a call has a further frame. -/
def Locals.next (l : Locals) : Locals := { l with sub := l.sub + 1 }

/-- The locals when a call has handed `x` back. -/
def Locals.handed (l : Locals) (x : Ret) : Locals := { l with sub := 0, ret := some x }

@[simp] theorem Locals.next_sub (l : Locals) : l.next.sub = l.sub + 1 := rfl
@[simp] theorem Locals.next_ret (l : Locals) : l.next.ret = l.ret := rfl
@[simp] theorem Locals.next_start (l : Locals) : l.next.start = l.start := rfl
@[simp] theorem Locals.next_count (l : Locals) : l.next.count = l.count := rfl
@[simp] theorem Locals.next_data (l : Locals) : l.next.data = l.data := rfl
@[simp] theorem Locals.next_rawRssi (l : Locals) : l.next.rawRssi = l.rawRssi := rfl
@[simp] theorem Locals.next_rawSnr (l : Locals) : l.next.rawSnr = l.rawSnr := rfl
@[simp] theorem Locals.next_crcValue (l : Locals) : l.next.crcValue = l.crcValue := rfl
@[simp] theorem Locals.handed_sub (l : Locals) (x : Ret) : (l.handed x).sub = 0 := rfl
@[simp] theorem Locals.handed_ret (l : Locals) (x : Ret) : (l.handed x).ret = some x := rfl

/-- A call's frame that returned, as `ran`. -/
theorem State.callOnce_ran (s : State) (r : Run) (f : State → CallRes) (x : Ret) (out : List Byte)
    (inp : Option (List Byte)) (c : Chip) (h : s.run = some r) (hf : f s = .done x (s.frameDone r.ctx out inp c)) :
    s.callOnce f = s.ran r [{ ctx := r.ctx, out := out, inp := inp }] c
      (s.edgePending || (c.dio0 && !s.lineLast)) s.bus (r.loc.handed x) := by
  rw [State.callOnce_done _ _ _ _ hf, State.frameDone_ran _ _ _ _ _ h]
  rfl

/-- A call's frame with a further frame to come, as `ran`. -/
theorem State.callOnce_ran_more (s : State) (r : Run) (f : State → CallRes) (g : Locals → Locals) (out : List Byte)
    (inp : Option (List Byte)) (c : Chip) (h : s.run = some r)
    (hf : f s = .more ((s.frameDone r.ctx out inp c).mapLoc g)) :
    s.callOnce f = s.ran r [{ ctx := r.ctx, out := out, inp := inp }] c
      (s.edgePending || (c.dio0 && !s.lineLast)) s.bus (g r.loc).next := by
  rw [State.callOnce_more _ _ _ hf, State.frameDone_ran _ _ _ _ _ h]
  rfl

theorem State.afterCall_ran (s : State) (r : Run) (out : List Byte) (inp : Option (List Byte)) (c : Chip) (x : Ret) :
    s.afterCall r out inp c x = s.ran r [{ ctx := r.ctx, out := out, inp := inp }] c
      (s.edgePending || (c.dio0 && !s.lineLast)) s.bus (r.loc.handed x) := rfl

/-- The running operation moves on, as `ran`. -/
theorem State.ran_goTo (s : State) (r : Run) (fs : List Frame) (d : Chip) (e : Bool) (b : BusResult) (loc : Locals)
    (k : Nat) :
    (s.ran r fs d e b loc).goTo k = s.ran { r with pc := k } fs d e b { loc with sub := 0, got := none, ret := none } := rfl

/-- One frame of the running operation whose call has a further frame to come. -/
theorem eagerStep_more (s t : State) (r : Run) (h : s.run = some r)
    (ht : s.callOnce (callWhole (callAt r s) r.loc.sub) = t) (hn : t.loc.ret = none) : eagerStep s = t := by
  unfold eagerStep
  rw [h]
  dsimp only
  rw [ht]
  unfold handBack
  unfold State.loc at hn
  split
  · rfl
  · rename_i q hq
    rw [hq] at hn
    dsimp only at hn
    rw [hn]

/-- One frame of the running operation whose call hands `x` back. -/
theorem eagerStep_done (s t : State) (r q : Run) (x : Ret) (h : s.run = some r)
    (ht : s.callOnce (callWhole (callAt r s) r.loc.sub) = t) (hq : t.run = some q) (hx : q.loc.ret = some x) :
    eagerStep s = opReturn q x t := by
  unfold eagerStep
  rw [h]
  dsimp only
  rw [ht]
  unfold handBack
  rw [hq]
  dsimp only
  rw [hx]

/-- The loc of a state whose running operation is known. -/
theorem State.loc_of_run (s : State) (r : Run) (h : s.run = some r) : s.loc = r.loc := by
  unfold State.loc; rw [h]

/-! ### The block's own frames, as `ran` -/

/-- A read of one byte at a register address that is not the FIFO port: what it reads, and that it changes nothing. -/
theorem readByteCall_reads (s : State) (r : Run) (a : Byte) (h : s.CanFrame r) (hb : s.bus = .ok)
    (ha : a.getLsbD 7 = false) (h0 : a ≠ 0) :
    ∃ i v d, Chip.SameBut s.chip d ∧ (∀ q, a = regAddr q → s.chip.Readable q → v = s.chip.reg q) ∧
      readByteCall a s = .done (.bytes [v]) (s.frameDone r.ctx [a, 0x00] (some [i, v]) d) := by
  have hn : a.toNat ≠ 0 := fun e => h0 (BitVec.eq_of_toNat_eq e)
  obtain ⟨k, v⟩ := s.chip.draw.2.readTarget_reg a.toNat hn
  exact ⟨s.chip.draw.1, _, _, (Chip.SameBut.draw s.chip).trans k, fun q hq hr => v q (by rw [hq]) hr,
    readByteCall_ok s r a h hb ha⟩

/-- A write of one byte to a named register that is not the FIFO port. -/
theorem writeByteCall_writes (s : State) (r : Run) (q : Reg) (v : Byte) (h : s.CanFrame r) (hb : s.bus = .ok)
    (hq : q ≠ .fifo) :
    ∃ i0 i1 d, Chip.SameBut (s.chip.writeReg q v) d ∧ writeByteCall (regAddr q) v s =
      .done (.bytes []) (s.frameDone r.ctx [0x80 ||| regAddr q, v] (some [i0, i1]) d) :=
  writeByteCall_ok s r _ v _ h hb (regAddr_bit7 q) (Chip.writeTarget_reg _ q _ hq)

/-- The frame of a call that writes one register and returns. -/
theorem callOnce_write_ran (s : State) (r : Run) (q : Reg) (v : Byte) (f : State → CallRes) (h : s.CanFrame r)
    (hb : s.bus = .ok) (hq : q ≠ .fifo) (hf : f s = writeByteCall (regAddr q) v s) :
    ∃ inp d, Chip.SameBut (s.chip.writeReg q v) d ∧
      s.callOnce f = s.ran r [{ ctx := r.ctx, out := [0x80 ||| regAddr q, v], inp := some inp }] d
        (s.edgePending || (d.dio0 && !s.lineLast)) .ok (r.loc.handed (.bytes [])) := by
  obtain ⟨i0, i1, d, hs, hc⟩ := writeByteCall_writes s r q v h hb hq
  exact ⟨[i0, i1], d, hs, by rw [State.callOnce_ran s r f _ _ _ d h.1 (by rw [hf]; exact hc), hb]⟩

/-- The frame of a call that reads one register and goes on with it in a local. -/
theorem callOnce_read_ran (s : State) (r : Run) (a : Byte) (g : Byte → Locals → Locals) (f : State → CallRes)
    (h : s.CanFrame r) (hb : s.bus = .ok) (ha : a.getLsbD 7 = false) (h0 : a ≠ 0)
    (hf : f s = (readByteCall a s).act fun x s1 => x.orErr s1 fun bs => .more (s1.mapLoc fun l => g (bs.headD 0) l)) :
    ∃ inp v d, Chip.SameBut s.chip d ∧ (∀ q, a = regAddr q → s.chip.Readable q → v = s.chip.reg q) ∧
      s.callOnce f = s.ran r [{ ctx := r.ctx, out := [a, 0x00], inp := some inp }] d
        (s.edgePending || (d.dio0 && !s.lineLast)) .ok (g v r.loc).next := by
  obtain ⟨i, v, d, hk, hv, e⟩ := readByteCall_reads s r a h hb ha h0
  exact ⟨[i, v], v, d, hk, hv, by rw [State.callOnce_ran_more s r f (g v) _ _ d h.1 (by rw [hf, e]; rfl), hb]⟩

/-- DIO0 holds while the mapping and the flags do (R45). -/
theorem Chip.dio0_kept {c d : Chip} {l : List Reg} (h : Chip.RegsKept l c d) (h1 : Reg.dioMapping1 ∉ l)
    (h2 : Reg.irqFlags ∉ l) : d.dio0 = c.dio0 :=
  Chip.dio0_congr (h.reg _ h1) (h.reg _ h2)

/-- A second sample at the same level latches nothing new. -/
theorem edge_const (e a l : Bool) : ((e || (a && !l)) || (a && !a)) = (e || (a && !l)) := by
  cases e <;> cases a <;> cases l <;> rfl

/-- The running operation's next turn, with the bus draw it had. -/
theorem drive_own (s : State) (r : Run) (t : Turn) (ts : List Turn) (hr : s.run = some r) (hb : s.bus = .ok)
    (hn : s.refused = none) (ht : OwnTurn r.ctx t) :
    State.drive (fun _ => true) eagerStep (t :: ts) s = State.drive (fun _ => true) eagerStep ts (eagerStep s) := by
  rw [State.drive_go _ _ t ts s r rfl hn hr ht.1, ht.2]
  congr 2
  cases s
  simp only at hb
  subst hb
  rfl

/-- One frame whose call returns, after which the running operation moves on to `k`. -/
theorem eagerStep_goesTo (s u : State) (r : Run) (i : Instr) (fs : List Frame) (d : Chip) (e : Bool) (x : Ret) (k : Nat)
    (h : s.CanFrame r) (hi : callAt r s = i)
    (hcall : s.callOnce (callWhole i r.loc.sub) = u.ran r fs d e .ok (r.loc.handed x))
    (hret : opReturn { r with loc := r.loc.handed x } x (u.ran r fs d e .ok (r.loc.handed x)) =
      (u.ran r fs d e .ok (r.loc.handed x)).goTo k) :
    eagerStep s = u.ran { r with pc := k } fs d e .ok { r.loc with sub := 0, got := none, ret := none } := by
  rw [eagerStep_done s _ r { r with loc := r.loc.handed x } x h.1
    ((congrArg (fun i => s.callOnce (callWhole i r.loc.sub)) hi).trans hcall) rfl rfl, hret]
  rfl

/-- One frame whose call returns: what the running operation makes of it. -/
theorem eagerStep_returns (s u : State) (r : Run) (i : Instr) (fs : List Frame) (d : Chip) (e : Bool) (x : Ret)
    (h : s.CanFrame r) (hi : callAt r s = i)
    (hcall : s.callOnce (callWhole i r.loc.sub) = u.ran r fs d e .ok (r.loc.handed x)) :
    eagerStep s = opReturn { r with loc := r.loc.handed x } x (u.ran r fs d e .ok (r.loc.handed x)) :=
  eagerStep_done s _ r { r with loc := r.loc.handed x } x h.1
    ((congrArg (fun i => s.callOnce (callWhole i r.loc.sub)) hi).trans hcall) rfl rfl

/-- One frame whose call goes on. -/
theorem eagerStep_goesOn (s u : State) (r : Run) (i : Instr) (fs : List Frame) (d : Chip) (e : Bool) (l : Locals)
    (h : s.CanFrame r) (hi : callAt r s = i)
    (hcall : s.callOnce (callWhole i r.loc.sub) = u.ran r fs d e .ok l) (hl : l.ret = none) :
    eagerStep s = u.ran r fs d e .ok l :=
  eagerStep_more s _ r h.1 ((congrArg (fun i => s.callOnce (callWhole i r.loc.sub)) hi).trans hcall) hl

end Sys2Proof.Machine
end

