-- ==== Sys2Proof/Machine/Text.lean ====
section
/-! DEFINITION. The spec's textual syntax (R132, R134): a host command as a line, and a bus frame disassembled. It
is a reading aid: no operation uses it. -/

namespace Sys2Proof.Machine

/-- The name of a register in the map (R46). -/
def regName : Reg → String
  | .fifo => "Fifo"
  | .opMode => "OpMode"
  | .frfMsb => "FrfMsb"
  | .frfMid => "FrfMid"
  | .frfLsb => "FrfLsb"
  | .paConfig => "PaConfig"
  | .fifoAddrPtr => "FifoAddrPtr"
  | .fifoTxBaseAddr => "FifoTxBaseAddr"
  | .fifoRxBaseAddr => "FifoRxBaseAddr"
  | .fifoRxCurrentAddr => "FifoRxCurrentAddr"
  | .irqFlagsMask => "IrqFlagsMask"
  | .irqFlags => "IrqFlags"
  | .rxNbBytes => "RxNbBytes"
  | .pktSnrValue => "PktSnrValue"
  | .pktRssiValue => "PktRssiValue"
  | .rssiValue => "RssiValue"
  | .modemConfig1 => "ModemConfig1"
  | .modemConfig2 => "ModemConfig2"
  | .preambleMsb => "PreambleMsb"
  | .preambleLsb => "PreambleLsb"
  | .payloadLength => "PayloadLength"
  | .dioMapping1 => "DioMapping1"
  | .version => "Version"

/-- One hexadecimal digit, capitals. -/
def hexDigit (n : Nat) : Char := (['0', '1', '2', '3', '4', '5', '6', '7', '8', '9', 'A', 'B', 'C', 'D', 'E', 'F'][n]?).getD '0'

/-- A byte as `0x` and two digits. -/
def hexByte (b : Byte) : String := String.ofList ['0', 'x', hexDigit (b.toNat / 16), hexDigit (b.toNat % 16)]

/-- A byte list `[0x48, 0x69]`. -/
def bytesText (bs : List Byte) : String := "[" ++ String.intercalate ", " (bs.map hexByte) ++ "]"

/-- A register address by its name when it has one (R134). -/
def addrText (a : Byte) (cfg : Cfg := Config.cfg) : String :=
  match regAt a.toNat cfg with
  | some r => regName r
  | none => hexByte a

/-- The disassembly of a frame (R134). -/
def frameText (out : List Byte) (cfg : Cfg := Config.cfg) : String :=
  match out with
  | [] => ""
  | c :: d =>
    if c.getLsbD 7 then "WR " ++ addrText (frameAddr c) cfg ++ " " ++ bytesText d
    else "RD " ++ addrText (frameAddr c) cfg ++ " n=" ++ toString d.length

/-- A flag operand, 0 or 1. -/
def flagText (b : Bool) : String := if b then "1" else "0"

/-- A host command as a line of the syntax of R132; the other operations have no line. -/
def commandText (i : Instr) : Option String :=
  match i with
  | .reset => some "RESET"
  | .init hz pa crc => some ("INIT " ++ toString hz.toNat ++ ", paboost=" ++ flagText pa ++ ", crc=" ++ flagText crc)
  | .send addr pay =>
    match addr with
    | none => some ("SEND " ++ bytesText pay)
    | some a => some ("SEND " ++ bytesText pay ++ ", addr=" ++ bytesText a)
  | .dump s e => some ("DUMP " ++ hexByte s ++ ", " ++ hexByte e)
  | .readByte _ => none
  | .readBlock _ _ => none
  | .writeByte _ _ => none
  | .writeBlock _ _ => none
  | .setMode _ => none
  | .setCarrierFrequency _ => none
  | .setPowerAmplifier _ => none
  | .enableRxCrc => none
  | .dispatch => none
  | .onReceiveComplete => none
  | .onTransmitComplete => none

end Sys2Proof.Machine
end

