-- ==== Sys2Proof/Tests/Slice0.lean ====
section
/-! SUPPORT. Tests: ill-formed terms that WellFormed refuses, words written out from the spec's encodings, the spec's own
vectors (95_test_vectors.md), and for every statement with hypotheses a state and operands that meet them together. -/

namespace Sys2Proof.Tests

open Sys2Proof.Machine

/-! ### WellFormed refuses an ill-formed term for each of its checks -/

theorem test_wf_readByte : (Instr.readByte 0x80).wf = false ∧ (Instr.readByte 0x7F).wf = true := by decide
theorem test_wf_readBlock_addr : (Instr.readBlock 0x92 1).wf = false := by decide
theorem test_wf_readBlock_length : (Instr.readBlock 0x00 256).wf = false ∧ (Instr.readBlock 0x00 255).wf = true := by decide
theorem test_wf_writeByte : (Instr.writeByte 0xFF 0x00).wf = false ∧ (Instr.writeByte 0x40 0x40).wf = true := by decide
theorem test_wf_writeBlock_addr : (Instr.writeBlock 0x80 [0x00]).wf = false := by decide
theorem test_wf_writeBlock_length : (Instr.writeBlock 0x00 (List.replicate 511 0x00)).wf = false := by
  simp only [Instr.wf, List.length_replicate]; decide
theorem test_wf_send_address_empty : (Instr.send (some []) [0x48]).wf = false := by decide
theorem test_wf_send_address_long : (Instr.send (some (List.replicate 256 0x00)) []).wf = false := by
  simp only [Instr.wf, List.length_replicate]; decide
theorem test_wf_send_payload_long : (Instr.send none (List.replicate 256 0x00)).wf = false := by
  simp only [Instr.wf, List.length_replicate]; decide
theorem test_wf_frequency : (Instr.setCarrierFrequency (2 ^ 32)).wf = false := by decide

/-! ### Words written out from the spec's encodings (R111–R113, R124–R128, R130) -/

/-- wnr = 0, addr = 0x12, one dummy byte. -/
theorem test_decode_readByte : decode .spiFrame [0b00010010, 0b00000000] = .ok (.readByte 0x12) := by decide
/-- wnr = 0, addr = 0x00, three dummy bytes. -/
theorem test_decode_readBlock :
    decode .spiFrame [0b00000000, 0b00000000, 0b00000000, 0b00000000] = .ok (.readBlock 0x00 3) := by decide
/-- wnr = 1, addr = 0x22, value 0x02. -/
theorem test_decode_writeByte : decode .spiFrame [0b10100010, 0b00000010] = .ok (.writeByte 0x22 0x02) := by decide
/-- wnr = 1, addr = 0x06, the word E4 C0 00. -/
theorem test_decode_writeBlock :
    decode .spiFrame [0b10000110, 0b11100100, 0b11000000, 0b00000000] = .ok (.writeBlock 0x06 [0xE4, 0xC0, 0x00]) := by
  decide
theorem test_decode_reset : decode .hostCommand [0b00000001] = .ok .reset := by decide
/-- 915 000 000 = 0x3689CAC0, opts bit 0 paBoost, bit 1 CRC. -/
theorem test_decode_init :
    decode .hostCommand [0b00000010, 0b00110110, 0b10001001, 0b11001010, 0b11000000, 0b00000001] =
      .ok (.init 915000000 true false) := by decide
/-- A = 1, P = 2. -/
theorem test_decode_send :
    decode .hostCommand [0b00000011, 0b00000001, 0b00000010, 0b01000001, 0b01001000, 0b01101001] =
      .ok (.send (some [0x41]) [0x48, 0x69]) := by decide
theorem test_decode_dump : decode .hostCommand [0b00000100, 0b00000110, 0b00001000] = .ok (.dump 0x06 0x08) := by decide
theorem test_decode_setMode : decode .internalOp [0b10001000, 0b00000011] = .ok (.setMode .transmit) := by decide
theorem test_decode_setCarrierFrequency :
    decode .internalOp [0b10001001, 0b00110110, 0b10001001, 0b11001010, 0b11000000] =
      .ok (.setCarrierFrequency 915000000) := by decide
theorem test_decode_setPowerAmplifier : decode .internalOp [0b10001010, 0b00000001] = .ok (.setPowerAmplifier true) := by
  decide
theorem test_decode_enableRxCrc : decode .internalOp [0b10001011] = .ok .enableRxCrc := by decide
theorem test_decode_dispatch : decode .internalOp [0b10010000] = .ok .dispatch := by decide
theorem test_decode_onReceiveComplete : decode .internalOp [0b10010001] = .ok .onReceiveComplete := by decide
theorem test_decode_onTransmitComplete : decode .internalOp [0b10010010] = .ok .onTransmitComplete := by decide
/-- V-H3 to V-H8, and V-M6's reserved opts bit. -/
theorem test_decode_rejected :
    decode .hostCommand [] = .error .malformedCommand ∧ decode .hostCommand [0x00] = .error .unknownCommand ∧
    decode .hostCommand [0x05, 0x01] = .error .unknownCommand ∧ decode .hostCommand [0x90] = .error .unknownCommand ∧
    decode .hostCommand [0x01, 0x00] = .error .malformedCommand ∧
    decode .hostCommand [0x04, 0x06] = .error .malformedCommand ∧
    decode .hostCommand [0x02, 0x36, 0x89, 0xCA, 0xC0, 0x04] = .error .malformedCommand ∧
    decode .hostCommand [0x03, 0x01, 0x02, 0x41, 0x48] = .error .malformedCommand := by decide
/-- The first byte of a table word picks the row; the operand bytes are zero. -/
theorem test_decode_table :
    decodeTableWord 8 0x01 = some .reset ∧ decodeTableWord 8 0x02 = some (.init 0 false false) ∧
    decodeTableWord 8 0x04 = some (.dump 0 0) ∧ decodeTableWord 8 0x88 = some (.setMode .sleep) ∧
    decodeTableWord 8 0x90 = some .dispatch ∧ decodeTableWord 8 0x12 = some (.readByte 0x12) ∧
    decodeTableWord 8 0xA2 = some (.writeByte 0x22 0x00) := by decide
/-- R132, R134: the worked lines of the spec's syntax. -/
theorem test_text : frameText [0x81, 0x85] = "WR OpMode [0x85]" ∧
    commandText (.init 915000000 true true) = some "INIT 915000000, paboost=1, crc=1" := by decide

/-! ### States -/

/-- `S_reset` of the vectors: right after RESET from power-on. -/
def sReset : State := { State.reset with resetDone := true, chip := State.reset.chip.reset }

/-- The named registers of a state at these values. -/
def withRegs (s : State) (l : List (Reg × Byte)) : State :=
  { s with chip := l.foldl (fun c p => c.setReg p.1 p.2) s.chip }

/-- `S_init` of the vectors, without the trace of its INIT. -/
def sInit : State :=
  withRegs { sReset with initialised := true, mode := some .receiveContinuous }
    [(.opMode, 0x85), (.frfMsb, 0xE4), (.frfMid, 0xC0), (.frfLsb, 0x00), (.paConfig, 0xFF), (.modemConfig2, 0x74)]

/-- An operation of the App context that runs. -/
def rApp : Run := { ctx := .app, op := .send none [0x48, 0x69], pc := 0, loc := Locals.fresh }

/-- INIT after its first frame, with the actions after that frame pending. -/
def rInit : Run :=
  { ctx := .app, op := .init 915000000 true true, pc := 0, loc := { Locals.fresh with got := some (.bytes []) } }

/-- The running dispatch. -/
def rIrq : Run := { ctx := .irq, op := .dispatch, pc := 1, loc := Locals.fresh }

/-- DUMP after its first frame. -/
def rDump : Run :=
  { ctx := .app, op := .dump 0x06 0x08, pc := 0, loc := { Locals.fresh with got := some (.bytes [0xE4]) } }

/-- The locals after the last frame of onTransmitComplete, its actions pending. -/
def rDone : Locals := { Locals.fresh with sub := 1, got := some (.bytes []) }

/-- `s` while the operation `r` runs and holds the lock. -/
def running (r : Run) (s : State) : State := { s with run := some r, lock := some r.ctx }

/-- `s` with a latched edge, as the Irq context finds it. -/
def latched (s : State) : State := { s with edgePending := true }

/-- `s` with the turns `ts` to come. -/
def turns (ts : List Turn) (s : State) : State := { s with schedule := ts }

def okTurns (n : Nat) : List Turn := List.replicate n (.app .ok)
def irqTurns (n : Nat) : List Turn := List.replicate n (.irq .ok)

/-- `exec` answers a next state of which `p` holds. -/
def chk (i : Instr) (s : State) (p : State → Bool) : Bool :=
  match exec i s with
  | .next t => p t
  | .fault _ => false
  | .refused _ => false

/-- `step` answers a next state of which `p` holds. -/
def stepChk (s : State) (p : State → Bool) : Bool :=
  match step s with
  | .next t => p t
  | .fault _ => false
  | .refused _ => false

/-- The bytes out of the frames issued. -/
def outs (t : State) : List (List Byte) := t.busTrace.map Frame.out

/-- What the last call handed to the running operation. -/
def handed (t : State) : Option Ret := t.loc.ret

def hello : List Byte := [0x48, 0x65, 0x6C, 0x6C, 0x6F]

/-- `S_init` after the chip has received "Hello" at 0x10 (V-R1). -/
def sHello : State := sInit.chipTurn (.rx 0x10 hello 0x5A 0x58 0x28 0x00)

/-- `S_init` with a transmission of "Hi" in flight (V-X1). -/
def sSent : State :=
  let s := withRegs { sInit with txBusy := true, mode := some .transmit }
    [(.fifoTxBaseAddr, 0x00), (.fifoAddrPtr, 0x02), (.payloadLength, 0x02), (.dioMapping1, 0x40), (.opMode, 0x83)]
  { s with chip := { s.chip with fifo := [(0x00, 0x48), (0x01, 0x69)], txPkt := some [0x48, 0x69] } }

/-- `S_init` with these flags set. -/
def sFlags (f : Byte) : State := withRegs sInit [(.irqFlags, f)]

/-! ### The spec's vectors -/

/-- V-T2, first read. -/
theorem test_readByte_fifo :
    chk (.readByte 0x00) (running rApp { (withRegs sInit [(.fifoAddrPtr, 0x10)]) with
        chip := (withRegs sInit [(.fifoAddrPtr, 0x10)]).chip.setFifoCell 0x10 0x48 })
      (fun t => outs t == [[0x00, 0x00]] && handed t == some (.bytes [0x48]) && t.chip.reg .fifoAddrPtr == 0x11) = true := by
  decide
/-- V-T3: a read does not clear. -/
theorem test_readByte_irqFlags :
    chk (.readByte 0x12) (running rApp (sFlags 0x48))
      (fun t => handed t == some (.bytes [0x48]) && t.chip.reg .irqFlags == 0x48) = true := by decide
/-- V-T9: the drain wraps. -/
theorem test_readBlock_wraps :
    chk (.readBlock 0x00 4) (running rApp { (withRegs sInit [(.fifoAddrPtr, 0xFE)]) with
        chip := { (withRegs sInit [(.fifoAddrPtr, 0xFE)]).chip with fifo := [(0, 3), (1, 4), (254, 1), (255, 2)] } })
      (fun t => outs t == [[0x00, 0x00, 0x00, 0x00, 0x00]] && handed t == some (.bytes [1, 2, 3, 4]) &&
        t.chip.reg .fifoAddrPtr == 0x02) = true := by decide
/-- V-T7: a block of no bytes. -/
theorem test_readBlock_none :
    chk (.readBlock 0x00 0) (running rApp sInit)
      (fun t => outs t == [[0x00]] && handed t == some (.bytes []) && t.chip.regs == sInit.chip.regs) = true := by decide
/-- V-T4 and V-T5: write 1 to clear. -/
theorem test_writeByte_w1c :
    chk (.writeByte 0x12 0x40) (running rApp (sFlags 0x48))
      (fun t => outs t == [[0x92, 0x40]] && t.chip.reg .irqFlags == 0x08) = true ∧
    chk (.writeByte 0x12 0x00) (running rApp (sFlags 0x48)) (fun t => t.chip.reg .irqFlags == 0x48) = true := by decide
/-- V-T6: a read-only register; V-T13: an unmapped address. -/
theorem test_writeByte_ignored_and_refused :
    chk (.writeByte 0x13 0x55) (running rApp (withRegs sInit [(.rxNbBytes, 0x05)]))
      (fun t => outs t == [[0x93, 0x55]] && t.chip.reg .rxNbBytes == 0x05) = true ∧
    chk (.writeByte 0x7E 0x00) (running rApp sInit) (fun t => t.refused == some .unmappedWrite && outs t == []) = true := by
  decide
/-- V-T8: the burst wraps. -/
theorem test_writeBlock_wraps :
    chk (.writeBlock 0x00 [1, 2, 3, 4]) (running rApp (withRegs sInit [(.fifoAddrPtr, 0xFE)]))
      (fun t => outs t == [[0x80, 0x01, 0x02, 0x03, 0x04]] && t.chip.fifoCell 0xFE == 1 && t.chip.fifoCell 0xFF == 2 &&
        t.chip.fifoCell 0x00 == 3 && t.chip.fifoCell 0x01 == 4 && t.chip.reg .fifoAddrPtr == 0x02) = true := by decide
/-- V-T14: a burst past 0x7F is refused as a whole. -/
theorem test_writeBlock_past_end :
    chk (.writeBlock 0x7E [1, 2, 3]) (running rApp (withRegs sInit [(.opMode, 0x80)]))
      (fun t => t.refused == some .burstPastEnd && outs t == []) = true := by decide
/-- V-H1. -/
theorem test_reset :
    chk .reset State.reset (fun t => t.results == [.ok] && t.resetDone && t.chip.regs == chipResetRegs && outs t == []) =
      true := by decide
/-- V-H18, and V-I5 steps 1 and 2: a latched edge survives. Its step 3 is log 31. -/
theorem test_reset_busy :
    chk .reset (latched sSent) (fun t => t.chip.txPkt == none && !t.txBusy && t.edgePending && t.mode == none) = true := by
  decide
/-- V-M6, first row: it ends in S_init. -/
theorem test_init :
    chk (.init 915000000 true true) (turns (okTurns 5) sReset)
      (fun t => outs t == [[0x81, 0x80], [0x86, 0xE4, 0xC0, 0x00], [0x89, 0xFF], [0x1E, 0x00], [0x9E, 0x74], [0x81, 0x85]] &&
        t.mode == some .receiveContinuous && t.initialised && t.lock == none && t.results == [.ok] &&
        t.chip.regs == sInit.chip.regs) = true := by decide
/-- V-M6 with FAIL 2: the second frame fails with nothing processed. -/
theorem test_init_fails :
    chk (.init 915000000 true true) (turns [.app (.fail 0)] sReset)
      (fun t => outs t == [[0x81, 0x80], [0x86, 0xE4, 0xC0, 0x00]] && t.mode == some .sleep && !t.initialised &&
        t.lock == none && t.results.map resultBytes == [[0x01]] && t.chip.reg .opMode == 0x80 &&
        t.chip.reg .frfMsb == 0x6C) = true := by decide
/-- V-X1. -/
theorem test_send :
    chk (.send none [0x48, 0x69]) (turns (okTurns 5) sInit)
      (fun t => outs t == [[0x8E, 0x00], [0x8D, 0x00], [0x80, 0x48, 0x69], [0xA2, 0x02], [0xC0, 0x40], [0x81, 0x83]] &&
        t.mode == some .transmit && t.txBusy && t.results == [.ok] && t.chip.txPkt == some [0x48, 0x69]) = true := by decide
/-- V-X9: FAIL 5. -/
theorem test_send_fails :
    chk (.send none [0x48, 0x69]) (turns (okTurns 3 ++ [.app (.fail 0)]) sInit)
      (fun t => t.results.map resultBytes == [[0x01]] && !t.txBusy && t.mode == some .receiveContinuous &&
        t.chip.reg .dioMapping1 == 0x00 && t.chip.reg .payloadLength == 0x02 && t.chip.fifoCell 0x01 == 0x69) = true := by
  decide
/-- V-H9. -/
theorem test_dump :
    chk (.dump 0x06 0x08) (turns (okTurns 2) sInit)
      (fun t => outs t == [[0x06, 0x00], [0x07, 0x00], [0x08, 0x00]] &&
        t.results.map resultBytes == [[0x00, 0x03, 0x06, 0xE4, 0x07, 0xC0, 0x08, 0x00]]) = true := by decide
/-- V-H17: FAIL 2 discards the list; V-H13: a range past 0x7F. -/
theorem test_dump_errors :
    chk (.dump 0x06 0x08) (turns [.app (.fail 0)] sInit)
      (fun t => outs t == [[0x06, 0x00], [0x07, 0x00]] && t.results.map resultBytes == [[0x01]]) = true ∧
    chk (.dump 0x7F 0x80) sInit (fun t => outs t == [] && t.results.map resultBytes == [[0x02]]) = true := by decide
/-- V-M1 and V-M2: Transmit captures, a mode that is not Transmit abandons. -/
theorem test_setMode :
    chk (.setMode .transmit) (running rApp { sInit with chip := sInit.chip.setFifoCell 0x80 0xAB })
      (fun t => outs t == [[0x81, 0x83]] && t.mode == some .transmit && t.chip.txPkt == some [0xAB]) = true ∧
    chk (.setMode .receiveContinuous) (running rApp sSent) (fun t => t.chip.txPkt == none && t.chip.air == []) = true := by
  decide
/-- V-M1, last row. -/
theorem test_setMode_fails :
    chk (.setMode .standby) { running rApp sInit with bus := .fail 0 }
      (fun t => t.mode == none && handed t == some (.err (.transport .writeByte 0x01)) && t.chip.reg .opMode == 0x85) =
      true := by decide
/-- V-M3: 915.1 MHz from Sleep, and the two ends of the range. -/
theorem test_setCarrierFrequency :
    chk (.setCarrierFrequency 915100000) (running rApp (withRegs sInit [(.opMode, 0x80)]))
      (fun t => outs t == [[0x86, 0xE4, 0xC6, 0x66]] && t.chip.reg .frfLsb == 0x66) = true ∧
    chk (.setCarrierFrequency 1023999999) (running rApp sInit) (fun t => outs t == [[0x86, 0xFF, 0xFF, 0xFF]]) = true ∧
    chk (.setCarrierFrequency 1024000000) (running rApp sInit)
      (fun t => outs t == [] && handed t == some (.err (.argument .frequency))) = true := by decide
/-- V-M4. -/
theorem test_setPowerAmplifier :
    chk (.setPowerAmplifier true) (running rApp (withRegs sInit [(.opMode, 0x81)]))
      (fun t => outs t == [[0x89, 0xFF]] && t.chip.reg .paConfig == 0xFF) = true ∧
    chk (.setPowerAmplifier false) (running rApp (withRegs sInit [(.opMode, 0x80)]))
      (fun t => outs t == [[0x89, 0x7F]] && t.chip.reg .paConfig == 0x7F) = true := by decide
/-- V-M5, third row. -/
theorem test_enableRxCrc :
    chk .enableRxCrc (turns (okTurns 1) (running rApp (withRegs sInit [(.modemConfig2, 0xFB)])))
      (fun t => outs t == [[0x1E, 0x00], [0x9E, 0xFF]] && t.chip.reg .modemConfig2 == 0xFF) = true := by decide
/-- V-R1, and V-I2's rule that the write-back is the snapshot. -/
theorem test_dispatch_receive :
    chk .dispatch (turns (irqTurns 8) sHello)
      (fun t => outs t == [[0x12, 0x00], [0x10, 0x00], [0x8D, 0x10], [0x13, 0x00], [0x00, 0x00, 0x00, 0x00, 0x00, 0x00],
          [0x1B, 0x00], [0x19, 0x00], [0x1A, 0x00], [0x92, 0x40]] &&
        t.lock == none && t.disp == .idle && t.chip.reg .irqFlags == 0x00 && t.chip.reg .fifoAddrPtr == 0x15 &&
        t.mode == some .receiveContinuous && !t.edgePending && t.events.length == 1) = true := by decide
/-- V-I3 and V-I8. -/
theorem test_dispatch_spurious_and_error :
    chk .dispatch (latched (sFlags 0x10))
      (fun t => outs t == [[0x12, 0x00]] && t.events == [.spurious 0x10] && t.chip.reg .irqFlags == 0x10) = true ∧
    chk .dispatch { sHello with bus := .fail 0 }
      (fun t => t.events == [.irqTransportError .readByte 0x12] && t.disp == .idle && t.lock == none &&
        t.chip.reg .irqFlags == 0x40 && !t.edgePending && t.chip.dio0) = true := by decide
/-- V-R2: a packet of no bytes leaves the pointer at its start. -/
theorem test_onReceiveComplete_empty :
    chk .onReceiveComplete (turns (irqTurns 6) (running rIrq (sInit.chipTurn (.rx 0x30 [] 0x64 0x64 0xF6 0x00))))
      (fun t => outs t == [[0x10, 0x00], [0x8D, 0x30], [0x13, 0x00], [0x00], [0x1B, 0x00], [0x19, 0x00], [0x1A, 0x00]] &&
        t.chip.reg .fifoAddrPtr == 0x30 && t.events.length == 1) = true := by decide
/-- V-R1 and V-R2: the message of the drained bytes and the raw link values, without and with an address. -/
theorem test_onReceiveComplete_message :
    receivedMessage none hello 0x5A 0x28 0x58 =
      { payload := hello, address := none, rssiDbm := -67, snrQuarterDb := 40, packetRssiDbm := -69 } ∧
    receivedMessage (some 2) [0x41, 0x42, 0x48, 0x69] 0x64 0xF6 0x64 =
      { payload := [0x48, 0x69], address := some [0x41, 0x42], rssiDbm := -57, snrQuarterDb := -10,
        packetRssiDbm := -57 } := by decide
/-- V-I9, the handler's part. -/
theorem test_onTransmitComplete :
    chk .onTransmitComplete (turns (irqTurns 1) (running rIrq (sFlags 0x08)))
      (fun t => outs t == [[0xC0, 0x00], [0x81, 0x85]] && t.events == [.transmitDone] && !t.txBusy &&
        t.chip.reg .irqFlags == 0x08) = true := by decide
/-- The App context's turn takes the port's command, and a placed word is what the next step runs. -/
theorem test_step :
    stepChk { sInit with port := [[0x04, 0x42, 0x42]], schedule := [.app .ok] }
      (fun t => t.results.map resultBytes == [[0x00, 0x01, 0x42, 0x12]] && t.port == []) = true ∧
    stepChk (State.reset.withFetchWord 8 0x88) (fun t => outs t == [[0x81, 0x80]] && t.mode == some .sleep) = true ∧
    stepChk (State.reset.withFetchWord 8 0x01) (fun t => t.resetDone && t.results == [.ok]) = true := by decide
/-- V-I6, between its second and third frame and after it: the actions after setMode's frame come with the write-back,
so that an INIT in the gap still finds the transmit in flight (R93, R176). -/
theorem test_dispatch_gap :
    chk .dispatch (turns (irqTurns 2) (sSent.chipTurn .txDone))
      (fun t => outs t == [[0x12, 0x00], [0xC0, 0x00], [0x81, 0x85]] && t.events == [] && t.txBusy &&
        t.mode == some .transmit &&
        stepChk (turns [.irq .ok] t) (fun u => u.busTrace.length == 4 && u.events == [.transmitDone] && !u.txBusy &&
          u.mode == some .receiveContinuous && u.lock == none) &&
        stepChk { turns [.app .ok] t with port := [[0x02, 0x36, 0x89, 0xCA, 0xC0, 0x03]] }
          (fun u => u.refused == some .reinitWhileBusy)) = true := by decide
/-- R93: the first frame of INIT alone leaves the shadow to the next frame. -/
theorem test_init_gap :
    chk (.init 915000000 true true) sReset
      (fun t => outs t == [[0x81, 0x80]] && t.mode == none && t.lock == some .app &&
        stepChk (turns [.app .ok] t) (fun u => u.busTrace.length == 2 && u.mode == some .sleep)) = true := by decide
/-- R9: a configuration that overrides an address, a value and a flag's place. -/
def otherCfg : Cfg :=
  { Config.cfg with
    paBoostValue := 0xF0, irqTxDone := 4,
    reg := fun q => if q = .paConfig then 0x0A else if q = .irqFlags then 0x14 else Cfg.defaultReg q }
theorem test_cfg_override :
    (match execAt otherCfg (.setPowerAmplifier true) (running rApp (withRegs sInit [(.opMode, 0x81)])) with
      | .next t => outs t == [[0x8A, 0xF0]] && t.chip.reg .paConfig otherCfg == 0xF0
      | .fault _ => false
      | .refused _ => false) = true ∧
    (match stepAt otherCfg (turns [.irq .ok] { latched sSent with chip := sSent.chip.setReg .irqFlags 0x10 otherCfg }) with
      | .next t => outs t == [[0x14, 0x00]] && t.events == [] && t.lock == some .irq
      | .fault _ => false
      | .refused _ => false) = true := by decide
/-- R112: a configuration whose REG gives one register another address. -/
def mapped (r : Reg) (a : Byte) : Cfg := { Config.cfg with reg := fun q => if q = r then a else Cfg.defaultReg q }
/-- R112: an address of 0x80 in REG is refused when the configuration is built, one of 0x7F is not. -/
theorem test_cfg_ill_formed :
    (mapped .version 0x80).build.toOption.isNone = true ∧ (mapped .version 0x7F).build.toOption.isSome = true ∧
    stepAt (mapped .version 0x80) State.reset = .refused (.illFormedConfig (.regAddress .version)) := by
  refine ⟨by decide, by decide, (not_built _ _ rfl .reset _).2⟩
/-- R76 between RESET and INIT (log 31): the byte dispatch reads there is a draw, not the stored 0x00. -/
theorem test_dispatch_before_init :
    sReset.chip.reg .irqFlags = 0x00 ∧ sReset.chip.readTarget 0x12 = sReset.chip.draw := ⟨by decide, rfl⟩
/-- R253's example. -/
theorem test_dump_bits : dumpBits 0xE4 = ['1', '1', '1', '0', '0', '1', '0', '0'] := by decide
/-- V-H15: the row of the FIFO port is the cell at the pointer. -/
theorem test_dump_fifo :
    chk (.dump 0x00 0x00) { (withRegs sInit [(.fifoAddrPtr, 0x10)]) with
        chip := (withRegs sInit [(.fifoAddrPtr, 0x10)]).chip.setFifoCell 0x10 0x48 }
      (fun t => t.results.map resultBytes == [[0x00, 0x01, 0x00, 0x48]] && t.chip.reg .fifoAddrPtr == 0x11) = true := by
  decide
/-- V-X1's completion at the chip, and the edge it makes. -/
theorem test_chip_transmit_done :
    (sSent.chipTurn .txDone).chip.air = [[0x48, 0x69]] ∧ (sSent.chipTurn .txDone).edgePending = true ∧
    (sSent.chipTurn .txDone).chip.reg .opMode = 0x81 := by decide

/-! ### Witnesses: states and operands that meet the hypotheses of each statement together -/

theorem wit_DecodeEncodeRoundTrip : (Instr.send (some [0x41]) [0x48]).wf = true ∧ (Instr.readBlock 0x7F 255).wf = true ∧
    (Instr.setCarrierFrequency (2 ^ 32 - 1)).wf = true := by decide
theorem wit_HostDecodeTable :
    (0x03 : Byte) &&& 0xFC = 0 ∧ ([0x41, 0x48] : List Byte).length = (1 : Byte).toNat + (1 : Byte).toNat ∧
    ([] : List Byte).length = (0 : Byte).toNat + (0 : Byte).toNat ∧
    ((0x05 : Byte) ≠ 0x01 ∧ (0x05 : Byte) ≠ 0x02 ∧ (0x05 : Byte) ≠ 0x03 ∧ (0x05 : Byte) ≠ 0x04) ∧
    decodeHost [0x02, 0x00, 0x00, 0x00, 0x00, 0x04] = .error .malformedCommand ∧
    decodeHost [] = .error .malformedCommand := by decide
theorem wit_HostCommandsReencode : decodeHost [0x04, 0x06, 0x08] = .ok (.dump 0x06 0x08) := by decide
theorem wit_RejectedCommandSetsOnlyTheMark : ∃ (s : State) (b : BusResult) (ts : List Turn) (rest : List (List Byte)),
    s.refused = none ∧ s.schedule = .app b :: ts ∧ (∀ r, s.run = some r → r.ctx = .irq) ∧ s.port = [0x90] :: rest ∧
      decodeHost [0x90] = .error .unknownCommand ∧ decodeHost [0x01, 0x00] = .error .malformedCommand :=
  ⟨{ running rIrq sInit with schedule := [.app .ok], port := [[0x90]] }, .ok, [], [], rfl, rfl,
    (fun r h => by cases h; rfl), rfl, by decide, by decide⟩
theorem wit_StepRunsPortCommand :
    (∃ (s : State) (ts : List Turn) (c : List Byte), s.refused = none ∧ s.schedule = .host c :: ts) ∧
    ∃ (s : State) (b : BusResult) (ts : List Turn) (c : List Byte) (rest : List (List Byte)) (i : Instr),
      s.refused = none ∧ s.schedule = .app b :: ts ∧ s.run = none ∧ s.lock = none ∧ s.port = c :: rest ∧
        decodeHost c = .ok i :=
  ⟨⟨turns [.host [0x01]] sInit, [], [0x01], rfl, rfl⟩,
    { sInit with schedule := [.app .ok], port := [[0x01]] }, .ok, [], [0x01], [], .reset, rfl, rfl, rfl, rfl, rfl, rfl⟩
/-- An operation of its own. -/
theorem wit_StepRunsTheRunningCall_own : ∃ (s : State) (t : Turn) (ts : List Turn) (r : Run) (u : State),
    s.refused = none ∧ s.schedule = t :: ts ∧ s.run = some r ∧ turnCtx t = some r.ctx ∧ composed r.op = false ∧
      exec r.op { s with schedule := ts, bus := turnBus t } = .next u :=
  ⟨turns [.app .ok] (running { rApp with op := .setMode .sleep } sInit), .app .ok, [],
    { rApp with op := .setMode .sleep }, _, rfl, rfl, rfl, rfl, rfl, rfl⟩
/-- INIT with its first frame done and its actions pending; its second frame does not end it. -/
theorem wit_StepRunsTheRunningCall : ∃ (s s1 u : State) (t : Turn) (ts : List Turn) (r r1 : Run),
    s.refused = none ∧ s.schedule = t :: ts ∧ s.run = some r ∧ turnCtx t = some r.ctx ∧ composed r.op = true ∧
      (∀ x xs, ts = x :: xs → turnCtx x ≠ some r.ctx) ∧ s1 = settle { s with schedule := ts, bus := turnBus t } ∧
      s1.run = some r1 ∧ exec (callAt r1 s1) s1 = .next u ∧ u.refused = none ∧ (settle u).run ≠ none :=
  ⟨turns [.app .ok, .chip .txDone] (running rInit sReset), _, _, .app .ok, [.chip .txDone], rInit,
    { rInit with pc := 1, loc := Locals.fresh }, rfl, rfl, rfl, rfl, rfl, fun x xs h => by cases h; decide, rfl, rfl,
    rfl, by decide, by decide⟩
/-- A last frame, and a refused one. -/
theorem wit_StepRunsTheRunningCall_ends : ∃ (s s1 u : State) (t : Turn) (r r1 : Run),
    s.refused = none ∧ s.schedule = t :: [] ∧ s.run = some r ∧ turnCtx t = some r.ctx ∧ composed r.op = true ∧
      s1 = settle { s with schedule := [], bus := turnBus t } ∧ s1.run = some r1 ∧
      exec (callAt r1 s1) s1 = .next u ∧ u.refused = none ∧ (settle u).run = none :=
  ⟨turns [.irq .ok] (running { rIrq with pc := 3 } sHello), _, _, .irq .ok, { rIrq with pc := 3 },
    { rIrq with pc := 3 }, rfl, rfl, rfl, rfl, rfl, rfl, rfl, rfl, by decide, by decide⟩
theorem wit_StepRunsTheRunningCall_refused : ∃ (s s1 u : State) (t : Turn) (r r1 : Run) (e : RefusalReason),
    s.refused = none ∧ s.schedule = t :: [] ∧ s.run = some r ∧ turnCtx t = some r.ctx ∧ composed r.op = true ∧
      s1 = settle { s with schedule := [], bus := turnBus t } ∧ s1.run = some r1 ∧
      exec (callAt r1 s1) s1 = .next u ∧ u.refused = some e :=
  ⟨turns [.app .ok] (running { rApp with op := .dump 0x80 0x81 } sInit), _, _, .app .ok,
    { rApp with op := .dump 0x80 0x81 }, { rApp with op := .dump 0x80 0x81 }, .badAddress, rfl, rfl, rfl, rfl, rfl, rfl,
    rfl, rfl, by decide⟩
/-- An operation that starts with one own turn, and is given a second. -/
theorem wit_StepRunsTheRunningCall_starts : ∃ (s v : State) (i : Instr) (l : List Turn) (x : Turn) (r : Run),
    s.run = none ∧ s.lock = none ∧ composed i = true ∧ exec i { s with schedule := l } = .next v ∧ v.schedule = [] ∧
      v.refused = none ∧ v.run = some r ∧ turnCtx x = some r.ctx :=
  ⟨sInit, _, .send none [0x48, 0x69], [.app .ok], .app .ok, _, rfl, rfl, rfl, rfl, rfl, rfl, rfl, rfl⟩
theorem wit_StepRunsDispatch : ∃ (s : State) (b : BusResult) (ts : List Turn),
    s.refused = none ∧ s.schedule = .irq b :: ts ∧ s.run = none :=
  ⟨turns [.irq .ok] sHello, .ok, [], rfl, rfl, rfl⟩
theorem wit_MarkedMachineStops : ∃ (s : State) (x : RefusalReason), s.refused = some x :=
  ⟨{ sInit with refused := some .unknownCommand }, .unknownCommand, rfl⟩
theorem wit_CommandWaitsForTheLock :
    ∃ (s : State) (b : BusResult) (ts : List Turn) (c : List Byte) (rest : List (List Byte)) (i : Instr),
      s.refused = none ∧ s.schedule = .app b :: ts ∧ (∀ r, s.run = some r → r.ctx = .irq) ∧ s.lock = some .irq ∧
        s.port = c :: rest ∧ decodeHost c = .ok i ∧ s.resetDone = true ∧
        (∀ hz pa crc, i = .init hz pa crc → s.txBusy = false ∧ hz.toNat < 1024000000) ∧
        (∀ a p, i = .send a p → s.initialised = true) ∧
        (∀ x y, i = .dump x y → x.toNat ≤ y.toNat ∧ y.toNat ≤ 0x7F) :=
  ⟨{ running rIrq sInit with schedule := [.app .ok], port := [[0x04, 0x00, 0x7F]] }, .ok, [], [0x04, 0x00, 0x7F], [],
    .dump 0x00 0x7F, rfl, rfl, (fun r h => by cases h; rfl), rfl, rfl, rfl, rfl, (fun _ _ _ h => by cases h),
    (fun _ _ h => by cases h), (fun x y h => by cases h; decide)⟩
/-- The other commands that wait, INIT at the end of its range. -/
theorem wit_CommandWaitsForTheLock_commands :
    decodeHost [0x02, 0x3D, 0x08, 0xFF, 0xFF, 0x00] = .ok (.init 1023999999 false false) ∧
    (1023999999 : Word32).toNat < 1024000000 ∧ (running rIrq sInit).txBusy = false ∧
    decodeHost [0x03, 0x00, 0x00] = .ok (.send none []) ∧ (running rIrq sInit).initialised = true ∧
    decodeHost [0x01] = .ok .reset := by decide
theorem wit_LogsOnlyGrow : ∃ s t : State, step s = .next t ∧ t.chip.air = [[0x48, 0x69]] :=
  ⟨turns [.chip .txDone] sSent, _, rfl, by decide⟩
/-- Its four clauses: the FIFO port, the last address, and a named register. -/
theorem wit_ReadByteReturnsTheRegister : ∃ (s : State) (r : Run), s.CanFrame r ∧ s.bus = .ok ∧
    (0x00 : Byte).getLsbD 7 = false ∧ (0x7F : Byte).getLsbD 7 = false ∧ (0x7F : Byte) ≠ 0x00 ∧
    (0x42 : Byte) = regAddr .version ∧ s.chip.Readable .version ∧ s.chip.Readable .payloadLength :=
  ⟨running rApp sInit, rApp, ⟨rfl, rfl, rfl⟩, rfl, by decide, by decide, by decide, rfl,
    ⟨by decide, (fun h => by cases h)⟩, ⟨by decide, fun _ => by unfold Chip.InLoRa; decide⟩⟩
/-- A register for each clause, and a mode byte for each. -/
theorem wit_WriteByteWritesTheRegister : ∃ (s : State) (r : Run), s.CanFrame r ∧ s.bus = .ok ∧
    s.chip.Stores .payloadLength ∧ s.chip.Stores .frfMsb ∧ readOnlyReg .version = true ∧
    (0x80 : Byte) &&& 0x07 = 0x00 ∧ (0x85 : Byte) &&& 0x87 ≠ 0x83 ∧ (0x83 : Byte) &&& 0x87 = 0x83 :=
  ⟨running rApp (withRegs sInit [(.opMode, 0x80)]), rApp, ⟨rfl, rfl, rfl⟩, rfl, ⟨rfl, (fun h => by cases h)⟩,
    ⟨rfl, fun _ => .inl (by decide)⟩, rfl, by decide, by decide, by decide⟩
theorem wit_ReadBlockDrainsTheFifo : ∃ (s : State) (r : Run), s.CanFrame r ∧ s.bus = .ok :=
  ⟨running rIrq sHello, rIrq, ⟨rfl, rfl, rfl⟩, rfl⟩
theorem wit_ReadBlockReadsTheRegisters : ∃ (s : State) (r : Run) (a : Byte) (n : Nat), s.CanFrame r ∧ s.bus = .ok ∧
    a.getLsbD 7 = false ∧ a ≠ 0x00 ∧ a.toNat + n ≤ 128 ∧ a.toNat + n = 128 ∧ s.chip.Readable .version :=
  ⟨running rApp sInit, rApp, 0x42, 62, ⟨rfl, rfl, rfl⟩, rfl, by decide, by decide, by decide, by decide,
    ⟨by decide, (fun h => by cases h)⟩⟩
/-- The two sides of the FIFO's size: a burst that leaves a byte behind, and a cell it does not reach. -/
theorem wit_WriteBlockFillsTheFifo : ∃ (s : State) (r : Run), s.CanFrame r ∧ s.bus = .ok ∧
    (1 < (List.replicate 257 (0x00 : Byte)).length ∧ (List.replicate 257 (0x00 : Byte)).length ≤ 1 + 256) ∧
    (∀ k, k < ([1, 2] : List Byte).length → (0x05 : Byte) ≠ s.chip.reg .fifoAddrPtr + BitVec.ofNat 8 k) :=
  ⟨running rApp sInit, rApp, ⟨rfl, rfl, rfl⟩, rfl, by simp only [List.length_replicate]; decide, by decide⟩
theorem wit_WriteBlockWritesTheRegisters : ∃ (s : State) (r : Run) (a : Byte) (bs : List Byte), s.CanFrame r ∧
    s.bus = .ok ∧ a.getLsbD 7 = false ∧ a ≠ 0x00 ∧ (∀ k, k < bs.length → ∃ q, a.toNat + k = (regAddr q).toNat) ∧
    a.toNat + 2 = (regAddr .frfLsb).toNat ∧ bs[2]? = some 0x03 ∧ s.chip.Stores .frfLsb :=
  ⟨running rApp (withRegs sInit [(.opMode, 0x80)]), rApp, 0x06, [1, 2, 3], ⟨rfl, rfl, rfl⟩, rfl, by decide, by decide,
    fun k h => match k, h with
      | 0, _ => ⟨.frfMsb, rfl⟩
      | 1, _ => ⟨.frfMid, rfl⟩
      | 2, _ => ⟨.frfLsb, rfl⟩, rfl, rfl, ⟨rfl, fun _ => .inl (by decide)⟩⟩
/-- With no byte, the command byte alone, and the whole frame processed. -/
theorem wit_FailedFrameRaisesTransportError : ∃ (s : State) (r : Run) (a : Byte) (k : Nat), s.CanFrame r ∧
    s.bus = .fail k ∧ a.getLsbD 7 = false ∧ k ≤ 1 ∧
    (∃ i d, s.chip.frame ([0x80 ||| a, 0x02].take k) = .ok (i, d)) ∧
    (∃ i d, s.chip.frame ([0x80 ||| a, 0x02].take 2) = .ok (i, d)) ∧
    (∃ i d, s.chip.frame ((a :: List.replicate 3 0x00).take k) = .ok (i, d)) ∧
    (∃ i d, s.chip.frame (((0x80 ||| a) :: [0x02]).take k) = .ok (i, d)) :=
  ⟨{ running rApp sInit with bus := .fail 1 }, rApp, 0x22, 1, ⟨rfl, rfl, rfl⟩, rfl, by decide, by decide,
    ⟨_, _, rfl⟩, ⟨_, _, rfl⟩, ⟨_, _, rfl⟩, ⟨_, _, rfl⟩⟩
theorem wit_PrimitiveRefusals : ∃ (s : State) (r : Run), s.refused = none ∧ s.CanFrame r ∧ s.bus = .ok ∧
    (0x92 : Byte).getLsbD 7 = true ∧ (0x7E : Byte).getLsbD 7 = false ∧ (∀ q, (0x7E : Byte) ≠ regAddr q) ∧
    (0x7E : Byte) ≠ 0x00 ∧ 128 < (0x7E : Byte).toNat + 3 ∧
    ((0x22 : Byte).toNat + 2 ≤ 128 ∧ ∀ q, (0x22 : Byte).toNat + 1 ≠ (regAddr q).toNat) ∧
    (∃ t : State, t.refused = none ∧ ∀ r, t.run = some r → t.lock ≠ some r.ctx) ∧
    (∃ t : State, t.refused = none ∧ t.run = some r ∧ t.lock = some r.ctx ∧ t.resetDone = false) :=
  ⟨running rApp sInit, rApp, rfl, ⟨rfl, rfl, rfl⟩, rfl, by decide, by decide, fun q => by cases q <;> decide, by decide,
    by decide, ⟨by decide, fun q => by cases q <;> decide⟩, ⟨sInit, rfl, (fun r h => by cases h)⟩, ⟨running rApp State.reset, rfl, rfl, rfl, rfl⟩⟩
theorem wit_StorageRoundTrip : ∃ (s : State) (r : Run) (q : Reg), s.CanFrame r ∧ s.bus = .ok ∧ s.chip.Stores q ∧
    s.chip.Readable q :=
  ⟨running rApp sInit, rApp, .payloadLength, ⟨rfl, rfl, rfl⟩, rfl, ⟨rfl, (fun h => by cases h)⟩,
    ⟨by decide, fun _ => by unfold Chip.InLoRa; decide⟩⟩
theorem wit_FifoRoundTrip : ∃ (s : State) (r : Run) (bs : List Byte), s.CanFrame r ∧ s.bus = .ok ∧ bs.length ≤ 256 ∧
    bs.length = 256 :=
  ⟨running rApp sInit, rApp, List.replicate 256 0x00, ⟨rfl, rfl, rfl⟩, rfl, by simp only [List.length_replicate]; decide,
    List.length_replicate⟩
theorem wit_SetModeWritesAndShadows : ∃ (s t : State) (r : Run), s.CanFrame r ∧ s.bus = .ok ∧ t.CanFrame r ∧
    t.bus = .fail 2 :=
  ⟨running rApp sInit, { running rApp sInit with bus := .fail 2 }, rApp, ⟨rfl, rfl, rfl⟩, rfl, ⟨rfl, rfl, rfl⟩, rfl⟩
/-- The two ends of the range, and the first frequency past it. -/
theorem wit_SetCarrierFrequencyBurst : ∃ (s : State) (r : Run), s.CanFrame r ∧ s.bus = .ok ∧
    s.chip.InSleepOrStandby ∧ 0xFFFFFF = 1023999999 * 524288 / 32000000 ∧ (0xFFFFFF : Nat) < 2 ^ 24 ∧
    (0xFF : Byte).toNat = 0xFFFFFF / 65536 % 256 ∧ 2 ^ 24 ≤ 1024000000 * 524288 / 32000000 ∧
    (∃ t : State, t.CanFrame r ∧ t.bus = .fail 3) :=
  ⟨running rApp (withRegs sInit [(.opMode, 0x80)]), rApp, ⟨rfl, rfl, rfl⟩, rfl, .inl (by decide), by decide, by decide,
    by decide, by decide, ⟨{ running rApp sInit with bus := .fail 3 }, ⟨rfl, rfl, rfl⟩, rfl⟩⟩
theorem wit_SetPowerAmplifierWrites : ∃ (s t : State) (r : Run), s.CanFrame r ∧ s.bus = .ok ∧
    s.chip.InSleepOrStandby ∧ t.CanFrame r ∧ t.bus = .fail 0 :=
  ⟨running rApp (withRegs sInit [(.opMode, 0x81)]), { running rApp sInit with bus := .fail 0 }, rApp, ⟨rfl, rfl, rfl⟩,
    rfl, .inr (by decide), ⟨rfl, rfl, rfl⟩, rfl⟩
theorem wit_EnableRxCrcSetsTheBit : ∃ (s t u : State) (r : Run), s.CanFrame r ∧ s.refused = none ∧ r.loc.sub = 0 ∧
    r.loc.got = none ∧ r.loc.ret = none ∧ s.bus = .ok ∧ s.schedule = .app .ok :: [] ∧ OwnTurn r.ctx (.app .ok) ∧
    s.chip.InLoRa ∧ t.CanFrame r ∧ t.bus = .fail 2 ∧ u.CanFrame r ∧ u.bus = .ok ∧
    u.schedule = .app (.fail 2) :: [] ∧ turnCtx (.app (.fail 2)) = some r.ctx :=
  ⟨turns [.app .ok] (running rApp sInit), { running rApp sInit with bus := .fail 2 },
    turns [.app (.fail 2)] (running rApp sInit), rApp, ⟨rfl, rfl, rfl⟩, rfl, rfl, rfl, rfl, rfl, rfl, ⟨rfl, rfl⟩,
    by unfold Chip.InLoRa; decide, ⟨rfl, rfl, rfl⟩, rfl, ⟨rfl, rfl, rfl⟩, rfl, rfl, rfl⟩
theorem wit_InitCompletes : ∃ (s : State) (hz : Word32) (frf : Nat) (b2 b1 b0 : Byte), s.resetDone = true ∧
    s.txBusy = false ∧ s.lock = none ∧ s.refused = none ∧ s.bus = .ok ∧
    s.schedule = List.replicate (if true then 5 else 3) (.app .ok) ++ [] ∧ frf = hz.toNat * 524288 / 32000000 ∧
    frf < 2 ^ 24 ∧ b2.toNat = frf / 65536 % 256 ∧ b1.toNat = frf / 256 % 256 ∧ b0.toNat = frf % 256 :=
  ⟨turns (okTurns 5) sReset, 1023999999, 0xFFFFFF, 0xFF, 0xFF, 0xFF, rfl, rfl, rfl, rfl, rfl, rfl, by decide, by decide,
    by decide, by decide, by decide⟩
theorem wit_InitArgumentError : ∃ (s : State) (hz : Word32), s.resetDone = true ∧ s.txBusy = false ∧
    1024000000 ≤ hz.toNat ∧ hz.toNat = 1024000000 := ⟨sReset, 1024000000, rfl, rfl, by decide, by decide⟩
theorem wit_InitTransportError : ∃ (s : State) (hz : Word32) (k : Nat), s.resetDone = true ∧ s.txBusy = false ∧
    s.lock = none ∧ s.bus = .fail k ∧ hz.toNat < 1024000000 :=
  ⟨{ sReset with bus := .fail 2 }, 1023999999, 2, rfl, rfl, rfl, rfl, by decide⟩
/-- The second frame, with the first one's actions pending. -/
theorem wit_InitTransportError_later : ∃ (s s1 : State) (hz : Word32) (pa crc : Bool) (r r1 : Run) (ts : List Turn),
    s.refused = none ∧ s.schedule = .app (.fail 2) :: ts ∧ s.CanFrame r ∧ r.ctx = .app ∧ r.op = .init hz pa crc ∧
    hz.toNat < 1024000000 ∧ s1 = settle { s with schedule := ts, bus := .fail 2 } ∧ s1.run = some r1 ∧
    s1.mode = some .sleep :=
  ⟨turns [.app (.fail 2)] (running rInit sReset), _, 915000000, true, true, rInit,
    { rInit with pc := 1, loc := Locals.fresh }, [], rfl, rfl, ⟨rfl, rfl, rfl⟩, rfl, rfl, by decide, rfl, rfl, by decide⟩
theorem wit_SendCompletes : ∃ (s : State) (addr : Option (List Byte)) (pay pkt : List Byte), s.resetDone = true ∧
    s.initialised = true ∧ s.txBusy = false ∧ s.lock = none ∧ s.refused = none ∧ s.bus = .ok ∧
    s.schedule = List.replicate 5 (.app .ok) ++ [] ∧ pkt = addr.getD [] ++ pay ∧ pkt.length ≤ 255 ∧ pkt.length = 255 :=
  ⟨turns (okTurns 5) sInit, none, List.replicate 255 0x00, List.replicate 255 0x00, rfl, rfl, rfl, rfl, rfl, rfl, rfl,
    rfl, by simp only [List.length_replicate]; decide, List.length_replicate⟩
theorem wit_SendWhileBusy : ∃ s : State, s.resetDone = true ∧ s.initialised = true ∧ s.txBusy = true ∧ s.lock = none :=
  ⟨sSent, rfl, rfl, rfl, rfl⟩
theorem wit_SendTooLong : ∃ (s : State) (addr : Option (List Byte)) (pay pkt : List Byte), s.resetDone = true ∧
    s.initialised = true ∧ s.txBusy = false ∧ s.lock = none ∧ s.refused = none ∧ s.bus = .ok ∧
    s.schedule = List.replicate 2 (.app .ok) ++ [] ∧ pkt = addr.getD [] ++ pay ∧ 255 < pkt.length ∧ pkt.length = 256 :=
  ⟨turns (okTurns 2) sInit, some [0x41], List.replicate 255 0x00, 0x41 :: List.replicate 255 0x00, rfl, rfl, rfl, rfl,
    rfl, rfl, rfl, rfl, by simp only [List.length_cons, List.length_replicate]; decide,
    by simp only [List.length_cons, List.length_replicate]⟩
theorem wit_SendTransportError : ∃ (s : State) (k : Nat), s.resetDone = true ∧ s.initialised = true ∧
    s.txBusy = false ∧ s.lock = none ∧ s.bus = .fail k :=
  ⟨{ sInit with bus := .fail 0 }, 0, rfl, rfl, rfl, rfl, rfl⟩
/-- The frame after step 5, setMode's. -/
theorem wit_SendTransportError_later : ∃ (s s1 : State) (addr : Option (List Byte)) (pay : List Byte) (r r1 : Run)
    (ts : List Turn), s.refused = none ∧ s.schedule = .app (.fail 0) :: ts ∧ s.CanFrame r ∧ r.ctx = .app ∧
    r.op = .send addr pay ∧ s1 = settle { s with schedule := ts, bus := .fail 0 } ∧ s1.run = some r1 ∧
    callAt r1 s1 = .setMode .transmit :=
  ⟨turns [.app (.fail 0)] (running { rApp with pc := 5 } sInit), _, none, [0x48, 0x69], { rApp with pc := 5 },
    { rApp with pc := 5 }, [], rfl, rfl, ⟨rfl, rfl, rfl⟩, rfl, rfl, rfl, rfl, rfl⟩
theorem wit_OnTransmitCompleteReverts : ∃ (s t u : State) (r : Run), s.CanFrame r ∧ s.refused = none ∧ r.loc.sub = 0 ∧
    r.loc.got = none ∧ r.loc.ret = none ∧ s.bus = .ok ∧ s.schedule = .irq .ok :: [] ∧ OwnTurn r.ctx (.irq .ok) ∧
    t.CanFrame r ∧ t.bus = .fail 1 ∧ u.CanFrame r ∧ u.bus = .ok ∧ u.schedule = .irq (.fail 1) :: [] ∧
    turnCtx (.irq (.fail 1)) = some r.ctx :=
  ⟨turns [.irq .ok] (running rIrq (sFlags 0x08)), { running rIrq (sFlags 0x08) with bus := .fail 1 },
    turns [.irq (.fail 1)] (running rIrq (sFlags 0x08)), rIrq, ⟨rfl, rfl, rfl⟩, rfl, rfl, rfl, rfl, rfl, rfl, ⟨rfl, rfl⟩,
    ⟨rfl, rfl, rfl⟩, rfl, ⟨rfl, rfl, rfl⟩, rfl, rfl, rfl⟩
theorem wit_OnReceiveCompleteDrains : ∃ (s : State) (r : Run) (ts : List Turn), s.CanFrame r ∧ s.refused = none ∧
    r.loc.sub = 0 ∧ r.loc.got = none ∧ r.loc.ret = none ∧ s.chip.InLoRa ∧ s.schedule = ts ++ [] ∧
    (∀ t ∈ ts, turnCtx t = some r.ctx) ∧ s.bus :: ts.map turnBus = List.replicate 7 .ok :=
  ⟨turns (irqTurns 6) (running rIrq sHello), rIrq, irqTurns 6, ⟨rfl, rfl, rfl⟩, rfl, rfl, rfl, rfl,
    by unfold Chip.InLoRa; decide, rfl, fun t h => by rw [List.eq_of_mem_replicate h]; rfl, rfl⟩
/-- The first frame fails, and the last one. -/
theorem wit_OnReceiveCompleteDrains_fails : ∃ (s u : State) (r : Run) (ts us : List Turn), s.CanFrame r ∧ s.refused = none ∧
    r.loc.sub = 0 ∧ r.loc.got = none ∧ r.loc.ret = none ∧ s.chip.InLoRa ∧ s.schedule = ts ++ [] ∧
    (∀ t ∈ ts, turnCtx t = some r.ctx) ∧ s.bus :: ts.map turnBus = List.replicate 0 .ok ++ [.fail 2] ∧ u.CanFrame r ∧
    u.schedule = us ++ [] ∧ (∀ t ∈ us, turnCtx t = some r.ctx) ∧
    u.bus :: us.map turnBus = List.replicate 6 .ok ++ [.fail 2] :=
  ⟨{ running rIrq sHello with bus := .fail 2 }, turns (irqTurns 5 ++ [.irq (.fail 2)]) (running rIrq sHello), rIrq, [],
    irqTurns 5 ++ [.irq (.fail 2)], ⟨rfl, rfl, rfl⟩, rfl, rfl, rfl, rfl, by unfold Chip.InLoRa; decide, rfl,
    (fun t h => by cases h), rfl, ⟨rfl, rfl, rfl⟩, rfl, by decide, rfl⟩
/-- Each of the four ways dispatch is not enabled. -/
theorem wit_DispatchWaits : sInit.edgePending = false ∧ { latched sInit with disp := .servicing }.disp = .servicing ∧
    (latched (running rApp sInit)).lock ≠ none ∧ (latched State.reset).resetDone = false :=
  ⟨rfl, rfl, by decide, rfl⟩
theorem wit_DispatchSpurious : ∃ (s : State) (f : Byte), s.edgePending = true ∧ s.disp = .idle ∧ s.lock = none ∧
    s.resetDone = true ∧ s.bus = .ok ∧ s.chip.InLoRa ∧ f = s.chip.reg .irqFlags ∧ f.getLsbD 6 = false ∧
    f.getLsbD 3 = false :=
  ⟨latched (sFlags 0xB7), 0xB7, rfl, rfl, rfl, rfl, rfl, by unfold Chip.InLoRa; decide, by decide, by decide, by decide⟩
theorem wit_DispatchReceive : ∃ (s : State) (f : Byte), s.edgePending = true ∧ s.disp = .idle ∧ s.lock = none ∧
    s.resetDone = true ∧ s.refused = none ∧ s.bus = .ok ∧ s.chip.InLoRa ∧
    s.schedule = List.replicate 8 (.irq .ok) ++ [] ∧ f = s.chip.reg .irqFlags ∧ f.getLsbD 6 = true ∧
    f.getLsbD 3 = false :=
  ⟨turns (irqTurns 8) sHello, 0x40, by decide, rfl, rfl, rfl, rfl, rfl, by unfold Chip.InLoRa; decide, rfl, by decide,
    by decide, by decide⟩
theorem wit_DispatchTransmit : ∃ (s : State) (f : Byte), s.edgePending = true ∧ s.disp = .idle ∧ s.lock = none ∧
    s.resetDone = true ∧ s.refused = none ∧ s.bus = .ok ∧ s.chip.InLoRa ∧
    s.schedule = List.replicate 3 (.irq .ok) ++ [] ∧ f = s.chip.reg .irqFlags ∧ f.getLsbD 6 = false ∧
    f.getLsbD 3 = true :=
  ⟨turns (irqTurns 3) (sSent.chipTurn .txDone), 0x08, by decide, rfl, rfl, rfl, rfl, rfl,
    by unfold Chip.InLoRa; decide, rfl, by decide, by decide, by decide⟩
theorem wit_DispatchBoth : ∃ (s : State) (f : Byte), s.edgePending = true ∧ s.disp = .idle ∧ s.lock = none ∧
    s.resetDone = true ∧ s.refused = none ∧ s.bus = .ok ∧ s.chip.InLoRa ∧
    s.schedule = List.replicate 10 (.irq .ok) ++ [] ∧ f = s.chip.reg .irqFlags ∧ f.getLsbD 6 = true ∧
    f.getLsbD 3 = true :=
  ⟨turns (irqTurns 10) (latched (sFlags 0xFF)), 0xFF, rfl, rfl, rfl, rfl, rfl, rfl, by unfold Chip.InLoRa; decide, rfl,
    by decide, by decide, by decide⟩
theorem wit_DispatchTransportError : ∃ (s : State) (k : Nat), s.edgePending = true ∧ s.disp = .idle ∧ s.lock = none ∧
    s.resetDone = true ∧ s.bus = .fail k :=
  ⟨{ sHello with bus := .fail 2 }, 2, by decide, rfl, rfl, rfl, rfl⟩
/-- A frame of the handler, and the write-back with the handler's actions pending. -/
theorem wit_DispatchTransportError_later : ∃ (s s1 u u1 : State) (r r1 q q1 : Run) (ts : List Turn),
    s.refused = none ∧ s.schedule = .irq (.fail 2) :: ts ∧ s.CanFrame r ∧ r.ctx = .irq ∧ r.op = .dispatch ∧
    s1 = settle { s with schedule := ts, bus := .fail 2 } ∧ s1.run = some r1 ∧ callAt r1 s1 = .onReceiveComplete ∧
    u.refused = none ∧ u.schedule = .irq (.fail 2) :: ts ∧ u.CanFrame q ∧ q.ctx = .irq ∧ q.op = .dispatch ∧
    u1 = settle { u with schedule := ts, bus := .fail 2 } ∧ u1.run = some q1 ∧ callAt q1 u1 = .writeByte 0x12 0x08 ∧
    u1.events = [.transmitDone] :=
  ⟨turns [.irq (.fail 2)] (running rIrq sHello), _,
    turns [.irq (.fail 2)] { running { rIrq with pc := 2, loc := rDone } (sFlags 0x08) with flagsSnap := some 0x08 }, _,
    rIrq, rIrq, { rIrq with pc := 2, loc := rDone }, _, [], rfl, rfl, ⟨rfl, rfl, rfl⟩, rfl, rfl, rfl, rfl, rfl, rfl, rfl,
    ⟨rfl, rfl, rfl⟩, rfl, rfl, rfl, rfl, rfl, by decide⟩
/-- RESET itself, on a latched edge, while dispatch is not enabled. -/
theorem wit_EdgeStaysLatched : ∃ s t : State, step s = .next t ∧ s.edgePending = true ∧
    (s.disp = .servicing ∨ s.lock ≠ none ∨ s.resetDone = false ∨ s.run ≠ none) :=
  ⟨{ latched State.reset with schedule := [.app .ok], port := [[0x01]] }, _, rfl, rfl, .inr (.inr (.inl rfl))⟩
theorem wit_ResetCommand : ∃ s : State, s.lock = none ∧ s.edgePending = true :=
  ⟨latched sSent, rfl, rfl⟩
/-- From the FIFO port to the end of the map, and one address. -/
theorem wit_DumpCompletes : ∃ (s u : State) (n : Nat), s.resetDone = true ∧ s.lock = none ∧ s.refused = none ∧
    s.bus = .ok ∧ (0x00 : Byte).toNat ≤ (0x7F : Byte).toNat ∧ (0x7F : Byte).toNat ≤ 0x7F ∧
    n = (0x7F : Byte).toNat - (0x00 : Byte).toNat + 1 ∧ s.schedule = List.replicate (n - 1) (.app .ok) ++ [] ∧
    u.resetDone = true ∧ u.lock = none ∧ u.refused = none ∧ u.bus = .ok ∧ (0x42 : Byte) ≠ 0x00 ∧
    u.schedule = List.replicate ((0x42 : Byte).toNat - (0x42 : Byte).toNat + 1 - 1) (.app .ok) ++ [] ∧
    (0x42 : Byte) = regAddr .version ∧ u.chip.Readable .version :=
  ⟨turns (okTurns 127) sReset, sReset, 128, rfl, rfl, rfl, rfl, by decide, by decide, by decide,
    by simp [turns, okTurns], rfl, rfl, rfl, rfl, by decide, rfl, rfl, ⟨by decide, (fun h => by cases h)⟩⟩
/-- The pointer's row, in a range from the FIFO port and in one from the pointer itself. -/
theorem wit_DumpCompletes_pointer : sInit.resetDone = true ∧ sInit.lock = none ∧ sInit.refused = none ∧ sInit.bus = .ok ∧
    sInit.chip.InLoRa ∧ (0x0D : Byte) = 0x00 + BitVec.ofNat 8 13 ∧ (0x0D : Byte).toNat ≤ (0x0D : Byte).toNat ∧
    (0x0D : Byte) ≠ 0x00 := by unfold Chip.InLoRa; decide
theorem wit_DumpErrors : sInit.resetDone = true ∧ (0x06 : Byte).toNat < (0x08 : Byte).toNat ∧
    0x7F < (0x80 : Byte).toNat ∧
    (∃ (s : State) (k : Nat), s.resetDone = true ∧ s.lock = none ∧ s.bus = .fail k ∧
      (0x00 : Byte).toNat ≤ (0x7F : Byte).toNat ∧ (0x7F : Byte).toNat ≤ 0x7F) ∧
    (∃ (s s1 : State) (a : Byte) (r r1 : Run) (ts : List Turn),
      s.refused = none ∧ s.schedule = .app (.fail 1) :: ts ∧ s.CanFrame r ∧ r.ctx = .app ∧ r.op = .dump 0x06 0x08 ∧
      s1 = settle { s with schedule := ts, bus := .fail 1 } ∧ s1.run = some r1 ∧ a = 0x06 + BitVec.ofNat 8 r1.pc ∧
      a.getLsbD 7 = false ∧ a = 0x07 ∧ s1.loc.rows.length = 1) :=
  ⟨rfl, by decide, by decide, ⟨{ sInit with bus := .fail 1 }, 1, rfl, rfl, rfl, by decide, by decide⟩,
    turns [.app (.fail 1)] (running rDump sInit), _, 0x07, rDump, _, [], rfl, rfl, ⟨rfl, rfl, rfl⟩, rfl, rfl, rfl, rfl,
    rfl, by decide, rfl, by decide⟩
theorem wit_CommandRefusals : State.reset.refused = none ∧ State.reset.resetDone = false ∧ sSent.refused = none ∧
    sSent.resetDone = true ∧ sSent.txBusy = true ∧ sReset.refused = none ∧ sReset.resetDone = true ∧
    sReset.initialised = false := ⟨rfl, rfl, rfl, rfl, rfl, rfl, rfl, rfl⟩
/-- Each mapping code. -/
theorem wit_Dio0Level : sInit.chip.reg .dioMapping1 &&& 0xC0 = 0x00 ∧ sSent.chip.reg .dioMapping1 &&& 0xC0 = 0x40 ∧
    (withRegs sInit [(.dioMapping1, 0xBF)]).chip.reg .dioMapping1 &&& 0xC0 = 0x80 ∧
    (withRegs sInit [(.dioMapping1, 0xFF)]).chip.reg .dioMapping1 &&& 0xC0 = 0xC0 := by decide
/-- Turns of the chip, one for each event. -/
theorem wit_chip_turns : sInit.refused = none ∧
    (turns [.chip (.rx 0x10 hello 0x5A 0x58 0x28 0x00)] sInit).schedule = .chip (.rx 0x10 hello 0x5A 0x58 0x28 0x00) :: [] ∧
    sSent.refused = none ∧ (turns [.chip .txDone] sSent).schedule = .chip .txDone :: [] ∧
    (turns [.chip (.noiseRssi 0x01)] sInit).schedule = .chip (.noiseRssi 0x01) :: [] ∧
    (turns [.chip (.noiseFlags 0x01)] sInit).schedule = .chip (.noiseFlags 0x01) :: [] := ⟨rfl, rfl, rfl, rfl, rfl, rfl⟩
theorem wit_ChipReceives : hello.length ≤ 255 ∧ sInit.chip.InLoRa ∧ sInit.chip.reg .opMode &&& 0x07 = 0x05 ∧
    ¬(sSent.chip.InLoRa ∧ sSent.chip.reg .opMode &&& 0x07 = 0x05) ∧
    (∀ k, k < hello.length → (0x0F : Byte) ≠ 0x10 + BitVec.ofNat 8 k) := by
  unfold Chip.InLoRa; decide
theorem wit_ChipCompletesTransmission : sSent.chip.txPkt = some [0x48, 0x69] ∧ sSent.chip.InLoRa ∧
    sSent.chip.reg .opMode &&& 0x07 = 0x03 ∧
    ¬(sInit.chip.txPkt ≠ none ∧ sInit.chip.InLoRa ∧ sInit.chip.reg .opMode &&& 0x07 = 0x03) := by
  unfold Chip.InLoRa; decide
theorem wit_ChipNoise : sSent.chip.reg .opMode &&& 0x07 ≠ 0x05 ∧ sInit.chip.reg .opMode &&& 0x07 = 0x05 := by decide
theorem wit_NoNewEdgeWhileTheLineIsHigh : ∃ (s t : State) (e : ChipEvent) (ts : List Turn), s.schedule = .chip e :: ts ∧
    s.chip.dio0 = true ∧ s.lineLast = true ∧ step s = .next t ∧ s.edgePending = false :=
  ⟨turns [.chip (.rx 0x40 [0x59] 0x5A 0x58 0x28 0x00)] { sHello with edgePending := false }, _,
    .rx 0x40 [0x59] 0x5A 0x58 0x28 0x00, [], rfl, by decide, by decide, rfl, rfl⟩
/-- The invariant holds at power-on, and a step from there answers a next state. -/
theorem wit_Inv : ∃ s t : State, s.Inv ∧ step s = .next t ∧ s.mode ≠ some .standby :=
  ⟨{ State.reset with schedule := [.host [0x01]] }, _,
    ⟨⟨rfl, rfl⟩, rfl, ⟨⟨(fun h => by cases h), (fun h => by cases h)⟩, fun _ => rfl⟩, ⟨rfl, rfl⟩, (fun h => by cases h),
      (fun r h => by cases h)⟩, rfl, by decide⟩
/-- A step that runs RESET, and one that does not. -/
theorem wit_UnwrittenRegistersKept : ∃ s t : State, s.Inv ∧ step s = .next t ∧ s.port = [[0x01]] ∧ s.lock = none ∧
    t.results = s.results ++ [.ok] :=
  ⟨{ State.reset with schedule := [.app .ok], port := [[0x01]] }, _,
    ⟨⟨rfl, rfl⟩, rfl, ⟨⟨(fun h => by cases h), (fun h => by cases h)⟩, fun _ => rfl⟩, ⟨rfl, rfl⟩, (fun h => by cases h),
      (fun r h => by cases h)⟩, rfl, rfl, rfl, rfl⟩
/-- A state with the invariant in which an operation runs, and the next state of its step. -/
theorem wit_InvRunning : ∃ s t : State, s.Inv ∧ s.run ≠ none ∧ step s = .next t :=
  ⟨turns [.app .ok] (running rApp sInit), _,
    ⟨⟨by decide, by decide⟩, rfl, ⟨⟨(fun h => by cases h), (fun h => by cases h)⟩, fun _ => rfl⟩, ⟨rfl, rfl⟩, (fun _ => rfl),
      fun r h => by cases h; exact ⟨rfl, rfl, rfl⟩⟩, by decide, rfl⟩

end Sys2Proof.Tests
end

section
/-! SUPPORT. What a step can do, said once: the seven ways a turn ends, with the schedule's fields already moved on. -/

namespace Sys2Proof.Machine

/-! ### The ways a turn ends -/

/-- `s` when a turn has been taken: what is left of the schedule, the free-turn counter and the turn's bus draw. -/
def State.atTurn (s : State) (l : List Turn) (n : Nat) (b : BusResult) : State :=
  { s with schedule := l, tick := n, bus := b }

/-- What a turn makes of the state that took it (R292). -/
inductive State.TurnTo (s : State) : State → Prop
  /-- Nothing is enabled, or a command waits for the lock (R85). -/
  | waits : State.TurnTo s s
  /-- The host presents a command (R250). -/
  | presents (c : List Byte) : State.TurnTo s { s with port := s.port ++ [c] }
  /-- The chip's turn (R280). -/
  | chip (e : ChipEvent) : State.TurnTo s (s.chipTurn e)
  /-- The running operation goes on (R93). -/
  | resumes (r : Run) (t : State) (hr : s.run = some r) (h : s.resume r = .next t) : State.TurnTo s t
  /-- A command that decodes to nothing (R251). -/
  | rejects (c : List Byte) (rest : List (List Byte)) (e : DecodeError) (hp : s.port = c :: rest)
      (hd : decodeHost c = .error e) : State.TurnTo s (s.refuse (decodeRefusal e))
  /-- The oldest command of the port runs (R250). -/
  | commands (c : List Byte) (rest : List (List Byte)) (i : Instr) (t : State) (hp : s.port = c :: rest)
      (hd : decodeHost c = .ok i) (hl : s.lock = none ∨ reachesAcquire i s = false)
      (h : exec i { s with port := rest } = .next t) : State.TurnTo s t
  /-- The Irq context with nothing running runs dispatch (R191). -/
  | dispatches (t : State) (hr : s.run = none) (h : exec .dispatch s = .next t) : State.TurnTo s t

theorem State.hostStep_turnTo (s t : State) (h : s.hostStep = .next t) : s.TurnTo t := by
  cases hp : s.port with
  | nil =>
    unfold State.hostStep at h
    simp only [hp] at h
    cases h
    exact .waits
  | cons c rest =>
    cases hd : decodeHost c with
    | error e =>
      rw [s.hostStep_rejected c rest e hp hd] at h
      cases h
      exact .rejects c rest e hp hd
    | ok i =>
      by_cases hw : s.lock.isSome = true ∧ reachesAcquire i s = true
      · rw [s.hostStep_holds c rest i hp hd hw.1 hw.2] at h
        cases h
        exact .waits
      · have hl : s.lock = none ∨ reachesAcquire i s = false := by
          cases hs : s.lock with
          | none => exact .inl rfl
          | some x => exact .inr (by simpa [hs] using hw)
        rw [s.hostStep_runs c rest i hp hd hl] at h
        exact .commands c rest i t hp hd hl h

theorem State.appTurn_turnTo (s t : State) (h : s.appTurn = .next t) : s.TurnTo t := by
  by_cases hr : ∃ r, s.run = some r ∧ r.ctx = .app
  · obtain ⟨r, hr, hc⟩ := hr
    rw [s.appTurn_run r hr hc] at h
    exact .resumes r t hr h
  · have hi : ∀ r, s.run = some r → r.ctx = .irq := fun r hs => by
      cases hc : r.ctx with
      | app => exact absurd ⟨r, hs, hc⟩ hr
      | irq => rfl
    rw [s.appTurn_host hi] at h
    exact s.hostStep_turnTo t h

theorem State.irqTurn_turnTo (s t : State) (h : s.irqTurn = .next t) : s.TurnTo t := by
  cases hr : s.run with
  | none =>
    rw [s.irqTurn_idle hr] at h
    exact .dispatches t hr h
  | some r =>
    cases hc : r.ctx with
    | app =>
      rw [s.irqTurn_wait r hr hc] at h
      cases h
      exact .waits
    | irq =>
      rw [s.irqTurn_run r hr hc] at h
      exact .resumes r t hr h

theorem State.takeTurn_turnTo (s t : State) (x : Turn) (h : s.takeTurn x = .next t) :
    ∃ b, (s.atTurn s.schedule s.tick b).TurnTo t := by
  cases x with
  | app b => exact ⟨b, State.appTurn_turnTo _ t h⟩
  | irq b => exact ⟨b, State.irqTurn_turnTo _ t h⟩
  | chip e => cases h; exact ⟨s.bus, .chip e⟩
  | host c => cases h; exact ⟨s.bus, .presents c⟩

/-- Every step ends in one of the ways of `State.TurnTo`, and starts from a state without a refusal mark. -/
theorem step_turnTo (s t : State) (h : step s = .next t) :
    s.refused = none ∧ ∃ l n b, (s.atTurn l n b).TurnTo t := by
  obtain ⟨hn, ⟨x, xs, -, hx⟩ | ⟨-, hx⟩⟩ := step_next s t h
  · obtain ⟨b, hb⟩ := State.takeTurn_turnTo _ t x hx
    exact ⟨hn, xs, s.tick, b, hb⟩
  · obtain ⟨b, hb⟩ := State.takeTurn_turnTo _ t _ hx
    exact ⟨hn, s.schedule, s.tick + 1, b, hb⟩

theorem State.Inv.atTurn {s : State} (h : s.Inv) (l : List Turn) (n : Nat) (b : BusResult) : (s.atTurn l n b).Inv :=
  ((h.setSchedule l).setTick n).setBus b

/-! ### What a command may start as -/

/-- An operation the sequencer may hold calls others (R130). -/
theorem Run.Ok.composed {s : State} {r : Run} (h : Run.Ok s r) : composed r.op = true := by
  obtain ⟨-, -, hop⟩ := h
  cases ho : r.op <;> rw [ho] at hop <;> first | rfl | exact hop.elim

/-- With the invariant, the running operation's turn is its next frame. -/
theorem State.Inv.resume {s : State} (h : s.Inv) (r : Run) (hr : s.run = some r) :
    s.resume r = .next (frameStep s) :=
  s.resume_composed r (h.run r hr).composed

/-- acquire answers only where the lock is free, with the operation at position 0 (R85, R39). -/
theorem State.acquire_eq_some (s u : State) (ctx : Ctx) (op : Instr) (h : s.acquire ctx op = some u) :
    s.lock = none ∧
      u = { s with lock := some ctx, run := some { ctx := ctx, op := op, pc := 0, loc := Locals.fresh } } := by
  cases hl : s.lock with
  | none =>
    rw [s.acquire_of_free ctx op hl] at h
    exact ⟨rfl, (Option.some.inj h).symm⟩
  | some c =>
    rw [(s.acquire_eq_none_iff ctx op).2 (by rw [hl]; rfl)] at h
    cases h

end Sys2Proof.Machine
end

section
/-! SUPPORT. The invariant through a step: what a command and a dispatch do with it, then O57. -/

namespace Sys2Proof.Machine

/-! ### What a host command and dispatch do when they run -/

/-- Whether the host command `i` has frames and, with the lock free, comes to its first one (R176, R230, R253). -/
def startsFrames (i : Instr) (s : State) : Bool :=
  match i with
  | .init hz _ _ => s.resetDone && !s.txBusy && frfValid hz.toNat
  | .send _ _ => s.resetDone && s.initialised && !s.txBusy
  | .dump x y => s.resetDone && decide (x.toNat ≤ y.toNat) && decide (y.toNat ≤ 0x7F)
  | _ => false

/-- What the host command `i` makes of the state that runs it (R250–R253, R176, R230). -/
inductive State.CommandTo (s : State) (i : Instr) : State → Prop
  /-- Another operation holds the lock (R85). -/
  | waits : State.CommandTo s i s
  /-- A refusal before the lock (R276). -/
  | refuses (x : RefusalReason) : State.CommandTo s i (s.refuse x)
  /-- An ArgumentError before the lock (R272). -/
  | fails (y : HostResult) : State.CommandTo s i (s.returnResult y).edgeSample
  /-- TransmitBusyError under the lock, before any frame (R273). -/
  | busy (u : State) (y : HostResult) (hu : s.acquire .app i = some u) :
      State.CommandTo s i (u.release.returnResult y).edgeSample
  /-- RESET (R252). -/
  | resets (u : State) (hi : i = .reset) (hu : s.acquire .app .reset = some u) : State.CommandTo s i (resetSequence u)
  /-- An operation with frames starts (R93). -/
  | starts (u : State) (hg : startsFrames i s = true) (hu : s.acquire .app i = some u) :
      State.CommandTo s i (runOp u)

/-- An operation that starts is one the sequencer may hold (R31, R130, R253). -/
theorem runOk_of_startsFrames {i : Instr} {s : State} (hg : startsFrames i s = true) :
    Run.Ok s { ctx := .app, op := i, pc := 0, loc := Locals.fresh } := by
  cases i with
  | init hz pa crc =>
    simp only [startsFrames, Bool.and_eq_true] at hg
    exact ⟨rfl, hg.1.1, rfl⟩
  | send a p =>
    simp only [startsFrames, Bool.and_eq_true] at hg
    exact ⟨rfl, hg.1.1, rfl⟩
  | dump x y =>
    simp only [startsFrames, Bool.and_eq_true, decide_eq_true_eq] at hg
    exact ⟨rfl, hg.1.1, rfl, hg.1.2, hg.2⟩
  | _ => cases hg

/-- A command that starts takes the free lock and runs its frames. -/
theorem exec_starts {i : Instr} {s : State} (hg : startsFrames i s = true) (hl : s.lock = none) :
    exec i s = .next (runOp { s with lock := some .app, run := some ⟨.app, i, 0, Locals.fresh⟩ }) := by
  cases i with
  | init hz pa crc =>
    simp only [startsFrames, Bool.and_eq_true, Bool.not_eq_true'] at hg
    obtain ⟨⟨hrd, hbusy⟩, hfrf⟩ := hg
    simp only [exec, execInit, State.acquire_of_free s _ _ hl, hrd, hbusy, hfrf, Bool.not_true,
      Bool.false_eq_true, if_false]
  | send a p =>
    simp only [startsFrames, Bool.and_eq_true, Bool.not_eq_true'] at hg
    obtain ⟨⟨hrd, hinit⟩, hbusy⟩ := hg
    simp only [exec, execSend, State.acquire_of_free s _ _ hl, hrd, hinit, hbusy, Bool.not_true,
      Bool.false_eq_true, if_false]
  | dump x y =>
    simp only [startsFrames, Bool.and_eq_true, decide_eq_true_eq] at hg
    obtain ⟨⟨hrd, hxy⟩, hy⟩ := hg
    have hrange : ¬(y.toNat < x.toNat ∨ 0x7F < y.toNat) := by omega
    simp only [exec, execDump, State.acquire_of_free s _ _ hl, hrd, hrange, Bool.not_true,
      Bool.false_eq_true, if_false]
  | _ => cases hg

theorem execReset_commandTo (s t : State) (h : exec .reset s = .next t) : s.CommandTo .reset t := by
  change execReset s = .next t at h
  unfold execReset at h
  split at h <;> cases h
  · exact .waits
  · exact .resets _ rfl (by assumption)

theorem execInit_commandTo (hz : Word32) (pa crc : Bool) (s t : State) (h : exec (.init hz pa crc) s = .next t) :
    s.CommandTo (.init hz pa crc) t := by
  change execInit hz pa crc s = .next t at h
  unfold execInit at h
  split at h
  · cases h; exact .refuses _
  rename_i hrd
  split at h
  · cases h; exact .refuses _
  rename_i hbusy
  split at h
  · cases h; exact .fails _
  rename_i hfrf
  split at h <;> cases h
  · exact .waits
  · exact .starts _ (by simpa [startsFrames] using And.intro (And.intro hrd hbusy) hfrf) (by assumption)

theorem execSend_commandTo (a : Option (List Byte)) (p : List Byte) (s t : State)
    (h : exec (.send a p) s = .next t) : s.CommandTo (.send a p) t := by
  change execSend a p s = .next t at h
  unfold execSend at h
  split at h
  · cases h; exact .refuses _
  rename_i hrd
  split at h
  · cases h; exact .refuses _
  rename_i hinit
  split at h
  · cases h; exact .waits
  rename_i u hu
  split at h <;> cases h
  · exact .busy _ _ hu
  · rename_i hbusy
    obtain ⟨-, rfl⟩ := s.acquire_eq_some u _ _ hu
    exact .starts _ (by simpa [startsFrames] using And.intro (And.intro hrd hinit) hbusy) hu

theorem execDump_commandTo (x y : Byte) (s t : State) (h : exec (.dump x y) s = .next t) :
    s.CommandTo (.dump x y) t := by
  change execDump x y s = .next t at h
  unfold execDump at h
  split at h
  · cases h; exact .refuses _
  rename_i hrd
  split at h
  · cases h; exact .fails _
  rename_i hrange
  rw [not_or] at hrange
  split at h <;> cases h
  · exact .waits
  · exact .starts _ (by simpa [startsFrames] using And.intro (And.intro hrd hrange.1) hrange.2) (by assumption)

/-- Everything a host command can do when it runs. -/
theorem exec_commandTo (i : Instr) (s t : State) (hi : i.format = .hostCommand) (h : exec i s = .next t) :
    s.CommandTo i t := by
  cases i with
  | reset => exact execReset_commandTo s t h
  | init hz pa crc => exact execInit_commandTo hz pa crc s t h
  | send a p => exact execSend_commandTo a p s t h
  | dump x y => exact execDump_commandTo x y s t h
  | _ => cases hi

/-- dispatch waits, or takes the lock and runs (R191, R286). -/
theorem execDispatch_cases (s t : State) (h : exec .dispatch s = .next t) :
    t = s ∨ (s.dispatchEnabled = true ∧ t = runOp s.enterDispatch) := by
  change execDispatch s = .next t at h
  unfold execDispatch at h
  split at h <;> cases h
  · exact .inr ⟨by assumption, rfl⟩
  · exact .inl rfl

/-! ### The invariant through a command, a dispatch and the chip's turn -/

/-- dispatch runs only after a RESET (R191). -/
theorem State.resetDone_of_dispatchEnabled (s : State) (h : s.dispatchEnabled = true) : s.resetDone = true := by
  unfold State.dispatchEnabled at h
  exact (Bool.and_eq_true_iff.1 h).2

/-- With the lock free no operation runs (R39). -/
theorem State.Inv.run_of_free {s : State} (h : s.Inv) (hl : s.lock = none) : s.run = none := by
  have hk : s.lock = s.run.map Run.ctx := h.lock
  exact Option.map_eq_none_iff.1 (hk.symm.trans hl)

/-- With the lock free the dispatcher is Idle (R35). -/
theorem State.Inv.idle_of_free {s : State} (h : s.Inv) (hl : s.lock = none) : s.disp = .idle := by
  cases hd : s.disp with
  | idle => rfl
  | servicing => cases hl.symm.trans (h.disp.1.1 hd)

/-- A result and a sample touch no field of the invariant. -/
theorem State.Inv.result {s : State} (h : s.Inv) (y : HostResult) : (s.returnResult y).edgeSample.Inv :=
  ⟨h.mem, h.lock, h.disp, h.pins, h.boot, h.run⟩

/-- RESET gives back the lock it took, with the dispatcher as it was: Idle, since the lock was free (R252, R311). -/
theorem State.Inv.resetSequence {s u : State} (h : s.Inv) (hu : s.acquire .app .reset = some u) :
    (resetSequence u).Inv := by
  obtain ⟨hl, rfl⟩ := s.acquire_eq_some u _ _ hu
  have hidle := h.idle_of_free hl
  exact
    { mem := s.chip.reset_memOk
      lock := rfl
      disp := ⟨⟨fun e => (by cases hidle.symm.trans e), fun e => by cases e⟩, fun _ => h.disp.2 hidle⟩
      pins := ⟨h.pins.1, rfl⟩
      boot := fun e => by cases e
      run := fun r e => by cases e }

theorem State.CommandTo.inv {s t : State} {i : Instr} (k : s.CommandTo i t) (h : s.Inv) : t.Inv := by
  cases k with
  | waits => exact h
  | refuses x => exact h.refuse x
  | fails y => exact h.result y
  | busy u y hu =>
    obtain ⟨hl, rfl⟩ := s.acquire_eq_some u _ _ hu
    have hnone := h.run_of_free hl
    have e : State.release { s with lock := some .app, run := some ⟨.app, i, 0, Locals.fresh⟩ } = s := by
      cases s
      simp only at hl hnone
      subst hl hnone
      rfl
    rw [e]
    exact h.result y
  | resets u hi hu => exact h.resetSequence hu
  | starts u hg hu => exact runOp_inv (h.acquire i hu (runOk_of_startsFrames hg))

theorem execDispatch_inv {s t : State} (h : s.Inv) (he : exec .dispatch s = .next t) : t.Inv := by
  obtain rfl | ⟨hd, rfl⟩ := execDispatch_cases s t he
  · exact h
  · exact runOp_inv (h.enterDispatch (s.resetDone_of_dispatchEnabled hd))

/-- The chip's turn touches the chip's memory and the edge detector alone. -/
theorem State.Inv.chipTurn {s : State} (h : s.Inv) (e : ChipEvent) : (s.chipTurn e).Inv := by
  unfold State.chipTurn
  split
  · exact h
  · rename_i c hc
    exact ⟨(Chip.event_keeps _ _ _ hc).1 h.mem, h.lock, h.disp, h.pins, h.boot, h.run⟩

theorem State.TurnTo.inv {s t : State} (k : s.TurnTo t) (h : s.Inv) : t.Inv := by
  cases k with
  | waits => exact h
  | presents c => exact h.setPort _
  | chip e => exact h.chipTurn e
  | resumes r _ hr he =>
    rw [h.resume r hr] at he
    cases he
    exact frameStep_inv h
  | rejects c rest e hp hd => exact h.refuse _
  | commands c rest i _ hp hd hl he =>
    exact (exec_commandTo i _ t (decodeHost_format c i hd) he).inv (h.setPort rest)
  | dispatches _ hr he => exact execDispatch_inv h he

/-- Settles O57: each way a turn can end keeps the invariant. -/
theorem stepKeepsInv : Obligations.StepKeepsInv := by
  intro s t h hs
  obtain ⟨-, l, n, b, k⟩ := step_turnTo s t hs
  exact k.inv (h.atTurn l n b)

end Sys2Proof.Machine
end

section
/-! SUPPORT. The three logs over a step (R41, R52), then O11. -/

namespace Sys2Proof.Machine

/-! ### Logs that grow -/

/-- `t` has appended to the bus trace, the events and the record of sent packets of `s`, and rewritten none. -/
structure State.LogsGrow (s t : State) : Prop where
  trace : s.busTrace <+: t.busTrace
  events : s.events <+: t.events
  air : s.chip.air <+: t.chip.air

theorem State.LogsGrow.refl (s : State) : State.LogsGrow s s :=
  ⟨List.prefix_refl _, List.prefix_refl _, List.prefix_refl _⟩

theorem State.LogsGrow.trans {s t u : State} (h : State.LogsGrow s t) (g : State.LogsGrow t u) : State.LogsGrow s u :=
  ⟨h.trace.trans g.trace, h.events.trans g.events, h.air.trans g.air⟩

theorem CallStep.logsGrow {s t : State} (h : CallStep s t) : State.LogsGrow s t :=
  ⟨h.trace, h.events, by rw [h.air]⟩

theorem State.LogsGrow.refuse (s : State) (x : RefusalReason) : State.LogsGrow s (s.refuse x) :=
  ⟨by simp, by simp, by simp⟩

/-! ### What an operation makes of what its call handed back -/

/-- An operation that takes what its call handed back emits at most one event, and touches neither the chip nor the bus
trace. -/
theorem opReturn_logs (r : Run) (x : Ret) (s : State) :
    (opReturn r x s).chip = s.chip ∧ (opReturn r x s).busTrace = s.busTrace ∧ s.events <+: (opReturn r x s).events := by
  unfold opReturn
  split
  · unfold initReturn
    repeat' split
    all_goals simp
  · unfold sendReturn
    repeat' split
    all_goals simp
  · unfold dumpReturn
    dsimp only
    repeat' split
    all_goals simp
  · unfold dispatchReturn
    dsimp only
    repeat' split
    all_goals simp
  all_goals simp

theorem opReturn_logsGrow (r : Run) (x : Ret) (s : State) : State.LogsGrow s (opReturn r x s) := by
  obtain ⟨hc, ht, he⟩ := opReturn_logs r x s
  exact ⟨by rw [ht], he, by rw [hc]⟩

theorem handBack_logsGrow (s : State) : State.LogsGrow s (handBack s) := by
  unfold handBack
  split
  · exact State.LogsGrow.refl s
  · split
    · exact State.LogsGrow.refl s
    · exact opReturn_logsGrow _ _ s

theorem settle_logsGrow (s : State) : State.LogsGrow s (settle s) := by
  unfold settle
  split
  · exact State.LogsGrow.refl s
  · exact (s.actGot_step _).call.logsGrow.trans (handBack_logsGrow _)

/-! ### Frames -/

/-- A frame issued after the actions of the one before it: a refusal takes the actions back, and grows nothing. -/
theorem State.LogsGrow.issue {s0 s : State} (h : State.LogsGrow s0 s) (i : Instr) :
    State.LogsGrow s0 (State.issue i s0 s) := by
  rcases State.issue_cases i s0 s with ⟨c, -⟩ | ⟨e, he⟩
  · exact h.trans c.logsGrow
  · rw [he]; exact State.LogsGrow.refuse s0 e

theorem closeOp_logsGrow (s : State) : State.LogsGrow s (closeOp s) := by
  unfold closeOp
  split
  · exact settle_logsGrow s
  · exact State.LogsGrow.refl s

theorem frameStep_logsGrow (s : State) : State.LogsGrow s (frameStep s) := by
  unfold frameStep
  dsimp only
  split
  · exact settle_logsGrow s
  · exact ((settle_logsGrow s).issue _).trans (closeOp_logsGrow _)

theorem callTurn_logsGrow (i : Instr) (s : State) : State.LogsGrow s (callTurn i s) := by
  have h := (s.actGot_step i).call.logsGrow.issue i
  unfold callTurn
  dsimp only
  split
  · exact h.trans (State.actGot_step i _).call.logsGrow
  · exact h

/-- Frames that grow the logs grow them over any number of further turns. -/
theorem State.LogsGrow.drive (p : State → Bool) (f : State → State) (hf : ∀ u, State.LogsGrow u (f u)) (ts : List Turn)
    (s : State) : State.LogsGrow s (State.drive p f ts s) :=
  State.drive_induct (P := State.LogsGrow s) p f (fun u h => h.trans (hf u)) (fun _ _ h => ⟨h.trace, h.events, h.air⟩)
    (fun _ _ h => ⟨h.trace, h.events, h.air⟩) ts s (State.LogsGrow.refl s)

theorem runOp_logsGrow (s : State) : State.LogsGrow s (runOp s) :=
  (frameStep_logsGrow s).trans (State.LogsGrow.drive _ _ (fun u => frameStep_logsGrow u) _ _)

theorem runCall_logsGrow (i : Instr) (s : State) : State.LogsGrow s (runCall i s) :=
  (callTurn_logsGrow i s).trans (State.LogsGrow.drive _ _ (fun u => callTurn_logsGrow i u) _ _)

theorem State.callOnce_logsGrow (f : State → CallRes) (s : State) (h : (f s).After (CallStep s)) :
    State.LogsGrow s (s.callOnce f) := by
  rcases State.callOnce_cases f s h with c | ⟨e, he⟩
  · exact c.logsGrow
  · rw [he]; exact State.LogsGrow.refuse s e

/-- A called operation of one frame. -/
theorem callOnce_callFrame_logsGrow (i : Instr) (s : State) : State.LogsGrow s (s.callOnce fun t => callFrame i 0 t) :=
  State.callOnce_logsGrow _ s ((callFrame_step i 0 s).mono fun _ h => h.call)

/-! ### Operations -/

/-- RESET keeps the record of sent packets (R52, R311). -/
theorem State.CommandTo.logsGrow {s t : State} {i : Instr} (k : s.CommandTo i t) : State.LogsGrow s t := by
  have hacq : ∀ op u, s.acquire .app op = some u → State.LogsGrow s u := fun op u hu => by
    obtain ⟨-, rfl⟩ := s.acquire_eq_some u _ op hu
    exact ⟨List.prefix_refl _, List.prefix_refl _, List.prefix_refl _⟩
  cases k with
  | waits => exact State.LogsGrow.refl s
  | refuses x => exact State.LogsGrow.refuse s x
  | fails y => exact ⟨by simp, by simp, by simp⟩
  | busy u y hu => exact (hacq _ u hu).trans ⟨by simp, by simp, by simp⟩
  | resets u hi hu =>
    exact (hacq _ u hu).trans ⟨List.prefix_refl _, List.prefix_refl _, List.prefix_refl _⟩
  | starts u hg hu => exact (hacq _ u hu).trans (runOp_logsGrow u)

theorem execDispatch_logsGrow {s t : State} (h : exec .dispatch s = .next t) : State.LogsGrow s t := by
  obtain rfl | ⟨-, rfl⟩ := execDispatch_cases s t h
  · exact State.LogsGrow.refl t
  · exact State.LogsGrow.trans (t := s.enterDispatch) ⟨by simp, by simp, by simp⟩ (runOp_logsGrow _)

theorem exec_logsGrow (i : Instr) (s t : State) (h : exec i s = .next t) : State.LogsGrow s t := by
  by_cases hi : i.format = .hostCommand
  · exact (exec_commandTo i s t hi h).logsGrow
  cases i with
  | reset => exact absurd rfl hi
  | init hz pa crc => exact absurd rfl hi
  | send a p => exact absurd rfl hi
  | dump x y => exact absurd rfl hi
  | dispatch => exact execDispatch_logsGrow h
  | readByte a => cases h; exact callOnce_callFrame_logsGrow (.readByte a) s
  | readBlock a n => cases h; exact callOnce_callFrame_logsGrow (.readBlock a n) s
  | writeByte a v => cases h; exact callOnce_callFrame_logsGrow (.writeByte a v) s
  | writeBlock a bs => cases h; exact callOnce_callFrame_logsGrow (.writeBlock a bs) s
  | setMode m => cases h; exact State.callOnce_logsGrow _ s (setModeCall_step m s)
  | setCarrierFrequency hz => cases h; exact callOnce_callFrame_logsGrow (.setCarrierFrequency hz) s
  | setPowerAmplifier b => cases h; exact callOnce_callFrame_logsGrow (.setPowerAmplifier b) s
  | enableRxCrc => cases h; exact runCall_logsGrow .enableRxCrc s
  | onReceiveComplete => cases h; exact runCall_logsGrow .onReceiveComplete s
  | onTransmitComplete => cases h; exact runCall_logsGrow .onTransmitComplete s

/-! ### Turns -/

theorem State.resume_logsGrow (s t : State) (r : Run) (h : s.resume r = .next t) : State.LogsGrow s t := by
  cases hc : composed r.op with
  | true =>
    rw [s.resume_composed r hc] at h
    cases h
    exact frameStep_logsGrow s
  | false =>
    cases he : exec r.op s with
    | next u =>
      rw [s.resume_own u r hc he] at h
      cases h
      exact (exec_logsGrow r.op s u he).trans (handBack_logsGrow u)
    | fault f => cases f
    | refused x =>
      unfold State.resume at h
      rw [hc, he] at h
      cases h

theorem State.chipTurn_logsGrow (s : State) (e : ChipEvent) : State.LogsGrow s (s.chipTurn e) := by
  unfold State.chipTurn
  split
  · exact State.LogsGrow.refl s
  · rename_i c hc
    exact ⟨List.prefix_refl _, List.prefix_refl _, (Chip.event_keeps _ _ _ hc).2⟩

theorem State.TurnTo.logsGrow {s t : State} (k : s.TurnTo t) : State.LogsGrow s t := by
  cases k with
  | waits => exact State.LogsGrow.refl s
  | presents c => exact ⟨List.prefix_refl _, List.prefix_refl _, List.prefix_refl _⟩
  | chip e => exact s.chipTurn_logsGrow e
  | resumes r _ hr h => exact s.resume_logsGrow t r h
  | rejects c rest e hp hd => exact State.LogsGrow.refuse s _
  | commands c rest i _ hp hd hl h =>
    have g := exec_logsGrow i _ t h
    exact ⟨g.trace, g.events, g.air⟩
  | dispatches _ hr h => exact execDispatch_logsGrow h

/-- Settles O11: each way a turn can end grows the logs. -/
theorem logsOnlyGrow : Obligations.LogsOnlyGrow := by
  intro s t hs
  obtain ⟨-, l, n, b, k⟩ := step_turnTo s t hs
  obtain ⟨ht, he, ha⟩ := k.logsGrow
  exact ⟨ht.imp fun _ e => e.symm, he.imp fun _ e => e.symm, ha.imp fun _ e => e.symm⟩

end Sys2Proof.Machine
end

section
/-! SUPPORT. The block primitives on the FIFO port (O14, O16), the refusal mark (O9) and the level of DIO0 (O51). -/

namespace Sys2Proof.Machine

/-! ### A primitive's call that returns -/

/-- A primitive whose frame completes with the bytes `x`: the running operation's state after the call. -/
theorem State.callOnce_afterCall (s : State) (r : Run) (f : State → CallRes) (out : List Byte)
    (inp : Option (List Byte)) (d : Chip) (x : Ret) (hr : s.run = some r)
    (hf : f s = .done x (s.frameDone r.ctx out inp d)) : s.callOnce f = s.afterCall r out inp d x := by
  rw [State.callOnce_done _ _ _ _ hf, State.frameDone_mapLoc _ _ _ _ _ _ hr]

/-- Settles O14: the drain of `Chip.memRead_fifo`, in the frame that readBlock issues. -/
theorem readBlockDrainsTheFifo : Obligations.ReadBlockDrainsTheFifo := by
  intro s r n h hb
  obtain ⟨vs, d, hm, hl, hv, hp, hr, hf, ha⟩ := Chip.memRead_fifo n 0 s.chip.draw.2
  have hcall := readBlockCall_ok s r 0x00 n vs d h hb rfl hm
  have hdraw := Chip.SameBut.draw s.chip
  exact ⟨s.chip.draw.1, vs, d, congrArg Host.Outcome.next (s.callOnce_afterCall r _ _ _ d _ h.1 hcall), hl, hv, hp,
    (hdraw.regs _).trans hr, hdraw.fifo.trans hf, hdraw.radio.trans ha⟩

/-- Settles O16: the burst of `Chip.memWrite_fifo`, in the frame that writeBlock issues. -/
theorem writeBlockFillsTheFifo : Obligations.WriteBlockFillsTheFifo := by
  intro s r bs h hb
  obtain ⟨d, hm, hv, hk, hp, hr, ha⟩ := Chip.memWrite_fifo bs 0 s.chip
  obtain ⟨inp, e, hl, hs, hcall⟩ := writeBlockCall_ok s r 0x00 bs d h hb rfl hm
  refine ⟨inp, e, congrArg Host.Outcome.next (s.callOnce_afterCall r _ _ _ e _ h.1 hcall), hl,
    fun k hk1 hk2 => ?_, fun i hi => ?_, (hs.reg _).trans hp, hr.trans (hs.regs _), ha.trans hs.radio⟩
  · rw [hs.fifo]; exact hv k hk1 hk2
  · rw [hs.fifo]; exact hk i hi

/-! ### The refusal mark and the line -/

/-- Settles O9: the mark is what a step looks at first (R51). -/
theorem markedMachineStops : Obligations.MarkedMachineStops := by
  intro s x hx
  unfold step State.nextTurn
  rw [hx]

/-- Settles O51: the two mapping bits choose the flag, and the fourth code none (R45). -/
theorem dio0Level : Obligations.Dio0Level := by
  intro c
  unfold Chip.dio0 dioLevel
  refine ⟨fun h => ?_, fun h => ?_, fun h => ?_, fun h => ?_⟩ <;> rw [h] <;> rfl

end Sys2Proof.Machine
end

section
/-! SUPPORT. Which registers the block's frames and the chip's events can change (R49), then O59. -/

namespace Sys2Proof.Machine

/-! ### The registers a frame can change -/

/-- The registers that a frame of the block or an event of the chip may change (R49): the others change at RESET
alone. -/
def writtenRegs : List Reg :=
  [.fifo, .opMode, .frfMsb, .frfMid, .frfLsb, .paConfig, .fifoAddrPtr, .fifoTxBaseAddr, .fifoRxCurrentAddr, .irqFlags,
   .rxNbBytes, .pktSnrValue, .pktRssiValue, .rssiValue, .modemConfig2, .payloadLength, .dioMapping1]

/-- A write burst of `n` data bytes at address `a` reaches no register but the listed ones. -/
def BurstIn (l : List Reg) (a n : Nat) : Prop :=
  ∀ k q, k < n → frameTarget a k = some (regAddr q).toNat → q ∈ l

/-- The frame is a read, or its burst reaches no register but the listed ones. -/
def FrameIn (l : List Reg) (out : List Byte) : Prop :=
  ∀ b bs, out = b :: bs → b.getLsbD 7 = true → BurstIn l (frameAddr b).toNat bs.length

theorem BurstIn.mono {l : List Reg} {a n m : Nat} (h : BurstIn l a n) (hm : m ≤ n) : BurstIn l a m :=
  fun k q hk => h k q (by omega)

/-- What the chip processes of a failing frame reaches no more than the frame does. -/
theorem FrameIn.take {l : List Reg} {out : List Byte} (h : FrameIn l out) (k : Nat) : FrameIn l (out.take k) := by
  intro b bs e hb
  cases k with
  | zero => rw [List.take_zero] at e; cases e
  | succ k =>
    cases out with
    | nil => cases e
    | cons c cs =>
      rw [List.take_succ_cons] at e
      cases e
      exact (h b cs rfl hb).mono (by simp)

theorem frameIn_read (l : List Reg) (a : Byte) (bs : List Byte) : FrameIn l (commandByte false a :: bs) := by
  intro b bs' e hb
  cases e
  have hr : ∀ a : Byte, (commandByte false a).getLsbD 7 = false := by decide
  rw [hr a] at hb
  cases hb

/-- The address of a write's command byte. -/
theorem frameAddr_commandByte_write (q : Reg) : frameAddr (commandByte true (regAddr q)) = regAddr q := by
  rw [commandByte_write _ (regAddr_bit7 q), frameAddr_write _ (regAddr_bit7 q)]

theorem frameIn_writeByte {l : List Reg} {q : Reg} (hq : q ∈ l) (v : Byte) :
    FrameIn l [commandByte true (regAddr q), v] := by
  intro b bs e _ k q' hk ht
  cases e
  obtain rfl : k = 0 := by simpa using hk
  rw [frameAddr_commandByte_write, frameTarget_first _ (regAddr_bit7 q), Option.some.injEq] at ht
  rw [← regAddr_toNat_inj _ _ ht]
  exact hq

theorem frameIn_fifo {l : List Reg} (hf : Reg.fifo ∈ l) (vs : List Byte) :
    FrameIn l (commandByte true (regAddr .fifo) :: vs) := by
  intro b bs e _ k q hk ht
  cases e
  rw [frameAddr_commandByte_write] at ht
  have h0 : (regAddr .fifo).toNat = (regAddr q).toNat := Option.some.inj ((frameTarget_fifo k).symm.trans ht)
  rw [← regAddr_toNat_inj _ _ h0]
  exact hf

/-- The frequency burst reaches the three frequency registers (R171, R81). -/
theorem frameIn_frf {l : List Reg} (h0 : Reg.frfMsb ∈ l) (h1 : Reg.frfMid ∈ l) (h2 : Reg.frfLsb ∈ l) (hz : Nat) :
    FrameIn l (commandByte true (regAddr .frfMsb) :: frfBytes hz) := by
  intro b bs e _ k q hk ht
  cases e
  rw [frameAddr_commandByte_write] at ht
  have hk3 : k < 3 := hk
  rw [frameTarget_reg _ _ (by decide) (by have : (regAddr .frfMsb).toNat = 6 := rfl; omega), Option.some.injEq] at ht
  have hr : ∀ j r, (regAddr .frfMsb).toNat + j = (regAddr r).toNat → k = j → q = r := fun j r hj hkj =>
    regAddr_toNat_inj _ _ (by rw [← ht, hkj, hj])
  obtain hk | hk | hk : k = 0 ∨ k = 1 ∨ k = 2 := by omega
  · rw [hr 0 .frfMsb rfl hk]; exact h0
  · rw [hr 1 .frfMid rfl hk]; exact h1
  · rw [hr 2 .frfLsb rfl hk]; exact h2

/-! ### The chip under a frame -/

/-- One more register written among the listed ones. -/
theorem Chip.RegsKept.set {l : List Reg} {c d : Chip} (h : Chip.RegsKept l c d) {q : Reg} (hq : q ∈ l) (v : Byte) :
    Chip.RegsKept l c (d.setReg q v) :=
  h.trans ((Chip.RegsKept.setReg d q v).mono (by simpa using hq))

theorem Chip.readTarget_regsKept {l : List Reg} (hp : Reg.fifoAddrPtr ∈ l) (c : Chip) (t : Nat) :
    Chip.RegsKept l c (c.readTarget t).2 := by
  by_cases h0 : t = 0
  · subst h0
    exact (Chip.RegsKept.refl l c).set hp _
  · exact (c.readTarget_reg t h0).1.regs l

theorem Chip.memRead_regsKept {l : List Reg} (hp : Reg.fifoAddrPtr ∈ l) (a n k : Nat) (c d : Chip) (vs : List Byte)
    (h : Chip.memRead a k n c = .ok (vs, d)) : Chip.RegsKept l c d := by
  induction n generalizing k c vs with
  | zero => cases h; exact Chip.RegsKept.refl l _
  | succ n ih =>
    unfold Chip.memRead at h
    split at h
    · cases h
    · dsimp only at h
      split at h
      · cases h
      · rename_i hr
        cases h
        exact (Chip.readTarget_regsKept hp _ _).trans (ih _ _ _ hr)

theorem Chip.writeTarget_regsKept {l : List Reg} (hp : Reg.fifoAddrPtr ∈ l) (c d : Chip) (t : Nat) (v : Byte)
    (ht : ∀ q, t = (regAddr q).toNat → q ∈ l) (h : c.writeTarget t v = .ok d) : Chip.RegsKept l c d := by
  by_cases hq : ∃ q, t = (regAddr q).toNat
  · obtain ⟨q, rfl⟩ := hq
    by_cases hf : q = .fifo
    · subst hf
      cases h
      exact Chip.RegsKept.set (d := c.setFifoCell _ v) (fun _ _ => rfl) hp _
    · rw [c.writeTarget_reg q v hf] at h
      cases h
      exact (c.writeReg_spec q v hf).1.mono (by simpa using ht q rfl)
  · rw [c.writeTarget_unmapped t v (by simpa using hq)] at h
    cases h

theorem Chip.memWrite_regsKept {l : List Reg} (hp : Reg.fifoAddrPtr ∈ l) (a : Nat) (vs : List Byte) (k : Nat)
    (c d : Chip) (hb : BurstIn l a (k + vs.length)) (h : Chip.memWrite a k vs c = .ok d) : Chip.RegsKept l c d := by
  induction vs generalizing k c with
  | nil => cases h; exact Chip.RegsKept.refl l _
  | cons v vs ih =>
    unfold Chip.memWrite at h
    split at h
    · cases h
    · rename_i t ht
      split at h
      · cases h
      · rename_i c1 hw
        have h1 := Chip.writeTarget_regsKept hp c c1 t v
          (fun q hq => hb k q (by simp) (by rw [ht, hq])) hw
        exact h1.trans (ih (k + 1) c1 (hb.mono (by simp only [List.length_cons]; omega)) h)

/-- A frame changes the registers its burst reaches and the FIFO pointer (R75–R78). -/
theorem Chip.frame_regsKept {l : List Reg} (hp : Reg.fifoAddrPtr ∈ l) (c d : Chip) (out inp : List Byte)
    (ho : FrameIn l out) (h : c.frame out = .ok (inp, d)) : Chip.RegsKept l c d := by
  unfold Chip.frame at h
  split at h
  · cases h; exact Chip.RegsKept.refl l c
  · rename_i b bs
    split at h
    · cases h
    split at h
    · rename_i hb
      split at h
      · cases h
      · rename_i c1 hw
        have hk := c.memWrite_regsKept hp _ bs 0 c1 (by rw [Nat.zero_add]; exact ho b bs rfl hb) hw
        have hd : d = (Chip.drawList (bs.length + 1) c1).2 := by rw [Except.ok.inj h]
        rw [hd]
        exact hk.trans ((Chip.SameBut.drawList _ c1).regs l)
    · dsimp only at h
      split at h
      · cases h
      · rename_i hr
        cases h
        exact ((Chip.SameBut.draw c).regs l).trans (Chip.memRead_regsKept hp _ _ _ _ _ _ hr)

/-! ### The block's own calls -/

/-- The state's chip differs from `c` in the written registers alone. -/
def State.WrittenOnly (c : Chip) (s : State) : Prop := Chip.RegsKept writtenRegs c s.chip

/-- `P` holds of the state SpiXfer leaves, if the frame is not refused. -/
def Xfer.After (x : Xfer) (P : State → Prop) : Prop :=
  match x with
  | .ok _ s => P s
  | .fail s => P s
  | .refuse _ => True

/-- A frame that stays among the written registers, completed or failed. -/
theorem State.spiXfer_written (s : State) (out : List Byte) (ho : FrameIn writtenRegs out) :
    (s.spiXfer out).After (State.WrittenOnly s.chip) := by
  have hp : Reg.fifoAddrPtr ∈ writtenRegs := by decide
  unfold State.spiXfer
  split
  · trivial
  split
  · trivial
  split
  · trivial
  dsimp only
  split <;> split
  · trivial
  · exact Chip.frame_regsKept hp _ _ _ _ ho (by assumption)
  · trivial
  · exact Chip.frame_regsKept hp _ _ _ _ (ho.take _) (by assumption)

theorem readByteCall_written (a : Byte) (s : State) : (readByteCall a s).After (State.WrittenOnly s.chip) := by
  have h := s.spiXfer_written _ (frameIn_read _ a [Config.cfg.dummy])
  unfold readByteCall
  split
  · trivial
  · generalize s.spiXfer _ = x at h ⊢
    cases x <;> exact h

theorem readBlockCall_written (a : Byte) (n : Nat) (s : State) :
    (readBlockCall a n s).After (State.WrittenOnly s.chip) := by
  have h := s.spiXfer_written _ (frameIn_read _ a (List.replicate n Config.cfg.dummy))
  unfold readBlockCall
  split
  · trivial
  · generalize s.spiXfer _ = x at h ⊢
    cases x <;> exact h

theorem writeByteCall_written (q : Reg) (v : Byte) (s : State) (hq : q ∈ writtenRegs) :
    (writeByteCall (regAddr q) v s).After (State.WrittenOnly s.chip) := by
  have h := s.spiXfer_written _ (frameIn_writeByte hq v)
  unfold writeByteCall
  split
  · trivial
  · generalize s.spiXfer _ = x at h ⊢
    cases x <;> exact h

theorem writeBlockCall_written (a : Byte) (bs : List Byte) (s : State)
    (hb : FrameIn writtenRegs (commandByte true a :: bs)) :
    (writeBlockCall a bs s).After (State.WrittenOnly s.chip) := by
  have h := s.spiXfer_written _ hb
  unfold writeBlockCall
  split
  · trivial
  · generalize s.spiXfer _ = x at h ⊢
    cases x <;> exact h

/-- A call that the operations of the block make: a primitive that writes does so at a written register, or into the
FIFO. -/
def CalledOp (i : Instr) : Prop :=
  match i with
  | .writeByte a _ => ∃ q ∈ writtenRegs, a = regAddr q
  | .writeBlock a _ => a = regAddr .fifo
  | _ => True

theorem callAt_called (r : Run) (s : State) (hc : composed r.op = true) : CalledOp (callAt r s) := by
  cases ho : r.op <;> rw [ho] at hc <;> cases hc
  · unfold callAt initCallAt
    rw [ho]
    dsimp only
    split <;> trivial
  · unfold callAt sendCallAt
    rw [ho]
    dsimp only
    split <;> first | trivial | rfl | exact ⟨_, by decide, rfl⟩
  · unfold callAt
    rw [ho]
    trivial
  · unfold callAt dispatchCallAt
    rw [ho]
    dsimp only
    split <;> first | trivial | exact ⟨_, by decide, rfl⟩

theorem callFrame_written (i : Instr) (k : Nat) (s : State) (hi : CalledOp i) :
    (callFrame i k s).After (State.WrittenOnly s.chip) := by
  have keep : State.WrittenOnly s.chip s := Chip.RegsKept.refl _ _
  cases i with
  | readByte a => exact readByteCall_written a s
  | readBlock a n => exact readBlockCall_written a n s
  | writeByte a v =>
    obtain ⟨q, hq, rfl⟩ := hi
    exact writeByteCall_written q v s hq
  | writeBlock a bs =>
    cases hi
    exact writeBlockCall_written _ bs s (frameIn_fifo (by decide) bs)
  | setMode m => exact writeByteCall_written .opMode _ s (by decide)
  | setCarrierFrequency hz =>
    unfold callFrame setCarrierFrequencyCall
    dsimp only
    split
    · exact writeBlockCall_written _ _ s (frameIn_frf (by decide) (by decide) (by decide) hz)
    · exact keep
  | setPowerAmplifier b => exact writeByteCall_written .paConfig _ s (by decide)
  | enableRxCrc =>
    unfold callFrame enableRxCrcFrame
    dsimp only
    split
    · exact readByteCall_written _ s
    · exact writeByteCall_written .modemConfig2 _ s (by decide)
  | onReceiveComplete =>
    unfold callFrame onReceiveCompleteFrame
    dsimp only
    split <;> first
      | exact readByteCall_written _ s
      | exact readBlockCall_written _ _ s
      | exact writeByteCall_written .fifoAddrPtr _ s (by decide)
  | onTransmitComplete =>
    unfold callFrame onTransmitCompleteFrame
    dsimp only
    split
    · exact writeByteCall_written .dioMapping1 _ s (by decide)
    · exact writeByteCall_written .opMode _ s (by decide)
  | reset => exact keep
  | init _ _ _ => exact keep
  | send _ _ => exact keep
  | dump _ _ => exact keep
  | dispatch => exact keep

/-! ### The running operation -/

/-- The actions after a frame leave the chip alone. -/
theorem settle_chip (s : State) : (settle s).chip = s.chip := by
  have hb : ∀ t : State, (handBack t).chip = t.chip := fun t => by
    unfold handBack
    repeat' split
    · rfl
    · rfl
    · exact (opReturn_logs _ _ t).1
  unfold settle
  split
  · rfl
  · exact (hb _).trans (s.actGot_step _).chip

theorem State.issue_written (i : Instr) (s0 s : State) (hi : CalledOp i) (hc : s.chip = s0.chip) :
    (State.issue i s0 s).WrittenOnly s0.chip := by
  have h := callFrame_written i s.loc.sub s hi
  unfold State.issue State.WrittenOnly
  split
  · rename_i e; rw [e, hc] at h; exact h
  · rename_i e; rw [e, hc] at h; rw [State.mapLoc_chip]; exact h
  · rw [State.refuse_chip]; exact Chip.RegsKept.refl _ _

theorem frameStep_written (s : State) (h : s.Inv) : (frameStep s).WrittenOnly s.chip := by
  unfold frameStep
  dsimp only
  split
  · unfold State.WrittenOnly
    rw [settle_chip]
    exact Chip.RegsKept.refl _ _
  · rename_i r hr
    have hi := callAt_called r (settle s) ((settle_inv h.mid).run r hr).composed
    have hk := State.issue_written _ s (settle s) hi (settle_chip s)
    unfold closeOp
    split
    · unfold State.WrittenOnly
      rw [settle_chip]
      exact hk
    · exact hk

theorem runOp_written (s : State) (h : s.Inv) : (runOp s).WrittenOnly s.chip :=
  (State.drive_induct (P := fun u => u.Inv ∧ u.WrittenOnly s.chip) (fun _ => true) (fun t => frameStep t)
    (fun u hu => ⟨frameStep_inv hu.1, hu.2.trans (frameStep_written u hu.1)⟩)
    (fun _ b hu => ⟨hu.1.setBus b, hu.2⟩) (fun _ l hu => ⟨hu.1.setSchedule l, hu.2⟩) s.schedule (frameStep s)
    ⟨frameStep_inv h, frameStep_written s h⟩).2

/-! ### The chip's own steps -/

theorem Chip.storeFifo_regsKept (l : List Reg) (vs : List Byte) (b : Byte) (c : Chip) :
    Chip.RegsKept l c (Chip.storeFifo vs b c) := by
  induction vs generalizing b c with
  | nil => exact Chip.RegsKept.refl l c
  | cons v vs ih => exact Chip.RegsKept.trans (d := c.setFifoCell b v) (fun _ _ => rfl) (ih _ _)

/-- The chip's events write the receive registers, the flags, the live RSSI and the mode field (R282, R284, R285). -/
theorem Chip.event_written (c d : Chip) (e : ChipEvent) (h : c.event e = some d) : Chip.RegsKept writtenRegs c d := by
  cases e with
  | rx start bytes r p q extra =>
    simp only [Chip.event, Chip.receive] at h
    split at h
    · cases h
      exact ((((((Chip.storeFifo_regsKept _ _ start c).set (by decide) _).set (by decide) _).set (by decide) _).set
        (by decide) _).set (by decide) _).set (by decide) _
    · cases h
  | txDone =>
    simp only [Chip.event, Chip.transmitDone] at h
    split at h
    · cases h
    · split at h
      · rename_i pkt _ _
        cases h
        have h0 : Chip.RegsKept writtenRegs c { c with air := c.air ++ [pkt], txPkt := none } := fun _ _ => rfl
        exact (h0.set (by decide) _).set (by decide) _
      · cases h
  | noiseRssi v =>
    cases h
    exact (Chip.RegsKept.refl _ c).set (by decide) v
  | noiseFlags v =>
    simp only [Chip.event, Chip.noiseFlags] at h
    split at h
    · cases h
      exact (Chip.RegsKept.refl _ c).set (by decide) _
    · cases h

theorem State.chipTurn_written (s : State) (e : ChipEvent) : (s.chipTurn e).WrittenOnly s.chip := by
  unfold State.chipTurn
  split
  · exact Chip.RegsKept.refl _ _
  · rename_i d hd
    exact Chip.event_written _ d e hd

/-! ### A step -/

theorem execDispatch_written {s t : State} (h : s.Inv) (he : exec .dispatch s = .next t) : t.WrittenOnly s.chip := by
  obtain rfl | ⟨hd, rfl⟩ := execDispatch_cases s t he
  · exact Chip.RegsKept.refl _ _
  · exact runOp_written s.enterDispatch (h.enterDispatch (s.resetDone_of_dispatchEnabled hd))

/-- Every command but RESET keeps to the written registers. -/
theorem State.CommandTo.written {s t : State} {i : Instr} (k : s.CommandTo i t) (h : s.Inv) :
    t.WrittenOnly s.chip ∨ (i = .reset ∧ ∃ u, s.acquire .app .reset = some u ∧ t = resetSequence u) := by
  have keep : State.WrittenOnly s.chip s := Chip.RegsKept.refl _ _
  cases k with
  | waits => exact .inl keep
  | refuses x => left; unfold State.WrittenOnly; rw [State.refuse_chip]; exact keep
  | fails y => exact .inl keep
  | busy u y hu =>
    obtain ⟨-, rfl⟩ := s.acquire_eq_some u _ _ hu
    exact .inl keep
  | resets u hi hu => exact .inr ⟨hi, u, hu, rfl⟩
  | starts u hg hu =>
    have hk := runOp_written u (h.acquire i hu (runOk_of_startsFrames hg))
    obtain ⟨-, rfl⟩ := s.acquire_eq_some u _ _ hu
    exact .inl hk

/-- The one encoding of RESET (R124). -/
theorem decodeHost_reset (c : List Byte) (h : decodeHost c = .ok .reset) : c = [0x01] := by
  unfold decodeHost at h
  split at h
  · cases h
  · split at h
    · rename_i op rest hop
      split at h
      · rw [hop]
      · cases h
    · repeat' split at h
      all_goals cases h

/-- A turn keeps to the written registers, or runs a RESET that stood at the head of the port, with the lock free. -/
theorem State.TurnTo.written {s t : State} (k : s.TurnTo t) (h : s.Inv) :
    t.WrittenOnly s.chip ∨ ∃ rest u, s.port = [0x01] :: rest ∧
      State.acquire { s with port := rest } .app .reset = some u ∧ t = resetSequence u := by
  have keep : State.WrittenOnly s.chip s := Chip.RegsKept.refl _ _
  cases k with
  | waits => exact .inl keep
  | presents c => exact .inl keep
  | chip e => exact .inl (s.chipTurn_written e)
  | resumes r _ hr he =>
    rw [h.resume r hr] at he
    cases he
    exact .inl (frameStep_written s h)
  | rejects c rest e hp hd => left; unfold State.WrittenOnly; rw [State.refuse_chip]; exact keep
  | commands c rest i _ hp hd hl he =>
    obtain hk | ⟨rfl, u, hu, ht⟩ := (exec_commandTo i _ t (decodeHost_format c i hd) he).written (h.setPort rest)
    · exact .inl hk
    · rw [decodeHost_reset c hd] at hp
      exact .inr ⟨rest, u, hp, hu, ht⟩
  | dispatches _ hr he => exact .inl (execDispatch_written h he)

/-- Settles O59: the six registers are not among the written ones, and RESET gives them the values of R48. -/
theorem unwrittenRegistersKept : Obligations.UnwrittenRegistersKept := by
  intro s t h hs
  obtain ⟨-, l, n, b, k⟩ := step_turnTo s t hs
  obtain hk | ⟨rest, u, hp, hu, rfl⟩ := k.written (h.atTurn l n b)
  · have hreg : ∀ q ∉ writtenRegs, t.chip.reg q = s.chip.reg q := fun q hq => Chip.RegsKept.reg hk q hq
    exact .inl ⟨hreg _ (by decide), hreg _ (by decide), hreg _ (by decide), hreg _ (by decide), hreg _ (by decide),
      hreg _ (by decide)⟩
  · obtain ⟨hl, rfl⟩ := State.acquire_eq_some _ u _ _ hu
    exact .inr ⟨hl, ⟨rest, hp, rfl⟩, rfl, rfl, rfl, rfl, rfl, rfl, rfl, rfl, rfl, rfl, rfl⟩

end Sys2Proof.Machine
end

section
/-! SUPPORT. What exec of a called operation does with one turn, and what the running operation's own step is made of:
what O7 compares. -/

namespace Sys2Proof.Machine

/-! ### exec of a called operation, one turn of it -/

/-- A call's frame whose outcome is handed on unchanged. -/
theorem CallRes.act_done (c : CallRes) : c.act (fun x s => .done x s) = c := by cases c <;> rfl

/-- The running operation makes calls only: no operation that calls others, and no RESET (R130). -/
theorem callAt_isCall (r : Run) (s : State) (hc : composed r.op = true) :
    composed (callAt r s) = false ∧ callAt r s ≠ .reset := by
  cases ho : r.op <;> rw [ho] at hc <;> cases hc
  · unfold callAt initCallAt
    rw [ho]
    dsimp only
    split <;> exact ⟨rfl, by simp⟩
  · unfold callAt sendCallAt
    rw [ho]
    dsimp only
    split <;> exact ⟨rfl, by simp⟩
  · unfold callAt
    rw [ho]
    exact ⟨rfl, by simp⟩
  · unfold callAt dispatchCallAt
    rw [ho]
    dsimp only
    split <;> exact ⟨rfl, by simp⟩

/-- exec of a called operation is its frame with the actions at once, or its frames turn by turn. -/
theorem exec_call (i : Instr) (s : State) (hc : composed i = false) (hi : i ≠ .reset) :
    exec i s = .next (eagerCall i s) ∨ exec i s = .next (runCall i s) := by
  have once : ∀ f : State → CallRes, (∀ t, callWhole i s.loc.sub t = f t) →
      (.next (s.callOnce f) : Host.Outcome State Fault Refusal) = .next (eagerCall i s) := fun f hf => by
    unfold eagerCall
    rw [funext hf]
  cases i with
  | readByte a => exact .inl (once (fun t => readByteCall a t) fun t => CallRes.act_done _)
  | readBlock a n => exact .inl (once (fun t => readBlockCall a n t) fun t => CallRes.act_done _)
  | writeByte a v => exact .inl (once (fun t => writeByteCall a v t) fun t => CallRes.act_done _)
  | writeBlock a bs => exact .inl (once (fun t => writeBlockCall a bs t) fun t => CallRes.act_done _)
  | setMode m => exact .inl (once (fun t => setModeCall m t) fun t => rfl)
  | setCarrierFrequency hz =>
    exact .inl (once (fun t => setCarrierFrequencyCall hz t) fun t => CallRes.act_done _)
  | setPowerAmplifier b =>
    exact .inl (once (fun t => setPowerAmplifierCall b t) fun t => CallRes.act_done _)
  | enableRxCrc => exact .inr rfl
  | onReceiveComplete => exact .inr rfl
  | onTransmitComplete => exact .inr rfl
  | reset => exact absurd rfl hi
  | init _ _ _ => cases hc
  | send _ _ => cases hc
  | dump _ _ => cases hc
  | dispatch => cases hc

/-- A frame of a call is refused, or leaves its outcome. -/
theorem callFrame_cases (i : Instr) (k : Nat) (s : State) :
    (∃ e, callFrame i k s = .refuse e) ∨ ∃ x t, callFrame i k s = .done x t ∧ FrameOnly s t := by
  have hf := callFrame_step i k s
  cases h : callFrame i k s with
  | more t => exact absurd h (callFrame_ne_more i k s t)
  | refuse e => exact .inl ⟨e, rfl⟩
  | done x t => rw [h] at hf; exact .inr ⟨x, t, rfl, hf⟩

theorem State.issue_refuse (i : Instr) (s0 s : State) (e : RefusalReason) (h : callFrame i s.loc.sub s = .refuse e) :
    State.issue i s0 s = s0.refuse e := by
  unfold State.issue
  rw [h]

theorem State.issue_done (i : Instr) (s0 s t : State) (x : Ret) (h : callFrame i s.loc.sub s = .done x t) :
    State.issue i s0 s = t.withGot (some x) := by
  unfold State.issue
  rw [h]
  rfl

/-- A refused frame of a settled state changes the mark alone, the actions at once or not. -/
theorem callTurn_refuse (i : Instr) (s : State) (e : RefusalReason) (hs : s.Settled)
    (h : callFrame i s.loc.sub s = .refuse e) : eagerCall i s = s.refuse e ∧ callTurn i s = s.refuse e := by
  constructor
  · exact State.callOnce_refuse s _ e (by unfold callWhole CallRes.act; rw [h])
  · unfold callTurn
    dsimp only
    rw [State.actGot_none i s hs.1, State.issue_refuse i s s e h, State.actGot_refuse, State.actGot_none i s hs.1,
      ite_self]

/-- A frame of a settled state that leaves an outcome: its actions at once, or perhaps left for the next frame. -/
theorem callTurn_done (i : Instr) (s t : State) (x : Ret) (hr : s.run ≠ none) (hs : s.Settled)
    (h : callFrame i s.loc.sub s = .done x t) (hf : FrameOnly s t) :
    eagerCall i s = (t.withGot (some x)).actGot i ∧
      (callTurn i s = t.withGot (some x) ∨ callTurn i s = (t.withGot (some x)).actGot i) := by
  have hrun : t.run ≠ none := by rw [hf.run]; exact hr
  constructor
  · rcases State.issue_actGot i s.release s hr hs.1 with ⟨e, he, -⟩ | ⟨ha, -⟩
    · rw [State.issue_done i _ s t x h] at he
      have hn := congrArg State.run he
      rw [State.refuse_run, State.withGot, State.mapLoc_run, State.release_run, Option.map_eq_none_iff] at hn
      exact absurd hn hrun
    · rw [← ha, State.issue_done i _ s t x h]
  · unfold callTurn
    dsimp only
    rw [State.actGot_none i s hs.1, State.issue_done i s s t x h]
    split
    · exact .inr rfl
    · exact .inl rfl

/-- The schedule's next turn is not the running operation's: it stops after the frame. -/
theorem State.drive_notOwn (p : State → Bool) (f : State → State) (ts : List Turn) (s : State) (hs : s.schedule = ts)
    (h : ∀ x xs, ts = x :: xs → s.mayContinue x = false) : State.drive p f ts s = s := by
  subst hs
  cases hs : s.schedule with
  | nil => rw [State.drive, ← hs]
  | cons x xs => rw [State.drive, h x xs hs, Bool.and_false, if_neg Bool.false_ne_true, ← hs]

/-- A turn of another context's stops the running operation. -/
theorem State.mayContinue_other (s : State) (r : Run) (x : Turn) (hr : s.run = some r) (hx : turnCtx x ≠ some r.ctx) :
    s.mayContinue x = false := by
  unfold State.mayContinue
  rw [hr]
  simp [hx]

/-- exec of a call of the settled running operation `r`, the turn after it not being its context's: a refusal, or one
frame with the actions at once, or perhaps left for the next frame. -/
theorem exec_oneTurn (i : Instr) (s : State) (r : Run) (hc : composed i = false) (hi : i ≠ .reset)
    (hr : s.run = some r) (hs : s.Settled) (hx : ∀ x xs, s.schedule = x :: xs → turnCtx x ≠ some r.ctx) :
    (∃ e, callFrame i s.loc.sub s = .refuse e ∧ exec i s = .next (s.refuse e)) ∨
      ∃ x t, callFrame i s.loc.sub s = .done x t ∧ FrameOnly s t ∧
        (exec i s = .next (t.withGot (some x)) ∨ exec i s = .next ((t.withGot (some x)).actGot i)) := by
  have hne : s.run ≠ none := by rw [hr]; simp
  have hcall : ∀ u, CallStep s u ∨ (∃ e, u = s.refuse e) → callTurn i s = u → runCall i s = u := by
    rintro u hu rfl
    refine State.drive_notOwn _ _ _ _ ?_ fun x xs hxs => ?_
    · rcases hu with k | ⟨e, he⟩
      · exact k.schedule
      · rw [he, State.refuse_schedule]
    · rcases hu with k | ⟨e, he⟩
      · obtain ⟨f, hf⟩ := k.run
        rw [hr] at hf
        exact State.mayContinue_other _ _ x hf (hx x xs hxs)
      · rw [he]
        exact State.mayContinue_other _ r x (by rw [State.refuse_run, hr]) (hx x xs hxs)
  rcases callFrame_cases i s.loc.sub s with ⟨e, he⟩ | ⟨x, t, ht, hf⟩
  · obtain ⟨h1, h2⟩ := callTurn_refuse i s e hs he
    refine .inl ⟨e, he, ?_⟩
    rcases exec_call i s hc hi with h | h
    · rw [h, h1]
    · rw [h, hcall _ (.inr ⟨e, rfl⟩) h2]
  · obtain ⟨h1, h2⟩ := callTurn_done i s t x hne hs ht hf
    refine .inr ⟨x, t, ht, hf, ?_⟩
    have k1 : CallStep s (t.withGot (some x)) := hf.call.trans (CallStep.mapLoc t _)
    have k2 := k1.trans (State.actGot_step i (t.withGot (some x))).call
    rcases exec_call i s hc hi with h | h
    · exact .inr (by rw [h, h1])
    · rcases h2 with h2 | h2
      · exact .inl (by rw [h, hcall _ (.inl k1) h2])
      · exact .inr (by rw [h, hcall _ (.inl k2) h2])

/-! ### The running operation's own step -/

theorem settle_closeOp (s : State) : settle (closeOp s) = settle s := by
  unfold closeOp
  split
  · exact settle_settle s
  · rfl

theorem closeOp_of_ended (s : State) (h : (settle s).run = none) : closeOp s = settle s := by
  unfold closeOp
  rw [h]
  rfl

theorem closeOp_of_running (s : State) (h : (settle s).run ≠ none) : closeOp s = s := by
  unfold closeOp
  rw [Option.isNone_eq_false_iff.2 (Option.isSome_iff_ne_none.2 h)]
  rfl

/-- The step of an operation that runs on after its pending actions is its call's next frame. -/
theorem frameStep_running (s : State) (r : Run) (h : (settle s).run = some r) :
    frameStep s = closeOp (State.issue (callAt r (settle s)) s (settle s)) := by
  unfold frameStep
  dsimp only
  rw [h]

/-- The pending actions, those of the call performed beforehand or not. -/
theorem settle_actGot (s : State) (r : Run) (h : s.run = some r) : settle (s.actGot (callAt r s)) = settle s := by
  have k := (s.actGot_step (callAt r s)).call
  obtain ⟨f, hf⟩ := k.run
  rw [h] at hf
  rw [settle_running _ _ hf, callAt_congr r { r with loc := f r.loc } s _ rfl rfl k.flagsSnap, State.actGot_actGot,
    settle_running s r h]

/-- What a frame alone changes: the chip, chip-select, the trace and the edge detector. -/
theorem FrameOnly.eq {s t : State} (h : FrameOnly s t) :
    t = { s with chip := t.chip, cs := t.cs, busTrace := t.busTrace, edgePending := t.edgePending,
                 lineLast := t.lineLast } := by
  obtain ⟨k, hrun, hmode, hbusy, hevents⟩ := h
  cases s
  cases t
  cases k.resetDone
  cases k.initialised
  cases k.disp
  cases k.lock
  cases k.flagsSnap
  cases k.resetLine
  cases k.refused
  cases k.port
  cases k.results
  cases k.schedule
  cases k.tick
  cases k.bus
  cases hrun
  cases hmode
  cases hbusy
  cases hevents
  rfl

/-- A frame's outcome kept for the next frame, as one update. -/
theorem FrameOnly.withGot_eq {s t : State} (h : FrameOnly s t) (r : Run) (hr : s.run = some r) (x : Ret) :
    t.withGot (some x) =
      { s with chip := t.chip, cs := t.cs, busTrace := t.busTrace, edgePending := t.edgePending,
               lineLast := t.lineLast, run := some { r with loc := { r.loc with got := some x } } } := by
  rw [h.eq]
  cases s
  cases hr
  rfl

end Sys2Proof.Machine
end

section
/-! SUPPORT. The running operation's step against exec of its call, and a start that goes on over one more turn, then
O7. -/

namespace Sys2Proof.Machine

/-- A running operation's refused frame sets the mark and takes its pending actions back (R276). -/
theorem frameStep_refused (s : State) (r : Run) (e : RefusalReason) (hr : (settle s).run = some r)
    (h : callFrame (callAt r (settle s)) (settle s).loc.sub (settle s) = .refuse e) : frameStep s = s.refuse e := by
  rw [frameStep_running s r hr, State.issue_refuse _ _ _ e h]
  refine closeOp_of_running _ ?_
  rw [settle_refuse, State.refuse_run, hr]
  simp

/-- What a step of the running operation makes of the frame of its call, against exec `u` of that call: the actions are
the same, performed at once where they end the operation. -/
theorem frameStep_call (s t u : State) (r : Run) (x : Ret) (hr : (settle s).run = some r)
    (h : callFrame (callAt r (settle s)) (settle s).loc.sub (settle s) = .done x t) (hf : FrameOnly (settle s) t)
    (hu : u = t.withGot (some x) ∨ u = (t.withGot (some x)).actGot (callAt r (settle s))) :
    settle (frameStep s) = settle u ∧ ((settle u).run = none → frameStep s = settle u) ∧
      ((settle u).run ≠ none → frameStep s =
        { settle s with chip := u.chip, cs := u.cs, busTrace := u.busTrace, edgePending := u.edgePending,
                        lineLast := u.lineLast, run := some { r with loc := { r.loc with got := some x } } }) := by
  have hw : frameStep s = closeOp (t.withGot (some x)) := by
    rw [frameStep_running s r hr, State.issue_done _ _ _ t x h]
  have hwr := hf.withGot_eq r hr x
  have hrun : (t.withGot (some x)).run = some { r with loc := { r.loc with got := some x } } := by rw [hwr]
  have hcall : callAt { r with loc := { r.loc with got := some x } } (t.withGot (some x)) = callAt r (settle s) :=
    callAt_congr _ _ _ _ rfl rfl (by rw [hwr])
  have hset : settle u = settle (t.withGot (some x)) := by
    rcases hu with rfl | rfl
    · rfl
    · rw [← hcall]; exact settle_actGot _ _ hrun
  have hu' : u.chip = t.chip ∧ u.cs = t.cs ∧ u.busTrace = t.busTrace ∧ u.edgePending = t.edgePending ∧
      u.lineLast = t.lineLast := by
    have k := State.actGot_step (callAt r (settle s)) (t.withGot (some x))
    rcases hu with rfl | rfl
    · rw [hwr]; exact ⟨rfl, rfl, rfl, rfl, rfl⟩
    · rw [k.chip, k.cs, k.busTrace, k.edgePending, k.lineLast, hwr]; exact ⟨rfl, rfl, rfl, rfl, rfl⟩
  obtain ⟨h1, h2, h3, h4, h5⟩ := hu'
  rw [hw, settle_closeOp, hset, h1, h2, h3, h4, h5]
  exact ⟨rfl, fun hn => closeOp_of_ended _ hn, fun hn => (closeOp_of_running _ hn).trans hwr⟩

/-! ### An operation that starts goes on -/

/-- `s` with another schedule. -/
def State.withSchedule (s : State) (l : List Turn) : State := { s with schedule := l }

/-- SpiXfer's outcome with the state changed by `f`. -/
def Xfer.map (f : State → State) (x : Xfer) : Xfer :=
  match x with
  | .ok inp s => .ok inp (f s)
  | .fail s => .fail (f s)
  | .refuse e => .refuse e

theorem State.spiXfer_withSchedule (s : State) (out : List Byte) (l : List Turn) :
    (s.withSchedule l).spiXfer out = (s.spiXfer out).map fun t => t.withSchedule l := by
  cases s with
  | mk resetDone _ _ _ _ _ _ lock _ run _ _ _ _ _ chip _ _ _ _ bus =>
  unfold State.spiXfer State.withSchedule
  dsimp only
  cases run with
  | none => rfl
  | some r =>
    dsimp only
    by_cases hl : lock ≠ some r.ctx
    · rw [if_pos hl, if_pos hl]; rfl
    · rw [if_neg hl, if_neg hl]
      cases resetDone with
      | false => rfl
      | true =>
        cases bus with
        | ok =>
          dsimp only
          cases chip.frame out <;> rfl
        | fail k =>
          dsimp only
          cases chip.frame (out.take k) <;> rfl

theorem readByteCall_withSchedule (a : Byte) (s : State) (l : List Turn) :
    readByteCall a (s.withSchedule l) = (readByteCall a s).map fun t => t.withSchedule l := by
  unfold readByteCall
  rw [State.spiXfer_withSchedule]
  split
  · rfl
  · cases s.spiXfer [commandByte false a, Config.cfg.dummy] <;> rfl

theorem readBlockCall_withSchedule (a : Byte) (n : Nat) (s : State) (l : List Turn) :
    readBlockCall a n (s.withSchedule l) = (readBlockCall a n s).map fun t => t.withSchedule l := by
  unfold readBlockCall
  rw [State.spiXfer_withSchedule]
  split
  · rfl
  · cases s.spiXfer (commandByte false a :: List.replicate n Config.cfg.dummy) <;> rfl

theorem writeByteCall_withSchedule (a v : Byte) (s : State) (l : List Turn) :
    writeByteCall a v (s.withSchedule l) = (writeByteCall a v s).map fun t => t.withSchedule l := by
  unfold writeByteCall
  rw [State.spiXfer_withSchedule]
  split
  · rfl
  · cases s.spiXfer [commandByte true a, v] <;> rfl

theorem writeBlockCall_withSchedule (a : Byte) (bs : List Byte) (s : State) (l : List Turn) :
    writeBlockCall a bs (s.withSchedule l) = (writeBlockCall a bs s).map fun t => t.withSchedule l := by
  unfold writeBlockCall
  rw [State.spiXfer_withSchedule]
  split
  · rfl
  · cases s.spiXfer (commandByte true a :: bs) <;> rfl

/-- A call's frame neither reads nor writes the schedule. -/
theorem callFrame_withSchedule (i : Instr) (k : Nat) (s : State) (l : List Turn) :
    callFrame i k (s.withSchedule l) = (callFrame i k s).map fun t => t.withSchedule l := by
  cases i with
  | readByte a => exact readByteCall_withSchedule a s l
  | readBlock a n => exact readBlockCall_withSchedule a n s l
  | writeByte a v => exact writeByteCall_withSchedule a v s l
  | writeBlock a bs => exact writeBlockCall_withSchedule a bs s l
  | setMode m => exact writeByteCall_withSchedule (regAddr .opMode) (opModeValue m) s l
  | setCarrierFrequency hz =>
    unfold callFrame setCarrierFrequencyCall
    dsimp only
    split
    · exact writeBlockCall_withSchedule _ _ s l
    · rfl
  | setPowerAmplifier b => exact writeByteCall_withSchedule (regAddr .paConfig) (paValue b) s l
  | enableRxCrc =>
    unfold callFrame enableRxCrcFrame
    dsimp only
    split
    · exact readByteCall_withSchedule _ s l
    · exact writeByteCall_withSchedule _ _ s l
  | onReceiveComplete =>
    unfold callFrame onReceiveCompleteFrame
    dsimp only
    split <;> first
      | exact readByteCall_withSchedule _ s l
      | exact readBlockCall_withSchedule _ _ s l
      | exact writeByteCall_withSchedule _ _ s l
  | onTransmitComplete =>
    unfold callFrame onTransmitCompleteFrame
    dsimp only
    split
    · exact writeByteCall_withSchedule _ _ s l
    · exact writeByteCall_withSchedule _ _ s l
  | _ => rfl

theorem State.mapLoc_withSchedule (s : State) (f : Locals → Locals) (l : List Turn) :
    (s.withSchedule l).mapLoc f = (s.mapLoc f).withSchedule l := by
  cases s with
  | mk _ _ _ _ _ _ _ _ _ run => cases run <;> rfl

theorem State.issue_withSchedule (i : Instr) (s0 s : State) (l : List Turn) :
    State.issue i (s0.withSchedule l) (s.withSchedule l) = (State.issue i s0 s).withSchedule l := by
  unfold State.issue
  rw [show (s.withSchedule l).loc = s.loc from rfl, callFrame_withSchedule]
  cases callFrame i s.loc.sub s with
  | more t => rfl
  | done x t => exact State.mapLoc_withSchedule t _ l
  | refuse e =>
    dsimp only [CallRes.map]
    rw [State.withEnv_refuse, State.withEnv_refuse]
    rfl

theorem closeOp_withSchedule (s : State) (l : List Turn) : closeOp (s.withSchedule l) = (closeOp s).withSchedule l := by
  unfold closeOp
  rw [show settle (s.withSchedule l) = (settle s).withSchedule l from settle_setSchedule s l]
  exact (apply_ite (fun t : State => t.withSchedule l) _ _ _).symm

/-- A frame of the running operation neither reads nor writes the schedule. -/
theorem frameStep_withSchedule (s : State) (l : List Turn) :
    frameStep (s.withSchedule l) = (frameStep s).withSchedule l := by
  unfold frameStep
  dsimp only
  rw [show settle (s.withSchedule l) = (settle s).withSchedule l from settle_setSchedule s l,
    show ((settle s).withSchedule l).run = (settle s).run from rfl]
  cases hr : (settle s).run with
  | none => rfl
  | some r =>
    dsimp only
    rw [show callAt r ((settle s).withSchedule l) = callAt r (settle s) from rfl, State.issue_withSchedule,
      closeOp_withSchedule]

/-- The frames of further turns do not depend on the schedule the state holds meanwhile. -/
theorem State.drive_withSchedule (ts l : List Turn) (s : State) :
    State.drive (fun _ => true) (fun t => frameStep t) ts (s.withSchedule l) =
      State.drive (fun _ => true) (fun t => frameStep t) ts s := by
  induction ts generalizing s with
  | nil => rfl
  | cons t ts ih =>
    unfold State.drive
    rw [show (s.withSchedule l).mayContinue t = s.mayContinue t from rfl]
    split
    · exact (congrArg _ (frameStep_withSchedule { s with bus := turnBus t } l)).trans (ih _)
    · rfl

/-- Where the turns are used up, one more turn goes on from where they ended. -/
theorem State.drive_append (l : List Turn) (x : Turn) (s : State)
    (h : (State.drive (fun _ => true) (fun t => frameStep t) l s).schedule = []) :
    State.drive (fun _ => true) (fun t => frameStep t) (l ++ [x]) s =
      State.drive (fun _ => true) (fun t => frameStep t) [x]
        (State.drive (fun _ => true) (fun t => frameStep t) l s) := by
  induction l generalizing s with
  | nil => exact (State.drive_withSchedule [x] [] s).symm
  | cons t ts ih =>
    have hcons : ∀ us, State.drive (fun _ => true) (fun t => frameStep t) (t :: us) s =
        if s.mayContinue t then
          State.drive (fun _ => true) (fun t => frameStep t) us (frameStep { s with bus := turnBus t })
        else { s with schedule := t :: us } := fun us => rfl
    rw [List.cons_append, hcons, hcons]
    rw [hcons] at h
    split
    · rename_i hc
      rw [if_pos hc] at h
      exact ih _ h
    · rename_i hc
      rw [if_neg hc] at h
      cases h

theorem runOp_withSchedule (s : State) (l : List Turn) :
    runOp (s.withSchedule l) = State.drive (fun _ => true) (fun t => frameStep t) l (frameStep s) := by
  unfold runOp
  rw [frameStep_withSchedule, State.drive_withSchedule]
  rfl

/-- The running operation stays what it is, in its context, as long as it runs. -/
theorem frameStep_run (s : State) (q : Run) (h : (frameStep s).run = some q) :
    ∃ r, s.run = some r ∧ q.ctx = r.ctx ∧ q.op = r.op := by
  cases hr : (settle s).run with
  | none =>
    have he : frameStep s = settle s := by unfold frameStep; dsimp only; rw [hr]
    rw [he, hr] at h
    cases h
  | some r1 =>
    obtain ⟨r, h0, h1, h2⟩ := settle_run s r1 hr
    refine ⟨r, h0, ?_⟩
    have hq : ∃ q0, (State.issue (callAt r1 (settle s)) s (settle s)).run = some q0 ∧ q.ctx = q0.ctx ∧
        q.op = q0.op := by
      rw [frameStep_running s r1 hr] at h
      unfold closeOp at h
      split at h
      · exact settle_run _ q h
      · exact ⟨q, h, rfl, rfl⟩
    obtain ⟨q0, hq0, hc, ho⟩ := hq
    rcases State.issue_cases (callAt r1 (settle s)) s (settle s) with ⟨k, -⟩ | ⟨e, he⟩
    · obtain ⟨f, hf⟩ := k.run
      rw [hr, hq0] at hf
      cases hf
      exact ⟨hc.trans h1, ho.trans h2⟩
    · rw [he, State.refuse_run, h0] at hq0
      cases hq0
      exact ⟨hc, ho⟩

/-- What runs after the frames of an operation's start is that operation. -/
theorem runOp_op (s : State) (i : Instr) (hs : ∀ q, s.run = some q → q.op = i) (q : Run) (h : (runOp s).run = some q) :
    q.op = i :=
  State.drive_induct (P := fun u => ∀ q, u.run = some q → q.op = i) (fun _ => true) (fun t => frameStep t)
    (fun u hu q hq => by obtain ⟨r, hr, -, ho⟩ := frameStep_run u q hq; exact ho.trans (hu r hr))
    (fun _ _ hu => hu) (fun _ _ hu => hu) s.schedule (frameStep s)
    (fun q hq => by obtain ⟨r, hr, -, ho⟩ := frameStep_run s q hq; exact ho.trans (hs r hr)) q h

/-- One more own turn at the schedule's end is one more frame of the running operation. -/
theorem runOp_oneMore (s v : State) (l : List Turn) (x : Turn) (r : Run) (hv : runOp (s.withSchedule l) = v)
    (hs : v.schedule = []) (hn : v.refused = none) (hr : v.run = some r) (hx : turnCtx x = some r.ctx) :
    runOp (s.withSchedule (l ++ [x])) = frameStep { v with schedule := [], bus := turnBus x } := by
  rw [runOp_withSchedule] at hv ⊢
  rw [State.drive_append l x _ (by rw [hv, hs]), hv, State.drive_go _ _ x [] v r rfl hn hr hx]
  exact (frameStep_withSchedule { v with bus := turnBus x } []).symm

/-- An operation that calls others, at a free lock: it starts, or ends without a frame, whatever the schedule. -/
theorem exec_start (i : Instr) (s : State) (hc : composed i = true) (hr : s.run = none) (hl : s.lock = none) :
    (∃ u : State, (∀ q, u.run = some q → q.op = i) ∧
        ∀ l, exec i (s.withSchedule l) = .next (runOp (u.withSchedule l))) ∨
      ∀ l v, exec i (s.withSchedule l) = .next v → v.run = none := by
  by_cases hi : i.format = .hostCommand
  · by_cases hg : startsFrames i s = true
    · exact .inl ⟨{ s with lock := some .app, run := some ⟨.app, i, 0, Locals.fresh⟩ }, fun q hq => by cases hq; rfl,
        fun l => exec_starts (s := s.withSchedule l) hg hl⟩
    · refine .inr fun l v h => ?_
      cases exec_commandTo i _ v hi h with
      | waits => exact hr
      | refuses x => rw [State.refuse_run]; exact hr
      | fails y => exact hr
      | busy u y hu => rfl
      | resets u hi hu => rfl
      | starts u hg' hu => exact absurd hg' hg
  · cases i with
    | dispatch =>
      by_cases hd : s.dispatchEnabled = true
      · exact .inl ⟨s.enterDispatch, fun q hq => by cases hq; rfl, fun l => if_pos hd⟩
      · refine .inr fun l v h => ?_
        rcases execDispatch_cases _ v h with rfl | ⟨hd', -⟩
        · exact hr
        · exact absurd hd' hd
    | init _ _ _ => exact absurd rfl hi
    | send _ _ => exact absurd rfl hi
    | dump _ _ => exact absurd rfl hi
    | _ => cases hc

/-- The step of the running operation, against exec `u` of its next call at the state `settle w` it issues the frame
from: the refusal of the one is the other's, and where there is none, they differ in when the actions come (R93). -/
theorem frameStep_exec (w u : State) (r r1 : Run) (hn : w.refused = none) (hw : w.run = some r)
    (hc : composed r.op = true) (hx : ∀ x xs, w.schedule = x :: xs → turnCtx x ≠ some r.ctx)
    (hr1 : (settle w).run = some r1) (he : exec (callAt r1 (settle w)) (settle w) = .next u) :
    (∃ e, u.refused = some e ∧ frameStep w = { w with refused := some e }) ∨
      (u.refused = none ∧ settle (frameStep w) = settle u ∧ ((settle u).run = none → frameStep w = settle u) ∧
        ((settle u).run ≠ none → ∃ x, frameStep w =
          { settle w with chip := u.chip, cs := u.cs, busTrace := u.busTrace, edgePending := u.edgePending,
                          lineLast := u.lineLast, run := some { r1 with loc := { r1.loc with got := some x } } })) := by
  obtain ⟨r0, h0, hctx, hop⟩ := settle_run w r1 hr1
  cases hw.symm.trans h0
  obtain ⟨henv, -, hsched⟩ := settle_env w
  have hn1 := henv.trans hn
  obtain ⟨hcall, hreset⟩ := callAt_isCall r1 (settle w) (hop ▸ hc)
  have hx1 : ∀ x xs, (settle w).schedule = x :: xs → turnCtx x ≠ some r1.ctx := fun x xs h =>
    hctx ▸ hx x xs (hsched.symm.trans h)
  rcases exec_oneTurn _ _ r1 hcall hreset hr1 (settle_settled w) hx1 with ⟨e, hf, hu⟩ | ⟨x, v, hf, hfo, hu⟩
  · have hue : u = (settle w).refuse e := Host.Outcome.next.inj (he.symm.trans hu)
    refine .inl ⟨e, ?_, ?_⟩
    · rw [hue, State.refuse_of_none _ e hn1]
    · rw [frameStep_refused w r1 e hr1 hf, State.refuse_of_none w e hn]
  · have hu' := hu.imp (fun h => Host.Outcome.next.inj (he.symm.trans h))
      fun h => Host.Outcome.next.inj (he.symm.trans h)
    have hnu : u.refused = none := by
      have k := hfo.call.trans (CallStep.mapLoc v fun l => { l with got := some x })
      rcases hu' with rfl | rfl
      · exact k.refused.trans hn1
      · exact ((State.actGot_step _ _).call.refused.trans k.refused).trans hn1
    obtain ⟨h1, h2, h3⟩ := frameStep_call w v u r1 x hr1 hf hfo hu'
    exact .inr ⟨hnu, h1, h2, fun hne => ⟨x, h3 hne⟩⟩

/-- An operation that starts, given one more own turn: its start's last state steps on with that turn. -/
theorem exec_oneMore (s v : State) (i : Instr) (l : List Turn) (x : Turn) (r : Run) (hr : s.run = none)
    (hl : s.lock = none) (hc : composed i = true) (he : exec i (s.withSchedule l) = .next v) (hs : v.schedule = [])
    (hn : v.refused = none) (hrv : v.run = some r) (hx : turnCtx x = some r.ctx) :
    exec i (s.withSchedule (l ++ [x])) = step (v.withSchedule [x]) := by
  rcases exec_start i s hc hr hl with ⟨u, hop, hu⟩ | hend
  · have hv : runOp (u.withSchedule l) = v := Host.Outcome.next.inj ((hu l).symm.trans he)
    have ho : r.op = i := runOp_op (u.withSchedule l) i hop r (by rw [hv]; exact hrv)
    rw [step_resume (v.withSchedule [x]) x [] r hn rfl hrv hx, State.resume_composed _ r (ho ▸ hc), hu,
      runOp_oneMore u v l x r hv hs hn hrv hx]
    rfl
  · cases (hend l v he).symm.trans hrv

/-- Settles O7: `State.resume_own` for an operation that calls no other, `frameStep_exec` for a step of one that does,
and `exec_oneMore` for its start. -/
theorem stepRunsTheRunningCall : Obligations.StepRunsTheRunningCall := by
  refine ⟨fun s t ts r u hn hs hr ht hc he => ?_, fun s s1 u t ts r r1 hn hs hr ht hc hx hs1 hr1 he => ?_,
    fun s v i l x r hr hl hc he hs hn hrv hx => exec_oneMore s v i l x r hr hl hc he hs hn hrv hx⟩
  · rw [step_resume s t ts r hn hs hr ht]
    exact State.resume_own _ u r hc he
  · subst hs1
    rw [step_resume s t ts r hn hs hr ht, State.resume_composed _ r hc]
    rcases frameStep_exec { s with schedule := ts, bus := turnBus t } u r r1 hn hr hc hx hr1 he with
      ⟨e, hue, hw⟩ | ⟨hnu, hsettle, hend, hgo⟩
    · refine ⟨fun h => ?_, fun e' h => ?_⟩
      · cases h.symm.trans hue
      · cases hue.symm.trans h
        rw [hw]
    · exact ⟨fun _ => ⟨_, rfl, hsettle, hend, hgo⟩, fun e h => by cases hnu.symm.trans h⟩

end Sys2Proof.Machine
end

section
/-! SUPPORT. The frames the chip never refuses (R80), the calls the block's operations make with them, then O58. -/

namespace Sys2Proof.Machine

/-! ### Frames that are never refused -/

/-- The chip processes the frame, and whatever the bus may leave of it, in every state (R72, R80). -/
def SafeFrame (out : List Byte) : Prop := ∀ (c : Chip) (k : Nat), ∃ i d, c.frame (out.take k) = .ok (i, d)

theorem SafeFrame.whole {out : List Byte} (h : SafeFrame out) (c : Chip) : ∃ i d, c.frame out = .ok (i, d) := by
  have hk := h c out.length
  rwa [List.take_length] at hk

/-- An address below 0x80 is one with bit 7 clear (R112). -/
theorem bit7_clear_iff (b : Byte) : b.getLsbD 7 = false ↔ b.toNat < 128 := by revert b; decide

/-- A read burst that drains the FIFO or stays below 0x80. -/
theorem safeFrame_read (a : Byte) (l : List Byte) (ha : a.getLsbD 7 = false)
    (h : a = 0 ∨ a.toNat + l.length ≤ 128) : SafeFrame (a :: l) := by
  intro c k
  cases k with
  | zero => exact ⟨[], c, rfl⟩
  | succ k =>
    have hm : ∃ vs d, Chip.memRead a.toNat 0 (l.take k).length c.draw.2 = .ok (vs, d) := by
      by_cases h0 : a = 0
      · obtain ⟨vs, d, e, -⟩ := Chip.memRead_fifo (l.take k).length 0 c.draw.2
        exact ⟨vs, d, by rw [h0]; exact e⟩
      · have hn : a.toNat ≠ 0 := fun e => h0 (BitVec.eq_of_toNat_eq e)
        have hl : (l.take k).length ≤ l.length := List.length_take_le' k l
        obtain ⟨vs, d, e, -⟩ := Chip.memRead_regs a.toNat (l.take k).length 0 c.draw.2 hn
          (by have := h.resolve_left h0; omega)
        exact ⟨vs, d, e⟩
    obtain ⟨vs, d, e⟩ := hm
    exact ⟨_, d, Chip.frame_read c d a (l.take k) vs ha e⟩

/-- A write burst that fills the FIFO or walks over registers of the map. -/
theorem safeFrame_write (a : Byte) (bs : List Byte) (ha : a.getLsbD 7 = false)
    (h : a = 0 ∨ ∀ j, j < bs.length → ∃ q, a.toNat + j = (regAddr q).toNat) :
    SafeFrame ((0x80 ||| a) :: bs) := by
  intro c k
  cases k with
  | zero => exact ⟨[], c, rfl⟩
  | succ k =>
    have hm : ∃ d, Chip.memWrite a.toNat 0 (bs.take k) c = .ok d := by
      by_cases h0 : a = 0
      · obtain ⟨d, e, -⟩ := Chip.memWrite_fifo (bs.take k) 0 c
        exact ⟨d, by rw [h0]; exact e⟩
      · have hn : a.toNat ≠ 0 := fun e => h0 (BitVec.eq_of_toNat_eq e)
        have hl : (bs.take k).length ≤ bs.length := List.length_take_le' k bs
        obtain ⟨d, e, -⟩ := Chip.memWrite_regs a.toNat (bs.take k) 0 c hn
          (fun j hj => h.resolve_left h0 j (by omega))
        exact ⟨d, e⟩
    obtain ⟨d, e⟩ := hm
    exact ⟨_, _, Chip.frame_write c d a (bs.take k) ha e⟩

/-- The frequency burst stays on the three frequency registers (R171). -/
theorem safeFrame_frf (b2 b1 b0 : Byte) : SafeFrame [0x86, b2, b1, b0] :=
  safeFrame_write 0x06 [b2, b1, b0] rfl (.inr fun j hj => match j, hj with
    | 0, _ => ⟨.frfMsb, rfl⟩
    | 1, _ => ⟨.frfMid, rfl⟩
    | 2, _ => ⟨.frfLsb, rfl⟩)

/-- SpiXfer of a caller that may issue a frame completes or fails a frame that the chip never refuses (R70). -/
theorem State.spiXfer_safe (s : State) (r : Run) (out : List Byte) (h : s.CanFrame r) (hs : SafeFrame out) :
    (∃ inp t, s.spiXfer out = .ok inp t) ∨ ∃ t, s.spiXfer out = .fail t := by
  cases hb : s.bus with
  | ok =>
    obtain ⟨i, d, hf⟩ := hs.whole s.chip
    exact .inl ⟨i, _, by rw [s.spiXfer_ok r out h hb, hf]⟩
  | fail k =>
    obtain ⟨i, d, hf⟩ := hs s.chip k
    exact .inr ⟨_, by rw [s.spiXfer_fail r out k h hb, hf]⟩

/-! ### Calls that are never refused -/

section
variable {s : State} {r : Run} (h : s.CanFrame r)
include h

theorem readByteCall_not_refused (a : Byte) (ha : a.getLsbD 7 = false) (e : RefusalReason) :
    readByteCall a s ≠ .refuse e := by
  have hs : SafeFrame [commandByte false a, Config.cfg.dummy] := fun c k => by
    rw [commandByte_read a ha]
    exact c.frame_readOne_take a k ha
  unfold readByteCall
  rw [if_neg (by rw [ha]; decide)]
  rcases s.spiXfer_safe r _ h hs with ⟨i, t, hx⟩ | ⟨t, hx⟩ <;> rw [hx] <;> nofun

theorem readBlockCall_not_refused (n : Nat) (e : RefusalReason) : readBlockCall (regAddr .fifo) n s ≠ .refuse e := by
  have hs : SafeFrame (commandByte false (regAddr .fifo) :: List.replicate n Config.cfg.dummy) :=
    safeFrame_read 0 _ rfl (.inl rfl)
  unfold readBlockCall
  rw [if_neg (by decide)]
  rcases s.spiXfer_safe r _ h hs with ⟨i, t, hx⟩ | ⟨t, hx⟩ <;> rw [hx] <;> nofun

theorem writeByteCall_not_refused (q : Reg) (v : Byte) (e : RefusalReason) :
    writeByteCall (regAddr q) v s ≠ .refuse e := by
  have hs : SafeFrame [commandByte true (regAddr q), v] := fun c k => by
    rw [commandByte_write _ (regAddr_bit7 q)]
    exact c.frame_writeOne_take q v k
  unfold writeByteCall
  rw [if_neg (by rw [regAddr_bit7]; decide)]
  rcases s.spiXfer_safe r _ h hs with ⟨i, t, hx⟩ | ⟨t, hx⟩ <;> rw [hx] <;> nofun

theorem writeBlockCall_not_refused (a : Byte) (bs : List Byte) (ha : a.getLsbD 7 = false)
    (hs : SafeFrame ((0x80 ||| a) :: bs)) (e : RefusalReason) : writeBlockCall a bs s ≠ .refuse e := by
  rw [← commandByte_write a ha] at hs
  unfold writeBlockCall
  rw [if_neg (by rw [ha]; decide)]
  rcases s.spiXfer_safe r _ h hs with ⟨i, t, hx⟩ | ⟨t, hx⟩ <;> rw [hx] <;> nofun

end

/-- A call whose primitive, if it is one, has an address below 0x80, writes a register of the map, or bursts through the
FIFO port. -/
def SafeCall (i : Instr) : Prop :=
  match i with
  | .readByte a => a.getLsbD 7 = false
  | .readBlock a _ => a = regAddr .fifo
  | .writeByte a _ => ∃ q, a = regAddr q
  | .writeBlock a _ => a = regAddr .fifo
  | _ => True

/-- What an operation of the sequencer calls is safe: a dump by its checked range (R253), the others by their
pseudocode. -/
theorem callAt_safe {s : State} {r : Run} (h : Run.Ok s r) (t : State) : SafeCall (callAt r t) := by
  obtain ⟨-, -, hop⟩ := h
  cases ho : r.op <;> rw [ho] at hop <;> unfold callAt <;> rw [ho] <;> dsimp only
  case init hz pa crc => unfold initCallAt; split <;> trivial
  case send addr pay => unfold sendCallAt; split <;> first | exact ⟨_, rfl⟩ | trivial
  case dump x y =>
    obtain ⟨-, h1, h2⟩ := hop
    refine (bit7_clear_iff _).2 ?_
    rw [BitVec.toNat_add, BitVec.toNat_ofNat]
    omega
  case dispatch =>
    unfold dispatchCallAt
    split <;> first | exact ⟨_, rfl⟩ | trivial
  all_goals exact hop.elim

/-- A safe call's frame is not refused. -/
theorem callFrame_not_refused {s : State} {r : Run} (h : s.CanFrame r) (i : Instr) (k : Nat) (hi : SafeCall i)
    (e : RefusalReason) : callFrame i k s ≠ .refuse e := by
  cases i with
  | readByte a => exact readByteCall_not_refused h a hi e
  | readBlock a n => cases hi; exact readBlockCall_not_refused h n e
  | writeByte a v => obtain ⟨q, rfl⟩ := hi; exact writeByteCall_not_refused h q v e
  | writeBlock a bs => cases hi; exact writeBlockCall_not_refused h _ bs rfl (safeFrame_write 0 bs rfl (.inl rfl)) e
  | setMode m => exact writeByteCall_not_refused h .opMode _ e
  | setCarrierFrequency hz =>
    unfold callFrame setCarrierFrequencyCall
    dsimp only
    split
    · exact writeBlockCall_not_refused h _ _ rfl (safeFrame_frf _ _ _) e
    · nofun
  | setPowerAmplifier b => exact writeByteCall_not_refused h .paConfig _ e
  | enableRxCrc =>
    unfold callFrame enableRxCrcFrame
    dsimp only
    split
    · exact readByteCall_not_refused h _ rfl e
    · exact writeByteCall_not_refused h .modemConfig2 _ e
  | onReceiveComplete =>
    unfold callFrame onReceiveCompleteFrame
    dsimp only
    split
    case h_2 => exact writeByteCall_not_refused h .fifoAddrPtr _ e
    case h_4 => exact readBlockCall_not_refused h _ e
    all_goals exact readByteCall_not_refused h _ rfl e
  | onTransmitComplete =>
    unfold callFrame onTransmitCompleteFrame
    dsimp only
    split
    · exact writeByteCall_not_refused h .dioMapping1 _ e
    · exact writeByteCall_not_refused h .opMode _ e
  | reset => nofun
  | init _ _ _ => nofun
  | send _ _ => nofun
  | dump _ _ => nofun
  | dispatch => nofun

/-! ### The refusal mark over a step -/

/-- With the invariant, the running operation may issue a frame (R31, R39, R70). -/
theorem State.Inv.canFrame {s : State} (h : s.Inv) (r : Run) (hr : s.run = some r) : s.CanFrame r := by
  have hl : s.lock = s.run.map Run.ctx := h.lock
  exact ⟨hr, by rw [hl, hr, Option.map_some], (h.run r hr).2.1⟩

theorem closeOp_refused (s : State) : (closeOp s).refused = s.refused := by
  unfold closeOp
  split
  · exact (settle_env s).1
  · rfl

/-- No frame of a running operation is refused. -/
theorem State.Inv.frameStep_refused {s : State} (h : s.Inv) : (frameStep s).refused = s.refused := by
  cases hr : (settle s).run with
  | none =>
    unfold frameStep
    simp only [hr]
    exact (settle_env s).1
  | some r =>
    have hs := settle_inv h.mid
    have hi := callAt_safe (hs.run r hr) (settle s)
    rw [frameStep_running s r hr, closeOp_refused]
    rcases callFrame_cases (callAt r (settle s)) (settle s).loc.sub (settle s) with ⟨e, he⟩ | ⟨x, t, ht, hf⟩
    · exact absurd he (callFrame_not_refused (hs.canFrame r hr) _ _ hi e)
    · rw [State.issue_done _ _ _ t x ht, State.withGot, State.mapLoc_refused, hf.call.refused, (settle_env s).1]

theorem State.Inv.runOp_refused {s : State} (h : s.Inv) : (runOp s).refused = s.refused :=
  (State.drive_induct (P := fun u => u.Inv ∧ u.refused = s.refused) (fun _ => true) (fun t => frameStep t)
    (fun _ hu => ⟨frameStep_inv hu.1, hu.1.frameStep_refused.trans hu.2⟩)
    (fun _ b hu => ⟨hu.1.setBus b, hu.2⟩) (fun _ l hu => ⟨hu.1.setSchedule l, hu.2⟩) s.schedule (frameStep s)
    ⟨frameStep_inv h, h.frameStep_refused⟩).2

/-- The refusals that a command on the port can meet (R276): those of its decoding and of the boot flags. -/
def RefusalReason.ofPort : RefusalReason → Bool
  | .unknownCommand | .malformedCommand | .notReset | .notInitialised | .reinitWhileBusy => true
  | .badAddress | .noLock | .burstPastEnd | .unmappedWrite => false

/-- No refusal mark, or one that a command on the port can meet. -/
def State.PortRefusalOnly (s : State) : Prop := ∀ x, s.refused = some x → x.ofPort = true

theorem State.portRefusalOnly_of_none {s : State} (h : s.refused = none) : s.PortRefusalOnly :=
  fun x hx => by rw [h] at hx; cases hx

theorem State.PortRefusalOnly.refuse {s : State} (h : s.PortRefusalOnly) (x : RefusalReason) (hx : x.ofPort = true) :
    (s.refuse x).PortRefusalOnly := by
  intro y hy
  cases hs : s.refused with
  | none =>
    rw [s.refuse_of_none x hs] at hy
    cases hy
    exact hx
  | some z =>
    rw [s.refuse_of_some x z hs] at hy
    exact h y hy

section
variable {s t : State} (h : s.Inv) (hp : s.PortRefusalOnly)
include h hp

/-- The frames of a command that takes the lock are not refused. -/
theorem acquire_runOp_portRefusalOnly (i : Instr) (u : State) (hu : s.acquire .app i = some u)
    (hok : Run.Ok s ⟨.app, i, 0, Locals.fresh⟩) : (runOp u).PortRefusalOnly := by
  unfold State.PortRefusalOnly
  rw [(h.acquire i hu hok).runOp_refused]
  obtain ⟨-, rfl⟩ := s.acquire_eq_some u _ i hu
  exact hp

omit h in
theorem execReset_portRefusalOnly (he : execReset s = .next t) : t.PortRefusalOnly := by
  unfold execReset at he
  split at he <;> cases he
  · exact hp
  · rename_i u hu
    obtain ⟨-, rfl⟩ := s.acquire_eq_some u _ _ hu
    exact hp

theorem execInit_portRefusalOnly (hz : Word32) (pa crc : Bool) (he : execInit hz pa crc s = .next t) :
    t.PortRefusalOnly := by
  unfold execInit at he
  split at he
  · cases he; exact hp.refuse _ rfl
  rename_i hrd
  split at he
  · cases he; exact hp.refuse _ rfl
  split at he
  · cases he; exact hp
  split at he <;> cases he
  · exact hp
  · exact acquire_runOp_portRefusalOnly h hp _ _ (by assumption) ⟨rfl, by simpa using hrd, rfl⟩

theorem execSend_portRefusalOnly (a : Option (List Byte)) (p : List Byte) (he : execSend a p s = .next t) :
    t.PortRefusalOnly := by
  unfold execSend at he
  split at he
  · cases he; exact hp.refuse _ rfl
  rename_i hrd
  split at he
  · cases he; exact hp.refuse _ rfl
  split at he
  · cases he; exact hp
  rename_i u hu
  split at he <;> cases he
  · obtain ⟨-, rfl⟩ := s.acquire_eq_some u _ _ hu
    exact hp
  · exact acquire_runOp_portRefusalOnly h hp _ u hu ⟨rfl, by simpa using hrd, rfl⟩

theorem execDump_portRefusalOnly (x y : Byte) (he : execDump x y s = .next t) : t.PortRefusalOnly := by
  unfold execDump at he
  split at he
  · cases he; exact hp.refuse _ rfl
  rename_i hrd
  split at he
  · cases he; exact hp
  rename_i hrange
  split at he <;> cases he
  · exact hp
  · exact acquire_runOp_portRefusalOnly h hp (.dump x y) _ (by assumption)
      ⟨rfl, by simpa using hrd, rfl, by dsimp only; omega, by omega⟩

/-- A command refuses for a boot flag, before its lock (R276, R277); its frames are not refused. -/
theorem exec_portRefusalOnly {i : Instr} (hi : i.format = .hostCommand) (he : exec i s = .next t) :
    t.PortRefusalOnly := by
  cases i with
  | reset => exact execReset_portRefusalOnly hp he
  | init hz pa crc => exact execInit_portRefusalOnly h hp hz pa crc he
  | send a p => exact execSend_portRefusalOnly h hp a p he
  | dump x y => exact execDump_portRefusalOnly h hp x y he
  | _ => cases hi

end

theorem decodeRefusal_ofPort (e : DecodeError) : (decodeRefusal e).ofPort = true := by cases e <;> rfl

theorem State.chipTurn_refused (s : State) (e : ChipEvent) : (s.chipTurn e).refused = s.refused := by
  unfold State.chipTurn
  split <;> rfl

theorem State.TurnTo.portRefusalOnly {s t : State} (k : s.TurnTo t) (h : s.Inv) (hp : s.PortRefusalOnly) :
    t.PortRefusalOnly := by
  cases k with
  | waits => exact hp
  | presents c => exact hp
  | chip e => unfold State.PortRefusalOnly; rw [s.chipTurn_refused]; exact hp
  | resumes r _ hr he =>
    rw [h.resume r hr] at he
    cases he
    unfold State.PortRefusalOnly
    rw [h.frameStep_refused]
    exact hp
  | rejects c rest e hp' hd => exact hp.refuse _ (decodeRefusal_ofPort e)
  | commands c rest i _ hp' hd hl he => exact exec_portRefusalOnly (h.setPort rest) hp (decodeHost_format c i hd) he
  | dispatches _ hr he =>
    obtain rfl | ⟨hd, rfl⟩ := execDispatch_cases s t he
    · exact hp
    · unfold State.PortRefusalOnly
      rw [(h.enterDispatch (s.resetDone_of_dispatchEnabled hd)).runOp_refused]
      exact hp

/-- Settles O58: with the invariant no frame is refused, and a command's refusals are those of its decoding and of the
boot flags. -/
theorem unreachableRefusals : Obligations.UnreachableRefusals := by
  intro s t h hs
  obtain ⟨hn, l, n, b, k⟩ := step_turnTo s t hs
  have hp : t.PortRefusalOnly := k.portRefusalOnly (h.atTurn l n b) (State.portRefusalOnly_of_none hn)
  have ne : ∀ x : RefusalReason, x.ofPort = false → t.refused ≠ some x := fun x hx he => by
    cases hx.symm.trans (hp x he)
  exact ⟨ne _ rfl, ne _ rfl, ne _ rfl, ne _ rfl⟩

end Sys2Proof.Machine
end

section
/-! SUPPORT. The transport primitives on the registers: what they do with the byte (O12, O13, O15, O17), and what a
failed frame hands back (O18). -/

namespace Sys2Proof.Machine

/-- Settles O12: `readByteCall_reads` off the FIFO port, and `Chip.readTarget_fifo` on it. -/
theorem readByteReturnsTheRegister : Obligations.ReadByteReturnsTheRegister := by
  intro s r a h hb ha
  by_cases h0 : a = 0x00
  · subst h0
    have hcall := readByteCall_ok s r 0x00 h hb ha
    refine ⟨_, _, _, congrArg Host.Outcome.next (s.callOnce_afterCall r _ _ _ _ _ h.1 hcall), fun _ => rfl, ⟨rfl, rfl⟩,
      fun _ => ⟨rfl, Chip.reg_setReg_same _ _ _, Chip.RegsKept.setReg s.chip.draw.2 .fifoAddrPtr _⟩,
      fun hne => absurd rfl hne, fun q hq hr => absurd (regAddr_toNat_inj q .fifo ?_) hr.1⟩
    rw [← hq]
    rfl
  · obtain ⟨i, v, d, hk, hv, hcall⟩ := readByteCall_reads s r a h hb ha h0
    exact ⟨i, v, d, congrArg Host.Outcome.next (s.callOnce_afterCall r _ _ _ _ _ h.1 hcall), hk.fifo, hk.radio,
      fun e => absurd e h0, fun _ => hk.regs _, hv⟩

/-! ### A write of the op-mode register -/

/-- The LoRa bit and the Transmit code, in one mask (R44, R115). -/
theorem transmit_mask (v : Byte) : (loraBit v = true ∧ modeField v = modeCode .transmit) ↔ v &&& 0x87 = 0x83 := by
  revert v; decide

/-- The packet captured: as many cells as PayloadLength says, from the base on (R283). -/
theorem Chip.fifoSlice_getElem? (c : Chip) (b : Byte) (n k : Nat) (hk : k < n) :
    (c.fifoSlice b n)[k]? = some (c.fifoCell (b + BitVec.ofNat 8 k)) := by
  simp [Chip.fifoSlice, hk]

theorem Chip.fifoSlice_length (c : Chip) (b : Byte) (n : Nat) : (c.fifoSlice b n).length = n := by
  simp [Chip.fifoSlice]

/-- What a write of the op-mode register does (R77, R283). -/
theorem Chip.writeReg_opMode (c : Chip) (v : Byte) :
    (v &&& 0x07 ≠ 0x00 → Chip.FifoKept c (c.writeReg .opMode v)) ∧
    (v &&& 0x87 ≠ 0x83 → (c.writeReg .opMode v).txPkt = none) ∧
    (v &&& 0x87 = 0x83 → ∃ pkt, (c.writeReg .opMode v).txPkt = some pkt ∧
      pkt.length = (c.reg .payloadLength).toNat ∧
      ∀ k, k < pkt.length → pkt[k]? = some (c.fifoCell (c.reg .fifoTxBaseAddr + BitVec.ofNat 8 k))) := by
  obtain ⟨-, -, -, -, -, -, hw⟩ := c.writeReg_spec .opMode v (by decide)
  obtain ⟨-, -, hfifo, hnone, hsome⟩ := (c.setReg .opMode v).modeWritten_spec v
  rw [(hw rfl).2]
  refine ⟨hfifo, fun hv => hnone ((transmit_mask v).not.2 hv), fun hv => ?_⟩
  obtain ⟨hl, hm⟩ := (transmit_mask v).2 hv
  refine ⟨_, hsome hl hm, ?_, fun k hk => ?_⟩
  · rw [Chip.fifoSlice_length, Chip.reg_setReg_other _ _ _ _ (by decide)]
  · rw [Chip.fifoSlice_length] at hk
    rw [Chip.fifoSlice_getElem? _ _ _ _ hk, Chip.reg_setReg_other _ _ _ _ (by decide)]
    rfl

/-- Settles O13: `Chip.writeFifoPort` on the FIFO port, and `Chip.writeReg_spec` on the other registers. -/
theorem writeByteWritesTheRegister : Obligations.WriteByteWritesTheRegister := by
  intro s r q v h hb
  by_cases hq : q = .fifo
  · subst hq
    obtain ⟨i0, i1, d, hk, hcall⟩ := writeByteCall_ok s r (regAddr .fifo) v _ h hb rfl (s.chip.writeTarget_fifo v)
    have hcell : ∀ i, d.fifoCell i = if i = s.chip.reg .fifoAddrPtr then v else s.chip.fifoCell i := fun i =>
      (hk.fifo i).trans (s.chip.fifoCell_setFifoCell _ i v)
    refine ⟨i0, i1, d, congrArg Host.Outcome.next (s.callOnce_afterCall r _ _ _ _ _ h.1 hcall), hk.radio.2,
      fun _ => ⟨by rw [hcell, if_pos rfl], fun i hi => by rw [hcell, if_neg hi],
        (hk.reg _).trans (Chip.reg_setReg_same _ _ _),
        (Chip.RegsKept.setReg (s.chip.setFifoCell _ v) .fifoAddrPtr _).trans (hk.regs _)⟩,
      fun hne => absurd rfl hne, fun hne => absurd rfl hne, fun _ => hk.radio.1, ?_, ?_, ?_, ?_⟩
    · nofun
    · nofun
    · exact fun hs => by cases hs.1
    · nofun
  · obtain ⟨i0, i1, d, hk, hcall⟩ := writeByteCall_writes s r q v h hb hq
    obtain ⟨hregs, hair, hkeep, hflags, hro, hstore, hmode⟩ := s.chip.writeReg_spec q v hq
    refine ⟨i0, i1, d, congrArg Host.Outcome.next (s.callOnce_afterCall r _ _ _ _ _ h.1 hcall), hk.radio.2.trans hair,
      fun e => absurd e hq, fun _ => hregs.trans (hk.regs _), fun _ hm => (hkeep hm).1.trans hk.fifo,
      fun hm => hk.radio.1.trans (hkeep hm).2, fun e => (hk.reg q).trans (hflags e), fun e => (hk.reg q).trans (hro e),
      fun e => (hk.reg q).trans (hstore e), fun e => ?_⟩
    subst e
    obtain ⟨hfifo, hnone, hsome⟩ := s.chip.writeReg_opMode v
    refine ⟨(hk.reg _).trans (hmode rfl).1, fun hv => (hfifo hv).trans hk.fifo, fun hv => hk.radio.1.trans (hnone hv),
      fun hv => ?_⟩
    rw [hk.radio.1]
    exact hsome hv

/-! ### Bursts over the registers -/

/-- Settles O15: the burst of `Chip.memRead_regs`, in the frame that readBlock issues. -/
theorem readBlockReadsTheRegisters : Obligations.ReadBlockReadsTheRegisters := by
  intro s r a n h hb ha h0 hn
  have hdraw := Chip.SameBut.draw s.chip
  obtain ⟨vs, d, hm, hl, hk, hv⟩ := Chip.memRead_regs a.toNat n 0 s.chip.draw.2
    (fun e => h0 (BitVec.eq_of_toNat_eq e)) (by omega)
  have hcall := readBlockCall_ok s r a n vs d h hb ha hm
  have hd := hdraw.trans hk
  exact ⟨s.chip.draw.1, vs, d, congrArg Host.Outcome.next (s.callOnce_afterCall r _ _ _ _ _ h.1 hcall), hl,
    fun k q hk hq hr => hv k q hk hq hr, hd.regs _, hd.fifo, hd.radio⟩

/-- Settles O17: the burst of `Chip.memWrite_regs`, in the frame that writeBlock issues. -/
theorem writeBlockWritesTheRegisters : Obligations.WriteBlockWritesTheRegisters := by
  intro s r a bs h hb ha h0 hmap
  have hn : a.toNat ≠ 0 := fun e => h0 (BitVec.eq_of_toNat_eq e)
  obtain ⟨d, hm, hair, hout, hkeep, hval⟩ := Chip.memWrite_regs a.toNat bs 0 s.chip hn hmap
  obtain ⟨inp, e, hl, hk, hcall⟩ := writeBlockCall_ok s r a bs d h hb ha hm
  refine ⟨inp, e, congrArg Host.Outcome.next (s.callOnce_afterCall r _ _ _ _ _ h.1 hcall), hl,
    fun x hx => (hk.regAtAddr x).trans (hout x hx), fun k q v hq hv => ?_, fun h1 => ?_, hk.radio.2.trans hair⟩
  · rw [hk.reg q]
    exact hval k q v hq hv
  · have hn1 : a.toNat ≠ 1 := fun e => h1 (BitVec.eq_of_toNat_eq e)
    obtain ⟨hf, hr⟩ := hkeep (by omega)
    exact ⟨hf.trans hk.fifo, hr.trans hk.radio⟩

/-! ### A failed frame -/

/-- Settles O18: each primitive's failed frame, and what is processed of a frame when no data byte is. -/
theorem failedFrameRaisesTransportError : Obligations.FailedFrameRaisesTransportError := by
  intro s r a k h hb ha
  refine ⟨?_, fun v i d hf => ?_, fun n i d hf => ?_, fun bs i d hf => ?_, fun hk out => ?_⟩
  · obtain ⟨i, d, hf⟩ := s.chip.frame_readOne_take a k ha
    exact ⟨i, d, hf, congrArg Host.Outcome.next
      (s.callOnce_afterCall r _ _ _ _ _ h.1 (readByteCall_fail s r a k i d h hb ha hf))⟩
  · exact congrArg Host.Outcome.next
      (s.callOnce_afterCall r _ _ _ _ _ h.1 (writeByteCall_fail s r a v k i d h hb ha hf))
  · exact congrArg Host.Outcome.next
      (s.callOnce_afterCall r _ _ _ _ _ h.1 (readBlockCall_fail s r a n k i d h hb ha hf))
  · exact congrArg Host.Outcome.next
      (s.callOnce_afterCall r _ _ _ _ _ h.1 (writeBlockCall_fail s r a bs k i d h hb ha hf))
  · obtain ⟨i, d, hf, hd⟩ := s.chip.frame_take_le_one out k hk
    exact ⟨i, d, hf, hd.regs _, hd.fifo, hd.radio⟩

end Sys2Proof.Machine
end

section
/-! SUPPORT. When a primitive is refused (R112, R70, R80), then O19. -/

namespace Sys2Proof.Machine

/-! ### SpiXfer's refusals -/

/-- A frame by a context that does not hold the lock (R70, R73). -/
theorem State.spiXfer_noLock (s : State) (out : List Byte) (h : ∀ r, s.run = some r → s.lock ≠ some r.ctx) :
    s.spiXfer out = .refuse .noLock := by
  unfold State.spiXfer
  split
  · rfl
  · rw [if_pos (h _ (by assumption))]

/-- A frame before the first RESET (R70, R250). -/
theorem State.spiXfer_notReset (s : State) (r : Run) (out : List Byte) (hr : s.run = some r)
    (hl : s.lock = some r.ctx) (hd : s.resetDone = false) : s.spiXfer out = .refuse .notReset := by
  unfold State.spiXfer
  simp [hr, hl, hd]

/-- A frame that the chip refuses (R80). -/
theorem State.spiXfer_refused (s : State) (r : Run) (out : List Byte) (e : RefusalReason) (h : s.CanFrame r)
    (hb : s.bus = .ok) (hf : s.chip.frame out = .error e) : s.spiXfer out = .refuse e := by
  rw [s.spiXfer_ok r out h hb, hf]

/-- A burst that walks onto an address the map does not name, and stays below 0x80 (R80). -/
theorem Chip.memWrite_unmapped (a : Nat) (bs : List Byte) (k j : Nat) (c : Chip) (ha : a ≠ 0)
    (hl : a + k + bs.length ≤ 128) (hj : j < bs.length) (hu : ∀ q, a + k + j ≠ (regAddr q).toNat) :
    Chip.memWrite a k bs c = .error .unmappedWrite := by
  induction bs generalizing k j c with
  | nil => cases hj
  | cons v vs ih =>
    simp only [List.length_cons] at hl hj
    unfold Chip.memWrite
    rw [frameTarget_reg a k ha (by omega)]
    by_cases hm : ∃ q, a + k = (regAddr q).toNat
    · obtain ⟨q, hq⟩ := hm
      have hf : q ≠ .fifo := fun e => by
        subst e
        have h0 : (regAddr .fifo).toNat = 0 := rfl
        omega
      have hj0 : j ≠ 0 := fun e => hu q (by rw [e]; exact hq)
      dsimp only
      rw [hq, c.writeTarget_reg q v hf]
      exact ih (k + 1) (j - 1) _ (by omega) (by omega) fun q' e => hu q' (by omega)
    · dsimp only
      rw [c.writeTarget_unmapped (a + k) v (by simpa using hm)]

/-- A write frame whose walk is refused, below 0x80. -/
theorem Chip.frame_write_error (c : Chip) (a : Byte) (bs : List Byte) (e : RefusalReason) (ha : a.getLsbD 7 = false)
    (hl : a.toNat + bs.length ≤ 128) (hm : Chip.memWrite a.toNat 0 bs c = .error e) :
    c.frame ((0x80 ||| a) :: bs) = .error e := by
  unfold Chip.frame
  simp only [write_bit7, if_true, frameAddr_write a ha, walksPastEnd_of_le _ _ hl, hm, Bool.false_eq_true, if_false]

/-! ### The primitives' refusals -/

section
variable {s : State} (hn : s.refused = none) {a : Byte}
include hn

/-- A call that is refused sets the mark and nothing else (R276). -/
theorem State.callOnce_sets_mark (f : State → CallRes) (e : RefusalReason) (h : f s = .refuse e) :
    s.callOnce f = { s with refused := some e } := by
  rw [State.callOnce_refuse s f e h, s.refuse_of_none e hn]

/-- An address with bit 7 set (R112). -/
theorem exec_badAddress (ha : a.getLsbD 7 = true) (v : Byte) (n : Nat) (bs : List Byte) :
    exec (.readByte a) s = .next { s with refused := some .badAddress } ∧
    exec (.readBlock a n) s = .next { s with refused := some .badAddress } ∧
    exec (.writeByte a v) s = .next { s with refused := some .badAddress } ∧
    exec (.writeBlock a bs) s = .next { s with refused := some .badAddress } :=
  ⟨congrArg _ (State.callOnce_sets_mark hn _ _ (if_pos ha)), congrArg _ (State.callOnce_sets_mark hn _ _ (if_pos ha)),
    congrArg _ (State.callOnce_sets_mark hn _ _ (if_pos ha)), congrArg _ (State.callOnce_sets_mark hn _ _ (if_pos ha))⟩

variable (ha : a.getLsbD 7 = false) {e : RefusalReason}
include ha

theorem exec_readByte_refused (hx : s.spiXfer [commandByte false a, Config.cfg.dummy] = .refuse e) :
    exec (.readByte a) s = .next { s with refused := some e } := by
  refine congrArg _ (State.callOnce_sets_mark hn _ _ ?_)
  unfold readByteCall
  rw [if_neg (by rw [ha]; decide), hx]

theorem exec_readBlock_refused (n : Nat)
    (hx : s.spiXfer (commandByte false a :: List.replicate n Config.cfg.dummy) = .refuse e) :
    exec (.readBlock a n) s = .next { s with refused := some e } := by
  refine congrArg _ (State.callOnce_sets_mark hn _ _ ?_)
  unfold readBlockCall
  rw [if_neg (by rw [ha]; decide), hx]

theorem exec_writeByte_refused (v : Byte) (hx : s.spiXfer [commandByte true a, v] = .refuse e) :
    exec (.writeByte a v) s = .next { s with refused := some e } := by
  refine congrArg _ (State.callOnce_sets_mark hn _ _ ?_)
  unfold writeByteCall
  rw [if_neg (by rw [ha]; decide), hx]

theorem exec_writeBlock_refused (bs : List Byte) (hx : s.spiXfer (commandByte true a :: bs) = .refuse e) :
    exec (.writeBlock a bs) s = .next { s with refused := some e } := by
  refine congrArg _ (State.callOnce_sets_mark hn _ _ ?_)
  unfold writeBlockCall
  rw [if_neg (by rw [ha]; decide), hx]

/-- What SpiXfer refuses whatever the frame, it refuses to each primitive. -/
theorem exec_primitives_refused (hx : ∀ out, s.spiXfer out = .refuse e) (v : Byte) (n : Nat) (bs : List Byte) :
    exec (.readByte a) s = .next { s with refused := some e } ∧
    exec (.readBlock a n) s = .next { s with refused := some e } ∧
    exec (.writeByte a v) s = .next { s with refused := some e } ∧
    exec (.writeBlock a bs) s = .next { s with refused := some e } :=
  ⟨exec_readByte_refused hn ha (hx _), exec_readBlock_refused hn ha n (hx _), exec_writeByte_refused hn ha v (hx _),
    exec_writeBlock_refused hn ha bs (hx _)⟩

end

/-- Settles O19: the address, then SpiXfer's own refusals, then the chip's. -/
theorem primitiveRefusals : Obligations.PrimitiveRefusals := by
  intro s a v n bs hn
  have hne : a ≠ 0x00 → a.toNat ≠ 0 := fun h0 e => h0 (BitVec.eq_of_toNat_eq e)
  refine ⟨fun ha => exec_badAddress hn ha v n bs,
    fun ha hl => exec_primitives_refused hn ha (fun out => s.spiXfer_noLock out hl) v n bs,
    fun r ha hr hl hd => exec_primitives_refused hn ha (fun out => s.spiXfer_notReset r out hr hl hd) v n bs,
    fun r h hb ha hu => exec_writeByte_refused hn ha v (s.spiXfer_refused r _ _ h hb ?_),
    fun r h hb ha h0 hp => exec_readBlock_refused hn ha n (s.spiXfer_refused r _ _ h hb ?_),
    fun r h hb ha h0 hp => exec_writeBlock_refused hn ha bs (s.spiXfer_refused r _ _ h hb ?_),
    fun r k h hb ha h0 hl hk hu => exec_writeBlock_refused hn ha bs (s.spiXfer_refused r _ _ h hb ?_)⟩
  · rw [commandByte_write a ha, Chip.frame_writeOne _ _ _ ha,
      s.chip.writeTarget_unmapped a.toNat v fun q e => hu q (BitVec.eq_of_toNat_eq e)]
  · rw [commandByte_read a ha]
    exact s.chip.frame_past a _ (by rw [frameAddr_read a ha]; exact h0)
      (by rw [frameAddr_read a ha, List.length_replicate]; exact hp)
  · rw [commandByte_write a ha]
    exact s.chip.frame_past _ bs (by rw [frameAddr_write a ha]; exact h0) (by rw [frameAddr_write a ha]; exact hp)
  · rw [commandByte_write a ha]
    exact s.chip.frame_write_error a bs _ ha hl (Chip.memWrite_unmapped a.toNat bs 0 k _ (hne h0) (by omega) hk hu)

end Sys2Proof.Machine
end

section
/-! SUPPORT. What is written is read back (R92): O20 and O21. -/

namespace Sys2Proof.Machine

/-- The running operation after a call, with what the call handed back. -/
def Run.took (r : Run) (x : Ret) : Run := { r with loc := { r.loc with sub := 0, ret := some x } }

/-- After a call the running operation may issue a further frame. -/
theorem State.CanFrame.afterCall {s : State} {r : Run} (h : s.CanFrame r) (out : List Byte) (inp : Option (List Byte))
    (c : Chip) (x : Ret) : (s.afterCall r out inp c x).CanFrame (r.took x) :=
  ⟨rfl, h.2.1, h.2.2⟩

/-- Settles O20: O13's write, then O12's read. -/
theorem storageRoundTrip : Obligations.StorageRoundTrip := by
  intro s r q v h hb hs hread
  have hm : q ≠ .opMode := fun e => by subst e; cases hs.1
  obtain ⟨i0, i1, d, ht, -, -, hregs, -, -, -, -, hstore, -⟩ := writeByteWritesTheRegister s r q v h hb
  have hread' : d.Readable q := ⟨hread.1, fun hp => by
    unfold Chip.InLoRa
    rw [(hregs hread.1).reg .opMode (by simpa using Ne.symm hm)]
    exact hread.2 hp⟩
  obtain ⟨v0, w, d', hu, -, -, -, -, hval⟩ := readByteReturnsTheRegister _ _ (regAddr q)
    (h.afterCall [0x80 ||| regAddr q, v] (some [i0, i1]) d (.bytes [])) hb (regAddr_bit7 q)
  refine ⟨_, _, ht, hu, ?_⟩
  have hw : w = v := (hval q rfl hread').trans (hstore hs)
  rw [hw]
  rfl

/-- Settles O21: O13's write of the pointer, O16's burst, the pointer again, and O14's drain. -/
theorem fifoRoundTrip : Obligations.FifoRoundTrip := by
  intro s r p bs h hb hl
  have hptr : ∀ c : Chip, c.Stores .fifoAddrPtr := fun c => ⟨rfl, nofun⟩
  obtain ⟨i1, j1, d1, h1, -, -, -, -, -, -, -, hp1, -⟩ := writeByteWritesTheRegister s r .fifoAddrPtr p h hb
  have c1 := h.afterCall [0x80 ||| regAddr .fifoAddrPtr, p] (some [i1, j1]) d1 (.bytes [])
  obtain ⟨l2, d2, h2, -, hcell, -⟩ := writeBlockFillsTheFifo _ _ bs c1 hb
  have c2 := c1.afterCall (0x80 :: bs) (some l2) d2 (.bytes [])
  obtain ⟨i3, j3, d3, h3, -, -, -, hfifo, -, -, -, hp3, -⟩ := writeByteWritesTheRegister _ _ .fifoAddrPtr p c2 hb
  have c3 := c2.afterCall [0x80 ||| regAddr .fifoAddrPtr, p] (some [i3, j3]) d3 (.bytes [])
  obtain ⟨i4, vs, d4, h4, hlen, hv, -⟩ := readBlockDrainsTheFifo _ _ bs.length c3 hb
  refine ⟨_, _, _, _, h1, h2, h3, h4, ?_⟩
  have hp1 : d1.reg .fifoAddrPtr = p := hp1 (hptr _)
  have hp3 : d3.reg .fifoAddrPtr = p := hp3 (hptr _)
  have hvs : vs = bs := List.ext_getElem? fun k => by
    by_cases hk : k < bs.length
    · have hd : d3.fifoCell (p + BitVec.ofNat 8 k) = d2.fifoCell (p + BitVec.ofNat 8 k) :=
        hfifo (by decide) (by decide) _
      have hw : vs[k]? = some (d3.fifoCell (d3.reg .fifoAddrPtr + BitVec.ofNat 8 k)) := hv k hk
      have hb2 : some (d2.fifoCell (d1.reg .fifoAddrPtr + BitVec.ofNat 8 k)) = bs[k]? := hcell k hk (by omega)
      rw [hw, hp3, hd, ← hb2, hp1]
    · rw [List.getElem?_eq_none (by omega), List.getElem?_eq_none (by omega)]
  rw [hvs]
  rfl

end Sys2Proof.Machine
end

section
/-! SUPPORT. The frequency word (R116), the two internal operations that are one primitive each (R171, R172), then O24,
O26, O29 and O10. -/

namespace Sys2Proof.Machine

/-! ### The frequency word -/

/-- The word fits 24 bits (R116). -/
theorem frfValid_iff (hz : Nat) : frfValid hz = true ↔ hz * 524288 / 32000000 < 2 ^ 24 := by
  unfold frfValid
  rw [decide_eq_true_iff]
  rfl

/-- The range of R116 in hertz, at the default oscillator. -/
theorem frfValid_iff_hz (hz : Nat) : frfValid hz = true ↔ hz < 1024000000 := by
  rw [frfValid_iff]
  omega

/-- The three bytes of the word, most significant first (R116, R81). -/
theorem frfBytes_eq (hz frf : Nat) (b2 b1 b0 : Byte) (hf : frf = hz * 524288 / 32000000)
    (h2 : b2.toNat = frf / 65536 % 256) (h1 : b1.toNat = frf / 256 % 256) (h0 : b0.toNat = frf % 256) :
    frfBytes hz = [b2, b1, b0] := by
  have e : ∀ (n : Nat) (b : Byte), b.toNat = n % 256 → BitVec.ofNat 8 n = b := fun n b hb =>
    BitVec.eq_of_toNat_eq (by rw [BitVec.toNat_ofNat, hb])
  subst hf
  unfold frfBytes
  rw [e (frfWord hz / 2 ^ 16) b2 h2, e (frfWord hz / 2 ^ 8) b1 h1, e (frfWord hz) b0 h0]

/-! ### Operations of one primitive -/

/-- setPowerAmplifier is writeByte of the PA-config register (R172). -/
theorem exec_setPowerAmplifier (boost : Bool) (s : State) :
    exec (.setPowerAmplifier boost) s = exec (.writeByte (regAddr .paConfig) (paValue boost)) s := rfl

/-- setCarrierFrequency of a word that fits is writeBlock from the first frequency register on (R171). -/
theorem exec_setCarrierFrequency (hz : Nat) (s : State) (hv : frfValid hz = true) :
    exec (.setCarrierFrequency hz) s = exec (.writeBlock (regAddr .frfMsb) (frfBytes hz)) s := by
  have hc : (fun t => setCarrierFrequencyCall hz t) = fun t => writeBlockCall (regAddr .frfMsb) (frfBytes hz) t :=
    funext fun t => if_pos hv
  exact congrArg (fun f => Host.Outcome.next (s.callOnce f)) hc

/-- The frequency and PA registers store what is written in Sleep and Standby (R79). -/
theorem Chip.InSleepOrStandby.stores {c : Chip} (h : c.InSleepOrStandby) {q : Reg} (hq : sleepOnlyReg q = true) :
    c.Stores q :=
  ⟨by revert hq; cases q <;> decide, fun _ => h⟩

/-- The frequency burst walks over the frequency registers. -/
theorem frf_mapped (k : Nat) (hk : k < 3) : ∃ q, (0x06 : Byte).toNat + k = (regAddr q).toNat := by
  match k, hk with
  | 0, _ => exact ⟨.frfMsb, rfl⟩
  | 1, _ => exact ⟨.frfMid, rfl⟩
  | 2, _ => exact ⟨.frfLsb, rfl⟩

/-- Settles O26: O13's write of the PA-config register, and O18's failed one. -/
theorem setPowerAmplifierWrites : Obligations.SetPowerAmplifierWrites := by
  intro s r boost v h hv
  have hpa : paValue boost = v := hv.symm
  rw [exec_setPowerAmplifier, hpa]
  refine ⟨fun hb => ?_, fun k hb => ?_⟩
  · obtain ⟨i0, i1, d, he, hair, -, hregs, hfifo, htx, -, -, hstore, -⟩ :=
      writeByteWritesTheRegister s r .paConfig v h hb
    exact ⟨i0, i1, d, he, hregs (by decide), hfifo (by decide) (by decide), ⟨htx (by decide), hair⟩,
      fun hm => hstore (hm.stores rfl)⟩
  · obtain ⟨i, d, hf⟩ := s.chip.frame_writeOne_take .paConfig v k
    obtain ⟨-, hw, -⟩ := failedFrameRaisesTransportError s r (regAddr .paConfig) k h hb rfl
    exact ⟨i, d, hf, hw v i d hf⟩

/-- Settles O24: O17's burst over the frequency registers, O18's failed one, and the error before any frame. -/
theorem setCarrierFrequencyBurst : Obligations.SetCarrierFrequencyBurst := by
  intro s r hz frf b2 b1 b0 h hf h2 h1 h0
  have hbytes := frfBytes_eq hz frf b2 b1 b0 hf h2 h1 h0
  have hvalid : frf < 2 ^ 24 →
      exec (.setCarrierFrequency hz) s = exec (.writeBlock 0x06 [b2, b1, b0]) s := fun hlt => by
    rw [exec_setCarrierFrequency hz s ((frfValid_iff hz).2 (hf ▸ hlt)), hbytes]
    rfl
  refine ⟨fun hlt hb => ?_, fun hlt k hb => ?_, fun hge => ?_⟩
  · obtain ⟨inp, d, he, hl, hout, hval, hkeep, -⟩ :=
      writeBlockWritesTheRegisters s r 0x06 [b2, b1, b0] h hb rfl (by decide) frf_mapped
    obtain ⟨hfifo, hradio⟩ := hkeep (by decide)
    refine ⟨inp, d, (hvalid hlt).trans he, hl, fun x hx => hout x ?_, hfifo, hradio, fun hm => ⟨?_, ?_, ?_⟩⟩
    · have e6 : x ≠ 6 := hx .frfMsb (by decide)
      have e7 : x ≠ 7 := hx .frfMid (by decide)
      have e8 : x ≠ 8 := hx .frfLsb (by decide)
      have h6 : (0x06 : Byte).toNat = 6 := rfl
      simp only [List.length_cons, List.length_nil]
      omega
    · exact (hval 0 .frfMsb b2 rfl rfl).1 (hm.stores rfl)
    · exact (hval 1 .frfMid b1 rfl rfl).1 (hm.stores rfl)
    · exact (hval 2 .frfLsb b0 rfl rfl).1 (hm.stores rfl)
  · obtain ⟨i, d, hfr⟩ := safeFrame_frf b2 b1 b0 s.chip k
    obtain ⟨-, -, -, hw, -⟩ := failedFrameRaisesTransportError s r 0x06 k h hb rfl
    exact ⟨i, d, hfr, (hvalid hlt).trans (hw _ i d hfr)⟩
  · have hinv : frfValid hz ≠ true := fun hv => by
      have := (frfValid_iff hz).1 hv
      omega
    refine congrArg Host.Outcome.next ((State.callOnce_done s s _ (.err (.argument .frequency)) (if_neg hinv)).trans ?_)
    unfold State.mapLoc
    rw [h.1]

/-! ### Commands that end or wait before their lock -/

/-- Settles O29: the frequency check comes before the lock (R176, R272). -/
theorem initArgumentError : Obligations.InitArgumentError := by
  intro s hz pa crc hrd hb hge
  have hinv : frfValid hz.toNat = false := by
    rw [Bool.eq_false_iff, Ne, frfValid_iff_hz]
    omega
  have he : exec (.init hz pa crc) s = .next (s.returnResult (.error (.argument .frequency))).edgeSample := by
    simp only [exec, execInit, hrd, hb, hinv, Bool.not_true, Bool.not_false, Bool.false_eq_true, if_false, if_true]
  exact he

/-- Settles O10: the command has passed its checks, so it reaches its acquire and holds (R85). -/
theorem commandWaitsForTheLock : Obligations.CommandWaitsForTheLock := by
  intro s b ts c rest i hn hs hrun hl hp hd hrd hinit hsend hdump
  have hreach : reachesAcquire i { s with schedule := ts, bus := b } = true := by
    have hformat := decodeHost_format c i hd
    cases i with
    | reset => rfl
    | init hz pa crc =>
      obtain ⟨hb, hlt⟩ := hinit hz pa crc rfl
      have hv := (frfValid_iff_hz hz.toNat).2 hlt
      simp only [reachesAcquire, hrd, hb, hv, Bool.not_false, Bool.and_self]
    | send a p =>
      have hi := hsend a p rfl
      simp only [reachesAcquire, hrd, hi, Bool.and_self]
    | dump x y =>
      obtain ⟨hxy, hy⟩ := hdump x y rfl
      simp only [reachesAcquire, hrd, hxy, hy, decide_true, Bool.and_self]
    | _ => cases hformat
  rw [step_turn s (.app b) ts hn hs]
  exact (State.appTurn_host { s with schedule := ts, bus := b } hrun).trans
    (State.hostStep_holds _ c rest i hp hd (by rw [hl]; rfl) hreach)

end Sys2Proof.Machine
end

section
/-! SUPPORT. An operation that starts, as a run of frames with the actions at once: how it completes over its own turns,
and how it ends with a failed frame (R93, R271). -/

namespace Sys2Proof.Machine

/-! ### Runs over own turns -/

/-- Over the turns `l` of the schedule, whatever the turns after them, the frames lead from `s` to `t`. -/
def State.Goes (l : List Turn) (s t : State) : Prop :=
  ∀ ts, State.drive (fun _ => true) eagerStep (l ++ ts) s = State.drive (fun _ => true) eagerStep ts t

theorem State.Goes.refl (s : State) : State.Goes [] s s := fun _ => rfl

theorem State.Goes.trans {l m : List Turn} {s t u : State} (h : State.Goes l s t) (g : State.Goes m t u) :
    State.Goes (l ++ m) s u := fun ts => by
  rw [List.append_assoc, h, g]

/-- An own turn is one frame of the running operation. -/
theorem State.Goes.one {s : State} {r : Run} {t : Turn} (hr : s.run = some r) (hb : s.bus = .ok)
    (hn : s.refused = none) (ht : OwnTurn r.ctx t) : State.Goes [t] s (eagerStep s) :=
  fun ts => drive_own s r t ts hr hb hn ht

/-- The host command `i` has taken the lock and issued no frame yet (R85, R39). -/
def State.started (s : State) (i : Instr) : State :=
  { s with lock := some .app, run := some ⟨.app, i, 0, Locals.fresh⟩ }

theorem State.started_canFrame (s : State) (i : Instr) (h : s.resetDone = true) :
    (s.started i).CanFrame ⟨.app, i, 0, Locals.fresh⟩ := ⟨rfl, rfl, h⟩

theorem State.started_settled (s : State) (i : Instr) : (s.started i).Settled := ⟨rfl, rfl⟩

/-- A command whose frames lead to its end over the turns `l`. -/
theorem exec_completes {i : Instr} {s t : State} {l rest : List Turn} (hg : startsFrames i s = true)
    (hl : s.lock = none) (hs : s.schedule = l ++ rest) (hgo : State.Goes l (eagerStep (s.started i)) t)
    (ht : t.run = none) : exec i s = .next { t with schedule := rest } := by
  rw [exec_starts hg hl]
  refine congrArg _ (runOp_eq_of_eager (s.started i) _ (s.started_settled i) ?_ ht)
  show State.drive _ _ s.schedule _ = _
  rw [hs, hgo, State.drive_idle _ _ _ _ ht]

/-! ### A failed frame -/

/-- The state after the failed frame `out` of the running operation, before what the operation makes of the error. -/
def State.failedFrame (s : State) (r : Run) (out : List Byte) (d : Chip) (e : Err) : State :=
  { s with chip := d, cs := false, busTrace := s.busTrace ++ [{ ctx := r.ctx, out := out, inp := none }],
           edgePending := s.edgePending || (d.dio0 && !s.lineLast), lineLast := d.dio0,
           mode := modeAfterErr (callAt r s) r.loc.sub s.mode,
           run := some { r with loc := { r.loc with sub := 0, got := none, ret := some (.err e) } } }

/-- A started command whose first frame fails, where the command ends with the error. -/
theorem exec_firstFrame_fails {i : Instr} {s u : State} {e : Err} {out : List Byte} {d : Chip}
    (hg : startsFrames i s = true) (hl : s.lock = none)
    (hf : callFrame (callAt ⟨.app, i, 0, Locals.fresh⟩ (s.started i)) 0 (s.started i) =
      .done (.err e) ((s.started i).frameDone .app out none d))
    (hu : opReturn ⟨.app, i, 0, { Locals.fresh with ret := some (.err e) }⟩ (.err e)
      ((s.started i).failedFrame ⟨.app, i, 0, Locals.fresh⟩ out d e) = u) (hun : u.run = none) :
    exec i s = .next u := by
  have hsettle := (settle_failed (s.started i) ⟨.app, i, 0, Locals.fresh⟩ out d e rfl).trans hu
  have hrun : (settle (s.started i)).run = some ⟨.app, i, 0, Locals.fresh⟩ := by
    rw [settle_of_settled _ (s.started_settled i)]
    rfl
  have hframe : frameStep (s.started i) = u := by
    rw [frameStep_running _ _ hrun, settle_of_settled _ (s.started_settled i), State.issue_done _ _ _ _ _ hf]
    exact (closeOp_of_ended _ ((congrArg State.run hsettle).trans hun)).trans hsettle
  have hsched : u.schedule = s.schedule := by
    rw [← hu]
    exact (opReturn_env _ _ _).2.2
  rw [exec_starts hg hl]
  refine congrArg _ ?_
  show State.drive _ _ s.schedule (frameStep (s.started i)) = u
  rw [hframe, State.drive_idle _ _ _ _ hun, ← hsched]

/-! ### Calls of one frame -/

/-- A call whose frame is its only one (R150–R153, R170–R172). -/
def oneFrame (i : Instr) : Bool :=
  match i with
  | .readByte _ | .readBlock _ _ | .writeByte _ _ | .writeBlock _ _ => true
  | .setMode _ | .setCarrierFrequency _ | .setPowerAmplifier _ => true
  | _ => false

theorem exec_oneFrame (i : Instr) (s : State) (h : oneFrame i = true) : exec i s = .next (eagerCall i s) := by
  have once : ∀ f : State → CallRes, callWhole i s.loc.sub = f → exec i s = .next (s.callOnce f) →
      exec i s = .next (eagerCall i s) := by
    rintro _ rfl he
    exact he
  cases i with
  | readByte a => exact once (fun t => readByteCall a t) (funext fun t => CallRes.act_done _) rfl
  | readBlock a n => exact once (fun t => readBlockCall a n t) (funext fun t => CallRes.act_done _) rfl
  | writeByte a v => exact once (fun t => writeByteCall a v t) (funext fun t => CallRes.act_done _) rfl
  | writeBlock a bs => exact once (fun t => writeBlockCall a bs t) (funext fun t => CallRes.act_done _) rfl
  | setMode m => rfl
  | setCarrierFrequency hz =>
    exact once (fun t => setCarrierFrequencyCall hz t) (funext fun t => CallRes.act_done _) rfl
  | setPowerAmplifier b => exact once (fun t => setPowerAmplifierCall b t) (funext fun t => CallRes.act_done _) rfl
  | _ => cases h

/-- The running operation takes what exec of its call of one frame hands back. -/
theorem eagerStep_exec {s u : State} {r : Run} {i : Instr} {out : List Byte} {inp : Option (List Byte)} {d : Chip}
    {x : Ret} (hr : s.run = some r) (hi : callAt r s = i) (ho : oneFrame i = true)
    (he : exec i s = .next (u.afterCall r out inp d x)) :
    eagerStep s = opReturn (r.took x) x (u.afterCall r out inp d x) := by
  have hcall := Host.Outcome.next.inj ((exec_oneFrame i s ho).symm.trans he)
  unfold eagerCall at hcall
  rw [s.loc_of_run r hr] at hcall
  subst hi
  exact eagerStep_done s _ r (r.took x) x hr hcall rfl rfl

end Sys2Proof.Machine
end

section
/-! SUPPORT. DUMP as a walk of the chip over its range (R253), then O48 and O49. -/

namespace Sys2Proof.Machine

/-! ### The chip read address by address -/

/-- What a dump has done: its frames, its rows, and the chip after them. -/
structure DumpWalk where
  frames : List Frame
  rows : List DumpRow
  chip : Chip

/-- The reads of `n` addresses from `x + k` on, one frame each (R253). -/
def dumpWalk (x : Byte) : Nat → Nat → Chip → DumpWalk
  | _, 0, c => ⟨[], [], c⟩
  | k, n + 1, c =>
    let a := x + BitVec.ofNat 8 k
    let v := c.draw.2.readTarget a.toNat
    let w := dumpWalk x (k + 1) n v.2
    ⟨{ ctx := .app, out := [a, 0x00], inp := some [c.draw.1, v.1] } :: w.frames, dumpRow a v.1 :: w.rows, w.chip⟩

/-- Addresses of the range do not wrap (R253). -/
theorem dumpAddr_toNat (x : Byte) (k : Nat) (h : x.toNat + k < 128) : (x + BitVec.ofNat 8 k).toNat = x.toNat + k := by
  rw [BitVec.toNat_add, BitVec.toNat_ofNat]
  omega

theorem dumpWalk_frames (x : Byte) (n k : Nat) (c : Chip) :
    FramesOut .app (dumpWalk x k n c).frames ((List.range' k n).map fun j => [x + BitVec.ofNat 8 j, 0x00]) := by
  induction n generalizing k c with
  | zero => exact ⟨rfl, nofun⟩
  | succ n ih =>
    obtain ⟨hout, hall⟩ := ih (k + 1) (c.draw.2.readTarget (x + BitVec.ofNat 8 k).toNat).2
    refine ⟨congrArg (List.cons _) hout, ?_⟩
    rintro f (_ | ⟨_, hf⟩)
    · exact ⟨rfl, rfl⟩
    · exact hall f hf

/-- One row per address, each with its own bits. -/
theorem dumpWalk_rows (x : Byte) (n k : Nat) (c : Chip) :
    (dumpWalk x k n c).rows.length = n ∧
    ∀ (j : Nat) (row : DumpRow), (dumpWalk x k n c).rows[j]? = some row →
      row = dumpRow (x + BitVec.ofNat 8 (k + j)) row.value := by
  induction n generalizing k c with
  | zero => exact ⟨rfl, nofun⟩
  | succ n ih =>
    obtain ⟨hlen, hrow⟩ := ih (k + 1) (c.draw.2.readTarget (x + BitVec.ofNat 8 k).toNat).2
    refine ⟨congrArg (· + 1) hlen, fun j row h => ?_⟩
    cases j with
    | zero => cases h; rfl
    | succ j =>
      have := hrow j row h
      rwa [Nat.add_right_comm k 1 j] at this

theorem Chip.readTarget_kept (c : Chip) (t : Nat) :
    Chip.RegsKept [.fifoAddrPtr] c (c.readTarget t).2 ∧ Chip.FifoKept c (c.readTarget t).2 ∧
      Chip.RadioKept c (c.readTarget t).2 := by
  by_cases h0 : t = 0
  · subst h0
    exact ⟨Chip.RegsKept.setReg c _ _, fun _ => rfl, rfl, rfl⟩
  · obtain ⟨hs, -⟩ := c.readTarget_reg t h0
    exact ⟨hs.regs _, hs.fifo, hs.radio⟩

/-- A dump moves at most the FIFO pointer (R76). -/
theorem dumpWalk_keeps (x : Byte) (n k : Nat) (c : Chip) :
    Chip.RegsKept [.fifoAddrPtr] c (dumpWalk x k n c).chip ∧ Chip.FifoKept c (dumpWalk x k n c).chip ∧
      Chip.RadioKept c (dumpWalk x k n c).chip := by
  induction n generalizing k c with
  | zero => exact ⟨Chip.RegsKept.refl _ c, Chip.FifoKept.refl c, Chip.RadioKept.refl c⟩
  | succ n ih =>
    obtain ⟨hr, hf, hp⟩ := c.draw.2.readTarget_kept (x + BitVec.ofNat 8 k).toNat
    obtain ⟨ir, jf, ip⟩ := ih (k + 1) (c.draw.2.readTarget (x + BitVec.ofNat 8 k).toNat).2
    have hd := Chip.SameBut.draw c
    exact ⟨((hd.regs _).trans hr).trans ir, (hd.fifo.trans hf).trans jf, (hd.radio.trans hp).trans ip⟩

/-- The line stays through a dump (R45). -/
theorem dumpWalk_dio0 (x : Byte) (n k : Nat) (c : Chip) : (dumpWalk x k n c).chip.dio0 = c.dio0 :=
  Chip.dio0_kept (dumpWalk_keeps x n k c).1 (by decide) (by decide)

/-- Off the FIFO port a dump changes nothing, and reads each register where R76 says so. -/
theorem dumpWalk_regs (x : Byte) (n k : Nat) (c : Chip) (hx : 0 < x.toNat + k) (hn : x.toNat + k + n ≤ 128) :
    Chip.SameBut c (dumpWalk x k n c).chip ∧
    ∀ (j : Nat) (row : DumpRow), (dumpWalk x k n c).rows[j]? = some row → ∀ q, row.addr = regAddr q → c.Readable q →
      row.value = c.reg q := by
  induction n generalizing k c with
  | zero => exact ⟨Chip.SameBut.refl c, nofun⟩
  | succ n ih =>
    have ha := dumpAddr_toNat x k (by omega)
    obtain ⟨hs, hv⟩ := c.draw.2.readTarget_reg (x + BitVec.ofNat 8 k).toNat (by omega)
    have hsame := (Chip.SameBut.draw c).trans hs
    obtain ⟨is, iv⟩ := ih (k + 1) (c.draw.2.readTarget (x + BitVec.ofNat 8 k).toNat).2 (by omega) (by omega)
    refine ⟨hsame.trans is, fun j row hj q hq hr => ?_⟩
    cases j with
    | zero =>
      cases hj
      exact hv q (congrArg BitVec.toNat hq) hr
    | succ j =>
      rw [iv j row hj q hq ⟨hr.1, fun hp => by unfold Chip.InLoRa; rw [hsame.reg]; exact hr.2 hp⟩, hsame.reg]

/-- The value in each row of a dump, against the chip before it: the FIFO port's is the cell at the pointer, which moves
by one before the pointer's own row is read (R76, R253). -/
theorem dumpWalk_values (x : Byte) (n j : Nat) (c : Chip) (row : DumpRow) (hn : x.toNat + n ≤ 128)
    (hj : (dumpWalk x 0 n c).rows[j]? = some row) :
    (row.addr = 0x00 → row.value = c.fifoCell (c.reg .fifoAddrPtr)) ∧
    (row.addr = 0x0D → c.InLoRa →
      row.value = if x = 0x00 then c.reg .fifoAddrPtr + 1 else c.reg .fifoAddrPtr) ∧
    (∀ q, row.addr = regAddr q → c.Readable q → q ≠ .fifoAddrPtr → row.value = c.reg q) := by
  obtain ⟨hlen, hrows⟩ := dumpWalk_rows x n 0 c
  have hjn : j < n := by
    have := (List.getElem?_eq_some_iff.1 hj).1
    omega
  have haddr : row.addr = x + BitVec.ofNat 8 j := by
    have := congrArg DumpRow.addr (hrows j row hj)
    rwa [Nat.zero_add] at this
  have hnat : row.addr.toNat = x.toNat + j := by rw [haddr, dumpAddr_toNat x j (by omega)]
  by_cases hx : x = 0x00
  · subst hx
    cases n with
    | zero => cases hj
    | succ n =>
    cases j with
    | zero =>
      cases hj
      exact ⟨fun _ => rfl, fun h => (by cases h), fun q hq hr => absurd (regAddr_toNat_inj q .fifo
        (congrArg BitVec.toNat hq.symm)) hr.1⟩
    | succ j =>
      have hpos : row.addr ≠ 0x00 := fun e => by rw [e] at hnat; simp at hnat
      let c' := c.draw.2.setReg .fifoAddrPtr (c.reg .fifoAddrPtr + 1)
      have hreg : ∀ q, c'.reg q = if q = .fifoAddrPtr then c.reg .fifoAddrPtr + 1 else c.reg q := fun q =>
        Chip.reg_setReg c.draw.2 .fifoAddrPtr q _
      have hlora : c.InLoRa → c'.InLoRa := fun h => by
        unfold Chip.InLoRa
        rw [hreg, if_neg (by decide)]
        exact h
      obtain ⟨-, hval⟩ := dumpWalk_regs 0x00 n 1 c' (by decide) (by omega)
      have hval := hval j row hj
      refine ⟨fun h => absurd h hpos, fun h hl => ?_, fun q hq hr hne => ?_⟩
      · rw [hval .fifoAddrPtr h ⟨by decide, fun _ => hlora hl⟩, hreg, if_pos rfl, if_pos rfl]
      · rw [hval q hq ⟨hr.1, fun hp => hlora (hr.2 hp)⟩, hreg, if_neg hne]
  · have hx0 : x.toNat ≠ 0 := fun e => hx (BitVec.eq_of_toNat_eq e)
    obtain ⟨-, hval⟩ := dumpWalk_regs x n 0 c (by omega) (by omega)
    have hval := hval j row hj
    refine ⟨fun h => ?_, fun h hl => ?_, fun q hq hr _ => hval q hq hr⟩
    · rw [h] at hnat
      have h0 : (0x00 : Byte).toNat = 0 := rfl
      omega
    · rw [if_neg hx]
      exact hval .fifoAddrPtr h ⟨by decide, fun _ => hl⟩

/-- What a dump leaves of the registers: all of them, and where it begins at the FIFO port the pointer one further. -/
theorem dumpWalk_chip (x : Byte) (n : Nat) (c : Chip) (hn : x.toNat + (n + 1) ≤ 128) :
    (x ≠ 0x00 → Chip.RegsKept [] c (dumpWalk x 0 (n + 1) c).chip) ∧
    (x = 0x00 → (dumpWalk x 0 (n + 1) c).chip.reg .fifoAddrPtr = c.reg .fifoAddrPtr + 1) := by
  refine ⟨fun hx => ?_, fun hx => ?_⟩
  · have hx0 : x.toNat ≠ 0 := fun e => hx (BitVec.eq_of_toNat_eq e)
    exact (dumpWalk_regs x (n + 1) 0 c (by omega) (by omega)).1.regs _
  · subst hx
    have hk := (dumpWalk_regs 0x00 n 1 (c.draw.2.setReg .fifoAddrPtr (c.reg .fifoAddrPtr + 1)) (by decide) (by omega)).1
    exact (hk.reg _).trans (Chip.reg_setReg_same _ _ _)

/-- The eight bits of a row, bit 7 first (R253). -/
theorem dumpBits_getElem? (v : Byte) (j : Nat) (hj : j < 8) :
    (dumpBits v)[j]? = some (if v.getLsbD (7 - j) then '1' else '0') := by
  simp [dumpBits, hj]

theorem dumpBits_length (v : Byte) : (dumpBits v).length = 8 := by simp [dumpBits]

/-! ### The frames of DUMP -/

/-- `s` when the dump that runs in it ends after the walk `w`, with the rows it already had. -/
def State.dumped (s : State) (rows : List DumpRow) (w : DumpWalk) : State :=
  { s with chip := w.chip, cs := false, busTrace := s.busTrace ++ w.frames,
           edgePending := s.edgePending || (w.chip.dio0 && !s.lineLast), lineLast := w.chip.dio0, lock := none,
           run := none, results := s.results ++ [.regs (rows ++ w.rows)] }

/-- A dump that ends after one more frame than `w` has. -/
theorem State.ran_dumped (s : State) (r : Run) (rows : List DumpRow) (f : Frame) (row : DumpRow) (d : Chip)
    (w : DumpWalk) (hline : w.chip.dio0 = d.dio0) :
    (s.ran r [f] d (s.edgePending || (d.dio0 && !s.lineLast)) s.bus r.loc).dumped (rows ++ [row]) w =
      s.dumped rows ⟨f :: w.frames, row :: w.rows, w.chip⟩ := by
  simp only [State.dumped, State.ran, hline, edge_const, List.append_assoc, List.singleton_append]

/-- One frame of a running dump: the read at its position, and what the dump makes of it. -/
theorem eagerStep_dump (s : State) (x y : Byte) (k : Nat) (loc : Locals) (h : s.CanFrame ⟨.app, .dump x y, k, loc⟩)
    (hb : s.bus = .ok) (hk : x.toNat + k < 128) :
    let a := x + BitVec.ofNat 8 k
    let v := s.chip.draw.2.readTarget a.toNat
    eagerStep s = dumpReturn x y k (.bytes [v.1])
      (s.afterCall ⟨.app, .dump x y, k, loc⟩ [a, 0x00] (some [s.chip.draw.1, v.1]) v.2 (.bytes [v.1])) := by
  intro a v
  have ha := (bit7_clear_iff a).2 (by rw [dumpAddr_toNat x k hk]; exact hk)
  have hcall := s.callOnce_afterCall _ (fun t => readByteCall a t) _ _ _ _ h.1 (readByteCall_ok s _ a h hb ha)
  exact eagerStep_exec (i := .readByte a) h.1 rfl rfl (congrArg Host.Outcome.next hcall)

/-- A dump on the App context's turns alone, from any position of it, with `n` addresses after this one. -/
theorem dump_goes (x y : Byte) (hy : y.toNat ≤ 127) (n : Nat) (s : State) (k : Nat) (loc : Locals)
    (h : s.CanFrame ⟨.app, .dump x y, k, loc⟩) (hb : s.bus = .ok) (hnr : s.refused = none)
    (hpos : x.toNat + k + n = y.toNat) :
    State.Goes (List.replicate n (.app .ok)) (eagerStep s) (s.dumped loc.rows (dumpWalk x k (n + 1) s.chip)) := by
  have hstep := eagerStep_dump s x y k loc h hb (by omega)
  induction n generalizing s k loc with
  | zero =>
    rw [hstep]
    unfold dumpReturn
    dsimp only
    rw [if_neg (by omega)]
    exact State.Goes.refl _
  | succ n ih =>
    let a := x + BitVec.ofNat 8 k
    let v := s.chip.draw.2.readTarget a.toNat
    let r : Run := ⟨.app, .dump x y, k + 1, { loc with sub := 0, got := none, ret := none,
                                                       rows := loc.rows ++ [dumpRow a v.1] }⟩
    let f : Frame := { ctx := .app, out := [a, 0x00], inp := some [s.chip.draw.1, v.1] }
    let t := s.ran r [f] v.2 (s.edgePending || (v.2.dio0 && !s.lineLast)) s.bus r.loc
    have hnext : eagerStep s = t := by
      rw [hstep]
      unfold dumpReturn
      dsimp only
      rw [if_pos (by omega)]
      rfl
    have ht : t.CanFrame r := ⟨rfl, h.2.1, h.2.2⟩
    have hone : State.Goes [.app .ok] t (eagerStep t) := State.Goes.one (r := r) rfl hb hnr ⟨rfl, rfl⟩
    have hrest := ih t (k + 1) r.loc ht hb hnr (by omega) (eagerStep_dump t x y (k + 1) r.loc ht hb (by omega))
    have hend : t.dumped r.loc.rows (dumpWalk x (k + 1) (n + 1) t.chip) =
        s.dumped loc.rows (dumpWalk x k (n + 1 + 1) s.chip) :=
      s.ran_dumped r loc.rows f (dumpRow a v.1) v.2 _ (dumpWalk_dio0 x (n + 1) (k + 1) v.2)
    rw [hnext, ← hend]
    exact hone.trans hrest

/-- Settles O48: the walk of the chip over the range, one own turn an address. -/
theorem dumpCompletes : Obligations.DumpCompletes := by
  intro s x y n rest hrd hl hnr hb hxy hy hn hs
  subst hn
  have hlen : x.toNat + (y.toNat - x.toNat + 1) ≤ 128 := by omega
  have hg : startsFrames (.dump x y) s = true := by
    simp only [startsFrames, hrd, hxy, hy, decide_true, Bool.and_self]
  have hgo := dump_goes x y hy (y.toNat - x.toNat) (s.started (.dump x y)) 0 Locals.fresh
    (s.started_canFrame _ hrd) hb hnr (by omega)
  have hexec := exec_completes hg hl hs hgo rfl
  obtain ⟨hrows, hrow⟩ := dumpWalk_rows x (y.toNat - x.toNat + 1) 0 s.chip
  obtain ⟨hregs, hfifo, hradio⟩ := dumpWalk_keeps x (y.toNat - x.toNat + 1) 0 s.chip
  obtain ⟨hkept, hptr⟩ := dumpWalk_chip x (y.toNat - x.toNat) s.chip hlen
  have hframes := dumpWalk_frames x (y.toNat - x.toNat + 1) 0 s.chip
  rw [← List.range_eq_range'] at hframes
  refine ⟨_, _, _, hexec.trans ?_, hrows, hframes, fun k row hk => ?_, hkept, fun h0 => ⟨hptr h0, hregs⟩, hfifo,
    hradio⟩
  · simp only [State.dumped, State.started, hl]
    rfl
  · have he := hrow k row hk
    rw [Nat.zero_add] at he
    have hbits : row.bits = dumpBits row.value := congrArg DumpRow.bits he
    refine ⟨congrArg DumpRow.addr he, ?_, fun j hj => ?_, dumpWalk_values x _ k s.chip row hlen hk⟩
    · rw [hbits, dumpBits_length]
    · rw [hbits, dumpBits_getElem? _ j hj]

/-- Settles O49: the range check, a failed first frame, and a failed later one. -/
theorem dumpErrors : Obligations.DumpErrors := by
  refine ⟨fun s x y hrd hrange => ?_, fun s x y k hrd hl hb hxy hy => ?_,
    fun s s1 x y a r r1 b ts k hn hs hbk h hctx hop hs1 hr1 ha hbit => ?_⟩
  · have he : exec (.dump x y) s = .next (s.returnResult (.error (.argument .range))).edgeSample := by
      simp only [exec, execDump, hrd, hrange, Bool.not_true, Bool.false_eq_true, if_false, if_true]
    exact he
  · have hg : startsFrames (.dump x y) s = true := by
      simp only [startsFrames, hrd, hxy, hy, decide_true, Bool.and_self]
    have ha : x.getLsbD 7 = false := (bit7_clear_iff x).2 (by omega)
    obtain ⟨i, d, hf⟩ := s.chip.frame_readOne_take x k ha
    have hcall := readByteCall_fail (s.started (.dump x y)) _ x k i d (s.started_canFrame _ hrd) hb ha hf
    have haddr : x + BitVec.ofNat 8 0 = x := by simp
    refine ⟨i, d, hf, (exec_firstFrame_fails (e := .transport .readByte x) (out := [x, 0x00]) (d := d) hg hl ?_ rfl
      rfl).trans ?_⟩
    · show readByteCall (x + BitVec.ofNat 8 0) _ = _
      rw [haddr]
      exact hcall
    · simp only [opReturn, dumpReturn, State.failedFrame, State.release, State.returnResult, State.started, hl]
      rfl
  · subst hbk
    obtain ⟨r0, h0, hc0, ho0⟩ := settle_run _ r1 (hs1 ▸ hr1)
    cases h.1.symm.trans h0
    have hcan : s1.CanFrame r1 := by
      rw [hs1] at hr1 ⊢
      exact settle_canFrame _ r r1 h hr1
    have hbus : s1.bus = .fail k := by rw [hs1]; exact (settle_env _).2.1
    have hcallAt : callAt r1 s1 = .readByte a := by unfold callAt; rw [ho0, hop, ha]
    obtain ⟨i, d, hf⟩ := s1.chip.frame_readOne_take a k hbit
    have hcall := readByteCall_fail s1 r1 a k i d hcan hbus hbit hf
    refine ⟨i, d, hf, step_failed s s1 _ r r1 (.app (.fail k)) ts (.transport .readByte a) [a, 0x00] d hn hs h.1
      (congrArg some hctx.symm) (by rw [hop]; rfl) hs1 hr1 ?_ ?_ rfl⟩
    · rw [hcallAt]
      exact hcall
    · rw [hcallAt]
      unfold opReturn
      rw [ho0, hop, hc0, hctx]
      rfl

end Sys2Proof.Machine
end

section
/-! SUPPORT. The frames of INIT, one own turn each (R176), then O28. -/

namespace Sys2Proof.Machine

/-! ### A running operation that moves on frame by frame -/

/-- `s` after the frames `fs` of its operation, now at `r`, through which the line stayed at one level. -/
def State.after (s : State) (r : Run) (fs : List Frame) (d : Chip) : State :=
  s.ran r fs d (s.edgePending || (d.dio0 && !s.lineLast)) s.bus r.loc

theorem State.after_canFrame {s : State} {r : Run} (h : s.CanFrame r) (q : Run) (hq : q.ctx = r.ctx)
    (fs : List Frame) (d : Chip) : (s.after q fs d).CanFrame q :=
  ⟨rfl, by rw [hq]; exact h.2.1, h.2.2⟩

/-- Further frames that leave the line as it is. -/
theorem State.after_after (s : State) (r q : Run) (fs gs : List Frame) (c d : Chip) (hline : d.dio0 = c.dio0) :
    (s.after r fs c).after q gs d = s.after q (fs ++ gs) d := by
  simp only [State.after, State.ran, hline, edge_const, List.append_assoc]

theorem FramesOut.append {x : Ctx} {fs gs : List Frame} {os ps : List (List Byte)} (h : FramesOut x fs os)
    (g : FramesOut x gs ps) : FramesOut x (fs ++ gs) (os ++ ps) :=
  ⟨by rw [List.map_append, h.1, g.1], fun f hf => (List.mem_append.1 hf).elim (h.2 f) (g.2 f)⟩

theorem FramesOut.one (x : Ctx) (out inp : List Byte) :
    FramesOut x [{ ctx := x, out := out, inp := some inp }] [out] :=
  ⟨rfl, fun f hf => by rw [List.mem_singleton.1 hf]; exact ⟨rfl, rfl⟩⟩

/-- The running operation `r` at position `k`, with nothing of a frame pending. -/
def Run.moved (r : Run) (k : Nat) : Run := { r with pc := k, loc := { r.loc with sub := 0, got := none, ret := none } }

/-- One frame whose call is over and after which the operation moves on to `k`. -/
theorem eagerStep_moves {s u : State} {r : Run} {i : Instr} {out : List Byte} {inp : Option (List Byte)} {d : Chip}
    {x : Ret} {k : Nat} (hr : s.run = some r) (hi : callAt r s = i) (ho : oneFrame i = true)
    (he : exec i s = .next (u.afterCall r out inp d x)) (hret : ∀ t, opReturn (r.took x) x t = t.goTo k) :
    eagerStep s = u.after (r.moved k) [{ ctx := r.ctx, out := out, inp := inp }] d := by
  rw [eagerStep_exec hr hi ho he, hret]
  rfl

/-- One frame of an operation that is past its first, as one own turn: the line stays and the operation is then at `k`. -/
theorem State.Goes.moves {s : State} {r : Run} {fs : List Frame} {c d : Chip} {i : Instr} {out : List Byte}
    {inp : Option (List Byte)} {x : Ret} {t : Turn} (k : Nat) (h : (s.after r fs c).CanFrame r) (hb : s.bus = .ok)
    (hn : s.refused = none) (ht : OwnTurn r.ctx t) (hi : callAt r (s.after r fs c) = i) (ho : oneFrame i = true)
    (he : exec i (s.after r fs c) = .next ((s.after r fs c).afterCall r out inp d x))
    (hret : ∀ t, opReturn (r.took x) x t = t.goTo k) (hline : d.dio0 = c.dio0) :
    State.Goes [t] (s.after r fs c)
      (s.after (r.moved k) (fs ++ [{ ctx := r.ctx, out := out, inp := inp }]) d) := by
  have hstep := (eagerStep_moves h.1 hi ho he hret).trans (s.after_after r (r.moved k) fs _ c d hline)
  exact hstep ▸ State.Goes.one h.1 hb hn ht

/-! ### setMode and enableRxCrc in a running operation -/

/-- setMode completes (R170): the write of the op-mode register, and the shadow. -/
theorem exec_setMode_ok (s : State) (r : Run) (m : OperatingMode) (h : s.CanFrame r) (hb : s.bus = .ok) :
    ∃ i0 i1 d, Chip.SameBut (s.chip.writeReg .opMode (opModeValue m)) d ∧ exec (.setMode m) s =
      .next (State.afterCall { s with mode := some m } r [0x81, opModeValue m] (some [i0, i1]) d (.bytes [])) := by
  obtain ⟨i0, i1, d, hk, hcall⟩ := writeByteCall_writes s r .opMode (opModeValue m) h hb (by decide)
  refine ⟨i0, i1, d, hk, congrArg Host.Outcome.next ?_⟩
  have hset : setModeCall m s = .done (.bytes [])
      (State.frameDone { s with mode := some m } r.ctx [0x81, opModeValue m] (some [i0, i1]) d) := by
    show (writeByteCall (regAddr .opMode) (opModeValue m) s).act (setModeAct m) = _
    rw [hcall]
    rfl
  rw [State.callOnce_done _ _ _ _ hset]
  exact State.frameDone_mapLoc { s with mode := some m } r _ _ _ _ h.1

/-- The chip after the write of a mode other than Transmit (R77, R283). -/
theorem Chip.writeReg_opMode_regs {c d : Chip} {m : OperatingMode}
    (h : Chip.SameBut (c.writeReg .opMode (opModeValue m)) d) (hm : m ≠ .transmit) :
    d.reg .opMode = opModeValue m ∧ Chip.RegsKept [.opMode] c d ∧ d.air = c.air ∧ d.txPkt = none := by
  obtain ⟨hregs, hair, -, -, -, -, hmode⟩ := c.writeReg_spec .opMode (opModeValue m) (by decide)
  obtain ⟨-, hnone, -⟩ := c.writeReg_opMode (opModeValue m)
  have hmask : opModeValue m &&& 0x87 ≠ 0x83 := by revert hm; cases m <;> decide
  exact ⟨(h.reg _).trans (hmode rfl).1, hregs.trans (h.regs _), h.radio.2.trans hair, h.radio.1.trans (hnone hmask)⟩

/-- enableRxCrc's second frame, the write with the CRC bit, after which the operation moves on to `k` (R173). -/
theorem enableRxCrc_writes {s : State} {r : Run} {fs : List Frame} {c : Chip} {t : Turn} (k : Nat)
    (h : (s.after r fs c).CanFrame r) (hb : s.bus = .ok) (hn : s.refused = none) (hs : r.loc.sub = 1)
    (hi : callAt r (s.after r fs c) = .enableRxCrc)
    (hgo : ∀ l t, opReturn { r with loc := l } (.bytes []) t = t.goTo k) (ht : OwnTurn r.ctx t) :
    ∃ inp d, Chip.SameBut (c.writeReg .modemConfig2 (r.loc.crcValue ||| 0x04)) d ∧
      State.Goes [t] (s.after r fs c) (s.after (r.moved k)
        (fs ++ [{ ctx := r.ctx, out := [0x9E, r.loc.crcValue ||| 0x04], inp := some inp }]) d) := by
  obtain ⟨i0, i1, d, hk, hwrite⟩ :=
    writeByteCall_writes (s.after r fs c) r .modemConfig2 (r.loc.crcValue ||| 0x04) h hb (by decide)
  have hline : d.dio0 = c.dio0 :=
    Chip.dio0_kept ((c.writeReg_spec .modemConfig2 _ (by decide)).1.trans (hk.regs _)) (by decide) (by decide)
  have hwhole : callWhole .enableRxCrc r.loc.sub (s.after r fs c) = .done (.bytes [])
      ((s.after r fs c).frameDone r.ctx [0x9E, r.loc.crcValue ||| 0x04] (some [i0, i1]) d) := by
    rw [hs]
    show (writeByteCall (regAddr .modemConfig2) (r.loc.crcValue ||| 0x04) _).act (enableRxCrcAct 1) = _
    rw [hwrite]
    rfl
  let f : Frame := { ctx := r.ctx, out := [0x9E, r.loc.crcValue ||| 0x04], inp := some [i0, i1] }
  have hstep : eagerStep (s.after r fs c) = (s.after r fs c).after (r.moved k) [f] d := by
    have hcall := State.callOnce_ran _ r (callWhole .enableRxCrc r.loc.sub) _ _ _ d h.1 hwhole
    have hok : (s.after r fs c).bus = .ok := hb
    rw [hok] at hcall
    rw [eagerStep_goesTo _ _ r .enableRxCrc _ d _ (.bytes []) k h hi hcall (hgo _ _)]
    show _ = (s.after r fs c).ran _ _ _ _ (s.after r fs c).bus _
    rw [hok]
    rfl
  exact ⟨[i0, i1], d, hk, s.after_after r _ fs [f] c d hline ▸ hstep ▸ State.Goes.one h.1 hb hn ht⟩

/-- enableRxCrc in a running operation that then moves on to `k`: the read, then the write with the CRC bit (R173). -/
theorem enableRxCrc_goes (s : State) (r : Run) (k : Nat) (t1 t2 : Turn) (h : s.CanFrame r) (hb : s.bus = .ok)
    (hn : s.refused = none) (hs : r.loc.sub = 0) (hret : r.loc.ret = none) (hlora : s.chip.InLoRa)
    (hi : ∀ l t, callAt { r with loc := l } t = .enableRxCrc)
    (hgo : ∀ l t, opReturn { r with loc := l } (.bytes []) t = t.goTo k)
    (ht1 : OwnTurn r.ctx t1) (ht2 : OwnTurn r.ctx t2) :
    ∃ fs d q, State.Goes [t1, t2] s (s.after q fs d) ∧ q.ctx = r.ctx ∧ q.op = r.op ∧ q.pc = k ∧
      FramesOut r.ctx fs [[0x1E, 0x00], [0x9E, s.chip.reg .modemConfig2 ||| 0x04]] ∧
      d.reg .modemConfig2 = s.chip.reg .modemConfig2 ||| 0x04 ∧ Chip.RegsKept [.modemConfig2] s.chip d ∧
      d.air = s.chip.air := by
  obtain ⟨inp, v, c, hk1, hv, hread⟩ := callOnce_read_ran s r 0x1E (fun v l => { l with crcValue := v })
    (callWhole .enableRxCrc r.loc.sub) h hb rfl (by decide) (by rw [hs]; rfl)
  have hval : v = s.chip.reg .modemConfig2 := hv .modemConfig2 rfl ⟨by decide, fun _ => hlora⟩
  subst hval
  let r1 : Run := { r with loc := Locals.next { r.loc with crcValue := s.chip.reg .modemConfig2 } }
  let f1 : Frame := { ctx := r.ctx, out := [0x1E, 0x00], inp := some inp }
  have hread : eagerStep s = s.after r1 [f1] c := by
    rw [eagerStep_goesOn s s r .enableRxCrc _ c _ _ h (hi r.loc s) hread hret]
    show _ = s.ran _ _ _ _ s.bus _
    rw [hb]
    rfl
  obtain ⟨inp2, d, hk2, hwrite⟩ := enableRxCrc_writes (r := r1) k (s.after_canFrame h r1 rfl [f1] c) hb hn
    (congrArg (· + 1) hs) (hi _ _) hgo ht2
  obtain ⟨hregs, hair, -, -, -, hstore, -⟩ :=
    c.writeReg_spec .modemConfig2 (s.chip.reg .modemConfig2 ||| 0x04) (by decide)
  exact ⟨_, d, r1.moved k, State.Goes.trans (hread ▸ State.Goes.one h.1 hb hn ht1) hwrite, rfl, rfl, rfl,
    (FramesOut.one r.ctx _ _).append (FramesOut.one r.ctx _ _), (hk2.reg _).trans (hstore ⟨rfl, nofun⟩),
    (hk1.regs _).trans (hregs.trans (hk2.regs _)), (hk2.radio.2.trans hair).trans hk1.radio.2⟩

/-! ### INIT -/

/-- INIT's first three frames from the state that has taken the lock: Sleep, the frequency burst, the amplifier (R176). -/
theorem init_setup (s : State) (hz : Word32) (pa crc : Bool) (frf : Nat) (b2 b1 b0 : Byte) (r : Run)
    (hr : r = ⟨.app, .init hz pa crc, 0, Locals.fresh⟩) (h : s.CanFrame r) (hb : s.bus = .ok) (hn : s.refused = none)
    (hf : frf = hz.toNat * 524288 / 32000000) (hlt : frf < 2 ^ 24) (h2 : b2.toNat = frf / 65536 % 256)
    (h1 : b1.toNat = frf / 256 % 256) (h0 : b0.toNat = frf % 256) :
    ∃ fs d, State.Goes [.app .ok, .app .ok] (eagerStep s)
        (State.after { s with mode := some .sleep } (r.moved (if crc then 3 else 4)) fs d) ∧
      FramesOut .app fs [[0x81, 0x80], [0x86, b2, b1, b0], [0x89, if pa then 0xFF else 0x7F]] ∧
      d.reg .opMode = 0x80 ∧ d.reg .frfMsb = b2 ∧ d.reg .frfMid = b1 ∧ d.reg .frfLsb = b0 ∧
      d.reg .paConfig = (if pa then 0xFF else 0x7F) ∧
      Chip.RegsKept [.opMode, .frfMsb, .frfMid, .frfLsb, .paConfig] s.chip d ∧ d.air = s.chip.air := by
  subst hr
  let b : State := { s with mode := some .sleep }
  obtain ⟨i0, i1, c1, hk1, he1⟩ := exec_setMode_ok s _ .sleep h hb
  obtain ⟨hop1, hregs1, hair1, -⟩ := Chip.writeReg_opMode_regs hk1 (by decide)
  have hstep1 := eagerStep_moves (k := 1) h.1 rfl rfl he1 fun t => rfl
  let r1 : Run := ⟨.app, .init hz pa crc, 1, Locals.fresh⟩
  let f1 : Frame := { ctx := .app, out := [0x81, 0x80], inp := some [i0, i1] }
  have g1 : (b.after r1 [f1] c1).CanFrame r1 := State.after_canFrame (s := b) h r1 rfl _ _
  have hsleep1 : c1.InSleepOrStandby := .inl (by rw [hop1]; decide)
  obtain ⟨hburst, -⟩ := setCarrierFrequencyBurst _ r1 hz.toNat frf b2 b1 b0 g1 hf h2 h1 h0
  obtain ⟨inp2, c2, he2, -, hregs2, -, hradio2, hfrf⟩ := hburst hlt hb
  obtain ⟨hmsb, hmid, hlsb⟩ := hfrf hsleep1
  have hline2 : c2.dio0 = c1.dio0 := Chip.dio0_kept hregs2 (by decide) (by decide)
  have hgo2 := State.Goes.moves (t := .app .ok) 2 g1 hb hn ⟨rfl, rfl⟩ rfl rfl he2 (fun t => rfl) hline2
  let r2 : Run := r1.moved 2
  let f2 : Frame := { ctx := .app, out := [0x86, b2, b1, b0], inp := some inp2 }
  have g2 : (b.after r2 ([f1] ++ [f2]) c2).CanFrame r2 := State.after_canFrame (s := b) h r2 rfl _ _
  have hop2 : c2.reg .opMode = 0x80 := (hregs2.reg _ (by decide)).trans hop1
  have hsleep2 : c2.InSleepOrStandby := .inl (by rw [hop2]; decide)
  obtain ⟨hamp, -⟩ := setPowerAmplifierWrites _ r2 pa _ g2 rfl
  obtain ⟨i2, i3, c3, he3, hregs3, -, hradio3, hpa⟩ := hamp hb
  have hline3 : c3.dio0 = c2.dio0 := Chip.dio0_kept hregs3 (by decide) (by decide)
  have hgo3 := State.Goes.moves (t := .app .ok) (if crc then 3 else 4) g2 hb hn ⟨rfl, rfl⟩ rfl rfl he3 (fun t => rfl)
    hline3
  refine ⟨_, c3, hstep1 ▸ hgo2.trans hgo3,
    ((FramesOut.one .app _ _).append (FramesOut.one .app _ _)).append (FramesOut.one .app _ _),
    (hregs3.reg _ (by decide)).trans hop2, (hregs3.reg _ (by decide)).trans hmsb,
    (hregs3.reg _ (by decide)).trans hmid, (hregs3.reg _ (by decide)).trans hlsb,
    hpa hsleep2,
    ((hregs1.mono (by decide)).trans (hregs2.mono (by decide))).trans (hregs3.mono (by decide)),
    (hradio3.2.trans hradio2.2).trans hair1⟩

/-- `s` when the INIT that runs in it ends after the frames `fs` (R176). -/
def State.initDone (s : State) (fs : List Frame) (d : Chip) : State :=
  { s with chip := d, cs := false, busTrace := s.busTrace ++ fs,
           edgePending := s.edgePending || (d.dio0 && !s.lineLast), lineLast := d.dio0,
           mode := some .receiveContinuous, initialised := true, lock := none, run := none,
           results := s.results ++ [.ok] }

/-- INIT's last frame, ReceiveContinuous (R176). -/
theorem init_end (s : State) (hz : Word32) (pa crc : Bool) (r q : Run) (fs : List Frame) (c : Chip)
    (hq : q.op = .init hz pa crc) (hpc : q.pc = 4) (hc : q.ctx = .app) (hr : r.ctx = .app) (h : s.CanFrame r)
    (hb : s.bus = .ok) :
    ∃ f d, eagerStep (s.after q fs c) = s.initDone (fs ++ [f]) d ∧ FramesOut .app [f] [[0x81, 0x85]] ∧
      d.reg .opMode = 0x85 ∧ Chip.RegsKept [.opMode] c d ∧ d.air = c.air ∧ d.txPkt = none := by
  have g : (s.after q fs c).CanFrame q := State.after_canFrame h q (hc.trans hr.symm) _ _
  obtain ⟨i0, i1, d, hk, he⟩ := exec_setMode_ok _ q .receiveContinuous g hb
  obtain ⟨hop, hregs, hair, htx⟩ := Chip.writeReg_opMode_regs hk (by decide)
  have hline : d.dio0 = c.dio0 := Chip.dio0_kept hregs (by decide) (by decide)
  have hi : callAt q (s.after q fs c) = .setMode .receiveContinuous := by
    unfold callAt
    rw [hq, hpc]
    rfl
  refine ⟨{ ctx := .app, out := [0x81, 0x85], inp := some [i0, i1] }, d, ?_, FramesOut.one .app _ _, hop, hregs, hair,
    htx⟩
  rw [eagerStep_exec g.1 hi rfl he]
  unfold opReturn Run.took
  dsimp only
  rw [hq, hpc]
  simp only [initReturn, State.release, State.returnResult, State.afterCall, State.after, State.ran, State.initDone,
    hline, hc, edge_const, List.append_assoc]
  rfl

/-- INIT's two CRC frames, from position 3 to position 4 (R173, R176). -/
theorem init_crc (s : State) (hz : Word32) (pa : Bool) (r q : Run) (fs : List Frame) (c : Chip) (h : s.CanFrame r)
    (hr : r.ctx = .app) (hq : q = ⟨.app, .init hz pa true, 3, Locals.fresh⟩) (hb : s.bus = .ok) (hn : s.refused = none)
    (hlora : c.InLoRa) :
    ∃ gs d p, State.Goes [.app .ok, .app .ok] (s.after q fs c) (s.after p (fs ++ gs) d) ∧ p.ctx = .app ∧
      p.op = .init hz pa true ∧ p.pc = 4 ∧
      FramesOut .app gs [[0x1E, 0x00], [0x9E, c.reg .modemConfig2 ||| 0x04]] ∧
      d.reg .modemConfig2 = c.reg .modemConfig2 ||| 0x04 ∧ Chip.RegsKept [.modemConfig2] c d ∧ d.air = c.air := by
  subst hq
  have g : (s.after _ fs c).CanFrame ⟨.app, .init hz pa true, 3, Locals.fresh⟩ := State.after_canFrame h _ hr.symm fs c
  obtain ⟨gs, d, p, hgo, hctx, hop, hpc, hout, hval, hregs, hair⟩ := enableRxCrc_goes _ _ 4 (.app .ok) (.app .ok) g hb hn
    rfl rfl hlora (fun _ _ => rfl) (fun _ _ => rfl) ⟨rfl, rfl⟩ ⟨rfl, rfl⟩
  have hline : d.dio0 = c.dio0 := Chip.dio0_kept hregs (by decide) (by decide)
  exact ⟨gs, d, p, s.after_after _ p fs gs c d hline ▸ hgo, hctx, hop, hpc, hout, hval, hregs, hair⟩

/-- `s` once INIT has taken the lock and set Sleep. -/
def State.initAsleep (s : State) (hz : Word32) (pa crc : Bool) : State :=
  { s.started (.init hz pa crc) with mode := some .sleep }

/-- INIT completes once its frames up to the last one have led to position 4. -/
theorem exec_init_of_goes (s : State) (hz : Word32) (pa crc : Bool) (l rest : List Turn) (q : Run) (fs : List Frame)
    (c : Chip) (hg : startsFrames (.init hz pa crc) s = true) (hrd : s.resetDone = true) (hl : s.lock = none)
    (hb : s.bus = .ok) (hn : s.refused = none) (hs : s.schedule = l ++ [.app .ok] ++ rest)
    (hq : q.op = .init hz pa crc) (hpc : q.pc = 4) (hc : q.ctx = .app)
    (hgo : State.Goes l (eagerStep (s.started (.init hz pa crc)))
      ((s.initAsleep hz pa crc).after q fs c)) :
    ∃ f d, exec (.init hz pa crc) s = .next
        { s with chip := d, cs := false, busTrace := s.busTrace ++ (fs ++ [f]),
                 edgePending := s.edgePending || (d.dio0 && !s.lineLast), lineLast := d.dio0,
                 mode := some .receiveContinuous, initialised := true, run := none,
                 results := s.results ++ [.ok], schedule := rest } ∧
      FramesOut .app [f] [[0x81, 0x85]] ∧ d.reg .opMode = 0x85 ∧ Chip.RegsKept [.opMode] c d ∧ d.air = c.air ∧
      d.txPkt = none := by
  obtain ⟨f, d, hend, hf, hd⟩ := init_end (s.initAsleep hz pa crc) hz pa crc _ q fs c hq
    hpc hc rfl (s.started_canFrame (.init hz pa crc) hrd) hb
  have hlast := State.Goes.one (s := (s.initAsleep hz pa crc).after q fs c)
    (r := q) (t := .app .ok) rfl hb hn ⟨congrArg some hc.symm, rfl⟩
  rw [hend] at hlast
  refine ⟨f, d, (exec_completes hg hl hs (hgo.trans hlast) rfl).trans ?_, hf, hd⟩
  simp only [State.initDone, State.initAsleep, State.started, hl]

/-- Settles O28: the three frames of `init_setup`, the two of `enableRxCrc_goes` where the CRC is on, and the last. -/
theorem initCompletes : Obligations.InitCompletes := by
  intro s hz pa crc rest frf b2 b1 b0 hrd hbusy hl hn hb hs hf hlt h2 h1 h0
  have hg : startsFrames (.init hz pa crc) s = true := by
    have hv := (frfValid_iff hz.toNat).2 (hf ▸ hlt)
    simp only [startsFrames, hrd, hbusy, hv, Bool.not_false, Bool.and_self]
  have hu := s.started_canFrame (.init hz pa crc) hrd
  obtain ⟨fs, c, hgo, hout, hop, hmsb, hmid, hlsb, hpa, hregs, hair⟩ :=
    init_setup (s.started (.init hz pa crc)) hz pa crc frf b2 b1 b0 _ rfl hu hb hn hf hlt h2 h1 h0
  have hmc : c.reg .modemConfig2 = s.chip.reg .modemConfig2 := hregs.reg _ (by decide)
  cases crc with
  | false =>
    obtain ⟨f, d, he, hf, hd, hkept, hdair, htx⟩ :=
      exec_init_of_goes s hz pa false _ rest _ fs c hg hrd hl hb hn hs rfl rfl rfl hgo
    have keep : ∀ q, q ≠ .opMode → d.reg q = c.reg q := fun q hq => hkept.reg q (by simpa using hq)
    exact ⟨d, fs ++ [f], he, hout.append hf, hd, (keep _ (by decide)).trans hmsb, (keep _ (by decide)).trans hmid,
      (keep _ (by decide)).trans hlsb, (keep _ (by decide)).trans hpa, (keep _ (by decide)).trans hmc,
      (hregs.mono (by decide)).trans (hkept.mono (by decide)), htx, hdair.trans hair⟩
  | true =>
    obtain ⟨gs, c', q, hgo', hctx, hopr, hpc, hout', hmc', hregs', hair'⟩ :=
      init_crc (s.initAsleep hz pa true) hz pa _ _ fs c hu rfl rfl hb hn (by unfold Chip.InLoRa; rw [hop]; decide)
    obtain ⟨f, d, he, hf, hd, hkept, hdair, htx⟩ := exec_init_of_goes s hz pa true _ rest q (fs ++ gs) c' hg hrd hl hb hn
      hs hopr hpc hctx (hgo.trans hgo')
    have keep : ∀ q ∉ [Reg.opMode, .modemConfig2], d.reg q = c.reg q := fun q hq =>
      ((hregs'.mono (by decide)).trans (hkept.mono (by decide))).reg q hq
    refine ⟨d, fs ++ gs ++ [f], he, ?_, hd, (keep _ (by decide)).trans hmsb, (keep _ (by decide)).trans hmid,
      (keep _ (by decide)).trans hlsb, (keep _ (by decide)).trans hpa, ?_,
      ((hregs.mono (by decide)).trans (hregs'.mono (by decide))).trans (hkept.mono (by decide)), htx,
      (hdair.trans hair').trans hair⟩
    · rw [hmc] at hout'
      exact (hout.append hout').append hf
    · rw [hkept.reg _ (by decide), hmc', hmc]
      rfl

end Sys2Proof.Machine
end

section
/-! SUPPORT. The three encoded interfaces (R110): what each decoder makes of what the encoder writes, then O1 and O5, and
what a decoded host command was written as, then O3 and O4. -/

namespace Sys2Proof.Machine

/-! ### Fields -/

/-- The four bytes of a 32-bit operand, put together again (R125). -/
theorem joinBytes_extract (w : Word32) :
    joinBytes (w.extractLsb' 24 8) (w.extractLsb' 16 8) (w.extractLsb' 8 8) (w.extractLsb' 0 8) = w := by
  unfold joinBytes
  iterate 3 rw [BitVec.extractLsb'_append_extractLsb'_eq_extractLsb' (by rfl)]
  exact BitVec.extractLsb'_eq_self

/-- The four bytes a 32-bit operand was put together from (R125). -/
theorem splitBytes_joinBytes (h3 h2 h1 h0 : Byte) : splitBytes (joinBytes h3 h2 h1 h0) = [h3, h2, h1, h0] := by
  unfold splitBytes joinBytes
  rw [BitVec.extractLsb'_append_eq_of_le (start := 24) (by decide), BitVec.extractLsb'_append_eq_of_le (by decide),
    BitVec.extractLsb'_append_eq_of_le (start := 16) (by decide), BitVec.extractLsb'_append_eq_of_add_le (by decide),
    BitVec.extractLsb'_append_eq_of_add_le (start := 8) (by decide), BitVec.extractLsb'_append_eq_of_le (by decide),
    BitVec.extractLsb'_append_eq_of_add_le (by decide), BitVec.extractLsb'_append_eq_of_add_le (by decide)]
  simp only [Nat.sub_self, BitVec.extractLsb'_eq_self]

/-- The opts byte of INIT has its reserved bits clear and its two flags in their places (R125). -/
theorem initOpts_fields (pa crc : Bool) :
    initOpts pa crc &&& 0xFC = 0 ∧ (initOpts pa crc).getLsbD 0 = pa ∧ (initOpts pa crc).getLsbD 1 = crc := by
  revert pa crc; decide

/-- An opts byte with its reserved bits clear holds the two flags and nothing else (R125). -/
theorem initOpts_of_reserved_clear (o : Byte) (h : o &&& 0xFC = 0) : initOpts (o.getLsbD 0) (o.getLsbD 1) = o := by
  revert o; decide

/-- A frame's command byte holds its direction and its address (R112, R74). -/
theorem commandByte_fields (wnr : Bool) (a : Byte) (h : a.getLsbD 7 = false) :
    (commandByte wnr a).getLsbD 7 = wnr ∧ frameAddr (commandByte wnr a) = a := by
  revert wnr a; decide

/-- A length that fits its byte is read back from it (R126). -/
theorem lengthByte_toNat {n : Nat} (h : n ≤ 255) : (BitVec.ofNat 8 n).toNat = n :=
  (BitVec.toNat_ofNat n 8).trans (Nat.mod_eq_of_lt (by omega))

/-! ### Frames -/

/-- A read frame is the block read of as many bytes as it has data bytes, of one the byte access (R111, R113). -/
theorem decodeFrame_read (a : Byte) (d : List Byte) (h : a.getLsbD 7 = false) :
    decodeFrame (commandByte false a :: d) = .ok (Instr.readBlock a d.length).canonical := by
  obtain ⟨h7, ha⟩ := commandByte_fields false a h
  rcases d with _ | ⟨x, _ | ⟨y, d⟩⟩ <;> simp only [decodeFrame, h7, ha] <;> rfl

/-- A write frame is the block write of its data bytes, of one the byte access (R111, R113). -/
theorem decodeFrame_write (a : Byte) (d : List Byte) (h : a.getLsbD 7 = false) :
    decodeFrame (commandByte true a :: d) = .ok (Instr.writeBlock a d).canonical := by
  obtain ⟨h7, ha⟩ := commandByte_fields true a h
  rcases d with _ | ⟨x, _ | ⟨y, d⟩⟩ <;> simp only [decodeFrame, h7, ha] <;> rfl

/-! ### Host commands -/

theorem decodeHost_encode_init (hz : Word32) (pa crc : Bool) :
    decodeHost (encode (.init hz pa crc)) = .ok (.init hz pa crc) := by
  obtain ⟨hrsv, hpa, hcrc⟩ := initOpts_fields pa crc
  show (if initOpts pa crc &&& 0xFC = 0 then Except.ok (Instr.init (joinBytes _ _ _ _) _ _) else _) = _
  rw [if_pos hrsv, hpa, hcrc, joinBytes_extract]

/-- What is well-formed of a SEND with an address (R126). -/
theorem send_wf_iff (addr pay : List Byte) :
    (Instr.send (some addr) pay).wf = true ↔ (1 ≤ addr.length ∧ addr.length ≤ 255) ∧ pay.length ≤ 255 := by
  simp only [Instr.wf, Bool.and_eq_true, decide_eq_true_eq]

/-- A SEND is written with the lengths of its two parts (R126). -/
theorem encode_send {addr : Option (List Byte)} {pay : List Byte} {a p : Byte} (ha : (addr.getD []).length = a.toNat)
    (hp : pay.length = p.toNat) : encode (.send addr pay) = 0x03 :: a :: p :: (addr.getD [] ++ pay) := by
  show [0x03, BitVec.ofNat 8 (addr.getD []).length, BitVec.ofNat 8 pay.length] ++ addr.getD [] ++ pay = _
  rw [ha, hp, BitVec.ofNat_toNat, BitVec.ofNat_toNat, BitVec.setWidth_eq, BitVec.setWidth_eq]
  rfl

/-- The two lengths of a SEND part its bytes into the address and the payload (R126). -/
theorem decodeHost_send {a p : Byte} {addr pay : List Byte} (ha : addr.length = a.toNat) (hp : pay.length = p.toNat) :
    decodeHost (0x03 :: a :: p :: (addr ++ pay)) = .ok (.send (if a = 0 then none else some addr) pay) := by
  have hl : (addr ++ pay).length = a.toNat + p.toNat := by rw [List.length_append, ha, hp]
  show (if (addr ++ pay).length = a.toNat + p.toNat then
    Except.ok (Instr.send (if a = 0 then none else some ((addr ++ pay).take a.toNat)) ((addr ++ pay).drop a.toNat))
    else _) = _
  rw [if_pos hl, ← ha, List.take_left, List.drop_left]

theorem decodeHost_encode_send (addr : Option (List Byte)) (pay : List Byte) (h : (Instr.send addr pay).wf = true) :
    decodeHost (encode (.send addr pay)) = .ok (.send addr pay) := by
  cases addr with
  | none =>
    have hp := (lengthByte_toNat (of_decide_eq_true h)).symm
    rw [encode_send (a := 0) rfl hp]
    exact decodeHost_send rfl hp
  | some a =>
    obtain ⟨⟨hpos, hle⟩, hpay⟩ := (send_wf_iff a pay).1 h
    have ha := (lengthByte_toNat hle).symm
    have hp := (lengthByte_toNat hpay).symm
    have hne : BitVec.ofNat 8 a.length ≠ 0 := fun e => by
      rw [e] at ha
      exact Nat.ne_of_gt hpos ha
    rw [encode_send (addr := some a) ha hp]
    exact (decodeHost_send ha hp).trans (by rw [if_neg hne])

/-! ### Internal operations -/

theorem decodeInternal_encode_setCarrierFrequency {hz : Nat} (h : hz < 2 ^ 32) :
    decodeInternal (encode (.setCarrierFrequency hz)) = .ok (.setCarrierFrequency hz) := by
  show Except.ok (Instr.setCarrierFrequency (joinBytes _ _ _ _).toNat) = _
  rw [joinBytes_extract, BitVec.toNat_ofNat, Nat.mod_eq_of_lt h]

/-- Settles O1: each interface's decoder on what the encoder writes there. -/
theorem decodeEncodeRoundTrip : Obligations.DecodeEncodeRoundTrip := by
  intro i h
  cases i with
  | readByte a => exact decodeFrame_read a [_] (by simpa [Instr.wf] using h)
  | readBlock a n =>
    simp only [Instr.wf, Bool.and_eq_true, Bool.not_eq_true'] at h
    exact (decodeFrame_read a _ h.1).trans (by rw [List.length_replicate])
  | writeByte a v => exact decodeFrame_write a [v] (by simpa [Instr.wf] using h)
  | writeBlock a bs =>
    simp only [Instr.wf, Bool.and_eq_true, Bool.not_eq_true'] at h
    exact decodeFrame_write a bs h.1
  | init hz pa crc => exact decodeHost_encode_init hz pa crc
  | send addr pay => exact decodeHost_encode_send addr pay h
  | setCarrierFrequency hz => exact decodeInternal_encode_setCarrierFrequency (of_decide_eq_true h)
  | setMode m => cases m <;> rfl
  | setPowerAmplifier b => cases b <;> rfl
  | reset | dump _ _ | enableRxCrc | dispatch | onReceiveComplete | onTransmitComplete => rfl

/-- Settles O5: the decoders evaluated on the sample words. -/
theorem sampleWordsDecode : Obligations.SampleWordsDecode := by
  unfold Obligations.SampleWordsDecode
  decide

/-! ### What a decoded host command was written as -/

/-- The commands that decode, each with its operation (R251); a SEND without and with an address. -/
theorem decodeHost_cases {c : List Byte} {i : Instr} (h : decodeHost c = .ok i) :
    (c = [0x01] ∧ i = .reset) ∨
    (∃ h3 h2 h1 h0 o, c = [0x02, h3, h2, h1, h0, o] ∧ o &&& 0xFC = 0 ∧
      i = .init (joinBytes h3 h2 h1 h0) (o.getLsbD 0) (o.getLsbD 1)) ∨
    (∃ p body, c = 0x03 :: 0x00 :: p :: body ∧ body.length = p.toNat ∧ i = .send none body) ∨
    (∃ a p body, a ≠ 0x00 ∧ c = 0x03 :: a :: p :: body ∧ body.length = a.toNat + p.toNat ∧
      i = .send (some (body.take a.toNat)) (body.drop a.toNat)) ∨
    ∃ x y, c = [0x04, x, y] ∧ i = .dump x y := by
  unfold decodeHost at h
  repeat' split at h
  all_goals cases h
  · rename_i hop _
    exact .inl ⟨by rw [hop], rfl⟩
  · rename_i hop _ h3 h2 h1 h0 o ho
    exact .inr (.inl ⟨h3, h2, h1, h0, o, by rw [hop], ho, rfl⟩)
  · rename_i hop _ a p body hl ha
    subst ha
    exact .inr (.inr (.inl ⟨p, body, by rw [hop], hl.trans (Nat.zero_add _), rfl⟩))
  · rename_i hop _ a p body hl ha
    exact .inr (.inr (.inr (.inl ⟨a, p, body, ha, by rw [hop], hl, rfl⟩)))
  · rename_i hop _ x y
    exact .inr (.inr (.inr (.inr ⟨x, y, by rw [hop], rfl⟩)))

theorem encode_init_joinBytes {h3 h2 h1 h0 o : Byte} (ho : o &&& 0xFC = 0) :
    encode (.init (joinBytes h3 h2 h1 h0) (o.getLsbD 0) (o.getLsbD 1)) = [0x02, h3, h2, h1, h0, o] := by
  show 0x02 :: (splitBytes _ ++ [initOpts _ _]) = _
  rw [splitBytes_joinBytes, initOpts_of_reserved_clear o ho]
  rfl

/-- Settles O3: each of the commands that decode, written again; a SEND's two parts have the lengths it gave. -/
theorem hostCommandsReencode : Obligations.HostCommandsReencode := by
  intro c i h
  rcases decodeHost_cases h with ⟨rfl, rfl⟩ | ⟨h3, h2, h1, h0, o, rfl, ho, rfl⟩ | ⟨p, body, rfl, hl, rfl⟩ |
    ⟨a, p, body, ha, rfl, hl, rfl⟩ | ⟨x, y, rfl, rfl⟩
  · exact ⟨rfl, rfl, rfl⟩
  · exact ⟨rfl, rfl, encode_init_joinBytes ho⟩
  · have hle : body.length ≤ 255 := by have := p.isLt; omega
    exact ⟨decide_eq_true hle, rfl, encode_send rfl hl⟩
  · have hpos : a.toNat ≠ 0 := fun e => ha (BitVec.eq_of_toNat_eq e)
    have hla := a.isLt
    have hlp := p.isLt
    have haddr : (body.take a.toNat).length = a.toNat := List.length_take_of_le (by omega)
    have hpay : (body.drop a.toNat).length = p.toNat := by rw [List.length_drop]; omega
    refine ⟨(send_wf_iff _ _).2 (by omega), rfl, (encode_send (addr := some _) haddr hpay).trans ?_⟩
    rw [Option.getD_some, List.take_append_drop]
  · exact ⟨rfl, rfl, rfl⟩

/-- Settles O4: the App context's turn takes the command, and its decoding refuses it (R129). -/
theorem rejectedCommandSetsOnlyTheMark : Obligations.RejectedCommandSetsOnlyTheMark := by
  intro s b ts c rest hn hs hrun hp
  let t : State := { s with schedule := ts, bus := b }
  have hstep : ∀ e, decodeHost c = .error e → step s = .next { t with refused := some (decodeRefusal e) } := fun e he =>
    calc
      step s = t.appTurn := step_turn s (.app b) ts hn hs
      _ = t.hostStep := State.appTurn_host t hrun
      _ = .next (t.refuse (decodeRefusal e)) := State.hostStep_rejected t c rest e hp he
      _ = _ := congrArg _ (State.refuse_of_none t _ hn)
  exact ⟨hstep .unknownCommand, hstep .malformedCommand⟩

end Sys2Proof.Machine
end

section
/-! SUPPORT. The values the block computes from a mode, a frequency or a byte (O22, O25, O38), and setMode (O23). -/

namespace Sys2Proof.Machine

/-! ### Values -/

/-- Settles O22: the mode codes of R115, with the LoRa bit. -/
theorem opModeValues : Obligations.OpModeValues := ⟨rfl, rfl, rfl, rfl⟩

/-- Settles O25: `frfValid_iff_hz`, the limit taken in. -/
theorem frequencyRange : Obligations.FrequencyRange := fun hz => (frfValid_iff_hz hz).trans Nat.lt_succ_iff

/-- Settles O38: the RSSI byte is unsigned, the SNR byte signed (R121, R122). -/
theorem linkRanges : Obligations.LinkRanges := by
  intro v
  have hrssi : rssiDbm v = (v.toNat : Int) - 157 := rfl
  have hsnr : snrQuarterDb v = if 2 * v.toNat < 256 then (v.toNat : Int) else v.toNat - 256 := v.toInt_eq_toNat_cond
  have hv := v.isLt
  split at hsnr <;> omega

/-! ### setMode -/

/-- setMode fails (R170): the error names writeByte, and the shadow is unknown. -/
theorem exec_setMode_fail {s : State} {r : Run} {m : OperatingMode} {k : Nat} {i : List Byte} {d : Chip}
    (h : s.CanFrame r) (hb : s.bus = .fail k) (hf : s.chip.frame ([0x81, opModeValue m].take k) = .ok (i, d)) :
    exec (.setMode m) s = .next (State.afterCall { s with mode := none } r [0x81, opModeValue m] none d
      (.err (.transport .writeByte 0x01))) := by
  have hset : setModeCall m s = .done (.err (.transport .writeByte 0x01))
      (State.frameDone { s with mode := none } r.ctx [0x81, opModeValue m] none d) := by
    show (writeByteCall (regAddr .opMode) (opModeValue m) s).act (setModeAct m) = _
    rw [writeByteCall_fail s r (regAddr .opMode) (opModeValue m) k i d h hb rfl hf]
    rfl
  refine congrArg Host.Outcome.next ((State.callOnce_done _ _ _ _ hset).trans ?_)
  exact State.frameDone_mapLoc { s with mode := none } r _ _ _ _ h.1

/-- Settles O23: the op-mode write of `Chip.writeReg_opMode`, and the frame that fails. -/
theorem setModeWritesAndShadows : Obligations.SetModeWritesAndShadows := by
  intro s r m h
  refine ⟨fun hb => ?_, fun k hb => ?_⟩
  · obtain ⟨i0, i1, d, hk, he⟩ := exec_setMode_ok s r m h hb
    obtain ⟨hregs, hair, -, -, -, -, hmode⟩ := s.chip.writeReg_spec .opMode (opModeValue m) (by decide)
    obtain ⟨hfifo, hnone, hsome⟩ := s.chip.writeReg_opMode (opModeValue m)
    have hsleep : m ≠ .sleep → opModeValue m &&& 0x07 ≠ 0x00 := by cases m <;> decide
    have htransmit : m ≠ .transmit → opModeValue m &&& 0x87 ≠ 0x83 := by cases m <;> decide
    refine ⟨i0, i1, d, he, (hk.reg _).trans (hmode rfl).1, hregs.trans (hk.regs _), hk.radio.2.trans hair,
      fun hm => (hfifo (hsleep hm)).trans hk.fifo, fun hm => hk.radio.1.trans (hnone (htransmit hm)), fun hm => ?_⟩
    rw [hk.radio.1]
    exact hsome (by rw [hm]; decide)
  · obtain ⟨i, d, hf⟩ := s.chip.frame_writeOne_take .opMode (opModeValue m) k
    exact ⟨i, d, hf, exec_setMode_fail h hb hf⟩

end Sys2Proof.Machine
end

section
/-! SUPPORT. A called operation over one turn and over two (R93), and the two frames of enableRxCrc (R173), then O27. -/

namespace Sys2Proof.Machine

/-! ### A call over its turns -/

/-- A call that hands back with its first frame leaves the schedule as it is. -/
theorem runCall_oneTurn {i : Instr} {s u : State} {r : Run} (hr : s.run = some r) (hs : s.Settled)
    (h1 : eagerCall i s = u) (hret : u.loc.ret ≠ none) (hsched : u.schedule = s.schedule) : runCall i s = u := by
  subst h1
  refine runCall_eq_of_eager i s _ (by rw [hr]; nofun) hs ?_ hret
  rw [State.drive_stop _ _ _ _ (decide_eq_false hret), ← hsched]

/-- A call whose first frame leads to a second, which the next turn of its context gives it. -/
theorem runCall_twoTurns {i : Instr} {s u : State} {r : Run} {t : Turn} {ts : List Turn} {fs : List Frame} {d : Chip}
    {e : Bool} {b b' : BusResult} {l : Locals} (hr : s.run = some r) (hs : s.Settled) (hn : s.refused = none)
    (hsched : s.schedule = t :: ts) (ht : turnCtx t = some r.ctx) (hb : turnBus t = b')
    (h1 : eagerCall i s = s.ran r fs d e b l) (hl : l.ret = none) (h2 : eagerCall i (s.ran r fs d e b' l) = u)
    (hret : u.loc.ret ≠ none) : runCall i s = { u with schedule := ts } := by
  refine runCall_eq_of_eager i s _ (by rw [hr]; nofun) hs ?_ hret
  rw [hsched, h1, State.drive_ran s r fs d e b l callOpen _ t ts (decide_eq_true hl) hn ht, hb, h2,
    State.drive_stop _ _ _ _ (decide_eq_false hret)]

/-! ### The two frames of enableRxCrc -/

/-- The state after enableRxCrc's read frame, whose value is `v`, with the draw `b` for its next frame (R173). -/
def State.crcRead (s : State) (r : Run) (inp : List Byte) (v : Byte) (c : Chip) (b : BusResult) : State :=
  s.ran r [{ ctx := r.ctx, out := [0x1E, 0x00], inp := some inp }] c (s.edgePending || (c.dio0 && !s.lineLast)) b
    (Locals.next { r.loc with crcValue := v })

/-- The read: a frame that changes nothing but the draws. -/
theorem eagerCall_enableRxCrc_reads (s : State) (r : Run) (h : s.CanFrame r) (hb : s.bus = .ok) (hs : r.loc.sub = 0) :
    ∃ i0 v c, Chip.SameBut s.chip c ∧ (s.chip.InLoRa → v = s.chip.reg .modemConfig2) ∧
      eagerCall .enableRxCrc s = s.crcRead r [i0, v] v c .ok := by
  have hs' : s.loc.sub = 0 := by rw [s.loc_of_run r h.1, hs]
  obtain ⟨i0, v, c, hk, hv, hread⟩ := readByteCall_reads s r 0x1E h hb rfl (by decide)
  have hwhole : callWhole .enableRxCrc s.loc.sub s = .more ((s.frameDone r.ctx [0x1E, 0x00] (some [i0, v]) c).mapLoc
      fun l => { l with crcValue := v }) := by
    rw [hs']
    show (readByteCall 0x1E s).act (enableRxCrcAct 0) = _
    rw [hread]
    rfl
  refine ⟨i0, v, c, hk, fun hm => hv .modemConfig2 rfl ⟨by decide, fun _ => hm⟩, ?_⟩
  rw [State.crcRead, ← hb]
  exact State.callOnce_ran_more s r _ _ _ _ c h.1 hwhole

theorem State.crcRead_canFrame {s : State} {r : Run} (h : s.CanFrame r) (inp : List Byte) (v : Byte) (c : Chip)
    (b : BusResult) : (s.crcRead r inp v c b).CanFrame { r with loc := Locals.next { r.loc with crcValue := v } } :=
  s.ran_canFrame r _ c _ b _ h

/-- The state after enableRxCrc's write frame, which handed in `x` (R173). -/
def State.crcWritten (s : State) (r : Run) (inp : List Byte) (v : Byte) (inp' : Option (List Byte)) (d : Chip)
    (b : BusResult) (x : Ret) : State :=
  s.ran r [{ ctx := r.ctx, out := [0x1E, 0x00], inp := some inp },
      { ctx := r.ctx, out := [0x9E, v ||| 0x04], inp := inp' }] d (s.edgePending || (d.dio0 && !s.lineLast)) b
    { r.loc with sub := 0, ret := some x, crcValue := v }

/-- The write, completed or failed: the call hands `x` back, and the line stays as it was. -/
theorem eagerCall_enableRxCrc_writes {s : State} {r : Run} {inp : List Byte} {v : Byte} {c d : Chip} {b : BusResult}
    {x : Ret} {inp' : Option (List Byte)} (hs : r.loc.sub = 0) (hx : ∀ t, enableRxCrcAct 1 x t = .done x t)
    (hw : writeByteCall (regAddr .modemConfig2) (v ||| 0x04) (s.crcRead r inp v c b) =
      .done x ((s.crcRead r inp v c b).frameDone r.ctx [0x9E, v ||| 0x04] inp' d))
    (hline : d.dio0 = c.dio0) :
    eagerCall .enableRxCrc (s.crcRead r inp v c b) = s.crcWritten r inp v inp' d b x := by
  let q : Run := { r with loc := Locals.next { r.loc with crcValue := v } }
  have hsub : (s.crcRead r inp v c b).loc.sub = 1 := congrArg (· + 1) hs
  have hwhole : callWhole .enableRxCrc (s.crcRead r inp v c b).loc.sub (s.crcRead r inp v c b) =
      .done x ((s.crcRead r inp v c b).frameDone r.ctx [0x9E, v ||| 0x04] inp' d) := by
    rw [hsub]
    show (writeByteCall (regAddr .modemConfig2) (v ||| 0x04) _).act (enableRxCrcAct 1) = _
    rw [hw]
    exact hx _
  refine (State.callOnce_ran _ q _ _ _ _ d rfl hwhole).trans ?_
  refine (State.ran_ran s r _ c _ b _ _ d _ b _).trans ?_
  unfold State.crcWritten
  rw [State.crcRead, State.ran_edgePending, State.ran_lineLast, hline, edge_const]
  rfl

/-- A write of ModemConfig2, completed or cut short, leaves the line as it was. -/
theorem Chip.frame_modemConfig2_dio0 {c d : Chip} {v : Byte} {k : Nat} {i : List Byte}
    (hf : c.frame ([0x9E, v].take k) = .ok (i, d)) : d.dio0 = c.dio0 :=
  Chip.dio0_kept (l := [.modemConfig2, .fifoAddrPtr])
    (c.frame_regsKept (by decide) d _ i ((frameIn_writeByte (q := .modemConfig2) (by decide) v).take k) hf)
    (by decide) (by decide)

/-- Settles O27: the read of ModemConfig2, then its write with the CRC bit, each frame completed or failed. -/
theorem enableRxCrcSetsTheBit : Obligations.EnableRxCrcSetsTheBit := by
  intro s r h hn hsub hgot hret
  have hset : s.Settled := by
    unfold State.Settled
    rw [s.loc_of_run r h.1]
    exact ⟨hgot, hret⟩
  refine ⟨fun t ts hb hs ht => ?_, fun k hb => ?_, fun t ts k hb hs ht hk => ?_⟩
  · obtain ⟨htc, htb⟩ := ht
    obtain ⟨i0, v, c, hk1, hv, h1⟩ := eagerCall_enableRxCrc_reads s r h hb hsub
    obtain ⟨i1, i2, d, hk2, hw⟩ := writeByteCall_writes _ _ .modemConfig2 (v ||| 0x04)
      (State.crcRead_canFrame h [i0, v] v c .ok) rfl (by decide)
    obtain ⟨hregs, hair, hkeep, -, -, hstore, -⟩ := c.writeReg_spec .modemConfig2 (v ||| 0x04) (by decide)
    obtain ⟨hfifo, htx⟩ := hkeep (by decide)
    have hcd := hregs.trans (hk2.regs _)
    have h2 := eagerCall_enableRxCrc_writes hsub (fun _ => rfl) hw (Chip.dio0_kept hcd (by decide) (by decide))
    have hcall := runCall_twoTurns h.1 hset hn hs htc htb h1 hret h2 nofun
    exact ⟨i0, v, i1, i2, d, congrArg Host.Outcome.next hcall, hv, (hk2.reg _).trans (hstore ⟨rfl, nofun⟩),
      (hk1.regs _).trans hcd, hk1.fifo.trans (hfifo.trans hk2.fifo),
      hk1.radio.trans (Chip.RadioKept.trans ⟨htx, hair⟩ hk2.radio)⟩
  · obtain ⟨i, d, hf⟩ := s.chip.frame_readOne_take 0x1E k rfl
    have hread := readByteCall_fail s r 0x1E k i d h hb rfl hf
    have hwhole : callWhole .enableRxCrc s.loc.sub s =
        .done (.err (.transport .readByte 0x1E)) (s.frameDone r.ctx [0x1E, 0x00] none d) := by
      rw [s.loc_of_run r h.1, hsub]
      show (readByteCall 0x1E s).act (enableRxCrcAct 0) = _
      rw [hread]
      rfl
    exact ⟨i, d, hf, congrArg Host.Outcome.next
      (runCall_oneTurn h.1 hset (s.callOnce_afterCall r _ _ _ d _ h.1 hwhole) nofun rfl)⟩
  · obtain ⟨i0, v, c, hk1, -, h1⟩ := eagerCall_enableRxCrc_reads s r h hb hsub
    obtain ⟨i, d, hf⟩ := c.frame_writeOne_take .modemConfig2 (v ||| 0x04) k
    have hw := writeByteCall_fail _ _ (regAddr .modemConfig2) (v ||| 0x04) k i d
      (State.crcRead_canFrame h [i0, v] v c (.fail k)) rfl rfl hf
    have h2 := eagerCall_enableRxCrc_writes hsub (fun _ => rfl) hw (Chip.frame_modemConfig2_dio0 hf)
    have hcall := runCall_twoTurns h.1 hset hn hs ht hk h1 hret h2 nofun
    exact ⟨i0, v, i, c, d, hf, hk1.regs _, hk1.fifo, hk1.radio, congrArg Host.Outcome.next hcall⟩

end Sys2Proof.Machine
end

section
/-! SUPPORT. The refusals that stand before a command's lock (R277), then O50; and the modes an operation of the block
sets, none of them Standby (R174), then O60. -/

namespace Sys2Proof.Machine

/-! ### Refusals before the lock -/

/-- Settles O50: each refusal stands before the checks after it, and marks the unmarked state. -/
theorem commandRefusals : Obligations.CommandRefusals := by
  intro s hn
  have mark : ∀ x, s.refuse x = { s with refused := some x } := fun x => s.refuse_of_none x hn
  refine ⟨fun hrd => ⟨fun hz pa crc => ?_, fun a p => ?_, fun x y => ?_⟩, fun hrd hbusy hz pa crc => ?_,
    fun hrd hinit a p => ?_⟩
  · simp only [exec, execInit, hrd, mark, Bool.not_false, if_true]
  · simp only [exec, execSend, hrd, mark, Bool.not_false, if_true]
  · simp only [exec, execDump, hrd, mark, Bool.not_false, if_true]
  · simp only [exec, execInit, hrd, hbusy, mark, Bool.not_true, Bool.false_eq_true, if_false, if_true]
  · simp only [exec, execSend, hrd, hinit, mark, Bool.not_true, Bool.not_false, Bool.false_eq_true, if_false, if_true]

/-! ### The shadow under a call -/

/-- The shadow is not Standby (R174). -/
def State.NoStandby (s : State) : Prop := s.mode ≠ some .standby

theorem State.NoStandby.congr {s t : State} (h : s.NoStandby) (hm : t.mode = s.mode) : t.NoStandby :=
  fun e => h (hm.symm.trans e)

/-- No operation of the sequencer calls setMode of Standby (R174, R176, R230). -/
theorem callAt_ne_standby (r : Run) (s : State) (hc : composed r.op = true) : callAt r s ≠ .setMode .standby := by
  cases ho : r.op <;> rw [ho] at hc <;> cases hc <;> unfold callAt <;> rw [ho] <;> dsimp only
  case init hz pa crc => unfold initCallAt; split <;> nofun
  case send addr pay => unfold sendCallAt; split <;> nofun
  case dump x y => nofun
  case dispatch => unfold dispatchCallAt; split <;> nofun

theorem setModeAct_noStandby (m : OperatingMode) (hm : m ≠ .standby) (x : Ret) (s : State) :
    (setModeAct m x s).After State.NoStandby := by
  cases x with
  | bytes bs => exact fun e => hm (Option.some.inj e)
  | err e => nofun

/-- The actions of a call other than setMode of Standby. -/
theorem callAct_noStandby (i : Instr) (hi : i ≠ .setMode .standby) (k : Nat) (x : Ret) (s : State)
    (h : s.NoStandby) : (callAct i k x s).After State.NoStandby := by
  cases i with
  | setMode m => exact setModeAct_noStandby m (fun e => hi (e ▸ rfl)) x s
  | onTransmitComplete =>
    unfold callAct onTransmitCompleteAct
    dsimp only
    split
    · exact Ret.orErr_after h fun _ => h
    · exact (setModeAct_noStandby .receiveContinuous nofun x s).act fun y t ht => Ret.orErr_after ht fun _ => ht
  | enableRxCrc =>
    refine Ret.orErr_after h fun bs => ?_
    split
    · exact h.congr (s.mapLoc_mode _)
    · exact h
  | onReceiveComplete =>
    refine Ret.orErr_after h fun bs => ?_
    split
    case h_2 => exact h
    case h_7 => exact h
    all_goals exact h.congr (s.mapLoc_mode _)
  | _ => exact h

theorem State.NoStandby.actGot {s : State} (h : s.NoStandby) {i : Instr} (hi : i ≠ .setMode .standby) :
    (s.actGot i).NoStandby := by
  unfold State.actGot
  split
  · exact h
  · rename_i x _
    have k := callAct_noStandby i hi s.loc.sub x s h
    split
    · rename_i t e; rw [e] at k; exact k.congr (t.mapLoc_mode _)
    · rename_i y t e; rw [e] at k; exact k.congr (t.mapLoc_mode _)
    · exact h.congr (s.refuse_mode _)

/-! ### The shadow under the running operation -/

/-- An operation that takes what its call handed back leaves the shadow to its calls (R170). -/
theorem opReturn_mode (r : Run) (x : Ret) (s : State) : (opReturn r x s).mode = s.mode := by
  unfold opReturn
  split
  · unfold initReturn
    repeat' split
    all_goals simp
  · unfold sendReturn
    repeat' split
    all_goals simp
  · unfold dumpReturn
    dsimp only
    split
    · simp
    · split <;> simp
  · unfold dispatchReturn
    dsimp only
    repeat' split
    all_goals simp
  all_goals simp

theorem handBack_mode (s : State) : (handBack s).mode = s.mode := by
  unfold handBack
  split
  · rfl
  · split
    · rfl
    · exact opReturn_mode _ _ s

theorem State.Inv.settle_noStandby {s : State} (h : s.Inv) (hm : s.NoStandby) : (settle s).NoStandby := by
  cases hr : s.run with
  | none => rwa [settle_of_settled _ (s.settled_idle hr)]
  | some r =>
    rw [settle_running s r hr]
    exact (hm.actGot (callAt_ne_standby r s (h.run r hr).composed)).congr (handBack_mode _)

/-- A frame leaves the shadow to the actions after it (R93, R170). -/
theorem State.issue_noStandby {s0 s : State} (h0 : s0.NoStandby) (h : s.NoStandby) (i : Instr) :
    (State.issue i s0 s).NoStandby := by
  rcases callFrame_cases i s.loc.sub s with ⟨e, he⟩ | ⟨x, t, ht, hf⟩
  · rw [State.issue_refuse i s0 s e he]
    exact h0.congr (s0.refuse_mode e)
  · rw [State.issue_done i s0 s t x ht]
    exact h.congr ((t.mapLoc_mode _).trans hf.mode)

theorem State.Inv.frameStep_noStandby {s : State} (h : s.Inv) (hm : s.NoStandby) : (frameStep s).NoStandby := by
  have hs := h.settle_noStandby hm
  cases hr : (settle s).run with
  | none =>
    unfold frameStep
    simp only [hr]
    exact hs
  | some r =>
    have hi := State.issue_noStandby hm hs (callAt r (settle s))
    rw [frameStep_running s r hr]
    unfold closeOp
    split
    · exact (h.issue (settle_inv h.mid) _).settle_noStandby hi
    · exact hi

theorem State.Inv.runOp_noStandby {s : State} (h : s.Inv) (hm : s.NoStandby) : (runOp s).NoStandby :=
  (State.drive_induct (P := fun u => u.Inv ∧ u.NoStandby) (fun _ => true) (fun t => frameStep t)
    (fun _ hu => ⟨frameStep_inv hu.1, hu.1.frameStep_noStandby hu.2⟩) (fun _ b hu => ⟨hu.1.setBus b, hu.2⟩)
    (fun _ l hu => ⟨hu.1.setSchedule l, hu.2⟩) s.schedule (frameStep s)
    ⟨frameStep_inv h, h.frameStep_noStandby hm⟩).2

/-! ### The shadow over a step -/

/-- RESET makes the shadow unknown (R252); every other command leaves it to its frames. -/
theorem State.CommandTo.noStandby {s t : State} {i : Instr} (k : s.CommandTo i t) (h : s.Inv) (hm : s.NoStandby) :
    t.NoStandby := by
  cases k with
  | waits => exact hm
  | refuses x => exact hm.congr (s.refuse_mode x)
  | fails y => exact hm
  | busy u y hu =>
    obtain ⟨-, rfl⟩ := s.acquire_eq_some u _ _ hu
    exact hm
  | resets u hi hu => nofun
  | starts u hg hu =>
    have hu' := h.acquire i hu (runOk_of_startsFrames hg)
    obtain ⟨-, rfl⟩ := s.acquire_eq_some u _ _ hu
    exact hu'.runOp_noStandby hm

theorem State.chipTurn_mode (s : State) (e : ChipEvent) : (s.chipTurn e).mode = s.mode := by
  unfold State.chipTurn
  split <;> rfl

theorem State.TurnTo.noStandby {s t : State} (k : s.TurnTo t) (h : s.Inv) (hm : s.NoStandby) : t.NoStandby := by
  cases k with
  | waits => exact hm
  | presents c => exact hm
  | chip e => exact hm.congr (s.chipTurn_mode e)
  | resumes r _ hr he =>
    rw [h.resume r hr] at he
    cases he
    exact h.frameStep_noStandby hm
  | rejects c rest e hp hd => exact hm.congr (s.refuse_mode _)
  | commands c rest i _ hp hd hl he =>
    exact (exec_commandTo i _ t (decodeHost_format c i hd) he).noStandby (h.setPort rest) hm
  | dispatches _ hr he =>
    obtain rfl | ⟨hd, rfl⟩ := execDispatch_cases s t he
    · exact hm
    · exact (h.enterDispatch (s.resetDone_of_dispatchEnabled hd)).runOp_noStandby hm

/-- Settles O60: no way a turn can end sets the shadow to Standby. -/
theorem standbyNeverShadowed : Obligations.StandbyNeverShadowed := by
  intro s t h hs hm
  obtain ⟨-, l, n, b, k⟩ := step_turnTo s t hs
  exact k.noStandby (h.atTurn l n b) hm

end Sys2Proof.Machine
end

section
/-! SUPPORT. The two frames of onTransmitComplete (R233), then O35. -/

namespace Sys2Proof.Machine

/-! ### The first frame: DIO0 back to RxDone -/

/-- The state after onTransmitComplete's first frame, with the draw `b` for its next frame (R233). -/
def State.remapped (s : State) (r : Run) (inp : List Byte) (c : Chip) (b : BusResult) : State :=
  s.ran r [{ ctx := r.ctx, out := [0xC0, 0x00], inp := some inp }] c (s.edgePending || (c.dio0 && !s.lineLast)) b
    r.loc.next

theorem State.remapped_canFrame {s : State} {r : Run} (h : s.CanFrame r) (inp : List Byte) (c : Chip)
    (b : BusResult) : (s.remapped r inp c b).CanFrame { r with loc := r.loc.next } :=
  s.ran_canFrame r _ c _ b _ h

/-- The frame completes: the mapping's write and nothing else (R233). -/
theorem eagerCall_onTransmitComplete_remaps (s : State) (r : Run) (h : s.CanFrame r) (hb : s.bus = .ok)
    (hs : r.loc.sub = 0) :
    ∃ i0 i1 c, c.reg .dioMapping1 = 0x00 ∧ Chip.RegsKept [.dioMapping1] s.chip c ∧ Chip.FifoKept s.chip c ∧
      Chip.RadioKept s.chip c ∧ eagerCall .onTransmitComplete s = s.remapped r [i0, i1] c .ok := by
  obtain ⟨i0, i1, c, hk, hw⟩ := writeByteCall_writes s r .dioMapping1 0x00 h hb (by decide)
  obtain ⟨hregs, hair, hkeep, -, -, hstore, -⟩ := s.chip.writeReg_spec .dioMapping1 0x00 (by decide)
  obtain ⟨hfifo, htx⟩ := hkeep (by decide)
  have hwhole : callWhole .onTransmitComplete s.loc.sub s =
      .more ((s.frameDone r.ctx [0xC0, 0x00] (some [i0, i1]) c).mapLoc id) := by
    rw [s.loc_of_run r h.1, hs, State.mapLoc_id _ id rfl]
    show (writeByteCall (regAddr .dioMapping1) 0x00 s).act (onTransmitCompleteAct 0) = _
    rw [hw]
    rfl
  refine ⟨i0, i1, c, (hk.reg _).trans (hstore ⟨rfl, nofun⟩), hregs.trans (hk.regs _), hfifo.trans hk.fifo,
    Chip.RadioKept.trans ⟨htx, hair⟩ hk.radio, ?_⟩
  rw [State.remapped, ← hb]
  exact State.callOnce_ran_more s r _ id _ _ c h.1 hwhole

/-! ### The second frame: ReceiveContinuous -/

/-- The state after onTransmitComplete's second frame, before the shadow, `txBusy` and the events are set: the call
handed `x` back (R233). -/
def State.reverted (s : State) (r : Run) (inp : List Byte) (inp' : Option (List Byte)) (d : Chip) (b : BusResult)
    (x : Ret) : State :=
  s.ran r [{ ctx := r.ctx, out := [0xC0, 0x00], inp := some inp },
      { ctx := r.ctx, out := [0x81, 0x85], inp := inp' }] d (s.edgePending || (d.dio0 && !s.lineLast)) b
    { r.loc with sub := 0, ret := some x }

/-- The frame, completed or failed, with the actions after it: the call hands `x` back, the line stays as it was, and
the actions set the shadow, `txBusy` and the events. -/
theorem eagerCall_onTransmitComplete_reverts {s : State} {r : Run} {inp : List Byte} {c d : Chip} {b : BusResult}
    {x : Ret} {inp' : Option (List Byte)} {m : Option OperatingMode} {busy : Bool} {events : List Event}
    (hs : r.loc.sub = 0)
    (hw : setModeFrame .receiveContinuous (s.remapped r inp c b) =
      .done x ((s.remapped r inp c b).frameDone r.ctx [0x81, 0x85] inp' d))
    (hact : onTransmitCompleteAct 1 x ((s.remapped r inp c b).frameDone r.ctx [0x81, 0x85] inp' d) =
      .done x { ((s.remapped r inp c b).frameDone r.ctx [0x81, 0x85] inp' d) with
        mode := m, txBusy := busy, events := events })
    (hline : d.dio0 = c.dio0) :
    eagerCall .onTransmitComplete (s.remapped r inp c b) =
      { s.reverted r inp inp' d b x with mode := m, txBusy := busy, events := events } := by
  have hsub : (s.remapped r inp c b).loc.sub = 1 := congrArg (· + 1) hs
  have hwhole : callWhole .onTransmitComplete (s.remapped r inp c b).loc.sub (s.remapped r inp c b) =
      .done x { ((s.remapped r inp c b).frameDone r.ctx [0x81, 0x85] inp' d) with
        mode := m, txBusy := busy, events := events } := by
    rw [hsub]
    show (setModeFrame .receiveContinuous _).act (onTransmitCompleteAct 1) = _
    rw [hw]
    exact hact
  refine (State.callOnce_done _ _ _ _ hwhole).trans ?_
  have hedge := edge_const s.edgePending c.dio0 s.lineLast
  simp only [State.reverted, State.remapped, State.ran, State.frameDone, State.edgeSample, State.mapLoc, hline, hedge,
    List.append_assoc, List.singleton_append, Locals.next]

/-- A write of the op-mode register, completed or cut short, leaves the line as it was. -/
theorem Chip.frame_opMode_dio0 {c d : Chip} {v : Byte} {k : Nat} {i : List Byte}
    (hf : c.frame ([0x81, v].take k) = .ok (i, d)) : d.dio0 = c.dio0 :=
  Chip.dio0_kept (l := [.opMode, .fifoAddrPtr])
    (c.frame_regsKept (by decide) d _ i ((frameIn_writeByte (q := .opMode) (by decide) v).take k) hf)
    (by decide) (by decide)

/-- Settles O35: the remap, then setMode of ReceiveContinuous, each frame completed or failed. -/
theorem onTransmitCompleteReverts : Obligations.OnTransmitCompleteReverts := by
  intro s r h hn hsub hgot hret
  have hset : s.Settled := by
    unfold State.Settled
    rw [s.loc_of_run r h.1]
    exact ⟨hgot, hret⟩
  refine ⟨fun t ts hb hs ht => ?_, fun k hb => ?_, fun t ts k hb hs ht hk => ?_⟩
  · obtain ⟨htc, htb⟩ := ht
    obtain ⟨i0, i1, c, hmap, hregs, hfifo, hradio, h1⟩ := eagerCall_onTransmitComplete_remaps s r h hb hsub
    obtain ⟨j0, j1, d, hk, hw⟩ := writeByteCall_writes _ _ .opMode (opModeValue .receiveContinuous)
      (State.remapped_canFrame h [i0, i1] c .ok) rfl (by decide)
    obtain ⟨hmode, hregs', hair, htx⟩ := Chip.writeReg_opMode_regs hk (by decide)
    have hfifo' : Chip.FifoKept c d := ((c.writeReg_opMode _).1 (by decide)).trans hk.fifo
    have h2 := eagerCall_onTransmitComplete_reverts hsub hw rfl (Chip.dio0_kept hregs' (by decide) (by decide))
    have hcall := runCall_twoTurns h.1 hset hn hs htc htb h1 hret h2 nofun
    exact ⟨d, _, congrArg Host.Outcome.next hcall,
      (FramesOut.one r.ctx _ [i0, i1]).append (FramesOut.one r.ctx _ [j0, j1]),
      (hregs'.reg _ (by decide)).trans hmap, hmode, (hregs.mono (by decide)).trans (hregs'.mono (by decide)),
      hfifo.trans hfifo', htx, hair.trans hradio.2⟩
  · obtain ⟨i, d, hf⟩ := s.chip.frame_writeOne_take .dioMapping1 0x00 k
    have hw := writeByteCall_fail s r (regAddr .dioMapping1) 0x00 k i d h hb rfl hf
    have hwhole : callWhole .onTransmitComplete s.loc.sub s =
        .done (.err (.transport .writeByte 0x40)) (s.frameDone r.ctx [0xC0, 0x00] none d) := by
      rw [s.loc_of_run r h.1, hsub]
      show (writeByteCall (regAddr .dioMapping1) 0x00 s).act (onTransmitCompleteAct 0) = _
      rw [hw]
      rfl
    exact ⟨i, d, hf, congrArg Host.Outcome.next
      (runCall_oneTurn h.1 hset (s.callOnce_afterCall r _ _ _ d _ h.1 hwhole) nofun rfl)⟩
  · obtain ⟨i0, i1, c, hmap, hregs, hfifo, hradio, h1⟩ := eagerCall_onTransmitComplete_remaps s r h hb hsub
    obtain ⟨i, d, hf⟩ := c.frame_writeOne_take .opMode (opModeValue .receiveContinuous) k
    have hw := writeByteCall_fail _ _ (regAddr .opMode) (opModeValue .receiveContinuous) k i d
      (State.remapped_canFrame h [i0, i1] c (.fail k)) rfl rfl hf
    have h2 := eagerCall_onTransmitComplete_reverts (m := none) (busy := s.txBusy) (events := s.events) hsub hw rfl
      (Chip.frame_opMode_dio0 hf)
    have hcall := runCall_twoTurns h.1 hset hn hs ht hk h1 hret h2 nofun
    exact ⟨i0, i1, i, c, d, hf, hmap, hregs, hfifo, hradio, congrArg Host.Outcome.next hcall⟩

end Sys2Proof.Machine
end

section
/-! SUPPORT. A failed frame of whatever call: the primitive and address its error names, and what the chip keeps. Then
what the running operation's step makes of it (R271). -/

namespace Sys2Proof.Machine

/-! ### The frame of a call that fails -/

/-- The primitive and the address of frame `j` of a call (R150–R153, R170–R173, R210, R233). -/
def frameOf (i : Instr) (j : Nat) : Option (Primitive × Byte) :=
  match i with
  | .readByte a => some (.readByte, a)
  | .readBlock a _ => some (.readBlock, a)
  | .writeByte a _ => some (.writeByte, a)
  | .writeBlock a _ => some (.writeBlock, a)
  | .setMode _ => some (.writeByte, regAddr .opMode)
  | .setCarrierFrequency _ => some (.writeBlock, regAddr .frfMsb)
  | .setPowerAmplifier _ => some (.writeByte, regAddr .paConfig)
  | .enableRxCrc =>
    match j with
    | 0 => some (.readByte, regAddr .modemConfig2)
    | _ => some (.writeByte, regAddr .modemConfig2)
  | .onReceiveComplete =>
    match j with
    | 0 => some (.readByte, regAddr .fifoRxCurrentAddr)
    | 1 => some (.writeByte, regAddr .fifoAddrPtr)
    | 2 => some (.readByte, regAddr .rxNbBytes)
    | 3 => some (.readBlock, regAddr .fifo)
    | 4 => some (.readByte, regAddr .rssiValue)
    | 5 => some (.readByte, regAddr .pktSnrValue)
    | _ => some (.readByte, regAddr .pktRssiValue)
  | .onTransmitComplete =>
    match j with
    | 0 => some (.writeByte, regAddr .dioMapping1)
    | _ => some (.writeByte, regAddr .opMode)
  | _ => none

/-- Whether the primitive's frame is a write (R112). -/
def Primitive.writes : Primitive → Bool
  | .readByte | .readBlock => false
  | .writeByte | .writeBlock => true

/-- The registers that a frame of the block may change without being a writeByte at their address: the FIFO port and
its pointer, and the frequency burst's (R76, R81). -/
def burstRegs : List Reg := [.fifo, .fifoAddrPtr, .frfMsb, .frfMid, .frfLsb]

/-- The call's frame `c`, issued in `s` by `r`, fails after `k` bytes and its error names the primitive and address `x`;
a register that no burst reaches is kept unless the frame is writeByte's at it (R72, R271). -/
def CallRes.FailsAs (c : CallRes) (s : State) (r : Run) (k : Nat) (x : Primitive × Byte) : Prop :=
  ∃ out i d, out.head? = some (commandByte x.1.writes x.2) ∧ s.chip.frame (out.take k) = .ok (i, d) ∧
    (∀ q ∉ burstRegs, x ≠ (.writeByte, regAddr q) → d.reg q = s.chip.reg q) ∧
    c = .done (.err (.transport x.1 x.2)) (s.frameDone r.ctx out none d)

/-- What the chip processed of the frame changed no register but those the frame reaches. -/
theorem CallRes.FailsAs.of_frameIn {c : CallRes} {s : State} {r : Run} {k : Nat} {x : Primitive × Byte}
    {bs i : List Byte} {d : Chip} {l : List Reg} (hp : Reg.fifoAddrPtr ∈ l)
    (hl : ∀ q ∈ l, q ∈ burstRegs ∨ x = (.writeByte, regAddr q)) (hin : FrameIn l (commandByte x.1.writes x.2 :: bs))
    (hf : s.chip.frame ((commandByte x.1.writes x.2 :: bs).take k) = .ok (i, d))
    (hc : c = .done (.err (.transport x.1 x.2)) (s.frameDone r.ctx (commandByte x.1.writes x.2 :: bs) none d)) :
    c.FailsAs s r k x := by
  have hkept := s.chip.frame_regsKept hp d _ i (hin.take k) hf
  exact ⟨_, i, d, rfl, hf, fun q hq hx => hkept.reg q fun hm => (hl q hm).elim hq hx, hc⟩

section
variable {s : State} {r : Run} {k : Nat} (h : s.CanFrame r) (hb : s.bus = .fail k)
include h hb

theorem readByteCall_failsAs (a : Byte) (ha : a.getLsbD 7 = false) :
    (readByteCall a s).FailsAs s r k (.readByte, a) := by
  obtain ⟨i, d, hf⟩ := s.chip.frame_readOne_take a k ha
  have hcall := readByteCall_fail s r a k i d h hb ha hf
  rw [← commandByte_read a ha] at hf
  exact .of_frameIn (l := burstRegs) (by decide) (fun q hq => .inl hq) (frameIn_read _ a [0x00]) hf
    (hcall.trans (congrArg (fun b => CallRes.done _ (s.frameDone r.ctx [b, 0x00] none d)) (commandByte_read a ha).symm))

theorem readBlockCall_failsAs (n : Nat) :
    (readBlockCall (regAddr .fifo) n s).FailsAs s r k (.readBlock, regAddr .fifo) := by
  obtain ⟨i, d, hf⟩ := safeFrame_read 0x00 (List.replicate n 0x00) rfl (.inl rfl) s.chip k
  exact .of_frameIn (l := burstRegs) (by decide) (fun q hq => .inl hq) (frameIn_read _ (regAddr .fifo) _) hf
    (readBlockCall_fail s r (regAddr .fifo) n k i d h hb rfl hf)

theorem writeByteCall_failsAs (q : Reg) (v : Byte) :
    (writeByteCall (regAddr q) v s).FailsAs s r k (.writeByte, regAddr q) := by
  obtain ⟨i, d, hf⟩ := s.chip.frame_writeOne_take q v k
  have hcall := writeByteCall_fail s r (regAddr q) v k i d h hb (regAddr_bit7 q) hf
  rw [← commandByte_write _ (regAddr_bit7 q)] at hf hcall
  refine .of_frameIn (l := q :: burstRegs) (List.mem_cons_of_mem _ (by decide)) (fun q' hq => ?_)
    (frameIn_writeByte List.mem_cons_self v) hf hcall
  obtain rfl | hq := List.mem_cons.1 hq
  · exact .inr rfl
  · exact .inl hq

theorem writeBlockCall_failsAs (q : Reg) (bs : List Byte)
    (hin : FrameIn burstRegs (commandByte true (regAddr q) :: bs)) (hs : SafeFrame ((0x80 ||| regAddr q) :: bs)) :
    (writeBlockCall (regAddr q) bs s).FailsAs s r k (.writeBlock, regAddr q) := by
  obtain ⟨i, d, hf⟩ := hs s.chip k
  have hcall := writeBlockCall_fail s r (regAddr q) bs k i d h hb (regAddr_bit7 q) hf
  rw [← commandByte_write _ (regAddr_bit7 q)] at hf hcall
  exact .of_frameIn (l := burstRegs) (by decide) (fun q' hq => .inl hq) hin hf hcall

/-- Every frame of a safe call fails as itself, that of a frequency that fits 24 bits included. -/
theorem callFrame_failsAs {i : Instr} {j : Nat} {x : Primitive × Byte} (hx : frameOf i j = some x) (hi : SafeCall i)
    (hv : ∀ hz, i = .setCarrierFrequency hz → frfValid hz = true) : (callFrame i j s).FailsAs s r k x := by
  cases i with
  | readByte a => cases hx; exact readByteCall_failsAs h hb a hi
  | readBlock a n => cases hx; cases hi; exact readBlockCall_failsAs h hb n
  | writeByte a v => cases hx; obtain ⟨q, rfl⟩ := hi; exact writeByteCall_failsAs h hb q v
  | writeBlock a bs =>
    cases hx
    cases hi
    exact writeBlockCall_failsAs h hb .fifo bs (frameIn_fifo (by decide) bs) (safeFrame_write 0 bs rfl (.inl rfl))
  | setMode m => cases hx; exact writeByteCall_failsAs h hb .opMode _
  | setCarrierFrequency hz =>
    cases hx
    have hburst : callFrame (.setCarrierFrequency hz) j s = writeBlockCall (regAddr .frfMsb) (frfBytes hz) s :=
      if_pos (hv hz rfl)
    rw [hburst]
    exact writeBlockCall_failsAs h hb .frfMsb _ (frameIn_frf (by decide) (by decide) (by decide) hz)
      (safeFrame_frf _ _ _)
  | setPowerAmplifier b => cases hx; exact writeByteCall_failsAs h hb .paConfig _
  | enableRxCrc =>
    match j, hx with
    | 0, rfl => exact readByteCall_failsAs h hb _ rfl
    | _ + 1, rfl => exact writeByteCall_failsAs h hb .modemConfig2 _
  | onReceiveComplete =>
    match j, hx with
    | 0, rfl => exact readByteCall_failsAs h hb _ rfl
    | 1, rfl => exact writeByteCall_failsAs h hb .fifoAddrPtr _
    | 2, rfl => exact readByteCall_failsAs h hb _ rfl
    | 3, rfl => exact readBlockCall_failsAs h hb _
    | 4, rfl => exact readByteCall_failsAs h hb _ rfl
    | 5, rfl => exact readByteCall_failsAs h hb _ rfl
    | _ + 6, rfl => exact readByteCall_failsAs h hb _ rfl
  | onTransmitComplete =>
    match j, hx with
    | 0, rfl => exact writeByteCall_failsAs h hb .dioMapping1 _
    | _ + 1, rfl => exact writeByteCall_failsAs h hb .opMode _
  | _ => cases hx

end

/-! ### The running operation and the error -/

/-- The call is safe, and each of its frames is one of those listed; a failed one makes the shadow unknown exactly if it
addresses the op-mode register (R170). -/
structure CallAmong (l : List (Primitive × Byte)) (i : Instr) : Prop where
  safe : SafeCall i
  valid : ∀ hz, i = .setCarrierFrequency hz → frfValid hz = true
  frame : ∀ j, ∃ x ∈ l, frameOf i j = some x ∧ ∀ m, modeAfterErr i j m = if x.2 = 0x01 then none else m

/-- An error ends the operation whose call handed it back (R271). -/
theorem opReturn_err_run (r : Run) (e : Err) (s : State) : (opReturn r (.err e) s).run = none := by
  unfold opReturn
  cases r.op with
  | dispatch => cases e <;> rfl
  | _ => rfl

/-- A turn of the running operation whose next frame the bus fails: the operation is still the same, the frame is one of
those `l` that its calls may have, and the step is what the operation makes of the error. -/
theorem step_frame_fails {s s1 : State} {r r1 : Run} {t : Turn} {ts : List Turn} {k : Nat}
    {l : List (Primitive × Byte)} (hn : s.refused = none) (hs : s.schedule = t :: ts) (hk : turnBus t = .fail k)
    (h : s.CanFrame r) (ht : turnCtx t = some r.ctx) (hc : composed r.op = true)
    (h1 : s1 = settle { s with schedule := ts, bus := turnBus t }) (hr1 : s1.run = some r1)
    (hl : ∀ q, q.op = r.op → CallAmong l (callAt q s1)) :
    r1.ctx = r.ctx ∧ r1.op = r.op ∧ ∃ x out i d, x ∈ l ∧ out.head? = some (commandByte x.1.writes x.2) ∧
      s1.chip.frame (out.take k) = .ok (i, d) ∧
      (∀ q ∉ burstRegs, x ≠ (.writeByte, regAddr q) → d.reg q = s1.chip.reg q) ∧
      step s = .next (opReturn r1 (.err (.transport x.1 x.2))
        { s1.failedFrame r1 out d (.transport x.1 x.2) with mode := if x.2 = 0x01 then none else s1.mode }) := by
  have hcan : s1.CanFrame r1 := by
    rw [h1] at hr1 ⊢
    exact settle_canFrame _ r r1 h hr1
  have hbus : s1.bus = .fail k := by rw [h1, ← hk]; exact (settle_env _).2.1
  obtain ⟨r0, h0, hctx, hop⟩ := settle_run _ r1 (h1 ▸ hr1)
  cases h.1.symm.trans h0
  have hcall := hl r1 hop
  obtain ⟨x, hx, hframe, hmode⟩ := hcall.frame r1.loc.sub
  obtain ⟨out, i, d, hout, hf, hkept, hfails⟩ := callFrame_failsAs hcan hbus hframe hcall.safe hcall.valid
  refine ⟨hctx, hop, x, out, i, d, hx, hout, hf, hkept, ?_⟩
  rw [← hmode]
  exact step_failed s s1 _ r r1 t ts _ out d hn hs h.1 ht hc h1 hr1 hfails rfl (opReturn_err_run r1 _ _)

/-- A running operation with nothing pending whose first frame the bus fails ends with it. -/
theorem runOp_firstFrame_fails {s : State} {r : Run} {e : Err} {out : List Byte} {d : Chip} (hr : s.run = some r)
    (hs : s.Settled) (hf : callFrame (callAt r s) s.loc.sub s = .done (.err e) (s.frameDone r.ctx out none d)) :
    runOp s = opReturn r (.err e) (s.failedFrame r out d e) := by
  have hsettle : settle ((s.frameDone r.ctx out none d).withGot (some (.err e))) =
      opReturn r (.err e) (s.failedFrame r out d e) := settle_failed s r out d e hr
  have hend := opReturn_err_run r e (s.failedFrame r out d e)
  have hframe : frameStep s = opReturn r (.err e) (s.failedFrame r out d e) := by
    rw [frameStep_running s r (by rw [settle_of_settled s hs]; exact hr), settle_of_settled s hs,
      State.issue_done _ _ _ _ _ hf, closeOp_of_ended _ ((congrArg State.run hsettle).trans hend), hsettle]
  have hsched : (opReturn r (.err e) (s.failedFrame r out d e)).schedule = s.schedule := (opReturn_env _ _ _).2.2
  show State.drive _ _ s.schedule (frameStep s) = _
  rw [hframe, State.drive_idle _ _ _ _ hend, ← hsched]

end Sys2Proof.Machine
end

section
/-! SUPPORT. The frames of INIT, SEND and dispatch that may fail, then O30, O34 and O44. -/

namespace Sys2Proof.Machine

/-! ### INIT -/

/-- The frames of INIT, each as its primitive and address (R176). -/
def initFrames : List (Primitive × Byte) :=
  [(.writeByte, 0x01), (.writeBlock, 0x06), (.writeByte, 0x09), (.readByte, 0x1E), (.writeByte, 0x1E)]

theorem initCallAt_among (hz : Word32) (pa : Bool) (pc : Nat) (hv : frfValid hz.toNat = true) :
    CallAmong initFrames (initCallAt hz pa pc) := by
  unfold initCallAt
  split
  · exact ⟨trivial, nofun, fun _ => ⟨(.writeByte, 0x01), by decide, rfl, fun _ => rfl⟩⟩
  · exact ⟨trivial, fun _ e => by cases e; exact hv, fun _ => ⟨(.writeBlock, 0x06), by decide, rfl, fun _ => rfl⟩⟩
  · exact ⟨trivial, nofun, fun _ => ⟨(.writeByte, 0x09), by decide, rfl, fun _ => rfl⟩⟩
  · refine ⟨trivial, nofun, fun j => ?_⟩
    match j with
    | 0 => exact ⟨(.readByte, 0x1E), by decide, rfl, fun _ => rfl⟩
    | _ + 1 => exact ⟨(.writeByte, 0x1E), by decide, rfl, fun _ => rfl⟩
  · exact ⟨trivial, nofun, fun _ => ⟨(.writeByte, 0x01), by decide, rfl, fun _ => rfl⟩⟩

/-- Settles O30: setMode's failed first frame, and a failed frame at any later position. -/
theorem initTransportError : Obligations.InitTransportError := by
  refine ⟨fun s hz pa crc k hrd hbusy hl hb hlt => ?_,
    fun s s1 hz pa crc r r1 b ts k hn hs hbk h hctx hop hlt hs1 hr1 => ?_⟩
  · have hg : startsFrames (.init hz pa crc) s = true := by
      have hv := (frfValid_iff_hz hz.toNat).2 hlt
      simp only [startsFrames, hrd, hbusy, hv, Bool.not_false, Bool.and_self]
    obtain ⟨i, d, hf⟩ := s.chip.frame_writeOne_take .opMode 0x80 k
    have hcall := writeByteCall_fail (s.started (.init hz pa crc)) _ (regAddr .opMode) 0x80 k i d
      (s.started_canFrame _ hrd) hb rfl hf
    refine ⟨i, d, hf, (exec_firstFrame_fails hg hl hcall rfl rfl).trans ?_⟩
    simp only [opReturn, initReturn, State.failedFrame, State.release, State.returnResult, State.started, hl]
    rfl
  · subst hbk
    have hcalls : ∀ q, q.op = r.op → CallAmong initFrames (callAt q s1) := fun q hq => by
      unfold callAt
      rw [hq, hop]
      exact initCallAt_among hz pa q.pc ((frfValid_iff_hz hz.toNat).2 hlt)
    obtain ⟨hc1, ho1, ⟨p, a⟩, out, i, d, hx, hout, hf, -, hstep⟩ := step_frame_fails (k := k) hn hs rfl h
      (congrArg some hctx.symm) (by rw [hop]; rfl) hs1 hr1 hcalls
    have hcmd : ∀ x ∈ initFrames,
        commandByte x.1.writes x.2 = if x.1 = .readByte then x.2 else 0x80 ||| x.2 := by decide
    refine ⟨p, a, out, i, d, hx, hout.trans (congrArg some (hcmd _ hx)), hf, hstep.trans ?_⟩
    unfold opReturn State.failedFrame
    rw [ho1, hop, hc1, hctx]
    rfl

/-! ### SEND -/

/-- The frames of SEND, each as its primitive and address (R230). -/
def sendFrames : List (Primitive × Byte) :=
  [(.writeByte, 0x0E), (.writeByte, 0x0D), (.writeBlock, 0x00), (.writeByte, 0x22), (.writeByte, 0x40),
    (.writeByte, 0x01)]

theorem sendCallAt_among (addr : Option (List Byte)) (pay : List Byte) (pc : Nat) :
    CallAmong sendFrames (sendCallAt addr pay pc) := by
  unfold sendCallAt
  split
  · exact ⟨⟨.fifoTxBaseAddr, rfl⟩, nofun, fun _ => ⟨(.writeByte, 0x0E), by decide, rfl, fun _ => rfl⟩⟩
  · exact ⟨⟨.fifoAddrPtr, rfl⟩, nofun, fun _ => ⟨(.writeByte, 0x0D), by decide, rfl, fun _ => rfl⟩⟩
  · exact ⟨rfl, nofun, fun _ => ⟨(.writeBlock, 0x00), by decide, rfl, fun _ => rfl⟩⟩
  · exact ⟨⟨.payloadLength, rfl⟩, nofun, fun _ => ⟨(.writeByte, 0x22), by decide, rfl, fun _ => rfl⟩⟩
  · exact ⟨⟨.dioMapping1, rfl⟩, nofun, fun _ => ⟨(.writeByte, 0x40), by decide, rfl, fun _ => rfl⟩⟩
  · exact ⟨trivial, nofun, fun _ => ⟨(.writeByte, 0x01), by decide, rfl, fun _ => rfl⟩⟩

/-- Settles O34: the failed write of FifoTxBaseAddr, and a failed frame at any later position. -/
theorem sendTransportError : Obligations.SendTransportError := by
  refine ⟨fun s addr pay k hrd hinit hbusy hl hb => ?_,
    fun s s1 addr pay r r1 b ts k hn hs hbk h hctx hop hs1 hr1 => ?_⟩
  · have hg : startsFrames (.send addr pay) s = true := by
      simp only [startsFrames, hrd, hinit, hbusy, Bool.not_false, Bool.and_self]
    obtain ⟨i, d, hf⟩ := s.chip.frame_writeOne_take .fifoTxBaseAddr 0x00 k
    have hcall := writeByteCall_fail (s.started (.send addr pay)) _ (regAddr .fifoTxBaseAddr) 0x00 k i d
      (s.started_canFrame _ hrd) hb rfl hf
    refine ⟨i, d, hf, (exec_firstFrame_fails hg hl hcall rfl rfl).trans ?_⟩
    simp only [opReturn, sendReturn, State.failedFrame, State.release, State.returnResult, State.started, hl]
    rfl
  · subst hbk
    have hcalls : ∀ q, q.op = r.op → CallAmong sendFrames (callAt q s1) := fun q hq => by
      unfold callAt
      rw [hq, hop]
      exact sendCallAt_among addr pay q.pc
    obtain ⟨hc1, ho1, ⟨p, a⟩, out, i, d, hx, hout, hf, hkept, hstep⟩ := step_frame_fails (k := k) hn hs rfl h
      (congrArg some hctx.symm) (by rw [hop]; rfl) hs1 hr1 hcalls
    have hcmd : ∀ x ∈ sendFrames, commandByte x.1.writes x.2 = 0x80 ||| x.2 := by decide
    refine ⟨p, a, out, i, d, hx, hout.trans (congrArg some (hcmd _ hx)), hf,
      fun ha => hkept _ (by decide) fun e => ha (congrArg Prod.snd e), hstep.trans ?_⟩
    unfold opReturn State.failedFrame
    rw [ho1, hop, hc1, hctx]
    rfl

/-! ### Dispatch -/

/-- The frames of dispatch and its handlers, each as its primitive and address (R192, R210, R233). -/
def dispatchFrames : List (Primitive × Byte) :=
  [(.readByte, 0x12), (.readByte, 0x10), (.writeByte, 0x0D), (.readByte, 0x13), (.readBlock, 0x00), (.readByte, 0x1B),
    (.readByte, 0x19), (.readByte, 0x1A), (.writeByte, 0x40), (.writeByte, 0x01), (.writeByte, 0x12)]

theorem onReceiveComplete_among : CallAmong dispatchFrames .onReceiveComplete := by
  refine ⟨trivial, nofun, fun j => ?_⟩
  match j with
  | 0 => exact ⟨(.readByte, 0x10), by decide, rfl, fun _ => rfl⟩
  | 1 => exact ⟨(.writeByte, 0x0D), by decide, rfl, fun _ => rfl⟩
  | 2 => exact ⟨(.readByte, 0x13), by decide, rfl, fun _ => rfl⟩
  | 3 => exact ⟨(.readBlock, 0x00), by decide, rfl, fun _ => rfl⟩
  | 4 => exact ⟨(.readByte, 0x1B), by decide, rfl, fun _ => rfl⟩
  | 5 => exact ⟨(.readByte, 0x19), by decide, rfl, fun _ => rfl⟩
  | _ + 6 => exact ⟨(.readByte, 0x1A), by decide, rfl, fun _ => rfl⟩

theorem onTransmitComplete_among : CallAmong dispatchFrames .onTransmitComplete := by
  refine ⟨trivial, nofun, fun j => ?_⟩
  match j with
  | 0 => exact ⟨(.writeByte, 0x40), by decide, rfl, fun _ => rfl⟩
  | _ + 1 => exact ⟨(.writeByte, 0x01), by decide, rfl, fun _ => rfl⟩

theorem dispatchCallAt_among (f : Byte) (pc : Nat) : CallAmong dispatchFrames (dispatchCallAt f pc) := by
  unfold dispatchCallAt
  split
  · exact ⟨rfl, nofun, fun _ => ⟨(.readByte, 0x12), by decide, rfl, fun _ => rfl⟩⟩
  · exact onReceiveComplete_among
  · exact onTransmitComplete_among
  · exact ⟨⟨.irqFlags, rfl⟩, nofun, fun _ => ⟨(.writeByte, 0x12), by decide, rfl, fun _ => rfl⟩⟩

/-- What the chip processed of a read of one byte off the FIFO port changes nothing but the draws (R72, R76). -/
theorem Chip.frame_readOne_take_sameBut (c : Chip) (a : Byte) (k : Nat) (ha : a.getLsbD 7 = false) (h0 : a ≠ 0) :
    ∃ i d, c.frame ([a, 0x00].take k) = .ok (i, d) ∧ Chip.SameBut c d := by
  by_cases hk : k ≤ 1
  · exact c.frame_take_le_one [a, 0x00] k hk
  · have hn : a.toNat ≠ 0 := fun e => h0 (BitVec.eq_of_toNat_eq e)
    rw [List.take_of_length_le (by simp only [List.length_cons, List.length_nil]; omega), Chip.frame_readOne _ _ _ ha]
    exact ⟨_, _, rfl, (Chip.SameBut.draw c).trans (c.draw.2.readTarget_reg a.toNat hn).1⟩

/-- Settles O44: the failed read of the flags, and a failed frame at any later position. -/
theorem dispatchTransportError : Obligations.DispatchTransportError := by
  refine ⟨fun s k hedge hdisp hl hrd hb => ?_, fun s s1 r r1 b ts k hn hs hbk h hctx hop hs1 hr1 => ?_⟩
  · have hen : s.dispatchEnabled = true := by
      simp only [State.dispatchEnabled, hedge, hdisp, hl, hrd, decide_true, Bool.and_self]
    obtain ⟨i, d, hf, hk⟩ := s.chip.frame_readOne_take_sameBut 0x12 k rfl (by decide)
    have hcall := readByteCall_fail s.enterDispatch ⟨.irq, .dispatch, 0, Locals.fresh⟩ 0x12 k i d ⟨rfl, rfl, hrd⟩ hb
      rfl hf
    have hexec : exec .dispatch s = .next (runOp s.enterDispatch) := by
      show execDispatch s = _
      rw [execDispatch, hen, if_pos rfl]
    refine ⟨d, hexec.trans ?_, hk.regs _, hk.fifo, hk.radio⟩
    rw [runOp_firstFrame_fails (s := s.enterDispatch) rfl ⟨rfl, rfl⟩ hcall]
    simp only [opReturn, dispatchReturn, State.failedFrame, State.emit, State.leaveDispatch, State.enterDispatch, hl,
      hdisp, Bool.false_or]
    rfl
  · subst hbk
    have hcalls : ∀ q, q.op = r.op → CallAmong dispatchFrames (callAt q s1) := fun q hq => by
      unfold callAt
      rw [hq, hop]
      exact dispatchCallAt_among s1.snapshot q.pc
    obtain ⟨hc1, ho1, ⟨p, a⟩, out, i, d, hx, hout, hf, hkept, hstep⟩ := step_frame_fails (k := k) hn hs rfl h
      (congrArg some hctx.symm) (by rw [hop]; rfl) hs1 hr1 hcalls
    have hcmd : ∀ x ∈ dispatchFrames,
        commandByte x.1.writes x.2 = if x.1 = .writeByte then 0x80 ||| x.2 else x.2 := by decide
    refine ⟨p, a, out, i, d, hx, hout.trans (congrArg some (hcmd _ hx)), hf, hkept .irqFlags (by decide),
      hstep.trans ?_⟩
    unfold opReturn State.failedFrame
    rw [ho1, hop, hc1, hctx]
    rfl

end Sys2Proof.Machine
end

section
/-! SUPPORT. When dispatch runs (R191), its first frame, the read of the flags, and its last, the write-back (R192); then
O8, O39 and O40. -/

namespace Sys2Proof.Machine

/-! ### Enabled or not -/

/-- The four conditions of R191. -/
theorem State.dispatchEnabled_iff (s : State) :
    s.dispatchEnabled = true ↔ s.edgePending = true ∧ s.disp = .idle ∧ s.lock = none ∧ s.resetDone = true := by
  simp only [State.dispatchEnabled, Bool.and_eq_true, decide_eq_true_eq, and_assoc]

theorem exec_dispatch_waits {s : State} (h : s.dispatchEnabled = false) : exec .dispatch s = .next s := by
  show execDispatch s = _
  rw [execDispatch, h, if_neg Bool.false_ne_true]

theorem exec_dispatch_runs {s : State} (h : s.dispatchEnabled = true) :
    exec .dispatch s = .next (runOp s.enterDispatch) := by
  show execDispatch s = _
  rw [execDispatch, h, if_pos rfl]

/-- Settles O8: the Irq context's turn with nothing running. -/
theorem stepRunsDispatch : Obligations.StepRunsDispatch := by
  intro s b ts hn hs hr
  exact (step_turn s (.irq b) ts hn hs).trans (State.irqTurn_idle { s with schedule := ts, bus := b } hr)

/-- Settles O39: each of the four leaves a condition of R191 open. -/
theorem dispatchWaits : Obligations.DispatchWaits := by
  intro s h
  refine exec_dispatch_waits (Bool.eq_false_iff.2 fun he => ?_)
  obtain ⟨hedge, hdisp, hl, hrd⟩ := s.dispatchEnabled_iff.1 he
  obtain h | h | h | h := h
  · exact Bool.false_ne_true (h.symm.trans hedge)
  · exact DispState.noConfusion (hdisp.symm.trans h)
  · exact h hl
  · exact Bool.false_ne_true (h.symm.trans hrd)

/-- An enabled dispatch whose frames lead to its end over the turns `l`. -/
theorem exec_dispatch_completes {s u t : State} {l rest : List Turn} (h : s.dispatchEnabled = true)
    (hs : s.schedule = l ++ rest) (hu : eagerStep s.enterDispatch = u) (hgo : State.Goes l u t) (ht : t.run = none) :
    exec .dispatch s = .next { t with schedule := rest } := by
  rw [exec_dispatch_runs h]
  refine congrArg _ (runOp_eq_of_eager s.enterDispatch _ ⟨rfl, rfl⟩ ?_ ht)
  show State.drive _ _ s.schedule _ = _
  rw [hs, hu, hgo, State.drive_idle _ _ _ _ ht]

/-! ### The first frame and the last -/

/-- The flags read of a dispatch in LoRa, and what dispatch makes of the byte (R192). -/
theorem dispatch_reads_flags (s : State) (hrd : s.resetDone = true) (hb : s.bus = .ok) (hlora : s.chip.InLoRa) :
    ∃ i0 d, Chip.RegsKept [] s.chip d ∧ Chip.FifoKept s.chip d ∧ Chip.RadioKept s.chip d ∧
      eagerStep s.enterDispatch = dispatchReturn 0 (.bytes [s.chip.reg .irqFlags])
        (s.enterDispatch.afterCall ⟨.irq, .dispatch, 0, Locals.fresh⟩ [0x12, 0x00] (some [i0, s.chip.reg .irqFlags]) d
          (.bytes [s.chip.reg .irqFlags])) := by
  have h : s.enterDispatch.CanFrame ⟨.irq, .dispatch, 0, Locals.fresh⟩ := ⟨rfl, rfl, hrd⟩
  obtain ⟨i0, v, d, he, hfifo, hradio, -, hregs, hv⟩ := readByteReturnsTheRegister _ _ 0x12 h hb rfl
  have hval : v = s.chip.reg .irqFlags := hv .irqFlags rfl ⟨by decide, fun _ => hlora⟩
  subst hval
  exact ⟨i0, d, hregs (by decide), hfifo, hradio, eagerStep_exec h.1 rfl rfl he⟩

/-- Without a flag set the line is low, whatever the mapping (R45). -/
theorem Chip.dio0_of_no_flags {c : Chip} (h : c.reg .irqFlags = 0) : c.dio0 = false := by
  have hlow : ∀ m : Byte, dioLevel m 0 = false := by decide
  unfold Chip.dio0
  rw [h]
  exact hlow _

/-- `s` when the dispatch that runs in it has ended after the frames `fs`, with the edge latch `e` (R287). -/
def State.dispatchEnded (s : State) (fs : List Frame) (d : Chip) (e : Bool) : State :=
  State.leaveDispatch
    { s with chip := d, cs := false, busTrace := s.busTrace ++ fs, edgePending := e, lineLast := d.dio0 }

/-- Dispatch's last frame: the write-back of the snapshot, which clears the flags read and so lowers the line, and the
return (R192, R287). -/
theorem dispatch_writes_back {s : State} {q : Run} {f : Byte} (h : s.CanFrame q) (hb : s.bus = .ok)
    (hctx : q.ctx = .irq) (hop : q.op = .dispatch) (hpc : q.pc = 3) (hsnap : s.flagsSnap = some f) (hf : f = s.chip.reg .irqFlags) :
    ∃ inp d, eagerStep s =
        s.dispatchEnded [{ ctx := .irq, out := [0x92, f], inp := some inp }] d s.edgePending ∧
      d.reg .irqFlags = s.chip.reg .irqFlags &&& ~~~f ∧ Chip.RegsKept [.irqFlags] s.chip d ∧
      Chip.FifoKept s.chip d ∧ Chip.RadioKept s.chip d := by
  obtain ⟨i0, i1, d, he, hair, -, hregs, hfifo, htx, hclear, -⟩ := writeByteWritesTheRegister s q .irqFlags f h hb
  have hi : callAt q s = .writeByte (regAddr .irqFlags) f := by
    unfold callAt State.snapshot
    rw [hop, hpc, hsnap]
    rfl
  have hret : ∀ t, opReturn (q.took (.bytes [])) (.bytes []) t = t.leaveDispatch := fun t => by
    unfold opReturn Run.took
    dsimp only
    rw [hop, hpc]
    rfl
  have hlow : d.dio0 = false := by
    refine Chip.dio0_of_no_flags ?_
    rw [hclear rfl, ← hf]
    exact BitVec.and_not_self f
  refine ⟨[i0, i1], d, (eagerStep_exec h.1 hi rfl he).trans ((hret _).trans ?_), hclear rfl, hregs (by decide),
    hfifo (by decide) (by decide), htx (by decide), hair⟩
  simp only [State.afterCall, State.dispatchEnded, State.leaveDispatch, hlow, hctx, Bool.false_and, Bool.or_false]
  rfl

/-- Settles O40: the flags read is dispatch's last frame where the snapshot has neither flag. -/
theorem dispatchSpurious : Obligations.DispatchSpurious := by
  intro s f hedge hdisp hl hrd hb hlora hf hrx htx
  subst hf
  obtain ⟨i0, d, hregs, hfifo, hradio, hstep⟩ := dispatch_reads_flags s hrd hb hlora
  have hspurious : ∀ t, dispatchReturn 0 (.bytes [s.chip.reg .irqFlags]) t =
      ({ t with flagsSnap := some (s.chip.reg .irqFlags) }.emit (.spurious (s.chip.reg .irqFlags))).leaveDispatch :=
    fun t => (if_neg (ne_true_of_eq_false hrx)).trans (if_neg (ne_true_of_eq_false htx))
  rw [hspurious] at hstep
  have hexec := exec_dispatch_completes (l := []) (s.dispatchEnabled_iff.2 ⟨hedge, hdisp, hl, hrd⟩) rfl
    hstep (State.Goes.refl _) rfl
  refine ⟨i0, d, hexec.trans ?_, hregs, hfifo, hradio⟩
  simp only [State.leaveDispatch, State.emit, State.afterCall, State.enterDispatch, hl, hdisp, Bool.false_or]

end Sys2Proof.Machine
end

section
/-! SUPPORT. onTransmitComplete in a running dispatch (R233), then O42. -/

namespace Sys2Proof.Machine

/-- `s` with dispatch running, the flags read as `f` and the events `evs` logged since (R192). -/
def State.served (s : State) (f : Byte) (evs : List Event) : State :=
  { s.enterDispatch with flagsSnap := some f, events := s.events ++ evs }

/-- A running operation that moves on after a frame, from a position at which it may issue one. -/
theorem State.served_canFrame {s : State} (hrd : s.resetDone = true) (f : Byte) (evs : List Event) {q : Run}
    (hq : q.ctx = .irq) (fs : List Frame) (d : Chip) : ((s.served f evs).after q fs d).CanFrame q :=
  ⟨rfl, by rw [hq]; rfl, hrd⟩

/-- The position of dispatch after its flags read: the handler of the first flag that is set (R193). -/
theorem dispatchReturn_flags {f : Byte} {k : Nat} (t : State)
    (hk : f.getLsbD 6 = true ∧ k = 1 ∨ f.getLsbD 6 = false ∧ f.getLsbD 3 = true ∧ k = 2) :
    dispatchReturn 0 (.bytes [f]) t = { t with flagsSnap := some f }.goTo k := by
  obtain ⟨hrx, rfl⟩ | ⟨hrx, htx, rfl⟩ := hk
  · exact if_pos hrx
  · exact (if_neg (ne_true_of_eq_false hrx)).trans (if_pos htx)

/-- A dispatch whose snapshot has a flag of a handler goes on to that handler. -/
theorem dispatch_starts {s : State} {f : Byte} {k : Nat} (hrd : s.resetDone = true) (hb : s.bus = .ok)
    (hlora : s.chip.InLoRa) (hf : f = s.chip.reg .irqFlags)
    (hk : f.getLsbD 6 = true ∧ k = 1 ∨ f.getLsbD 6 = false ∧ f.getLsbD 3 = true ∧ k = 2) :
    ∃ inp d, Chip.RegsKept [] s.chip d ∧ Chip.FifoKept s.chip d ∧ Chip.RadioKept s.chip d ∧
      eagerStep s.enterDispatch = (s.served f []).after ⟨.irq, .dispatch, k, Locals.fresh⟩
        [{ ctx := .irq, out := [0x12, 0x00], inp := some inp }] d := by
  subst hf
  obtain ⟨i0, d, hregs, hfifo, hradio, hstep⟩ := dispatch_reads_flags s hrd hb hlora
  refine ⟨[i0, s.chip.reg .irqFlags], d, hregs, hfifo, hradio, hstep.trans ((dispatchReturn_flags _ hk).trans ?_)⟩
  simp only [State.served, List.append_nil]
  rfl

/-- `s` after onTransmitComplete, in whose frames `fs` DIO0 was mapped to RxDone: the shadow, `txBusy` and the event
(R233). -/
def State.transmitted (s : State) (r : Run) (fs : List Frame) (d : Chip) : State :=
  State.after { s with mode := some .receiveContinuous, txBusy := false, events := s.events ++ [.transmitDone] } r fs d

theorem State.after_dispatchEnded (s : State) (r : Run) (fs gs : List Frame) (c d : Chip) (e : Bool) :
    (s.after r fs c).dispatchEnded gs d e = s.dispatchEnded (fs ++ gs) d e := by
  simp only [State.dispatchEnded, State.after, State.ran, List.append_assoc]
  rfl

/-- onTransmitComplete in a running dispatch, which then moves on to its write-back (R233, R192). -/
theorem dispatch_transmits {s : State} {q : Run} (h : s.CanFrame q) (hb : s.bus = .ok) (hn : s.refused = none)
    (hctx : q.ctx = .irq) (hop : q.op = .dispatch) (hpc : q.pc = 2) (hsub : q.loc.sub = 0) (hret : q.loc.ret = none) :
    ∃ fs d, State.Goes [.irq .ok, .irq .ok] s (s.transmitted (q.moved 3) fs d) ∧
      FramesOut .irq fs [[0xC0, 0x00], [0x81, 0x85]] ∧ d.reg .dioMapping1 = 0x00 ∧ d.reg .opMode = 0x85 ∧
      Chip.RegsKept [.dioMapping1, .opMode] s.chip d ∧ Chip.FifoKept s.chip d ∧ d.txPkt = none ∧
      d.air = s.chip.air := by
  have hi : ∀ l t, callAt { q with loc := l } t = .onTransmitComplete := fun l t => by
    unfold callAt
    dsimp only
    rw [hop, hpc]
    rfl
  have hgo : ∀ l t, opReturn { q with loc := l } (.bytes []) t = t.goTo 3 := fun l t => by
    unfold opReturn
    dsimp only
    rw [hop, hpc]
    rfl
  obtain ⟨i0, i1, c, hmap, hregs, hfifo, hradio, h1⟩ := eagerCall_onTransmitComplete_remaps s q h hb hsub
  have hq := State.remapped_canFrame h [i0, i1] c .ok
  obtain ⟨j0, j1, d, hk, hw⟩ := writeByteCall_writes _ _ .opMode (opModeValue .receiveContinuous) hq rfl (by decide)
  obtain ⟨hmode, hregs', hair, htx⟩ := Chip.writeReg_opMode_regs hk (by decide)
  have h2 := eagerCall_onTransmitComplete_reverts hsub hw rfl (Chip.dio0_kept hregs' (by decide) (by decide))
  unfold eagerCall at h1 h2
  rw [s.loc_of_run q h.1] at h1
  have hstep1 : eagerStep s = s.remapped q [i0, i1] c .ok := eagerStep_goesOn s s q _ _ c _ _ h (hi q.loc s) h1 hret
  let fs : List Frame := [{ ctx := q.ctx, out := [0xC0, 0x00], inp := some [i0, i1] },
    { ctx := q.ctx, out := [0x81, 0x85], inp := some [j0, j1] }]
  have hstep2 : eagerStep (s.remapped q [i0, i1] c .ok) = s.transmitted (q.moved 3) fs d :=
    (eagerStep_goesTo _
      { s with mode := some .receiveContinuous, txBusy := false, events := s.events ++ [.transmitDone] } _ _ fs d _ _ 3
      hq (hi _ _) h2 (hgo _ _)).trans (by simp only [State.transmitted, State.after, hb]; rfl)
  have hgo1 : State.Goes [.irq .ok] s _ := State.Goes.one h.1 hb hn ⟨congrArg some hctx.symm, rfl⟩
  have hgo2 : State.Goes [.irq .ok] (s.remapped q [i0, i1] c .ok) _ :=
    State.Goes.one hq.1 rfl hn ⟨congrArg some hctx.symm, rfl⟩
  rw [hstep1] at hgo1
  rw [hstep2] at hgo2
  refine ⟨fs, d, hgo1.trans hgo2, hctx ▸ (FramesOut.one q.ctx _ [i0, i1]).append (FramesOut.one q.ctx _ [j0, j1]),
    (hregs'.reg _ (by decide)).trans hmap, hmode, (hregs.mono (by decide)).trans (hregs'.mono (by decide)),
    hfifo.trans (((c.writeReg_opMode _).1 (by decide)).trans hk.fifo), htx, hair.trans hradio.2⟩

/-- onTransmitComplete, then the write-back, to the end of dispatch: the level of the line after the remap is the RxDone
flag (R45), and the write-back lowers it. -/
theorem dispatch_transmits_ends {s : State} {q : Run} {f : Byte} (h : s.CanFrame q) (hb : s.bus = .ok)
    (hn : s.refused = none) (hctx : q.ctx = .irq) (hop : q.op = .dispatch) (hpc : q.pc = 2) (hsub : q.loc.sub = 0)
    (hret : q.loc.ret = none) (hsnap : s.flagsSnap = some f) (hf : f = s.chip.reg .irqFlags) :
    ∃ fs d, State.Goes [.irq .ok, .irq .ok, .irq .ok] s
        (State.dispatchEnded
          { s with mode := some .receiveContinuous, txBusy := false, events := s.events ++ [.transmitDone] } fs d
          (s.edgePending || (f.getLsbD 6 && !s.lineLast))) ∧
      FramesOut .irq fs [[0xC0, 0x00], [0x81, 0x85], [0x92, f]] ∧ d.reg .irqFlags = s.chip.reg .irqFlags &&& ~~~f ∧
      d.reg .dioMapping1 = 0x00 ∧ d.reg .opMode = 0x85 ∧
      Chip.RegsKept [.irqFlags, .dioMapping1, .opMode] s.chip d ∧ Chip.FifoKept s.chip d ∧ d.txPkt = none ∧
      d.air = s.chip.air := by
  obtain ⟨fs, c, hgo, hout, hmap, hmode, hregs, hfifo, htx, hair⟩ := dispatch_transmits h hb hn hctx hop hpc hsub hret
  have hflags : c.reg .irqFlags = s.chip.reg .irqFlags := hregs.reg _ (by decide)
  have hline : c.dio0 = f.getLsbD 6 := by
    rw [hf, ← hflags]
    exact (dio0Level c).1 (by rw [hmap]; decide)
  have hw : (s.transmitted (q.moved 3) fs c).CanFrame (q.moved 3) := ⟨rfl, h.2.1, h.2.2⟩
  obtain ⟨inp, d, hstep, hclear, hregs', hfifo', hradio'⟩ :=
    dispatch_writes_back hw hb hctx hop rfl hsnap (hf.trans hflags.symm)
  have hlast : State.Goes [.irq .ok] _ _ := State.Goes.one hw.1 hb hn ⟨congrArg some hctx.symm, rfl⟩
  have hedge : (s.transmitted (q.moved 3) fs c).edgePending = (s.edgePending || (f.getLsbD 6 && !s.lineLast)) := by
    rw [← hline]
    rfl
  rw [hstep, hedge, State.transmitted, State.after_dispatchEnded] at hlast
  refine ⟨_, d, hgo.trans hlast, hout.append (FramesOut.one .irq _ inp), hclear.trans (by rw [← hflags]; rfl),
    (hregs'.reg _ (by decide)).trans hmap, (hregs'.reg _ (by decide)).trans hmode,
    (hregs.mono (by decide)).trans (hregs'.mono (by decide)), hfifo.trans hfifo', hradio'.1.trans htx,
    hradio'.2.trans hair⟩

/-- Settles O42: the flags read, then `dispatch_transmits_ends`. -/
theorem dispatchTransmit : Obligations.DispatchTransmit := by
  intro s rest f hedge hdisp hl hrd hn hb hlora hs hf hrx htx
  obtain ⟨inp, c, hregs, hfifo, hradio, hstep⟩ := dispatch_starts hrd hb hlora hf (.inr ⟨hrx, htx, rfl⟩)
  have hflags : c.reg .irqFlags = s.chip.reg .irqFlags := hregs.reg _ (by decide)
  have hline : c.dio0 = s.chip.dio0 := Chip.dio0_kept hregs (by decide) (by decide)
  obtain ⟨fs, d, hgo, hout, hclear, hmap, hmode, hregs', hfifo', htx', hair⟩ := dispatch_transmits_ends (f := f)
    (State.served_canFrame hrd f [] (q := ⟨.irq, .dispatch, 2, Locals.fresh⟩) rfl _ c) hb hn rfl rfl rfl rfl rfl rfl (hf.trans hflags.symm)
  have hexec := exec_dispatch_completes (s.dispatchEnabled_iff.2 ⟨hedge, hdisp, hl, hrd⟩) hs hstep hgo rfl
  refine ⟨d, [_] ++ fs, hexec.trans ?_, (FramesOut.one .irq [0x12, 0x00] inp).append hout, hclear.trans (by rw [← hflags]; rfl), hmap,
    hmode, (hregs.mono (by decide)).trans hregs', hfifo.trans hfifo', htx', hair.trans hradio.2⟩
  simp only [State.dispatchEnded, State.leaveDispatch, State.served, State.after, State.ran, State.enterDispatch, hline, hrx, hl, hdisp, Bool.false_or,
    Bool.false_and, Bool.or_false, List.append_nil, List.append_assoc]

end Sys2Proof.Machine
end

section
/-! SUPPORT. The seven frames of onReceiveComplete in a running dispatch (R210), then O41 and O43. -/

namespace Sys2Proof.Machine

/-! ### A frame with a further frame of its call to come -/

/-- A frame after which the running operation's call goes on, its locals changed by `g`. -/
theorem eagerStep_continues {s : State} {r : Run} {i : Instr} {x : Ret} {out : List Byte} {inp : Option (List Byte)}
    {d : Chip} (g : Locals → Locals) (h : s.CanFrame r) (hb : s.bus = .ok) (hi : callAt r s = i)
    (hret : (g r.loc).ret = none) (hf : callFrame i r.loc.sub s = .done x (s.frameDone r.ctx out inp d))
    (ha : ∀ u, callAct i r.loc.sub x u = .more (u.mapLoc g)) :
    eagerStep s = s.after { r with loc := (g r.loc).next } [{ ctx := r.ctx, out := out, inp := inp }] d := by
  have hwhole : callWhole i r.loc.sub s = .more ((s.frameDone r.ctx out inp d).mapLoc g) := by
    unfold callWhole
    rw [hf]
    exact ha _
  have hcall := State.callOnce_ran_more s r _ g out inp d h.1 hwhole
  rw [hb] at hcall
  rw [eagerStep_goesOn s s r i _ d _ _ h hi hcall hret, State.after, hb]
  rfl

/-- A call's last frame with the event `ev`, after which the running operation moves on to `k`. -/
theorem eagerStep_emits {s : State} {r : Run} {i : Instr} {x : Ret} {out : List Byte} {inp : Option (List Byte)}
    {d : Chip} {ev : Event} {k : Nat} (h : s.CanFrame r) (hi : callAt r s = i)
    (hwhole : callWhole i r.loc.sub s = .done x ((s.emit ev).frameDone r.ctx out inp d))
    (hret : ∀ t : State, t.snapshot = s.snapshot → opReturn (r.took x) x t = t.goTo k) :
    eagerStep s = (s.emit ev).after (r.moved k) [{ ctx := r.ctx, out := out, inp := inp }] d := by
  subst hi
  have hcall : s.callOnce (callWhole (callAt r s) r.loc.sub) = (s.emit ev).afterCall r out inp d x :=
    (State.callOnce_done _ _ _ _ hwhole).trans ((s.emit ev).frameDone_mapLoc r out inp d x h.1)
  exact (eagerStep_done s _ r (r.took x) x h.1 hcall rfl rfl).trans (hret _ rfl)

/-! ### The run of the handler -/

/-- The handler onReceiveComplete of a running dispatch, with the locals `l`. -/
def receiveRun (l : Locals) : Run := ⟨.irq, .dispatch, 1, l⟩

/-- The chips differ in the FIFO pointer and the draws alone. -/
structure Chip.OnlyPointer (c d : Chip) : Prop where
  regs : Chip.RegsKept [.fifoAddrPtr] c d
  fifo : Chip.FifoKept c d
  radio : Chip.RadioKept c d

theorem Chip.OnlyPointer.trans {c d e : Chip} (h : Chip.OnlyPointer c d) (g : Chip.OnlyPointer d e) :
    Chip.OnlyPointer c e :=
  ⟨h.regs.trans g.regs, h.fifo.trans g.fifo, h.radio.trans g.radio⟩

theorem Chip.SameBut.onlyPointer {c d : Chip} (h : Chip.SameBut c d) : Chip.OnlyPointer c d :=
  ⟨h.regs _, h.fifo, h.radio⟩

/-- The pointer does not move the line (R45). -/
theorem Chip.OnlyPointer.dio0 {c d : Chip} (h : Chip.OnlyPointer c d) : d.dio0 = c.dio0 :=
  Chip.dio0_kept h.regs (by decide) (by decide)

/-- A chip in LoRa whose pointer has moved still shows its other registers (R76). -/
theorem Chip.OnlyPointer.readable {c d : Chip} (h : Chip.OnlyPointer c d) (hlora : c.InLoRa) {q : Reg}
    (hq : q ≠ .fifo) :
    d.Readable q :=
  ⟨hq, fun _ => (congrArg loraBit (h.regs.reg .opMode (by decide))).trans hlora⟩

/-- From `s`, whose flags dispatch has read as `f`, `n` own turns lead the handler to the locals `l` and the chip to `c`,
of which nothing but the FIFO pointer has changed; `outs` are the frames of dispatch so far (R193, R210). -/
def State.Receives (s : State) (f : Byte) (n : Nat) (l : Locals) (outs : List (List Byte)) (c : Chip) : Prop :=
  Chip.OnlyPointer s.chip c ∧ ∃ fs, FramesOut .irq fs outs ∧
    State.Goes (List.replicate n (.irq .ok)) (eagerStep s.enterDispatch) ((s.served f []).after (receiveRun l) fs c)

/-- The position of dispatch after onReceiveComplete: the other handler's where TxDone is set too, else the write-back's
(R193). -/
theorem dispatchReturn_received {f : Byte} {p : Nat} {bs : List Byte} {t : State} (hsnap : t.snapshot = f)
    (hp : f.getLsbD 3 = true ∧ p = 2 ∨ f.getLsbD 3 = false ∧ p = 3) : dispatchReturn 1 (.bytes bs) t = t.goTo p := by
  subst hsnap
  obtain ⟨htx, rfl⟩ | ⟨htx, rfl⟩ := hp
  · exact if_pos htx
  · exact if_neg (ne_true_of_eq_false htx)

/-- What dispatch reads of the chip as a received packet (R210). -/
def Chip.receivedData (c : Chip) : List Byte := c.fifoSlice (c.reg .fifoRxCurrentAddr) (c.reg .rxNbBytes).toNat

/-- The message of that packet (R210, R215). -/
def Chip.receivedMessage (c : Chip) : ReceivedMessage :=
  Machine.receivedMessage configuredAddrLen c.receivedData (c.reg .rssiValue) (c.reg .pktSnrValue) (c.reg .pktRssiValue)

section
variable {s : State} {f : Byte} {n : Nat} {l : Locals} {outs : List (List Byte)} {c : Chip}
  (hrd : s.resetDone = true) (hb : s.bus = .ok) (hn : s.refused = none) (hlora : s.chip.InLoRa)
include hrd hb hn

/-- The handler may issue its next frame, and one that completes with a further one to come leads it on. -/
theorem State.Receives.step (k : s.Receives f n l outs c) :
    ∃ u : State, u.CanFrame (receiveRun l) ∧ u.bus = .ok ∧ u.chip = c ∧
      ∀ {out inp bs : List Byte} {d : Chip} (g : Locals → Locals), (g l).ret = none →
        onReceiveCompleteFrame l.sub u = .done (.bytes bs) (u.frameDone .irq out (some inp) d) →
        (∀ w, onReceiveCompleteAct l.sub (.bytes bs) w = .more (w.mapLoc g)) → Chip.OnlyPointer c d →
        s.Receives f (n + 1) (g l).next (outs ++ [out]) d := by
  obtain ⟨hkept, fs, hout, hgo⟩ := k
  have hcan : ((s.served f []).after (receiveRun l) fs c).CanFrame (receiveRun l) :=
    State.served_canFrame hrd f [] rfl fs c
  refine ⟨_, hcan, hb, rfl, fun {out inp bs d} g hret hf ha hd => ?_⟩
  have hone : State.Goes [.irq .ok] _ _ := State.Goes.one hcan.1 hb hn ⟨rfl, rfl⟩
  rw [eagerStep_continues g hcan hb rfl hret hf ha, State.after_after _ _ _ _ _ _ _ hd.dio0] at hone
  refine ⟨hkept.trans hd, _, hout.append (FramesOut.one .irq out inp), ?_⟩
  rw [List.replicate_succ']
  exact hgo.trans hone

include hlora in
/-- The handler reads a register into its locals. -/
theorem State.Receives.read (k : s.Receives f n l outs c) (q : Reg) (g : Byte → Locals → Locals)
    (hq : q ∉ [Reg.fifo, .fifoAddrPtr]) (hret : (g (s.chip.reg q) l).ret = none)
    (hf : ∀ u, onReceiveCompleteFrame l.sub u = readByteCall (regAddr q) u)
    (ha : ∀ v u, onReceiveCompleteAct l.sub (.bytes [v]) u = .more (u.mapLoc (g v))) :
    ∃ d, d.reg .fifoAddrPtr = c.reg .fifoAddrPtr ∧
      s.Receives f (n + 1) (g (s.chip.reg q) l).next (outs ++ [[regAddr q, 0x00]]) d := by
  obtain ⟨u, hu, hub, rfl, hnext⟩ := k.step hrd hb hn
  have hfifo : q ≠ .fifo := fun e => hq (by rw [e]; decide)
  have h0 : regAddr q ≠ 0 := fun e => hfifo (regAddr_toNat_inj q .fifo (congrArg BitVec.toNat e))
  obtain ⟨i, v, d, hk, hv, hcall⟩ := readByteCall_reads u _ (regAddr q) hu hub (regAddr_bit7 q) h0
  obtain rfl : v = s.chip.reg q :=
    (hv q rfl (k.1.readable hlora hfifo)).trans (k.1.regs.reg q fun hm => hq (List.mem_cons_of_mem _ hm))
  exact ⟨d, hk.reg _, hnext _ hret ((hf u).trans hcall) (ha _) hk.onlyPointer⟩

/-- The handler's second frame: the FIFO pointer to the packet's start (R210). -/
theorem State.Receives.point (k : s.Receives f n l outs c) (hsub : l.sub = 1) (hret : l.ret = none) :
    ∃ d, d.reg .fifoAddrPtr = l.start ∧ s.Receives f (n + 1) l.next (outs ++ [[0x8D, l.start]]) d := by
  obtain ⟨u, hu, hub, rfl, hnext⟩ := k.step hrd hb hn
  rw [hsub] at hnext
  obtain ⟨i0, i1, d, hk, hcall⟩ := writeByteCall_writes u _ .fifoAddrPtr l.start hu hub (by decide)
  obtain ⟨hregs, hair, hkeep, -, -, hstore, -⟩ := u.chip.writeReg_spec .fifoAddrPtr l.start (by decide)
  obtain ⟨hfifo, htx⟩ := hkeep (by decide)
  have hstart : u.loc.start = l.start := congrArg Locals.start (u.loc_of_run _ hu.1)
  have hframe : onReceiveCompleteFrame 1 u = writeByteCall (regAddr .fifoAddrPtr) l.start u := by
    rw [← hstart]
    rfl
  exact ⟨d, (hk.reg _).trans (hstore ⟨rfl, nofun⟩),
    hnext id hret (hframe.trans hcall) (fun w => by rw [State.mapLoc_id w id rfl]; rfl)
      (Chip.OnlyPointer.trans ⟨hregs, hfifo, htx, hair⟩ hk.onlyPointer)⟩

/-- The handler's fourth frame: the drain of the FIFO from the pointer on (R210). -/
theorem State.Receives.drain (k : s.Receives f n l outs c) (hsub : l.sub = 3) (hret : l.ret = none) :
    ∃ d, d.reg .fifoAddrPtr = c.reg .fifoAddrPtr + l.count ∧
      s.Receives f (n + 1) (Locals.next { l with data := s.chip.fifoSlice (c.reg .fifoAddrPtr) l.count.toNat })
        (outs ++ [0x00 :: List.replicate l.count.toNat 0x00]) d := by
  obtain ⟨u, hu, hub, rfl, hnext⟩ := k.step hrd hb hn
  rw [hsub] at hnext
  obtain ⟨vs, d, hm, hlen, hvs, hptr, hregs, hfifo, hradio⟩ := Chip.memRead_fifo l.count.toNat 0 u.chip.draw.2
  obtain rfl : vs = s.chip.fifoSlice (u.chip.reg .fifoAddrPtr) l.count.toNat := by
    refine List.ext_getElem? fun j => ?_
    by_cases hj : j < l.count.toNat
    · rw [hvs j hj, Chip.fifoSlice_getElem? _ _ _ _ hj]
      exact congrArg some (k.1.fifo _)
    · rw [List.getElem?_eq_none (by omega), List.getElem?_eq_none (by rw [Chip.fifoSlice_length]; omega)]
  have hcall := readBlockCall_ok u _ 0x00 _ _ d hu hub rfl hm
  have hcount : u.loc.count = l.count := congrArg Locals.count (u.loc_of_run _ hu.1)
  have hframe : onReceiveCompleteFrame 3 u = readBlockCall (regAddr .fifo) l.count.toNat u := by
    rw [← hcount]
    rfl
  refine ⟨d, ?_, hnext (fun m => { m with data := s.chip.fifoSlice (u.chip.reg .fifoAddrPtr) l.count.toNat }) hret
    (hframe.trans hcall) (fun _ => rfl) ((Chip.SameBut.draw u.chip).onlyPointer.trans ⟨hregs, hfifo, hradio⟩)⟩
  rw [hptr, BitVec.ofNat_toNat, BitVec.setWidth_eq]
  rfl

include hlora in
/-- The handler's last frame, with the event; dispatch then moves on (R193, R210). -/
theorem State.Receives.ends (k : s.Receives f n l outs c) {p : Nat} (hsub : l.sub = 6)
    (hp : f.getLsbD 3 = true ∧ p = 2 ∨ f.getLsbD 3 = false ∧ p = 3) :
    ∃ fs d, d.reg .fifoAddrPtr = c.reg .fifoAddrPtr ∧ Chip.OnlyPointer s.chip d ∧
      FramesOut .irq fs (outs ++ [[0x1A, 0x00]]) ∧
      State.Goes (List.replicate (n + 1) (.irq .ok)) (eagerStep s.enterDispatch)
        ((s.served f [.received (receivedMessage configuredAddrLen l.data l.rawRssi l.rawSnr
          (s.chip.reg .pktRssiValue))]).after ((receiveRun l).moved p) fs d) := by
  obtain ⟨hkept, fs, hout, hgo⟩ := k
  let w := (s.served f []).after (receiveRun l) fs c
  let m := receivedMessage configuredAddrLen l.data l.rawRssi l.rawSnr (s.chip.reg .pktRssiValue)
  have hcan : w.CanFrame (receiveRun l) := State.served_canFrame hrd f [] rfl fs c
  obtain ⟨i, v, d, hk, hv, hcall⟩ := readByteCall_reads w _ 0x1A hcan hb rfl (by decide)
  obtain rfl : v = s.chip.reg .pktRssiValue :=
    (hv .pktRssiValue rfl (hkept.readable hlora (by decide))).trans (hkept.regs.reg _ (by decide))
  have hwhole : callWhole .onReceiveComplete l.sub w = .done (.bytes []) (State.frameDone (w.emit (.received m)) .irq
      [0x1A, 0x00] (some [i, s.chip.reg .pktRssiValue]) d) := by
    rw [hsub]
    show (readByteCall 0x1A w).act (onReceiveCompleteAct 6) = _
    rw [hcall]
    rfl
  have hline : d.dio0 = c.dio0 := hk.onlyPointer.dio0
  have hstep := eagerStep_emits (k := p) (x := .bytes []) hcan rfl hwhole fun t ht =>
    dispatchReturn_received (bs := []) (f := f) ht hp
  have hone : State.Goes [.irq .ok] w _ := State.Goes.one hcan.1 hb hn ⟨rfl, rfl⟩
  have hserved : w.emit (.received m) = (s.served f [.received m]).after (receiveRun l) fs c := by
    simp only [w, State.served, List.append_nil]
    rfl
  rw [hstep, hserved, State.after_after _ _ _ _ _ _ _ hline] at hone
  refine ⟨_, d, hk.reg _, hkept.trans hk.onlyPointer,
    hout.append (FramesOut.one .irq _ [i, s.chip.reg .pktRssiValue]), ?_⟩
  rw [List.replicate_succ']
  exact hgo.trans hone

include hlora in
/-- Dispatch of a snapshot with RxDone, from its first frame to the end of onReceiveComplete, on its own turns (R193,
R210). -/
theorem dispatch_receives {p : Nat} (hf : f = s.chip.reg .irqFlags) (hrx : f.getLsbD 6 = true)
    (hp : f.getLsbD 3 = true ∧ p = 2 ∨ f.getLsbD 3 = false ∧ p = 3) :
    ∃ fs d l, l.sub = 0 ∧ l.ret = none ∧ State.Goes (List.replicate 7 (.irq .ok)) (eagerStep s.enterDispatch)
        ((s.served f [.received s.chip.receivedMessage]).after ⟨.irq, .dispatch, p, l⟩ fs d) ∧
      FramesOut .irq fs [[0x12, 0x00], [0x10, 0x00], [0x8D, s.chip.reg .fifoRxCurrentAddr], [0x13, 0x00],
        0x00 :: List.replicate (s.chip.reg .rxNbBytes).toNat 0x00, [0x1B, 0x00], [0x19, 0x00], [0x1A, 0x00]] ∧
      d.reg .fifoAddrPtr = s.chip.reg .fifoRxCurrentAddr + s.chip.reg .rxNbBytes ∧ Chip.OnlyPointer s.chip d := by
  obtain ⟨inp, c0, hregs0, hfifo0, hradio0, hstep⟩ := dispatch_starts hrd hb hlora hf (.inl ⟨hrx, rfl⟩)
  have k0 : s.Receives f 0 Locals.fresh [[0x12, 0x00]] c0 :=
    ⟨⟨hregs0.mono nofun, hfifo0, hradio0⟩, _, FramesOut.one .irq _ inp, hstep ▸ State.Goes.refl _⟩
  obtain ⟨c1, -, k1⟩ := k0.read hrd hb hn hlora .fifoRxCurrentAddr (fun v m => { m with start := v }) (by decide) rfl
    (fun _ => rfl) (fun _ _ => rfl)
  obtain ⟨c2, hptr2, k2⟩ := k1.point hrd hb hn rfl rfl
  obtain ⟨c3, hptr3, k3⟩ := k2.read hrd hb hn hlora .rxNbBytes (fun v m => { m with count := v }) (by decide) rfl
    (fun _ => rfl) (fun _ _ => rfl)
  obtain ⟨c4, hptr4, k4⟩ := k3.drain hrd hb hn rfl rfl
  rw [hptr3.trans hptr2] at hptr4 k4
  obtain ⟨c5, hptr5, k5⟩ := k4.read hrd hb hn hlora .rssiValue (fun v m => { m with rawRssi := v }) (by decide) rfl
    (fun _ => rfl) (fun _ _ => rfl)
  obtain ⟨c6, hptr6, k6⟩ := k5.read hrd hb hn hlora .pktSnrValue (fun v m => { m with rawSnr := v }) (by decide) rfl
    (fun _ => rfl) (fun _ _ => rfl)
  obtain ⟨fs, d, hptr7, hkept, hout, hgo⟩ := k6.ends hrd hb hn hlora rfl hp
  exact ⟨fs, d, _, rfl, rfl, hgo, hout, hptr7.trans (hptr6.trans (hptr5.trans hptr4)), hkept⟩

end

/-- Settles O41: onReceiveComplete, then the write-back. -/
theorem dispatchReceive : Obligations.DispatchReceive := by
  intro s rest f x n data hedge hdisp hl hrd hn hb hlora hs hf hrx htx hx hlen hdata
  subst hx hlen hdata
  obtain ⟨fs, c, l, -, -, hgo, hout, hptr, hkept⟩ := dispatch_receives hrd hb hn hlora hf hrx (.inr ⟨htx, rfl⟩)
  have hflags : c.reg .irqFlags = s.chip.reg .irqFlags := hkept.regs.reg _ (by decide)
  have hcan := State.served_canFrame hrd f [.received s.chip.receivedMessage] (q := ⟨.irq, .dispatch, 3, l⟩) rfl fs c
  obtain ⟨inp, d, hstep, hclear, hregs, hfifo, hradio⟩ :=
    dispatch_writes_back hcan hb rfl rfl rfl rfl (hf.trans hflags.symm)
  have hone : State.Goes [.irq .ok] _ _ := State.Goes.one hcan.1 hb hn ⟨rfl, rfl⟩
  rw [hstep, State.after_dispatchEnded] at hone
  have hexec := exec_dispatch_completes (s.dispatchEnabled_iff.2 ⟨hedge, hdisp, hl, hrd⟩) hs rfl (hgo.trans hone) rfl
  refine ⟨d, _, hexec.trans ?_, hout.append (FramesOut.one .irq [0x92, f] inp), hclear.trans (by rw [← hflags]; rfl),
    (hregs.reg _ (by decide)).trans hptr, (hkept.regs.mono (by decide)).trans (hregs.mono (by decide)),
    hkept.fifo.trans hfifo, hkept.radio.trans hradio⟩
  simp only [State.dispatchEnded, State.leaveDispatch, State.served, State.after, State.ran, State.enterDispatch,
    hkept.dio0, hl, hdisp, Bool.false_or]
  rfl

/-- Settles O43: onReceiveComplete, then `dispatch_transmits_ends`. -/
theorem dispatchBoth : Obligations.DispatchBoth := by
  intro s rest f x n data hedge hdisp hl hrd hn hb hlora hs hf hrx htx hx hlen hdata
  subst hx hlen hdata
  obtain ⟨fs, c, l, hsub, hret, hgo, hout, hptr, hkept⟩ := dispatch_receives hrd hb hn hlora hf hrx (.inl ⟨htx, rfl⟩)
  have hflags : c.reg .irqFlags = s.chip.reg .irqFlags := hkept.regs.reg _ (by decide)
  obtain ⟨gs, d, hend, hout', hclear, hmap, hmode, hregs, hfifo, htxp, hair⟩ := dispatch_transmits_ends (f := f)
    (State.served_canFrame hrd f [.received s.chip.receivedMessage] (q := ⟨.irq, .dispatch, 2, l⟩) rfl fs c) hb hn rfl
    rfl rfl hsub hret rfl (hf.trans hflags.symm)
  have hexec := exec_dispatch_completes (s.dispatchEnabled_iff.2 ⟨hedge, hdisp, hl, hrd⟩) hs rfl (hgo.trans hend) rfl
  refine ⟨d, fs ++ gs, hexec.trans ?_, hout.append hout', hclear.trans (by rw [← hflags]; rfl),
    (hregs.reg _ (by decide)).trans hptr, hmap, hmode, (hkept.regs.mono (by decide)).trans (hregs.mono (by decide)),
    hkept.fifo.trans hfifo, htxp, hair.trans hkept.radio.2⟩
  simp only [State.dispatchEnded, State.leaveDispatch, State.served, State.after, State.ran, State.enterDispatch,
    hkept.dio0, hrx, hl, hdisp, Bool.false_or, Bool.true_and, List.append_assoc]
  rfl

end Sys2Proof.Machine
end

section
/-! SUPPORT. The chip's own steps at work: an arriving packet (O52) and a transmission that completes (O53). -/

namespace Sys2Proof.Machine

/-! ### The FIFO of an arriving packet -/

theorem byte_succ_add (b : Byte) (k : Nat) : b + 1 + BitVec.ofNat 8 k = b + BitVec.ofNat 8 (k + 1) := by
  rw [Nat.add_comm k 1, BitVec.ofNat_add, BitVec.add_assoc]
  rfl

theorem Chip.storeFifo_txPkt (vs : List Byte) (b : Byte) (c : Chip) : (Chip.storeFifo vs b c).txPkt = c.txPkt := by
  induction vs generalizing b c with
  | nil => rfl
  | cons v vs ih => exact ih (b + 1) (c.setFifoCell b v)

/-- The cells past the stored bytes are kept. -/
theorem Chip.fifoCell_storeFifo_outside (vs : List Byte) (b : Byte) (c : Chip) (i : Byte)
    (h : ∀ k, k < vs.length → i ≠ b + BitVec.ofNat 8 k) : (Chip.storeFifo vs b c).fifoCell i = c.fifoCell i := by
  induction vs generalizing b c with
  | nil => rfl
  | cons v vs ih =>
    have hfirst : i ≠ b := by simpa using h 0 (by simp)
    have hrest : ∀ k, k < vs.length → i ≠ b + 1 + BitVec.ofNat 8 k := fun k hk => by
      rw [byte_succ_add]
      exact h (k + 1) (by simpa using hk)
    exact (ih (b + 1) (c.setFifoCell b v) hrest).trans (by rw [Chip.fifoCell_setFifoCell, if_neg hfirst])

/-- The stored bytes lie in their cells, where no later one has come round to an earlier one's. -/
theorem Chip.fifoCell_storeFifo (vs : List Byte) (b : Byte) (c : Chip) (k : Nat) (hlen : vs.length ≤ 256)
    (hk : k < vs.length) : some ((Chip.storeFifo vs b c).fifoCell (b + BitVec.ofNat 8 k)) = vs[k]? := by
  induction vs generalizing b c k with
  | nil => simp at hk
  | cons v vs ih =>
    simp only [List.length_cons] at hlen hk
    cases k with
    | zero =>
      have hkept : ∀ j, j < vs.length → b ≠ b + 1 + BitVec.ofNat 8 j := fun j hj e => by
        have := congrArg BitVec.toNat e
        simp at this
        omega
      rw [BitVec.add_zero, Chip.storeFifo, Chip.fifoCell_storeFifo_outside vs (b + 1) _ b hkept,
        Chip.fifoCell_setFifoCell, if_pos rfl]
      rfl
    | succ k =>
      rw [← byte_succ_add]
      exact ih (b + 1) (c.setFifoCell b v) k (by omega) (by omega)

/-! ### Whether a chip's turn is enabled -/

theorem Chip.rxEnabled_iff (c : Chip) : c.rxEnabled = true ↔ c.InLoRa ∧ c.reg .opMode &&& 0x07 = 0x05 := by
  unfold Chip.rxEnabled
  rw [Bool.and_eq_true, decide_eq_true_iff]
  rfl

theorem State.chipTurn_of_none {s : State} {e : ChipEvent} (h : s.chip.event e = none) : s.chipTurn e = s := by
  unfold State.chipTurn
  rw [h]

theorem State.chipTurn_of_some {s : State} {e : ChipEvent} {d : Chip} (h : s.chip.event e = some d) :
    s.chipTurn e =
      { s with chip := d, edgePending := s.edgePending || (d.dio0 && !s.lineLast), lineLast := d.dio0 } := by
  unfold State.chipTurn
  rw [h]
  rfl

/-! ### The two steps -/

/-- The receive registers of an arriving packet (R282), in the order the chip writes them. -/
def Chip.receiveRegs (c : Chip) (start n r p q : Byte) : Chip :=
  ((((c.setReg .fifoRxCurrentAddr start).setReg .rxNbBytes n).setReg .rssiValue r).setReg .pktRssiValue p).setReg
    .pktSnrValue q

/-- The chip after an arriving packet of at most MAX_PACKET bytes (R282). -/
def Chip.arrived (c : Chip) (start : Byte) (bytes : List Byte) (r p q extra : Byte) : Chip :=
  ((Chip.storeFifo bytes start c).receiveRegs start (BitVec.ofNat 8 bytes.length) r p q).raise
    (0x40 ||| extraFlags extra)

theorem Chip.event_rx {c : Chip} {bytes : List Byte} (start r p q extra : Byte) (hlen : bytes.length ≤ 255)
    (h : c.rxEnabled = true) :
    c.event (.rx start bytes r p q extra) = some (c.arrived start bytes r p q extra) := by
  have hall : bytes.take Config.maxPacket = bytes := List.take_of_length_le hlen
  simp only [Chip.event, Chip.receive, h, if_true, hall]
  rfl

theorem Chip.arrived_receiveRegs (c : Chip) (start : Byte) (bytes : List Byte) (r p q extra : Byte) :
    (c.arrived start bytes r p q extra).reg .fifoRxCurrentAddr = start ∧
    (c.arrived start bytes r p q extra).reg .rxNbBytes = BitVec.ofNat 8 bytes.length ∧
    (c.arrived start bytes r p q extra).reg .rssiValue = r ∧
    (c.arrived start bytes r p q extra).reg .pktRssiValue = p ∧
    (c.arrived start bytes r p q extra).reg .pktSnrValue = q := by
  simp [Chip.arrived, Chip.receiveRegs, Chip.raise, Chip.reg_setReg]

theorem Chip.arrived_irqFlags (c : Chip) (start : Byte) (bytes : List Byte) (r p q extra : Byte) :
    (c.arrived start bytes r p q extra).reg .irqFlags =
      c.reg .irqFlags ||| ((0x40 ||| (extra &&& 0xB7)) &&& ~~~c.reg .irqFlagsMask) := by
  simp [Chip.arrived, Chip.receiveRegs, Chip.raise, Chip.reg_setReg, raiseFlags, extraFlags]

/-- Settles O52: the cells are storeFifo's, the registers those the chip sets after it. -/
theorem chipReceives : Obligations.ChipReceives := by
  intro s start r p q extra bytes hlen
  obtain ⟨haddr, hnb, hrssi, hpkt, hsnr⟩ := s.chip.arrived_receiveRegs start bytes r p q extra
  refine ⟨fun ts hn hs => step_turn s _ ts hn hs, fun hoff => State.chipTurn_of_none ?_, fun hlora hmode =>
    ⟨s.chip.arrived start bytes r p q extra, State.chipTurn_of_some ?_, ?_, ?_, haddr, hnb, hrssi, hpkt, hsnr,
      s.chip.arrived_irqFlags start bytes r p q extra, ?_, ?_⟩⟩
  · simp only [Chip.event, Chip.receive, if_neg (mt (Chip.rxEnabled_iff s.chip).1 hoff)]
  · exact Chip.event_rx start r p q extra hlen ((Chip.rxEnabled_iff s.chip).2 ⟨hlora, hmode⟩)
  · exact fun k hk => Chip.fifoCell_storeFifo bytes start s.chip k (by omega) hk
  · exact fun i hi => Chip.fifoCell_storeFifo_outside bytes start s.chip i hi
  · exact ((((((Chip.storeFifo_regsKept _ bytes start s.chip).set (by decide) _).set (by decide) _).set (by decide)
      _).set (by decide) _).set (by decide) _).set (by decide) _
  · exact ⟨Chip.storeFifo_txPkt bytes start s.chip, (Chip.storeFifo_keeps bytes start s.chip).air⟩

/-- The chip after its packet `pkt` has left (R284). -/
def Chip.transmitted (c : Chip) (pkt : List Byte) : Chip :=
  let sent := { c with air := c.air ++ [pkt], txPkt := none }
  (sent.raise 0x08).setReg .opMode (((sent.raise 0x08).reg .opMode &&& 0xF8) ||| 0x01)

theorem Chip.event_txDone {c : Chip} {pkt : List Byte} (hpkt : c.txPkt = some pkt) (hlora : c.InLoRa)
    (hmode : c.reg .opMode &&& 0x07 = 0x03) : c.event .txDone = some (c.transmitted pkt) := by
  simp only [Chip.event, Chip.transmitDone, hpkt]
  exact if_pos ⟨hlora, hmode⟩

theorem Chip.event_txDone_none {c : Chip} (h : ¬(c.txPkt ≠ none ∧ c.InLoRa ∧ c.reg .opMode &&& 0x07 = 0x03)) :
    c.event .txDone = none := by
  cases hpkt : c.txPkt with
  | none => simp only [Chip.event, Chip.transmitDone, hpkt]
  | some pkt =>
    simp only [Chip.event, Chip.transmitDone, hpkt]
    exact if_neg fun ⟨hlora, hmode⟩ => h ⟨by simp [hpkt], hlora, hmode⟩

/-- Settles O53: TxDone is raised through the mask, and the mode field is written last. -/
theorem chipCompletesTransmission : Obligations.ChipCompletesTransmission := by
  intro s
  refine ⟨fun ts hn hs => step_turn s _ ts hn hs, fun hoff => State.chipTurn_of_none (Chip.event_txDone_none hoff),
    fun pkt hpkt hlora hmode => ⟨s.chip.transmitted pkt, State.chipTurn_of_some (Chip.event_txDone hpkt hlora hmode),
      rfl, rfl, ?_, ?_, ?_, fun _ => rfl⟩⟩
  · simp only [Chip.transmitted, Chip.raise, raiseFlags, Chip.reg_setReg]
    rfl
  · simp only [Chip.transmitted, Chip.raise, Chip.reg_setReg]
    rfl
  · have hsent : Chip.RegsKept [.irqFlags, .opMode] s.chip { s.chip with air := s.chip.air ++ [pkt], txPkt := none } :=
      fun _ _ => rfl
    exact (hsent.set (by decide) _).set (by decide) _

end Sys2Proof.Machine
end

section
/-! SUPPORT. A latched edge over every way a turn can end but the start of dispatch, then O45. -/

namespace Sys2Proof.Machine

/-! ### A call's frame leaves what SpiXfer leaves -/

section
variable {s : State} {P : State → Prop} (hx : ∀ out, (s.spiXfer out).After P)
include hx

theorem readByteCall_after (a : Byte) : (readByteCall a s).After P := by
  have h := hx [commandByte false a, Config.cfg.dummy]
  unfold readByteCall
  split
  · trivial
  · generalize s.spiXfer _ = x at h ⊢
    cases x <;> exact h

theorem readBlockCall_after (a : Byte) (n : Nat) : (readBlockCall a n s).After P := by
  have h := hx (commandByte false a :: List.replicate n Config.cfg.dummy)
  unfold readBlockCall
  split
  · trivial
  · generalize s.spiXfer _ = x at h ⊢
    cases x <;> exact h

theorem writeByteCall_after (a v : Byte) : (writeByteCall a v s).After P := by
  have h := hx [commandByte true a, v]
  unfold writeByteCall
  split
  · trivial
  · generalize s.spiXfer _ = x at h ⊢
    cases x <;> exact h

theorem writeBlockCall_after (a : Byte) (bs : List Byte) : (writeBlockCall a bs s).After P := by
  have h := hx (commandByte true a :: bs)
  unfold writeBlockCall
  split
  · trivial
  · generalize s.spiXfer _ = x at h ⊢
    cases x <;> exact h

/-- What every SpiXfer from `s` leaves, and `s` itself has, any call's frame leaves. -/
theorem callFrame_after (hs : P s) (i : Instr) (k : Nat) : (callFrame i k s).After P := by
  cases i with
  | readByte a => exact readByteCall_after hx a
  | readBlock a n => exact readBlockCall_after hx a n
  | writeByte a v => exact writeByteCall_after hx a v
  | writeBlock a bs => exact writeBlockCall_after hx a bs
  | setMode m => exact writeByteCall_after hx (regAddr .opMode) (opModeValue m)
  | setCarrierFrequency hz =>
    unfold callFrame setCarrierFrequencyCall
    dsimp only
    split
    · exact writeBlockCall_after hx _ _
    · exact hs
  | setPowerAmplifier b => exact writeByteCall_after hx (regAddr .paConfig) (paValue b)
  | enableRxCrc =>
    unfold callFrame enableRxCrcFrame
    dsimp only
    split
    · exact readByteCall_after hx _
    · exact writeByteCall_after hx _ _
  | onReceiveComplete =>
    unfold callFrame onReceiveCompleteFrame
    dsimp only
    split
    · exact readByteCall_after hx _
    · exact writeByteCall_after hx _ _
    · exact readByteCall_after hx _
    · exact readBlockCall_after hx _ _
    · exact readByteCall_after hx _
    · exact readByteCall_after hx _
    · exact readByteCall_after hx _
  | onTransmitComplete =>
    unfold callFrame onTransmitCompleteFrame
    dsimp only
    split
    · exact writeByteCall_after hx _ _
    · exact writeByteCall_after hx _ _
  | reset => exact hs
  | init _ _ _ => exact hs
  | send _ _ => exact hs
  | dump _ _ => exact hs
  | dispatch => exact hs

end

/-! ### Frames -/

/-- The edge detector holds an edge that dispatch has not taken (R190). -/
def State.EdgeLatched (s : State) : Prop := s.edgePending = true

namespace State.EdgeLatched

theorem congr {s t : State} (h : s.EdgeLatched) (e : t.edgePending = s.edgePending) : t.EdgeLatched := e.trans h

theorem refuse {s : State} (h : s.EdgeLatched) (x : RefusalReason) : (s.refuse x).EdgeLatched :=
  h.congr (s.refuse_edgePending x)

theorem edgeSample {s : State} (h : s.EdgeLatched) : s.edgeSample.EdgeLatched :=
  Bool.or_eq_true_iff.2 (.inl h)

theorem frameDone {s : State} (h : s.EdgeLatched) (ctx : Ctx) (out : List Byte) (inp : Option (List Byte)) (c : Chip) :
    (s.frameDone ctx out inp c).EdgeLatched := Bool.or_eq_true_iff.2 (.inl h)

theorem spiXfer {s : State} (h : s.EdgeLatched) (out : List Byte) : (s.spiXfer out).After State.EdgeLatched := by
  unfold State.spiXfer
  split
  · trivial
  split
  · trivial
  split
  · trivial
  dsimp only
  split <;> split
  · trivial
  · exact h.frameDone _ _ _ _
  · trivial
  · exact h.frameDone _ _ _ _

theorem callFrame {s : State} (h : s.EdgeLatched) (i : Instr) (k : Nat) :
    (callFrame i k s).After State.EdgeLatched := callFrame_after h.spiXfer h i k

theorem callOnce {s : State} (h : s.EdgeLatched) (f : State → CallRes) (hf : (f s).After State.EdgeLatched) :
    (s.callOnce f).EdgeLatched := by
  unfold State.callOnce
  cases e : f s with
  | more t => rw [e] at hf; exact congr hf (t.mapLoc_edgePending _)
  | done x t => rw [e] at hf; exact congr hf (t.mapLoc_edgePending _)
  | refuse x => exact h.refuse x

theorem actGot {s : State} (h : s.EdgeLatched) (i : Instr) : (s.actGot i).EdgeLatched :=
  h.congr (s.actGot_step i).edgePending

/-- A frame issued after the actions of the one before it. -/
theorem issue {s0 s : State} (h0 : s0.EdgeLatched) (h : s.EdgeLatched) (i : Instr) :
    (State.issue i s0 s).EdgeLatched := by
  have hf := h.callFrame i s.loc.sub
  unfold State.issue
  cases e : Machine.callFrame i s.loc.sub s with
  | more t => rw [e] at hf; exact hf
  | done x t => rw [e] at hf; exact congr hf (t.mapLoc_edgePending _)
  | refuse x => exact h0.refuse x

end State.EdgeLatched

/-! ### The running operation -/

/-- An operation that takes what its call handed back leaves the edge detector alone. -/
theorem opReturn_edgePending (r : Run) (x : Ret) (s : State) : (opReturn r x s).edgePending = s.edgePending := by
  unfold opReturn
  split
  · unfold initReturn
    repeat' split
    all_goals simp
  · unfold sendReturn
    repeat' split
    all_goals simp
  · unfold dumpReturn
    dsimp only
    repeat' split
    all_goals simp
  · unfold dispatchReturn
    dsimp only
    repeat' split
    all_goals simp
  all_goals simp

theorem handBack_edgePending (s : State) : (handBack s).edgePending = s.edgePending := by
  unfold handBack
  split
  · rfl
  · split
    · rfl
    · exact opReturn_edgePending _ _ s

namespace State.EdgeLatched

theorem settle {s : State} (h : s.EdgeLatched) : (settle s).EdgeLatched := by
  unfold Machine.settle
  split
  · exact h
  · exact (h.actGot _).congr (handBack_edgePending _)

theorem closeOp {s : State} (h : s.EdgeLatched) : (closeOp s).EdgeLatched := by
  unfold Machine.closeOp
  split
  · exact h.settle
  · exact h

theorem frameStep {s : State} (h : s.EdgeLatched) : (frameStep s).EdgeLatched := by
  unfold Machine.frameStep
  dsimp only
  split
  · exact h.settle
  · exact (h.issue h.settle _).closeOp

theorem callTurn {s : State} (h : s.EdgeLatched) (i : Instr) : (callTurn i s).EdgeLatched := by
  have hissued := h.issue (h.actGot i) i
  unfold Machine.callTurn
  dsimp only
  split
  · exact hissued.actGot i
  · exact hissued

/-- Frames that keep the latch keep it over any number of further turns. -/
theorem drive {s : State} (h : s.EdgeLatched) (p : State → Bool) (f : State → State)
    (hf : ∀ u, u.EdgeLatched → (f u).EdgeLatched) (ts : List Turn) : (State.drive p f ts s).EdgeLatched :=
  State.drive_induct p f hf (fun _ _ h => h) (fun _ _ h => h) ts s h

theorem runOp {s : State} (h : s.EdgeLatched) : (runOp s).EdgeLatched :=
  h.frameStep.drive _ _ (fun _ hu => hu.frameStep) _

theorem runCall {s : State} (h : s.EdgeLatched) (i : Instr) : (runCall i s).EdgeLatched :=
  (h.callTurn i).drive _ _ (fun _ hu => hu.callTurn i) _

/-! ### Operations -/

theorem acquire {s u : State} (h : s.EdgeLatched) {ctx : Ctx} {op : Instr} (hu : s.acquire ctx op = some u) :
    u.EdgeLatched := by
  obtain ⟨-, rfl⟩ := s.acquire_eq_some u ctx op hu
  exact h

/-- A latched edge survives every host command, RESET included (R252). -/
theorem commandTo {s t : State} {i : Instr} (h : s.EdgeLatched) (k : s.CommandTo i t) : t.EdgeLatched := by
  cases k with
  | waits => exact h
  | refuses x => exact h.refuse x
  | fails y => exact (h.congr (s.returnResult_edgePending y)).edgeSample
  | busy u y hu => exact ((h.acquire hu).congr (t := u.release.returnResult y) rfl).edgeSample
  | resets u hi hu =>
    unfold resetSequence
    exact edgeSample ((h.acquire hu).congr rfl)
  | starts u hg hu => exact (h.acquire hu).runOp

/-- Of the operations only dispatch takes the edge (R191). -/
theorem exec {i : Instr} {s t : State} (h : s.EdgeLatched) (hi : i ≠ .dispatch) (he : exec i s = .next t) :
    t.EdgeLatched := by
  by_cases hhost : i.format = .hostCommand
  · exact h.commandTo (exec_commandTo i s t hhost he)
  cases i with
  | reset => exact absurd rfl hhost
  | init hz pa crc => exact absurd rfl hhost
  | send a p => exact absurd rfl hhost
  | dump x y => exact absurd rfl hhost
  | dispatch => exact absurd rfl hi
  | readByte a => cases he; exact h.callOnce _ (h.callFrame (.readByte a) 0)
  | readBlock a n => cases he; exact h.callOnce _ (h.callFrame (.readBlock a n) 0)
  | writeByte a v => cases he; exact h.callOnce _ (h.callFrame (.writeByte a v) 0)
  | writeBlock a bs => cases he; exact h.callOnce _ (h.callFrame (.writeBlock a bs) 0)
  | setMode m =>
    cases he
    exact h.callOnce _ ((h.callFrame (.setMode m) 0).act fun x u hu =>
      (setModeAct_step m x u).mono fun _ k => hu.congr k.edgePending)
  | setCarrierFrequency hz => cases he; exact h.callOnce _ (h.callFrame (.setCarrierFrequency hz) 0)
  | setPowerAmplifier b => cases he; exact h.callOnce _ (h.callFrame (.setPowerAmplifier b) 0)
  | enableRxCrc => cases he; exact h.runCall .enableRxCrc
  | onReceiveComplete => cases he; exact h.runCall .onReceiveComplete
  | onTransmitComplete => cases he; exact h.runCall .onTransmitComplete

/-! ### Turns -/

theorem resume {s t : State} (h : s.EdgeLatched) (r : Run) (he : s.resume r = .next t) : t.EdgeLatched := by
  cases hc : composed r.op with
  | true =>
    rw [s.resume_composed r hc] at he
    cases he
    exact h.frameStep
  | false =>
    have hop : r.op ≠ .dispatch := fun e => by rw [e] at hc; cases hc
    cases hx : Machine.exec r.op s with
    | next u =>
      rw [s.resume_own u r hc hx] at he
      cases he
      exact (h.exec hop hx).congr (handBack_edgePending u)
    | fault f => cases f
    | refused x =>
      unfold State.resume at he
      rw [hc, hx] at he
      cases he

theorem chipTurn {s : State} (h : s.EdgeLatched) (e : ChipEvent) : (s.chipTurn e).EdgeLatched := by
  unfold State.chipTurn
  split
  · exact h
  · exact edgeSample h

/-- A turn that does not enter dispatch keeps the latch. -/
theorem turnTo {s t : State} (h : s.EdgeLatched) (hoff : s.run = none → s.dispatchEnabled = false) (k : s.TurnTo t) :
    t.EdgeLatched := by
  cases k with
  | waits => exact h
  | presents c => exact h
  | chip e => exact h.chipTurn e
  | resumes r _ hr he => exact h.resume r he
  | rejects c rest e hp hd => exact h.refuse _
  | commands c rest i _ hp hd hl he =>
    have hi : i ≠ .dispatch := fun e => by
      have hformat := decodeHost_format c i hd
      rw [e] at hformat
      cases hformat
    exact exec (s := { s with port := rest }) h hi he
  | dispatches _ hr he =>
    obtain rfl | ⟨hon, -⟩ := execDispatch_cases s t he
    · exact h
    · exact absurd hon (by simp [hoff hr])

end State.EdgeLatched

/-- Settles O45: the one turn that takes the edge is dispatch's, with nothing running. -/
theorem edgeStaysLatched : Obligations.EdgeStaysLatched := by
  intro s t hs hedge hoff
  obtain ⟨-, l, n, b, k⟩ := step_turnTo s t hs
  refine State.EdgeLatched.turnTo (s := s.atTurn l n b) hedge (fun hrun => Bool.eq_false_iff.2 fun hon => ?_) k
  obtain ⟨-, hdisp, hlock, hreset⟩ := (State.dispatchEnabled_iff _).1 hon
  obtain h | h | h | h := hoff
  · exact DispState.noConfusion (h.symm.trans hdisp)
  · exact h hlock
  · exact Bool.false_ne_true (h.symm.trans hreset)
  · exact h hrun

end Sys2Proof.Machine
end

section
/-! SUPPORT. onReceiveComplete as a call (R210): its seven frames by position, each completed or failed, then O36; and the
split of a packet at the address length (R211), O37. -/

namespace Sys2Proof.Machine

/-! ### The handler by position -/

/-- The bytes of frame `j` of onReceiveComplete, from the chip it starts with (R210). -/
def Chip.drainOut (c : Chip) (j : Nat) : List Byte :=
  match j with
  | 0 => [0x10, 0x00]
  | 1 => [0x8D, c.reg .fifoRxCurrentAddr]
  | 2 => [0x13, 0x00]
  | 3 => 0x00 :: List.replicate (c.reg .rxNbBytes).toNat 0x00
  | 4 => [0x1B, 0x00]
  | 5 => [0x19, 0x00]
  | _ => [0x1A, 0x00]

/-- What frame `j` hands in (R210). -/
def Chip.drainBytes (c : Chip) (j : Nat) : List Byte :=
  match j with
  | 0 => [c.reg .fifoRxCurrentAddr]
  | 1 => []
  | 2 => [c.reg .rxNbBytes]
  | 3 => c.receivedData
  | 4 => [c.reg .rssiValue]
  | 5 => [c.reg .pktSnrValue]
  | _ => [c.reg .pktRssiValue]

/-- The FIFO pointer before frame `j` (R210, R212). -/
def Chip.drainPtr (c : Chip) (j : Nat) : Byte :=
  match j with
  | 0 | 1 => c.reg .fifoAddrPtr
  | 2 | 3 => c.reg .fifoRxCurrentAddr
  | _ => c.reg .fifoRxCurrentAddr + c.reg .rxNbBytes

/-- What the handler keeps of frame `j` in its locals (R210). -/
def Chip.drainKeep (c : Chip) (j : Nat) (l : Locals) : Locals :=
  match j with
  | 0 => { l with start := c.reg .fifoRxCurrentAddr }
  | 2 => { l with count := c.reg .rxNbBytes }
  | 3 => { l with data := c.receivedData }
  | 4 => { l with rawRssi := c.reg .rssiValue }
  | 5 => { l with rawSnr := c.reg .pktSnrValue }
  | _ => l

/-- The locals before frame `j` of a handler that starts with the locals `l` (R210). -/
def Chip.drainLocals (c : Chip) (l : Locals) (j : Nat) : Locals :=
  match j with
  | 0 => l
  | j + 1 => (c.drainKeep j (c.drainLocals l j)).next

theorem Chip.drainKeep_sub (c : Chip) (j : Nat) (l : Locals) : (c.drainKeep j l).sub = l.sub := by
  unfold Chip.drainKeep
  split <;> rfl

theorem Chip.drainKeep_ret (c : Chip) (j : Nat) (l : Locals) : (c.drainKeep j l).ret = l.ret := by
  unfold Chip.drainKeep
  split <;> rfl

theorem Chip.drainLocals_sub (c : Chip) {l : Locals} (hl : l.sub = 0) (j : Nat) : (c.drainLocals l j).sub = j := by
  induction j with
  | zero => exact hl
  | succ j ih => exact congrArg (· + 1) ((c.drainKeep_sub j _).trans ih)

theorem Chip.drainLocals_ret (c : Chip) {l : Locals} (hl : l.ret = none) (j : Nat) : (c.drainLocals l j).ret = none := by
  induction j with
  | zero => exact hl
  | succ j ih => exact (c.drainKeep_ret j _).trans ih

/-- The frames before the last lead on to the next one. -/
theorem onReceiveCompleteAct_more (c : Chip) {j : Nat} (hj : j < 6) (u : State) :
    onReceiveCompleteAct j (.bytes (c.drainBytes j)) u = .more (u.mapLoc (c.drainKeep j)) := by
  match j, hj with
  | 0, _ => rfl
  | 1, _ => rw [State.mapLoc_id u (c.drainKeep 1) rfl]; rfl
  | 2, _ => rfl
  | 3, _ => rfl
  | 4, _ => rfl
  | 5, _ => rfl

/-- The last frame hands back, with the message of what the frames before it read (R210, R215). -/
theorem onReceiveCompleteAct_done (c : Chip) (l : Locals) {u : State} (hl : u.loc = c.drainLocals l 6) :
    onReceiveCompleteAct 6 (.bytes (c.drainBytes 6)) u = .done (.bytes []) (u.emit (.received c.receivedMessage)) := by
  show CallRes.done _ (u.emit (.received (receivedMessage _ u.loc.data u.loc.rawRssi u.loc.rawSnr _))) = _
  rw [hl]
  rfl

/-! ### What is processed of a failed frame -/

/-- What the chip processed of a drain moves the FIFO pointer alone (R72, R76). -/
theorem Chip.frame_drain_take (c : Chip) (n k : Nat) :
    ∃ i d, c.frame ((0x00 :: List.replicate n 0x00).take k) = .ok (i, d) ∧ Chip.OnlyPointer c d := by
  cases k with
  | zero => exact ⟨[], c, rfl, (Chip.SameBut.refl c).onlyPointer⟩
  | succ k =>
    obtain ⟨vs, d, hm, -, -, -, hregs, hfifo, hradio⟩ :=
      Chip.memRead_fifo ((List.replicate n (0x00 : Byte)).take k).length 0 c.draw.2
    exact ⟨_, d, Chip.frame_read c d 0x00 _ vs rfl hm,
      (Chip.SameBut.draw c).onlyPointer.trans ⟨hregs, hfifo, hradio⟩⟩

/-- A write of the FIFO pointer moves it alone. -/
theorem Chip.writeReg_onlyPointer (c : Chip) (v : Byte) :
    Chip.OnlyPointer c (c.writeReg .fifoAddrPtr v) ∧ (c.writeReg .fifoAddrPtr v).reg .fifoAddrPtr = v := by
  obtain ⟨hregs, hair, hkeep, -, -, hstore, -⟩ := c.writeReg_spec .fifoAddrPtr v (by decide)
  obtain ⟨hfifo, htx⟩ := hkeep (by decide)
  exact ⟨⟨hregs, hfifo, htx, hair⟩, hstore ⟨rfl, nofun⟩⟩

/-- What the chip processed of a write of the FIFO pointer moves it alone (R72). -/
theorem Chip.frame_pointer_take (c : Chip) (v : Byte) (k : Nat) :
    ∃ i d, c.frame ([0x8D, v].take k) = .ok (i, d) ∧ Chip.OnlyPointer c d := by
  by_cases hk : k ≤ 1
  · obtain ⟨i, d, hf, hd⟩ := c.frame_take_le_one [0x8D, v] k hk
    exact ⟨i, d, hf, hd.onlyPointer⟩
  · have hw : c.writeTarget (0x0D : Byte).toNat v = .ok _ := Chip.writeTarget_reg c .fifoAddrPtr v (by decide)
    rw [List.take_of_length_le (by simp only [List.length_cons, List.length_nil]; omega),
      show (0x8D : Byte) = 0x80 ||| 0x0D from rfl, Chip.frame_writeOne _ _ _ rfl, hw]
    exact ⟨_, _, rfl, (c.writeReg_onlyPointer v).1.trans (Chip.SameBut.drawList 2 _).onlyPointer⟩

/-! ### The handler between two frames -/

/-- From `s` on, the frames `fs` of onReceiveComplete, called by `r`, lead to `u`, where frame `j` is next: the chip has
changed in its FIFO pointer alone, and a frame of `u` that changes no more than that is, seen from `s`, one frame after
`fs` (R210). -/
structure State.DrainsTo (s : State) (r : Run) (j : Nat) (fs : List Frame) (u : State) : Prop where
  can : u.CanFrame { r with loc := s.chip.drainLocals r.loc j }
  events : u.events = s.events
  chip : Chip.OnlyPointer s.chip u.chip
  ptr : u.chip.reg .fifoAddrPtr = s.chip.drainPtr j
  outs : FramesOut r.ctx fs ((List.range j).map s.chip.drainOut)
  frame : ∀ out inp d, Chip.OnlyPointer s.chip d → u.frameDone r.ctx out inp d =
    s.ran r (fs ++ [{ ctx := r.ctx, out := out, inp := inp }]) d (s.edgePending || (d.dio0 && !s.lineLast)) u.bus
      (s.chip.drainLocals r.loc j)

namespace State.DrainsTo

/-- The handler before its first frame. -/
theorem start {s : State} {r : Run} (h : s.CanFrame r) : s.DrainsTo r 0 [] s where
  can := h
  events := rfl
  chip := (Chip.SameBut.refl s.chip).onlyPointer
  ptr := rfl
  outs := ⟨rfl, nofun⟩
  frame _ _ d _ := s.frameDone_ran r _ _ d h.1

section
variable {s u : State} {r : Run} {j : Nat} {fs : List Frame} (h : s.DrainsTo r j fs u)
include h

theorem loc : u.loc = s.chip.drainLocals r.loc j := u.loc_of_run _ h.can.1

/-- A completed read of a register off the FIFO port. -/
theorem reads (hb : u.bus = .ok) (hlora : s.chip.InLoRa) (q : Reg) (hq : q ∉ [Reg.fifo, .fifoAddrPtr]) :
    ∃ inp d, readByteCall (regAddr q) u =
        .done (.bytes [s.chip.reg q]) (u.frameDone r.ctx [regAddr q, 0x00] (some inp) d) ∧
      Chip.OnlyPointer s.chip d ∧ d.reg .fifoAddrPtr = s.chip.drainPtr j := by
  have hfifo : q ≠ .fifo := fun e => hq (by rw [e]; decide)
  have h0 : regAddr q ≠ 0 := fun e => hfifo (regAddr_toNat_inj q .fifo (congrArg BitVec.toNat e))
  obtain ⟨i, v, d, hk, hv, hcall⟩ := readByteCall_reads u _ (regAddr q) h.can hb (regAddr_bit7 q) h0
  obtain rfl : v = s.chip.reg q :=
    (hv q rfl (h.chip.readable hlora hfifo)).trans (h.chip.regs.reg q fun hm => hq (List.mem_cons_of_mem _ hm))
  exact ⟨_, d, hcall, h.chip.trans hk.onlyPointer, (hk.reg _).trans h.ptr⟩

/-- The completed write of the FIFO pointer, to the packet's start (R210). -/
theorem points (hb : u.bus = .ok) (v : Byte) :
    ∃ inp d, writeByteCall (regAddr .fifoAddrPtr) v u =
        .done (.bytes []) (u.frameDone r.ctx [0x8D, v] (some inp) d) ∧
      Chip.OnlyPointer s.chip d ∧ d.reg .fifoAddrPtr = v := by
  obtain ⟨i0, i1, d, hk, hcall⟩ := writeByteCall_writes u _ .fifoAddrPtr v h.can hb (by decide)
  obtain ⟨hw, hptr⟩ := u.chip.writeReg_onlyPointer v
  exact ⟨_, d, hcall, h.chip.trans (hw.trans hk.onlyPointer), (hk.reg _).trans hptr⟩

/-- The completed drain of `n` cells from the pointer on (R210, R212). -/
theorem drains (hb : u.bus = .ok) (n : Nat) :
    ∃ inp d, readBlockCall (regAddr .fifo) n u = .done (.bytes (s.chip.fifoSlice (s.chip.drainPtr j) n))
        (u.frameDone r.ctx (0x00 :: List.replicate n 0x00) (some inp) d) ∧
      Chip.OnlyPointer s.chip d ∧ d.reg .fifoAddrPtr = s.chip.drainPtr j + BitVec.ofNat 8 n := by
  have hdraw := Chip.SameBut.draw u.chip
  obtain ⟨vs, d, hm, hlen, hvs, hptr, hregs, hfifo, hradio⟩ := Chip.memRead_fifo n 0 u.chip.draw.2
  rw [hdraw.reg, h.ptr] at hvs hptr
  obtain rfl : vs = s.chip.fifoSlice (s.chip.drainPtr j) n := by
    refine List.ext_getElem? fun i => ?_
    by_cases hi : i < n
    · rw [hvs i hi, Chip.fifoSlice_getElem? _ _ _ _ hi, h.chip.fifo.trans hdraw.fifo]
    · rw [List.getElem?_eq_none (by omega), List.getElem?_eq_none (by rw [Chip.fifoSlice_length]; omega)]
  have hcall := readBlockCall_ok u _ (regAddr .fifo) n _ d h.can hb rfl hm
  exact ⟨_, d, hcall, h.chip.trans (hdraw.onlyPointer.trans ⟨hregs, hfifo, hradio⟩), hptr⟩

/-- Frame `j` completes with the bytes R210 names, and leaves the pointer where the next frame expects it. -/
theorem completes (hj : j ≤ 6) (hb : u.bus = .ok) (hlora : s.chip.InLoRa) :
    ∃ inp d, onReceiveCompleteFrame j u =
        .done (.bytes (s.chip.drainBytes j)) (u.frameDone r.ctx (s.chip.drainOut j) (some inp) d) ∧
      Chip.OnlyPointer s.chip d ∧ d.reg .fifoAddrPtr = s.chip.drainPtr (j + 1) := by
  match j, hj with
  | 0, _ => exact h.reads hb hlora .fifoRxCurrentAddr (by decide)
  | 1, _ =>
    unfold onReceiveCompleteFrame
    rw [h.loc]
    exact h.points hb (s.chip.reg .fifoRxCurrentAddr)
  | 2, _ => exact h.reads hb hlora .rxNbBytes (by decide)
  | 3, _ =>
    have hn := h.drains hb (s.chip.reg .rxNbBytes).toNat
    rw [BitVec.ofNat_toNat, BitVec.setWidth_eq] at hn
    unfold onReceiveCompleteFrame
    rw [h.loc]
    exact hn
  | 4, _ => exact h.reads hb hlora .rssiValue (by decide)
  | 5, _ => exact h.reads hb hlora .pktSnrValue (by decide)
  | 6, _ => exact h.reads hb hlora .pktRssiValue (by decide)

/-- A failed read of a register off the FIFO port. -/
theorem readFails {k : Nat} (hb : u.bus = .fail k) (a : Byte) (ha : a.getLsbD 7 = false) (h0 : a ≠ 0) :
    ∃ d, readByteCall a u = .done (.err (.transport .readByte a)) (u.frameDone r.ctx [a, 0x00] none d) ∧
      Chip.OnlyPointer s.chip d := by
  obtain ⟨i, d, hf, hk⟩ := u.chip.frame_readOne_take_sameBut a k ha h0
  have hcall := readByteCall_fail u _ a k i d h.can hb ha hf
  exact ⟨d, hcall, h.chip.trans hk.onlyPointer⟩

/-- Frame `j` fails as itself, and what is processed of it moves the pointer alone (R72, R271). -/
theorem fails (hj : j ≤ 6) {k : Nat} (hb : u.bus = .fail k) :
    ∃ p a d, frameOf .onReceiveComplete j = some (p, a) ∧ onReceiveCompleteFrame j u =
        .done (.err (.transport p a)) (u.frameDone r.ctx (s.chip.drainOut j) none d) ∧ Chip.OnlyPointer s.chip d := by
  match j, hj with
  | 0, _ => exact ⟨.readByte, 0x10, (h.readFails hb 0x10 rfl (by decide)).imp fun _ hd => ⟨rfl, hd⟩⟩
  | 1, _ =>
    obtain ⟨i, d, hf, hk⟩ := u.chip.frame_pointer_take (s.chip.reg .fifoRxCurrentAddr) k
    have hcall := writeByteCall_fail u _ (regAddr .fifoAddrPtr) _ k i d h.can hb rfl hf
    unfold onReceiveCompleteFrame
    rw [h.loc]
    exact ⟨.writeByte, 0x0D, d, rfl, hcall, h.chip.trans hk⟩
  | 2, _ => exact ⟨.readByte, 0x13, (h.readFails hb 0x13 rfl (by decide)).imp fun _ hd => ⟨rfl, hd⟩⟩
  | 3, _ =>
    obtain ⟨i, d, hf, hk⟩ := u.chip.frame_drain_take (s.chip.reg .rxNbBytes).toNat k
    have hcall := readBlockCall_fail u _ (regAddr .fifo) _ k i d h.can hb rfl hf
    unfold onReceiveCompleteFrame
    rw [h.loc]
    exact ⟨.readBlock, 0x00, d, rfl, hcall, h.chip.trans hk⟩
  | 4, _ => exact ⟨.readByte, 0x1B, (h.readFails hb 0x1B rfl (by decide)).imp fun _ hd => ⟨rfl, hd⟩⟩
  | 5, _ => exact ⟨.readByte, 0x19, (h.readFails hb 0x19 rfl (by decide)).imp fun _ hd => ⟨rfl, hd⟩⟩
  | 6, _ => exact ⟨.readByte, 0x1A, (h.readFails hb 0x1A rfl (by decide)).imp fun _ hd => ⟨rfl, hd⟩⟩

/-- A completed frame before the last, with the next own turn and its draw. -/
theorem next (hj : j < 6) (hb : u.bus = .ok) (hcan : s.CanFrame r) (hn : s.refused = none) (hlora : s.chip.InLoRa)
    (hsub : r.loc.sub = 0) (hret : r.loc.ret = none) {t : Turn} (ht : turnCtx t = some r.ctx) (ts : List Turn) :
    ∃ gs v, s.DrainsTo r (j + 1) gs v ∧ v.bus = turnBus t ∧
      State.drive callOpen (eagerCall .onReceiveComplete) (t :: ts) (eagerCall .onReceiveComplete u) =
        State.drive callOpen (eagerCall .onReceiveComplete) ts (eagerCall .onReceiveComplete v) := by
  obtain ⟨inp, d, hf, hd, hptr⟩ := h.completes hj.le hb hlora
  have hwhole : callWhole .onReceiveComplete u.loc.sub u =
      .more ((u.frameDone r.ctx (s.chip.drainOut j) (some inp) d).mapLoc (s.chip.drainKeep j)) := by
    rw [h.loc, s.chip.drainLocals_sub hsub]
    show (onReceiveCompleteFrame j u).act (onReceiveCompleteAct j) = _
    rw [hf]
    exact onReceiveCompleteAct_more s.chip hj _
  let gs : List Frame := fs ++ [{ ctx := r.ctx, out := s.chip.drainOut j, inp := some inp }]
  let e : Bool := s.edgePending || (d.dio0 && !s.lineLast)
  let l : Locals := s.chip.drainLocals r.loc (j + 1)
  have hcall : eagerCall .onReceiveComplete u = s.ran r gs d e u.bus l :=
    (State.callOnce_more _ _ _ hwhole).trans (by rw [h.frame _ _ d hd]; rfl)
  have houts : FramesOut r.ctx gs ((List.range (j + 1)).map s.chip.drainOut) := by
    rw [List.range_succ, List.map_append]
    exact h.outs.append (FramesOut.one r.ctx _ inp)
  refine ⟨gs, s.ran r gs d e (turnBus t) l, ⟨s.ran_canFrame r gs d e _ l hcan, rfl, hd, hptr, houts, ?_⟩, rfl, ?_⟩
  · intro out inp' d' hd'
    have hline : d'.dio0 = d.dio0 := hd'.dio0.trans hd.dio0.symm
    refine (State.frameDone_ran _ { r with loc := l } _ _ d' rfl).trans ((s.ran_ran r gs d e _ l _ d' _ _ _).trans ?_)
    rw [State.ran_edgePending, State.ran_lineLast, hline, edge_const]
  · rw [hcall]
    exact s.drive_ran r gs d e _ l callOpen _ t ts (decide_eq_true (s.chip.drainLocals_ret hret (j + 1))) hn ht

end

/-- Over own turns whose frames all complete, the handler comes to the frame that meets the last draw. -/
theorem reach {s : State} {r : Run} (h : s.CanFrame r) (hn : s.refused = none) (hlora : s.chip.InLoRa)
    (hsub : r.loc.sub = 0) (hret : r.loc.ret = none) {ts : List Turn} {b : BusResult} {j : Nat} (hj : j ≤ 6)
    (hown : ∀ t ∈ ts, turnCtx t = some r.ctx) (hb : s.bus :: ts.map turnBus = List.replicate j .ok ++ [b])
    (rest : List Turn) :
    ∃ fs u, s.DrainsTo r j fs u ∧ u.bus = b ∧
      State.drive callOpen (eagerCall .onReceiveComplete) (ts ++ rest) (eagerCall .onReceiveComplete s) =
        State.drive callOpen (eagerCall .onReceiveComplete) rest (eagerCall .onReceiveComplete u) := by
  induction j generalizing ts b rest with
  | zero =>
    obtain ⟨hbus, hnil⟩ := List.cons.inj hb
    obtain rfl := List.map_eq_nil_iff.1 hnil
    exact ⟨[], s, .start h, hbus, rfl⟩
  | succ j ih =>
    obtain rfl | ⟨ts, t, rfl⟩ := ts.eq_nil_or_concat
    · exact absurd (congrArg List.length hb) (by simp)
    · rw [List.concat_eq_append] at hown hb ⊢
      rw [List.map_append, List.replicate_succ', ← List.cons_append] at hb
      obtain ⟨hinit, hlast⟩ := List.append_inj' hb rfl
      obtain ⟨fs, u, hu, hub, hdrive⟩ :=
        ih (by omega) (fun x hx => hown x (List.mem_append_left _ hx)) hinit (t :: rest)
      obtain ⟨gs, v, hv, hvb, hstep⟩ := hu.next (by omega) hub h hn hlora hsub hret (hown t (by simp)) rest
      refine ⟨gs, v, hv, hvb.trans (List.cons.inj hlast).1, ?_⟩
      rw [List.append_assoc]
      exact hdrive.trans hstep

/-- The frame at which the call ends, with the events `evs` of the actions after it. -/
theorem ends {s u : State} {r : Run} {j : Nat} {fs : List Frame} (h : s.DrainsTo r j fs u) (hsub : r.loc.sub = 0)
    {x : Ret} {out : List Byte} {inp : Option (List Byte)} {d : Chip} {evs : List Event}
    (hd : Chip.OnlyPointer s.chip d)
    (hw : callWhole .onReceiveComplete j u =
      .done x { u.frameDone r.ctx out inp d with events := s.events ++ evs }) :
    eagerCall .onReceiveComplete u =
      { s.ran r (fs ++ [{ ctx := r.ctx, out := out, inp := inp }]) d (s.edgePending || (d.dio0 && !s.lineLast)) u.bus
          ((s.chip.drainLocals r.loc j).handed x) with events := s.events ++ evs } := by
  rw [← s.chip.drainLocals_sub hsub j, ← h.loc] at hw
  refine (State.callOnce_done _ _ _ _ hw).trans ?_
  rw [h.frame _ _ d hd]
  rfl

end State.DrainsTo

/-- onReceiveComplete over own turns up to the frame at which it ends. -/
theorem exec_onReceiveComplete {s u v : State} {r : Run} {ts rest : List Turn} (h : s.CanFrame r)
    (hgot : r.loc.got = none) (hret : r.loc.ret = none) (hs : s.schedule = ts ++ rest)
    (hdrive : State.drive callOpen (eagerCall .onReceiveComplete) (ts ++ rest) (eagerCall .onReceiveComplete s) =
      State.drive callOpen (eagerCall .onReceiveComplete) rest (eagerCall .onReceiveComplete u))
    (hv : eagerCall .onReceiveComplete u = v) (hend : v.loc.ret ≠ none) :
    exec .onReceiveComplete s = .next { v with schedule := rest } := by
  have hset : s.Settled := by
    unfold State.Settled
    rw [s.loc_of_run r h.1]
    exact ⟨hgot, hret⟩
  refine congrArg Host.Outcome.next (runCall_eq_of_eager _ s _ (by rw [h.1]; nofun) hset ?_ hend)
  rw [hs, hdrive, hv, State.drive_stop _ _ _ _ (decide_eq_false hend)]

/-- Settles O36: `State.DrainsTo.reach` up to the last frame, completed or failed. -/
theorem onReceiveCompleteDrains : Obligations.OnReceiveCompleteDrains := by
  intro s r ts rest x n data outs h hn hsub hgot hret hlora hs hown hx hlen hdata houts
  subst hx hlen hdata
  obtain rfl : outs = (List.range 7).map s.chip.drainOut := houts
  refine ⟨fun hb => ?_, fun j k hj hb => ?_⟩
  · obtain ⟨fs, u, hu, hub, hdrive⟩ :=
      State.DrainsTo.reach (j := 6) (b := .ok) h hn hlora hsub hret le_rfl hown hb rest
    obtain ⟨inp, d, hf, hd, hptr⟩ := hu.completes le_rfl hub hlora
    have hw : callWhole .onReceiveComplete 6 u = .done (.bytes [])
        { u.frameDone r.ctx (s.chip.drainOut 6) (some inp) d with
          events := s.events ++ [.received s.chip.receivedMessage] } := by
      show (onReceiveCompleteFrame 6 u).act (onReceiveCompleteAct 6) = _
      rw [hf, ← hu.events]
      exact onReceiveCompleteAct_done s.chip r.loc hu.loc
    have hexec := exec_onReceiveComplete h hgot hret hs hdrive (hu.ends hsub hd hw) nofun
    rw [hub] at hexec
    exact ⟨d, _, _, hexec, rfl, rfl, hu.outs.append (FramesOut.one r.ctx _ inp), hptr, hd.regs, hd.fifo, hd.radio⟩
  · obtain ⟨fs, u, hu, hub, hdrive⟩ := State.DrainsTo.reach h hn hlora hsub hret hj hown hb rest
    obtain ⟨p, a, d, hpa, hf, hd⟩ := hu.fails hj hub
    have hw : callWhole .onReceiveComplete j u = .done (.err (.transport p a))
        { u.frameDone r.ctx (s.chip.drainOut j) none d with events := s.events ++ [] } := by
      show (onReceiveCompleteFrame j u).act (onReceiveCompleteAct j) = _
      rw [hf, List.append_nil, ← hu.events]
      rfl
    have hexec := exec_onReceiveComplete h hgot hret hs hdrive (hu.ends hsub hd hw) nofun
    rw [hub, List.append_nil] at hexec
    have hframes : ∀ i ≤ 6, [(Primitive.readByte, (0x10 : Byte)), (.writeByte, 0x0D), (.readByte, 0x13),
        (.readBlock, 0x00), (.readByte, 0x1B), (.readByte, 0x19), (.readByte, 0x1A)][i]? =
        frameOf .onReceiveComplete i := by decide
    refine ⟨d, fs, { ctx := r.ctx, out := s.chip.drainOut j, inp := none },
      (s.chip.drainLocals r.loc j).handed (.err (.transport p a)), p, a, hexec.trans ?_, rfl, rfl,
      (hframes j hj).trans hpa, ?_, ?_, rfl, rfl, hd.regs, hd.fifo, hd.radio⟩
    · simp only [State.ran, List.append_assoc]
    · rw [← List.map_take, List.take_range, Nat.min_eq_left (by omega)]
      exact hu.outs
    · rw [List.getElem?_map, List.getElem?_range (by omega)]
      rfl

/-- Settles O37: the bytes taken and the bytes dropped are the packet again. -/
theorem splitPacket_eq_take_drop : Obligations.SplitPacket := by
  intro data
  exact ⟨rfl, fun n => ⟨data.take n, rfl, rfl, List.take_append_drop n data⟩⟩

end Sys2Proof.Machine
end

section
/-! SUPPORT. The frames of SEND, one own turn each (R230), then O32, O33 and O31. -/

namespace Sys2Proof.Machine

/-- Settles O32: `txBusy` is looked at under the lock, before any frame (R231). -/
theorem sendWhileBusy : Obligations.SendWhileBusy := by
  intro s addr pay hrd hinit hbusy hl
  simp only [exec, execSend, State.acquire_of_free s _ _ hl, hrd, hinit, hbusy, hl, Bool.not_true, Bool.false_eq_true,
    if_false, if_true, State.release, State.returnResult, State.edgeSample]

/-! ### The chip under SEND's frames -/

/-- The register `q` holds `v`, and nothing else of the chip's memories and radio has changed. -/
structure Chip.Stored (q : Reg) (v : Byte) (c d : Chip) : Prop where
  value : d.reg q = v
  regs : Chip.RegsKept [q] c d
  fifo : Chip.FifoKept c d
  radio : Chip.RadioKept c d

/-- A register that stores what is written in whatever mode (R77). -/
def plainReg (q : Reg) : Bool := storageReg q && !sleepOnlyReg q

/-- writeByte on such a register (R152, R77). -/
theorem exec_writeByte_stores {s : State} {r : Run} {q : Reg} (v : Byte) (h : s.CanFrame r) (hb : s.bus = .ok)
    (hq : plainReg q = true) :
    ∃ inp d, exec (.writeByte (regAddr q) v) s =
        .next (s.afterCall r [0x80 ||| regAddr q, v] (some inp) d (.bytes [])) ∧ Chip.Stored q v s.chip d := by
  have hstores : s.chip.Stores q := by
    simp only [plainReg, Bool.and_eq_true, Bool.not_eq_true'] at hq
    exact ⟨hq.1, fun hs => absurd hs (by rw [hq.2]; decide)⟩
  have hfifo : q ≠ .fifo := by rintro rfl; cases hq
  have hmode : q ≠ .opMode := by rintro rfl; cases hq
  obtain ⟨i0, i1, d, he, hair, -, hregs, hcells, htx, -, -, hval, -⟩ := writeByteWritesTheRegister s r q v h hb
  exact ⟨_, d, he, hval hstores, hregs hfifo, hcells hfifo hmode, htx hmode, hair⟩

/-- The packet stands in the FIFO from offset 0, its last 256 bytes where it is longer, the pointer behind it, and the
chip is otherwise `c` with the transmit base set (R230 steps 2 and 3). -/
structure Chip.Staged (pkt : List Byte) (c d : Chip) : Prop where
  cells : ∀ k, k < pkt.length → pkt.length ≤ k + 256 → some (d.fifoCell (BitVec.ofNat 8 k)) = pkt[k]?
  others : ∀ i : Byte, pkt.length ≤ i.toNat → d.fifoCell i = c.fifoCell i
  base : d.reg .fifoTxBaseAddr = 0x00
  ptr : d.reg .fifoAddrPtr = BitVec.ofNat 8 pkt.length
  regs : Chip.RegsKept [.fifoTxBaseAddr, .fifoAddrPtr] c d
  radio : Chip.RadioKept c d

/-- Staging does not move the line (R45). -/
theorem Chip.Staged.dio0 {pkt : List Byte} {c d : Chip} (h : Chip.Staged pkt c d) : d.dio0 = c.dio0 :=
  Chip.dio0_kept h.regs (by decide) (by decide)

/-- Base and pointer set, nothing of a packet written yet. -/
theorem Chip.Stored.staged {c c1 c2 : Chip} (h : Chip.Stored .fifoTxBaseAddr 0x00 c c1)
    (g : Chip.Stored .fifoAddrPtr 0x00 c1 c2) : Chip.Staged [] c c2 where
  cells := nofun
  others i _ := h.fifo.trans g.fifo i
  base := (g.regs.reg _ (by decide)).trans h.value
  ptr := g.value
  regs := (h.regs.mono (by decide)).trans (g.regs.mono (by decide))
  radio := h.radio.trans g.radio

/-- The burst of the packet, from the set pointer (R230 step 3). -/
theorem exec_writeBlock_stages {s : State} {r : Run} {c : Chip} (pkt : List Byte) (h : s.CanFrame r) (hb : s.bus = .ok)
    (hc : Chip.Staged [] c s.chip) :
    ∃ inp d, exec (.writeBlock 0x00 pkt) s = .next (s.afterCall r (0x80 :: pkt) (some inp) d (.bytes [])) ∧
      Chip.Staged pkt c d := by
  obtain ⟨inp, d, he, -, hcells, hothers, hptr', hregs, hradio⟩ := writeBlockFillsTheFifo s r pkt h hb
  have hptr : ∀ x, s.chip.reg .fifoAddrPtr + x = x := fun x => by rw [hc.ptr]; exact BitVec.zero_add x
  simp only [hptr] at hcells hothers hptr'
  refine ⟨inp, d, he, hcells, fun i hi => ?_, (hregs.reg _ (by decide)).trans hc.base, hptr',
    hc.regs.trans (hregs.mono (by decide)), hc.radio.trans hradio⟩
  refine (hothers i fun k hk e => ?_).trans (hc.others i (Nat.zero_le _))
  have := congrArg BitVec.toNat e
  rw [BitVec.toNat_ofNat] at this
  omega

/-- What a write of Transmit captures: as many cells as PayloadLength says, from the transmit base on (R283). -/
def Chip.Captures (c : Chip) (pkt : List Byte) : Prop :=
  pkt.length = (c.reg .payloadLength).toNat ∧
    ∀ k, k < pkt.length → pkt[k]? = some (c.fifoCell (c.reg .fifoTxBaseAddr + BitVec.ofNat 8 k))

/-- Capturing looks at the FIFO and two registers alone. -/
theorem Chip.Captures.of_stored {q : Reg} {v : Byte} {c d : Chip} {pkt : List Byte} (h : d.Captures pkt)
    (hd : Chip.Stored q v c d) (hlen : q ≠ .payloadLength) (hbase : q ≠ .fifoTxBaseAddr) : c.Captures pkt := by
  obtain ⟨hl, hcells⟩ := h
  rw [hd.regs.reg .payloadLength (by simpa using hlen.symm)] at hl
  refine ⟨hl, fun k hk => ?_⟩
  rw [hcells k hk, hd.fifo, hd.regs.reg .fifoTxBaseAddr (by simpa using hbase.symm)]

/-- With its length set, the staged packet is what is captured (R230, R283). -/
theorem Chip.Staged.captures_eq {pkt p : List Byte} {c d e : Chip} (h : Chip.Staged pkt c d)
    (he : Chip.Stored .payloadLength (BitVec.ofNat 8 pkt.length) d e) (hlen : pkt.length ≤ 255) (hp : e.Captures p) :
    p = pkt := by
  obtain ⟨hl, hcells⟩ := hp
  have hbase : e.reg .fifoTxBaseAddr = 0x00 := (he.regs.reg _ (by decide)).trans h.base
  have hadd : ∀ x, e.reg .fifoTxBaseAddr + x = x := fun x => by rw [hbase]; exact BitVec.zero_add x
  rw [he.value, BitVec.toNat_ofNat, Nat.mod_eq_of_lt (by omega)] at hl
  refine List.ext_getElem? fun k => ?_
  by_cases hk : k < p.length
  · rw [hcells k hk, hadd, he.fifo, h.cells k (by omega) (by omega)]
  · rw [List.getElem?_eq_none (by omega), List.getElem?_eq_none (by omega)]

/-! ### SEND frame by frame -/

/-- SEND at the position `k`, with no frame pending (R39). -/
def sendRun (addr : Option (List Byte)) (pay : List Byte) (k : Nat) : Run := ⟨.app, .send addr pay, k, Locals.fresh⟩

/-- From `s`, where SEND is at its start, its first frame and `k` further own turns have issued the frames `outs` and led
the chip to `c`, the line at one level throughout. -/
def State.Sends (s : State) (addr : Option (List Byte)) (pay : List Byte) (k : Nat) (outs : List (List Byte))
    (c : Chip) : Prop :=
  ∃ fs, FramesOut .app fs outs ∧
    State.Goes (List.replicate k (.app .ok)) (eagerStep s) (s.after (sendRun addr pay (k + 1)) fs c)

section
variable {s : State} {addr : Option (List Byte)} {pay : List Byte} (h : s.CanFrame (sendRun addr pay 0))
  (hb : s.bus = .ok)
include h hb

/-- The first frame, the write of the transmit base (R230). -/
theorem State.Sends.start : ∃ c, s.Sends addr pay 0 [[0x8E, 0x00]] c ∧ Chip.Stored .fifoTxBaseAddr 0x00 s.chip c := by
  obtain ⟨inp, c, he, hc⟩ := exec_writeByte_stores (q := .fifoTxBaseAddr) 0x00 h hb rfl
  have hstep := eagerStep_moves (k := 1) h.1 rfl rfl he fun t => rfl
  exact ⟨c, ⟨_, FramesOut.one .app _ inp, hstep ▸ State.Goes.refl _⟩, hc⟩

/-- A further frame that completes, after which SEND moves on. -/
theorem State.Sends.moves {k : Nat} {outs : List (List Byte)} {c : Chip} {i : Instr} {out : List Byte}
    {P : Chip → Prop} (hs : s.Sends addr pay k outs c) (hn : s.refused = none) (hi : sendCallAt addr pay (k + 1) = i)
    (ho : oneFrame i = true) (hret : ∀ t, sendReturn addr pay (k + 1) (.bytes []) t = t.goTo (k + 2))
    (he : ∀ u : State, u.CanFrame (sendRun addr pay (k + 1)) → u.bus = .ok → u.chip = c → ∃ inp d,
      exec i u = .next (u.afterCall (sendRun addr pay (k + 1)) out (some inp) d (.bytes [])) ∧ P d)
    (hline : ∀ d, P d → d.dio0 = c.dio0) :
    ∃ d, s.Sends addr pay (k + 1) (outs ++ [out]) d ∧ P d := by
  obtain ⟨fs, hout, hgo⟩ := hs
  have hcan := s.after_canFrame h (sendRun addr pay (k + 1)) rfl fs c
  obtain ⟨inp, d, hexec, hd⟩ := he _ hcan hb rfl
  have hgo' := State.Goes.moves (t := .app .ok) (k + 2) hcan hb hn ⟨rfl, rfl⟩ hi ho hexec hret (hline d hd)
  refine ⟨d, ⟨_, hout.append (FramesOut.one .app out inp), ?_⟩, hd⟩
  rw [List.replicate_succ']
  exact hgo.trans hgo'

/-- A further write of a register that does not move the line (R152). -/
theorem State.Sends.writes {k : Nat} {outs : List (List Byte)} {c : Chip} (q : Reg) (v : Byte)
    (hs : s.Sends addr pay k outs c) (hn : s.refused = none)
    (hi : sendCallAt addr pay (k + 1) = .writeByte (regAddr q) v)
    (hret : ∀ t, sendReturn addr pay (k + 1) (.bytes []) t = t.goTo (k + 2)) (hq : plainReg q = true)
    (hdio : q ≠ .dioMapping1) :
    ∃ d, s.Sends addr pay (k + 1) (outs ++ [[0x80 ||| regAddr q, v]]) d ∧ Chip.Stored q v c d := by
  have hirq : q ≠ .irqFlags := by rintro rfl; cases hq
  refine hs.moves h hb hn hi rfl hret (fun u hu hub hc => ?_) fun d hd => ?_
  · exact hc ▸ exec_writeByte_stores v hu hub hq
  · exact Chip.dio0_kept hd.regs (by simpa using hdio.symm) (by simpa using hirq.symm)

/-- The base and the pointer are set: two frames (R230 step 2). -/
theorem State.Sends.points (hn : s.refused = none) :
    ∃ c, s.Sends addr pay 1 [[0x8E, 0x00], [0x8D, 0x00]] c ∧ Chip.Staged [] s.chip c := by
  obtain ⟨c, hs, hc⟩ := State.Sends.start h hb
  obtain ⟨d, hs', hd⟩ := hs.writes h hb .fifoAddrPtr 0x00 hn rfl (fun t => rfl) rfl (by decide)
  exact ⟨d, hs', hc.staged hd⟩

/-- The packet of at most 255 bytes is staged and its length set: four frames (R230 steps 2 to 4). -/
theorem State.Sends.stages (hn : s.refused = none) (hlen : (packetBytes addr pay).length ≤ 255) :
    ∃ c d, s.Sends addr pay 3 [[0x8E, 0x00], [0x8D, 0x00], 0x80 :: packetBytes addr pay,
        [0xA2, BitVec.ofNat 8 (packetBytes addr pay).length]] d ∧ Chip.Staged (packetBytes addr pay) s.chip c ∧
      Chip.Stored .payloadLength (BitVec.ofNat 8 (packetBytes addr pay).length) c d := by
  obtain ⟨c0, hs0, hc0⟩ := State.Sends.points h hb hn
  have hret : ∀ t, sendReturn addr pay 2 (.bytes []) t = t.goTo 3 := fun t => if_neg (Nat.not_lt.2 hlen)
  obtain ⟨c, hs, hc⟩ := hs0.moves (P := Chip.Staged (packetBytes addr pay) s.chip) h hb hn rfl rfl hret
    (fun u hu hub hchip => exec_writeBlock_stages _ hu hub (hchip ▸ hc0)) fun d hd => hd.dio0.trans hc0.dio0.symm
  obtain ⟨d, hs', hd⟩ := hs.writes h hb .payloadLength _ hn rfl (fun t => rfl) rfl (by decide)
  exact ⟨c, d, hs', hc, hd⟩

end

/-! ### The end of SEND -/

/-- `s` when the SEND that runs in it ends with the result `x` after the frames `fs` (R230, R232). -/
def State.sendEnded (s : State) (fs : List Frame) (d : Chip) (x : HostResult) : State :=
  { s with chip := d, cs := false, busTrace := s.busTrace ++ fs,
           edgePending := s.edgePending || (d.dio0 && !s.lineLast), lineLast := d.dio0, lock := none, run := none,
           results := s.results ++ [x] }

/-- The burst of a packet longer than 255 bytes ends SEND (R232). -/
theorem send_tooLong_ends {s : State} {addr : Option (List Byte)} {pay : List Byte} {c : Chip}
    (h : s.CanFrame (sendRun addr pay 2)) (hb : s.bus = .ok) (hlen : 255 < (packetBytes addr pay).length)
    (hc : Chip.Staged [] c s.chip) :
    ∃ inp d, eagerStep s = s.sendEnded [{ ctx := .app, out := 0x80 :: packetBytes addr pay, inp := some inp }] d
        (.error (.argument .length)) ∧ Chip.Staged (packetBytes addr pay) c d := by
  obtain ⟨inp, d, he, hd⟩ := exec_writeBlock_stages (packetBytes addr pay) h hb hc
  exact ⟨inp, d, (eagerStep_exec h.1 rfl rfl he).trans (if_pos hlen), hd⟩

/-- The write of Transmit ends SEND: the packet is captured, `txBusy` and the shadow are set (R230 step 6, R283). -/
theorem send_transmits {s : State} {addr : Option (List Byte)} {pay : List Byte} (h : s.CanFrame (sendRun addr pay 5))
    (hb : s.bus = .ok) :
    ∃ inp d, eagerStep s = State.sendEnded { s with mode := some .transmit, txBusy := true }
        [{ ctx := .app, out := [0x81, 0x83], inp := some inp }] d .ok ∧
      d.reg .opMode = 0x83 ∧ Chip.RegsKept [.opMode] s.chip d ∧ Chip.FifoKept s.chip d ∧ d.air = s.chip.air ∧
      ∃ pkt, d.txPkt = some pkt ∧ s.chip.Captures pkt := by
  obtain ⟨i0, i1, d, he, hmode, hregs, hair, hfifo, -, hpkt⟩ := (setModeWritesAndShadows s _ .transmit h).1 hb
  exact ⟨_, d, eagerStep_exec h.1 rfl rfl he, hmode, hregs, hfifo (by decide), hair, hpkt rfl⟩

/-- SEND's guards hold, so it comes to its first frame. -/
theorem startsFrames_send {s : State} (addr : Option (List Byte)) (pay : List Byte) (hrd : s.resetDone = true)
    (hinit : s.initialised = true) (hbusy : s.txBusy = false) : startsFrames (.send addr pay) s = true := by
  simp only [startsFrames, hrd, hinit, hbusy, Bool.not_false, Bool.and_self]

/-- Settles O33: the base, the pointer, and the burst, which ends SEND. -/
theorem sendTooLong : Obligations.SendTooLong := by
  intro s addr pay pkt rest hrd hinit hbusy hl hn hb hs hpkt hlen
  obtain rfl : pkt = packetBytes addr pay := hpkt
  obtain ⟨c, ⟨fs, hout, hgo⟩, hc⟩ := State.Sends.points (s.started_canFrame (.send addr pay) hrd) hb hn
  have hcan := State.after_canFrame (s.started_canFrame (.send addr pay) hrd) (sendRun addr pay 2) rfl fs c
  obtain ⟨inp, d, hend, hd⟩ := send_tooLong_ends hcan hb hlen hc
  have hlast := State.Goes.one (t := .app .ok) hcan.1 hb hn ⟨rfl, rfl⟩
  rw [hend] at hlast
  have hexec := exec_completes (startsFrames_send addr pay hrd hinit hbusy) hl hs (hgo.trans hlast) rfl
  have hline : d.dio0 = c.dio0 := hd.dio0.trans hc.dio0.symm
  refine ⟨d, _, hexec.trans ?_, hout.append (FramesOut.one .app _ inp), hd.cells, hd.base, hd.ptr, hd.regs, hd.radio⟩
  simp only [State.sendEnded, State.after, State.ran, State.started, hline, hl, edge_const, List.append_assoc]

/-- SEND's last two frames, DIO0 mapped to TxDone and the write of Transmit (R230 steps 5 and 6). -/
theorem send_maps_transmits {s : State} {addr : Option (List Byte)} {pay : List Byte}
    (h : s.CanFrame (sendRun addr pay 4)) (hb : s.bus = .ok) (hn : s.refused = none) :
    ∃ fs d, State.Goes [.app .ok, .app .ok] s
        (State.sendEnded { s with mode := some .transmit, txBusy := true } fs d .ok) ∧
      FramesOut .app fs [[0xC0, 0x40], [0x81, 0x83]] ∧ d.reg .dioMapping1 = 0x40 ∧ d.reg .opMode = 0x83 ∧
      Chip.RegsKept [.dioMapping1, .opMode] s.chip d ∧ Chip.FifoKept s.chip d ∧ d.air = s.chip.air ∧
      ∃ pkt, d.txPkt = some pkt ∧ s.chip.Captures pkt := by
  obtain ⟨inp, c, he, hc⟩ := exec_writeByte_stores (q := .dioMapping1) 0x40 h hb rfl
  have hmap := State.Goes.one (t := .app .ok) h.1 hb hn ⟨rfl, rfl⟩
  rw [eagerStep_moves (k := 5) h.1 rfl rfl he fun t => rfl] at hmap
  have hcan := s.after_canFrame h (sendRun addr pay 5) rfl
    [{ ctx := .app, out := [0xC0, 0x40], inp := some inp }] c
  obtain ⟨inp', d, hend, hmode, hregs, hfifo, hair, pkt, htx, hpkt⟩ := send_transmits hcan hb
  have hlast := State.Goes.one (t := .app .ok) hcan.1 hb hn ⟨rfl, rfl⟩
  have hline : d.dio0 = c.dio0 := Chip.dio0_kept hregs (by decide) (by decide)
  have hgo : State.Goes [.app .ok, .app .ok] s _ := hmap.trans (hend ▸ hlast)
  refine ⟨_, d, ?_, (FramesOut.one .app _ inp).append (FramesOut.one .app _ inp'),
    (hregs.reg _ (by decide)).trans hc.value, hmode, (hc.regs.mono (by decide)).trans (hregs.mono (by decide)),
    hc.fifo.trans hfifo, hair.trans hc.radio.2, pkt, htx, hpkt.of_stored hc (by decide) (by decide)⟩
  simpa only [State.sendEnded, State.after, State.ran, hline, edge_const, List.append_assoc] using hgo

/-- Settles O31: the packet is staged and its length set, then DIO0 is mapped to TxDone and Transmit written. -/
theorem sendCompletes : Obligations.SendCompletes := by
  intro s addr pay pkt rest hrd hinit hbusy hl hn hb hs hpkt hlen
  obtain rfl : pkt = packetBytes addr pay := hpkt
  obtain ⟨c, c', ⟨fs, hout, hgo⟩, hc, hc'⟩ := State.Sends.stages (s.started_canFrame (.send addr pay) hrd) hb hn hlen
  have hcan := State.after_canFrame (s.started_canFrame (.send addr pay) hrd) (sendRun addr pay 4) rfl fs c'
  obtain ⟨gs, d, hgo', hout', hdio, hmode, hregs, hfifo, hair, p, htx, hp⟩ := send_maps_transmits hcan hb hn
  have hexec := exec_completes (startsFrames_send addr pay hrd hinit hbusy) hl hs (hgo.trans hgo') rfl
  have hline : c'.dio0 = s.chip.dio0 := (Chip.dio0_kept hc'.regs (by decide) (by decide)).trans hc.dio0
  have hkept : Chip.RegsKept [.payloadLength, .dioMapping1, .opMode] c d :=
    (hc'.regs.mono (by decide)).trans (hregs.mono (by decide))
  have hcells : ∀ i, d.fifoCell i = c.fifoCell i := hc'.fifo.trans hfifo
  obtain rfl : p = packetBytes addr pay := hc.captures_eq hc' hlen hp
  refine ⟨d, fs ++ gs, hexec.trans ?_, hout.append hout', htx, (hair.trans hc'.radio.2).trans hc.radio.2,
    fun k hk => (congrArg some (hcells _)).trans (hc.cells k hk (by omega)),
    fun i hi => (hcells i).trans (hc.others i hi), (hkept.reg _ (by decide)).trans hc.base,
    (hkept.reg _ (by decide)).trans hc.ptr, (hregs.reg _ (by decide)).trans hc'.value, hdio, hmode,
    (hc.regs.mono (by decide)).trans (hkept.mono (by decide))⟩
  simp only [State.sendEnded, State.after, State.ran, State.started, hline, hl, List.append_assoc]

end Sys2Proof.Machine
end

section
/-! SUPPORT. The decode table of the host port (R251), then O2; a port command on the App context's turn, O6; and the
chip at the reset values (R48, R311), then O46. -/

namespace Sys2Proof.Machine

/-! ### The decode table -/

/-- Two bit vectors put together, as a number: the first is the upper part. -/
theorem toNat_append_eq_mul_add {m n : Nat} (x : BitVec m) (y : BitVec n) :
    (x ++ y).toNat = x.toNat * 2 ^ n + y.toNat := by
  rw [BitVec.toNat_append, ← Nat.shiftLeft_add_eq_or_of_lt y.isLt, Nat.shiftLeft_eq]

/-- The four bytes of a 32-bit operand as a number, most significant first (R125). -/
theorem joinBytes_eq_ofNat (h3 h2 h1 h0 : Byte) :
    joinBytes h3 h2 h1 h0 =
      BitVec.ofNat 32 (h3.toNat * 2 ^ 24 + h2.toNat * 2 ^ 16 + h1.toNat * 2 ^ 8 + h0.toNat) := by
  have hnat : (joinBytes h3 h2 h1 h0).toNat =
      h3.toNat * 2 ^ 24 + h2.toNat * 2 ^ 16 + h1.toNat * 2 ^ 8 + h0.toNat := by
    unfold joinBytes
    simp only [toNat_append_eq_mul_add]
    omega
  rw [← hnat, BitVec.ofNat_toNat, BitVec.setWidth_eq]

/-- A frequency and an opts byte with its reserved bits clear are INIT (R125). -/
theorem decodeHost_init (h3 h2 h1 h0 : Byte) {o : Byte} (ho : o &&& 0xFC = 0) :
    decodeHost [0x02, h3, h2, h1, h0, o] = .ok (.init (joinBytes h3 h2 h1 h0) (o.getLsbD 0) (o.getLsbD 1)) :=
  if_pos ho

/-- A command whose opcode is none of the four is refused as unknown, whatever follows it (R251). -/
theorem decodeHost_unknown {op : Byte} (rest : List Byte) (h1 : op ≠ 0x01) (h2 : op ≠ 0x02) (h3 : op ≠ 0x03)
    (h4 : op ≠ 0x04) : decodeHost (op :: rest) = .error .unknownCommand := by
  unfold decodeHost
  dsimp only
  rw [if_neg h1, if_neg h2, if_neg h3, if_neg h4]

/-- Why a command is refused (R251): it is malformed, or its opcode is none of the four. -/
theorem decodeHost_error_cases {c : List Byte} {e : DecodeError} (h : decodeHost c = .error e) :
    e = .malformedCommand ∨
    ∃ op rest, c = op :: rest ∧ op ≠ 0x01 ∧ op ≠ 0x02 ∧ op ≠ 0x03 ∧ op ≠ 0x04 := by
  unfold decodeHost at h
  repeat' split at h
  all_goals cases h
  any_goals exact .inl rfl
  exact .inr ⟨_, _, rfl, by assumption, by assumption, by assumption, by assumption⟩

/-- A command of the four opcodes that none of the accepted forms fits is malformed (R251). -/
theorem decodeHost_malformed {c : List Byte}
    (hop : ∀ op rest, c = op :: rest → op = 0x01 ∨ op = 0x02 ∨ op = 0x03 ∨ op = 0x04)
    (hok : ∀ i, decodeHost c ≠ .ok i) : decodeHost c = .error .malformedCommand := by
  cases hd : decodeHost c with
  | ok i => exact absurd hd (hok i)
  | error e =>
    obtain rfl | ⟨op, rest, rfl, h1, h2, h3, h4⟩ := decodeHost_error_cases hd
    · rfl
    · rcases hop op rest rfl with h | h | h | h
      exacts [absurd h h1, absurd h h2, absurd h h3, absurd h h4]

/-- Settles O2: the accepted forms one by one, and what is left is refused. -/
theorem hostDecodeTable : Obligations.HostDecodeTable := by
  refine ⟨rfl, ?init, ?send, fun _ _ => rfl, fun _ rest => decodeHost_unknown rest, ?malformed⟩
  case init => exact fun h3 h2 h1 h0 o ho => joinBytes_eq_ofNat h3 h2 h1 h0 ▸ decodeHost_init h3 h2 h1 h0 ho
  case send => exact fun A P rest hl => if_pos hl
  case malformed =>
    intro c hop hreset hinit hsend hdump
    refine decodeHost_malformed hop fun i hd => ?_
    rcases decodeHost_cases hd with ⟨hc, -⟩ | ⟨h3, h2, h1, h0, o, hc, ho, -⟩ | ⟨p, body, hc, hl, -⟩ |
      ⟨a, p, body, -, hc, hl, -⟩ | ⟨x, y, hc, -⟩
    · exact hreset hc
    · exact hinit h3 h2 h1 h0 o hc ho
    · exact hsend 0x00 p body hc (hl.trans (Nat.zero_add _).symm)
    · exact hsend a p body hc hl
    · exact hdump x y hc

/-! ### A command on its turn -/

/-- The App context's turn with nothing running and the lock free runs the command that stands at the head of the port
(R250, R292). -/
theorem step_runs_command {s : State} {b : BusResult} {ts : List Turn} {c : List Byte} {rest : List (List Byte)}
    {i : Instr} (hn : s.refused = none) (hs : s.schedule = .app b :: ts) (hr : s.run = none) (hl : s.lock = none)
    (hp : s.port = c :: rest) (hd : decodeHost c = .ok i) :
    step s = exec i { s with schedule := ts, bus := b, port := rest } := by
  let t : State := { s with schedule := ts, bus := b }
  have hidle : ∀ r, t.run = some r → r.ctx = .irq := fun r h => by cases hr.symm.trans h
  calc
    step s = t.appTurn := step_turn s (.app b) ts hn hs
    _ = t.hostStep := State.appTurn_host t hidle
    _ = exec i { t with port := rest } := State.hostStep_runs t c rest i hp hd (.inl hl)

/-- Settles O6: the host's turn is the step, and the App context's runs the command it takes. -/
theorem stepRunsPortCommand : Obligations.StepRunsPortCommand :=
  ⟨fun s ts c hn hs => step_turn s (.host c) ts hn hs,
    fun _ _ _ _ _ _ hn hs hr hl hp hd => step_runs_command hn hs hr hl hp hd⟩

/-! ### RESET -/

/-- After a chip reset a register with a reset value of its own holds it (R48, R311). -/
theorem Chip.reset_reg (c : Chip) {q : Reg} {v : Byte} (h : Config.cfg.chipReset q = some v) : c.reset.reg q = v := by
  have hread : chipResetRegs.read (regAddr q).toNat = some v := by
    cases q <;> cases h <;> rfl
  show (chipResetRegs.read (regAddr q).toNat).getD _ = v
  rw [hread, Option.getD_some]

/-- After a chip reset no flag is set, so the line is low (R45, R48). -/
theorem Chip.reset_dio0 (c : Chip) : c.reset.dio0 = false := Chip.dio0_of_no_flags (c.reset_reg rfl)

/-- RESET with the lock free (R252): the chip reset, the block's flags, the result, and a low sample that latches no
edge. -/
theorem exec_reset_of_free {s : State} (hl : s.lock = none) :
    exec .reset s = .next
      { s with chip := s.chip.reset, resetLine := .high, resetDone := true, initialised := false, mode := none,
               txBusy := false, run := none, results := s.results ++ [.ok], lineLast := false } := by
  show execReset s = _
  unfold execReset
  rw [State.acquire_of_free s _ _ hl]
  simp only [resetSequence, State.release, State.returnResult, State.edgeSample, Chip.reset_dio0, Bool.false_and,
    Bool.or_false, hl]

/-- Settles O46: the chip is the reset one, and its registers hold the reset values. -/
theorem resetCommand : Obligations.ResetCommand := by
  intro s hl
  refine ⟨s.chip.reset, exec_reset_of_free hl, rfl, rfl, s.chip.reset_dio0, ?_⟩
  and_intros <;> exact s.chip.reset_reg rfl

end Sys2Proof.Machine
end

section
/-! SUPPORT. The chip's noise (O54), and that a chip event only raises flags under an unchanged mapping, so that it
lowers no line that is high, then O55. -/

namespace Sys2Proof.Machine

/-! ### The chip's noise -/

/-- Enabled in ReceiveContinuous (R285). -/
theorem Chip.event_noiseFlags {c : Chip} (v : Byte) (h : c.reg .opMode &&& 0x07 = 0x05) :
    c.event (.noiseFlags v) = some (c.raise (extraFlags v)) := if_pos h

theorem Chip.event_noiseFlags_none {c : Chip} (v : Byte) (h : c.reg .opMode &&& 0x07 ≠ 0x05) :
    c.event (.noiseFlags v) = none := if_neg h

theorem Chip.raise_irqFlags (c : Chip) (e : Byte) :
    (c.raise e).reg .irqFlags = c.reg .irqFlags ||| (e &&& ~~~c.reg .irqFlagsMask) := Chip.reg_setReg_same _ _ _

/-- Settles O54: either choice of the noise writes one register. -/
theorem chipNoise : Obligations.ChipNoise := by
  intro s v
  refine ⟨fun ts e hn hs => step_turn s (.chip e) ts hn hs, ?_, fun hoff => ?_, fun hmode => ?_⟩
  · exact ⟨s.chip.noiseRssi v, State.chipTurn_of_some rfl, Chip.reg_setReg_same _ _ _, Chip.RegsKept.setReg _ _ _,
      Chip.FifoKept.refl _, Chip.RadioKept.refl _⟩
  · exact State.chipTurn_of_none (Chip.event_noiseFlags_none v hoff)
  · exact ⟨s.chip.raise (extraFlags v), State.chipTurn_of_some (Chip.event_noiseFlags v hmode),
      s.chip.raise_irqFlags _, Chip.RegsKept.setReg _ _ _, Chip.FifoKept.refl _, Chip.RadioKept.refl _⟩

/-! ### Flags that only rise keep a high line high -/

/-- `d` maps the line as `c` does and has every flag that `c` has (R45, R281). -/
structure Chip.FlagsGrow (c d : Chip) : Prop where
  mapping : d.reg .dioMapping1 = c.reg .dioMapping1
  flags : ∃ e, d.reg .irqFlags = c.reg .irqFlags ||| e

namespace Chip.FlagsGrow

theorem of_regsKept {l : List Reg} {c d : Chip} (h : Chip.RegsKept l c d) (hmap : Reg.dioMapping1 ∉ l)
    (hflags : Reg.irqFlags ∉ l) : c.FlagsGrow d :=
  ⟨h.reg _ hmap, 0x00, (h.reg _ hflags).trans (by simp)⟩

theorem trans {c d e : Chip} (h : c.FlagsGrow d) (g : d.FlagsGrow e) : c.FlagsGrow e := by
  obtain ⟨x, hx⟩ := h.flags
  obtain ⟨y, hy⟩ := g.flags
  exact ⟨g.mapping.trans h.mapping, x ||| y, by rw [hy, hx, BitVec.or_assoc]⟩

theorem raise (c : Chip) (e : Byte) : c.FlagsGrow (c.raise e) :=
  ⟨(Chip.RegsKept.setReg c .irqFlags _).reg _ (by decide), _, c.raise_irqFlags e⟩

end Chip.FlagsGrow

/-- The level is the flag that the mapping picks, or low (R45). -/
theorem dioLevel_or {m f : Byte} (e : Byte) (h : dioLevel m f = true) : dioLevel m (f ||| e) = true := by
  have hbit : ∀ n, f.getLsbD n = true → (f ||| e).getLsbD n = true := fun n hn => by
    rw [BitVec.getLsbD_or, hn, Bool.true_or]
  revert h
  unfold dioLevel
  split_ifs
  exacts [hbit _, hbit _, hbit _, id]

theorem Chip.FlagsGrow.dio0 {c d : Chip} (h : c.FlagsGrow d) (hc : c.dio0 = true) : d.dio0 = true := by
  obtain ⟨e, he⟩ := h.flags
  unfold Chip.dio0
  rw [h.mapping, he]
  exact dioLevel_or e hc

/-! ### The chip's events -/

theorem Chip.receiveRegs_regsKept (c : Chip) (start n r p q : Byte) :
    Chip.RegsKept [.fifoRxCurrentAddr, .rxNbBytes, .rssiValue, .pktRssiValue, .pktSnrValue] c
      (c.receiveRegs start n r p q) :=
  (((((Chip.RegsKept.refl _ c).set (by decide) start).set (by decide) n).set (by decide) r).set (by decide) p).set
    (by decide) q

/-- Only the block clears flags or maps the line: the chip raises (R281). -/
theorem Chip.event_flagsGrow {c d : Chip} {e : ChipEvent} (h : c.event e = some d) : c.FlagsGrow d := by
  cases e with
  | rx start bytes r p q extra =>
    simp only [Chip.event, Chip.receive] at h
    split at h
    · cases h
      have hregs := (Chip.storeFifo_regsKept _ (bytes.take Config.maxPacket) start c).trans
        (Chip.receiveRegs_regsKept _ start (BitVec.ofNat 8 (bytes.take Config.maxPacket).length) r p q)
      exact (Chip.FlagsGrow.of_regsKept hregs (by decide) (by decide)).trans (.raise _ _)
    · cases h
  | txDone =>
    simp only [Chip.event, Chip.transmitDone] at h
    split at h
    · cases h
    · rename_i pkt _
      split at h
      · cases h
        let sent : Chip := { c with air := c.air ++ [pkt], txPkt := none }
        have hsent : c.FlagsGrow sent := .of_regsKept (l := []) (fun _ _ => rfl) (by decide) (by decide)
        exact (hsent.trans (.raise sent _)).trans
          (.of_regsKept (Chip.RegsKept.setReg _ .opMode _) (by decide) (by decide))
      · cases h
  | noiseRssi v =>
    cases h
    exact .of_regsKept (Chip.RegsKept.setReg c .rssiValue v) (by decide) (by decide)
  | noiseFlags v =>
    simp only [Chip.event, Chip.noiseFlags] at h
    split at h
    · cases h
      exact .raise c _
    · cases h

/-- Where the line was sampled high, a chip's turn shows the edge detector no rise (R190). -/
theorem State.chipTurn_of_high {s : State} (e : ChipEvent) (hline : s.chip.dio0 = true) (hlast : s.lineLast = true) :
    (s.chipTurn e).edgePending = s.edgePending ∧ (s.chipTurn e).chip.dio0 = true ∧
      (s.chipTurn e).lineLast = true := by
  cases hd : s.chip.event e with
  | none => rw [State.chipTurn_of_none hd]; exact ⟨rfl, hline, hlast⟩
  | some d =>
    have hhigh : d.dio0 = true := (Chip.event_flagsGrow hd).dio0 hline
    rw [State.chipTurn_of_some hd]
    exact ⟨by simp [hlast], hhigh, hhigh⟩

/-- Settles O55: the step is the chip's turn, which `State.chipTurn_of_high` describes. -/
theorem noNewEdgeWhileTheLineIsHigh : Obligations.NoNewEdgeWhileTheLineIsHigh := by
  intro s t e ts hs hline hlast hstep
  let u : State := { s with schedule := ts }
  have hturn : step s = .next (u.chipTurn e) := step_turn s (.chip e) ts (step_next s t hstep).1 hs
  obtain rfl : u.chipTurn e = t := Host.Outcome.next.inj (hturn.symm.trans hstep)
  exact State.chipTurn_of_high (s := u) e hline hlast

end Sys2Proof.Machine
end

section
/-! SUPPORT. The machine at power-on: O47 and O56, the invariant's base case beside the step of O57. -/

namespace Sys2Proof.Machine

/-- Settles O47: each field of the state at power-on, as the model writes it. -/
theorem powerOnState : Obligations.PowerOnState := by
  and_intros <;> rfl

/-- No register and no cell has been written at power-on, so both memories are empty. -/
theorem Chip.powerOn_memOk : Chip.powerOn.MemOk := ⟨Memory.wf_nil _, Memory.wf_nil _⟩

/-- Settles O56: the memories are empty, the lock is free with no operation running, the dispatcher is Idle without a
snapshot, and the block is not initialised. -/
theorem invAtReset : Obligations.InvAtReset where
  mem := Chip.powerOn_memOk
  lock := rfl
  disp := ⟨⟨nofun, nofun⟩, fun _ => rfl⟩
  pins := ⟨rfl, rfl⟩
  boot := nofun
  run _ hrun := nomatch hrun

end Sys2Proof.Machine
end
